-- ==== Sys2Proof/Word.lean ====
section
/-! DEFINITION. The words of the manual: bytes, the names it writes in capitals, the small fixed families (lanes, stations,
stands, head groups, counters) with one value for each member, and the plainest arithmetic over them. -/

namespace Sys2Proof

/-- One byte of the line link. -/
abbrev Byte := BitVec 8

/-- The two knife lanes (00_scope.md, Terms). -/
inductive Lane where
  | u | l
  deriving DecidableEq, Repr

/-- The two slitter-scorer stations. -/
inductive Station where
  | a | b
  deriving DecidableEq, Repr

/-- The four head groups of a station (R81). -/
inductive HeadGroup where
  | s1 | s2 | c1 | c2
  deriving DecidableEq, Repr

/-- The working heads of a group: 6 slitters or 10 scorers (R81). -/
def HeadGroup.size : HeadGroup → Nat
  | .s1 => 6 | .s2 => 6 | .c1 => 10 | .c2 => 10

/-- The two encoders (section 1.2). -/
inductive Encoder where
  | belt | feed
  deriving DecidableEq, Repr

/-- The three glue units (section 7.7). -/
inductive GlueUnit where
  | sf1 | sf2 | db
  deriving DecidableEq, Repr

/-- The seven sheet classes, highest priority first (Figure 5-2). -/
inductive SheetClass where
  | brk | joint | defect | transition | unassigned | surplus | good
  deriving DecidableEq, Repr

/-- The rank of a class: 0 is the highest (Figure 5-2), and also its code on the link (R190). -/
def SheetClass.rank : SheetClass → Nat
  | .brk => 0 | .joint => 1 | .defect => 2 | .transition => 3 | .unassigned => 4 | .surplus => 5 | .good => 6

/-- The higher of two classes. -/
def SheetClass.higher (c d : SheetClass) : SheetClass := if d.rank < c.rank then d else c

/-- The eight limiter families in the order of R135. -/
inductive Family where
  | stop | splice | knife | slitter | stacker | bond | demand | lineMax
  deriving DecidableEq, Repr

/-- The place of a family in the order of R135, its code on the link (R190). -/
def Family.code : Family → Nat
  | .stop => 0 | .splice => 1 | .knife => 2 | .slitter => 3 | .stacker => 4 | .bond => 5 | .demand => 6 | .lineMax => 7

/-- The other station. -/
def Station.other : Station → Station
  | .a => .b | .b => .a

/-- The other encoder. -/
def Encoder.other : Encoder → Encoder
  | .belt => .feed | .feed => .belt

/-- One value for each lane. -/
structure PerLane (α : Type) where
  u : α
  l : α
  deriving DecidableEq, Repr

/-- One value for each station. -/
structure PerStation (α : Type) where
  a : α
  b : α
  deriving DecidableEq, Repr

/-- One value for each head group. -/
structure PerGroup (α : Type) where
  s1 : α
  s2 : α
  c1 : α
  c2 : α
  deriving DecidableEq, Repr

/-- One value for each glue unit. -/
structure PerUnit (α : Type) where
  sf1 : α
  sf2 : α
  db : α
  deriving DecidableEq, Repr

/-- One value for each sheet class. -/
structure PerClass (α : Type) where
  brk : α
  joint : α
  defect : α
  transition : α
  unassigned : α
  surplus : α
  good : α
  deriving DecidableEq, Repr

/-- One value for each of the six stand slots. -/
structure Six (α : Type) where
  s0 : α
  s1 : α
  s2 : α
  s3 : α
  s4 : α
  s5 : α
  deriving DecidableEq, Repr

/-- One value for each of the eight counters. -/
structure Eight (α : Type) where
  c0 : α
  c1 : α
  c2 : α
  c3 : α
  c4 : α
  c5 : α
  c6 : α
  c7 : α
  deriving DecidableEq, Repr

variable {α β : Type}

def PerLane.get (p : PerLane α) : Lane → α
  | .u => p.u | .l => p.l

def PerLane.set (p : PerLane α) (i : Lane) (v : α) : PerLane α :=
  match i with
  | .u => { p with u := v }
  | .l => { p with l := v }

def PerStation.get (p : PerStation α) : Station → α
  | .a => p.a | .b => p.b

def PerStation.set (p : PerStation α) (i : Station) (v : α) : PerStation α :=
  match i with
  | .a => { p with a := v }
  | .b => { p with b := v }

def PerGroup.get (p : PerGroup α) : HeadGroup → α
  | .s1 => p.s1 | .s2 => p.s2 | .c1 => p.c1 | .c2 => p.c2

def PerGroup.set (p : PerGroup α) (i : HeadGroup) (v : α) : PerGroup α :=
  match i with
  | .s1 => { p with s1 := v }
  | .s2 => { p with s2 := v }
  | .c1 => { p with c1 := v }
  | .c2 => { p with c2 := v }

def PerGroup.map (f : α → β) (p : PerGroup α) : PerGroup β := ⟨f p.s1, f p.s2, f p.c1, f p.c2⟩

def PerGroup.toList (p : PerGroup α) : List α := [p.s1, p.s2, p.c1, p.c2]

def PerUnit.get (p : PerUnit α) : GlueUnit → α
  | .sf1 => p.sf1 | .sf2 => p.sf2 | .db => p.db

def PerUnit.set (p : PerUnit α) (i : GlueUnit) (v : α) : PerUnit α :=
  match i with
  | .sf1 => { p with sf1 := v }
  | .sf2 => { p with sf2 := v }
  | .db => { p with db := v }

def PerClass.get (p : PerClass α) : SheetClass → α
  | .brk => p.brk | .joint => p.joint | .defect => p.defect | .transition => p.transition
  | .unassigned => p.unassigned | .surplus => p.surplus | .good => p.good

def PerClass.set (p : PerClass α) (i : SheetClass) (v : α) : PerClass α :=
  match i with
  | .brk => { p with brk := v }
  | .joint => { p with joint := v }
  | .defect => { p with defect := v }
  | .transition => { p with transition := v }
  | .unassigned => { p with unassigned := v }
  | .surplus => { p with surplus := v }
  | .good => { p with good := v }

/-- The values in class order (R190). -/
def PerClass.toList (p : PerClass α) : List α :=
  [p.brk, p.joint, p.defect, p.transition, p.unassigned, p.surplus, p.good]

def Six.get (p : Six α) (i : Fin 6) : α :=
  match i with
  | 0 => p.s0 | 1 => p.s1 | 2 => p.s2 | 3 => p.s3 | 4 => p.s4 | 5 => p.s5

def Six.set (p : Six α) (i : Fin 6) (v : α) : Six α :=
  match i with
  | 0 => { p with s0 := v }
  | 1 => { p with s1 := v }
  | 2 => { p with s2 := v }
  | 3 => { p with s3 := v }
  | 4 => { p with s4 := v }
  | 5 => { p with s5 := v }

def Six.replicate (v : α) : Six α := ⟨v, v, v, v, v, v⟩

def Six.toList (p : Six α) : List α := [p.s0, p.s1, p.s2, p.s3, p.s4, p.s5]

/-- The six slot numbers in order. -/
def slots : List (Fin 6) := [0, 1, 2, 3, 4, 5]

def Eight.get (p : Eight α) (i : Fin 8) : α :=
  match i with
  | 0 => p.c0 | 1 => p.c1 | 2 => p.c2 | 3 => p.c3 | 4 => p.c4 | 5 => p.c5 | 6 => p.c6 | 7 => p.c7

def Eight.set (p : Eight α) (i : Fin 8) (v : α) : Eight α :=
  match i with
  | 0 => { p with c0 := v }
  | 1 => { p with c1 := v }
  | 2 => { p with c2 := v }
  | 3 => { p with c3 := v }
  | 4 => { p with c4 := v }
  | 5 => { p with c5 := v }
  | 6 => { p with c6 := v }
  | 7 => { p with c7 := v }

def Eight.replicate (v : α) : Eight α := ⟨v, v, v, v, v, v, v, v⟩

def Eight.mapIdx (f : Fin 8 → α → β) (p : Eight α) : Eight β :=
  ⟨f 0 p.c0, f 1 p.c1, f 2 p.c2, f 3 p.c3, f 4 p.c4, f 5 p.c5, f 6 p.c6, f 7 p.c7⟩

def Eight.toList (p : Eight α) : List α := [p.c0, p.c1, p.c2, p.c3, p.c4, p.c5, p.c6, p.c7]

/-- A value that saturates at a top. -/
def sat (top n : Nat) : Nat := min n top

/-- ceil(a / b) (00_scope.md, Arithmetic). -/
def ceilDiv (a b : Nat) : Nat := (a + b - 1) / b

/-- A value brought into a range. -/
def clamp (lo hi : Int) (x : Int) : Int := max lo (min hi x)

end Sys2Proof
end

