-- ==== Sys2Proof/Syntax.lean ====
section
/-! DEFINITION. The commands of the part: one constructor for each row of spec/opcode_table.json. A field event carries what
the field line names (a stand, a station, a lane, a reading); a request carries its tag and the payload fields of Figures
12-3 and 12-4 in their widths. -/

namespace Sys2Proof

inductive Instr where
  /-- POWER_ON (R188): the two strap inputs (R174) and the emergency-stop input's value (R140) as power is applied. -/
  | powerOn (strapHigh strapLow emergencyStop : Bool)
  /-- ENCODER_REPORT (R3): the reporting encoder and the travel in tenths. -/
  | encoderReport (enc : Encoder) (tenths : Nat)
  | silenceTimerExpiry
  | defectBegins
  | defectEnds
  /-- DIAMETER_READING (R53): the stand and the reading in mm. -/
  | diameterReading (stand : Fin 6) (mm : Nat)
  | standbyPrepared (stand : Fin 6)
  | spliceConfirmed (stand : Fin 6)
  | spliceTimerExpiry (stand : Fin 6)
  | webBreak (stand : Fin 6)
  | jointSensed (stand : Fin 6)
  | inPosition (st : Station)
  | positioningTimerExpiry (st : Station)
  | positionFault (st : Station)
  /-- HEAD_FAULT (R82): head 0 is the spare (R81). -/
  | headFault (st : Station) (group : HeadGroup) (head : Nat)
  | changeDone (lane : Lane)
  | changeTimerExpiry (lane : Lane)
  | rampTimerExpiry
  | positioningEstimateRunout (st : Station)
  /-- HOT_PLATE_READING (R142): tenths of a degree C; a thermometer may give garbage, so any integer. -/
  | hotPlateReading (tenthsC : Int)
  | temperatureAging
  | temperatureStale
  | emergencyStopActive
  | emergencyStopReleased
  | boardBreak
  | restTimerExpiry
  | counterMillisecond
  /-- FRAME_RECEIVED (R176): the bytes of one frame, from the start byte to the last CRC byte. -/
  | frameReceived (bytes : List Byte)
  | gapTimeout
  /-- UNKNOWN_KIND (R179): an arrived frame whose kind is not a request. -/
  | unknownKind (kind tag : Byte) (payload : List Byte)
  | transmitComplete
  | imageWriteSuccess
  | imageWriteFailure
  -- requests, kinds 00h to 2Fh
  | status (tag : Byte)
  | mapRead (tag start : Byte)
  | defectReport (tag : Byte) (position leading trailing : BitVec 32)
  | orderAdd (tag : Byte) (id : BitVec 16) (cut : BitVec 32) (outs : Byte) (wanted overrun underrun : BitVec 32) (bundle : BitVec 16)
  | orderAmend (tag : Byte) (id : BitVec 16) (wanted overrun underrun : BitVec 32)
  | orderCancel (tag : Byte) (id : BitVec 16)
  | orderRelease (tag : Byte) (id : BitVec 16)
  | orderQuery (tag : Byte) (id : BitVec 16)
  | setupQueue (tag id : Byte) (orderU : BitVec 16) (targetU : BitVec 32) (presentL : Byte) (orderL : BitVec 16)
      (targetL : BitVec 32) (deckle : BitVec 16) (boundary grade : Byte) (waste : BitVec 16) (slits scores : List (BitVec 16))
  | setupWithdraw (tag id : Byte)
  | setupQuery (tag id : Byte)
  | scheduleRead (tag : Byte)
  | reelLoad (tag stand reelVariant : Byte) (reel : BitVec 32) (diameter core caliper : BitVec 16)
  | reelUnload (tag stand : Byte)
  | spliceForce (tag stand : Byte)
  | standReset (tag stand : Byte)
  | standQuery (tag stand : Byte)
  | stationReset (tag st : Byte)
  | headRetire (tag st group head : Byte)
  | headRestore (tag st group head : Byte)
  | softRemap (tag st group head : Byte)
  | remapPrepare (tag st group head : Byte)
  | remapConfirm (tag st group head : Byte)
  | hardRemap (tag st group head : Byte)
  | stationQuery (tag st : Byte)
  | trimEnter (tag lane range : Byte)
  /-- TRIM_SET (R104): the steps are a signed byte. -/
  | trimSet (tag lane steps : Byte)
  | trimExit (tag lane : Byte)
  | knifeQuery (tag lane : Byte)
  | stackEject (tag lane : Byte)
  | stackerReset (tag lane : Byte)
  | deliveryQuery (tag lane : Byte)
  | speedDemand (tag : Byte) (speed : BitVec 16)
  | governorQuery (tag : Byte)
  | lineStop (tag : Byte)
  | lineRestart (tag : Byte)
  | purge (tag : Byte)
  | lineQuery (tag : Byte)
  | accountsRead (tag : Byte)
  | accountsClear (tag : Byte)
  | counterSetup (tag counter enable source mode invert freeze laneFilter : Byte) (orderMatch orderMask : BitVec 16)
      (classSet family : Byte)
  | counterEnable (tag counter enable : Byte)
  | counterPreset (tag counter : Byte) (value : BitVec 40)
  | counterUnfreeze (tag : Byte)
  | counterRead (tag clear : Byte)
  /-- SETTINGS_WRITE (R185): item number and six-byte value of each entry. -/
  | settingsWrite (tag : Byte) (entries : List (BitVec 16 × BitVec 48))
  | settingsCommit (tag : Byte)
  | productionClear (tag : Byte)
  /-- FALSE_START (R176): the two length bytes taken after an A5h. -/
  | falseStart (lenLow lenHigh : Byte)
  deriving DecidableEq, Repr

end Sys2Proof
end

