-- ==== Sys2Proof/Config.lean ====
section
/-! DEFINITION. What the part fixes (pool sizes, time constants, code points of the link) and the free values, which the
manual leaves open and no proof can see. -/

namespace Sys2Proof.Config

/-- The mark pool (R13). -/
def poolSize : Nat := 128
/-- RUN_CHANGE marks may not use the last eight records (R14). -/
def poolReserve : Nat := 8
/-- Lengths kept modulo 2^48, and accounts saturating below it (R1, R160). -/
def axisModulus : Nat := 2 ^ 48
/-- The largest position or extent of a mark and the largest secondary sum (R4, R9). -/
def max32 : Nat := 4294967295
/-- The largest tally of an order (R97). -/
def maxTally : Nat := 16777215
/-- The largest value of an account (R160). -/
def maxAccount : Nat := 2 ^ 48 - 1
/-- The modulus of a counter's value (R168). -/
def counterModulus : Nat := 2 ^ 40
/-- The most a board advance carries (R3). -/
def maxAdvance : Nat := 1000
/-- The length at which a sensor defect closes (R19). -/
def defectLimit : Nat := 50000
/-- The silence timer (R4), the rest timer (R156), the ramp timer (R137), in ms. -/
def silencePeriod : Nat := 500
def restPeriod : Nat := 1000
def rampPeriod : Nat := 20
/-- The ages of the hot-plate reading (R143), in ms. -/
def agingAfter : Nat := 5000
def staleAfter : Nat := 30000
/-- The gap within a frame (R177), in ms. -/
def gapTime : Nat := 5
/-- The secondary travel that shows a moving board (R4). -/
def fallbackTravel : Nat := 1000
/-- Table sizes (sections 2.1, 2.2; R178, R181). -/
def orderEntries : Nat := 32
def setupEntries : Nat := 16
def rxEntries : Nat := 4
def noticeEntries : Nat := 32
/-- The largest payload of a frame (R175) and its start byte. -/
def maxPayload : Nat := 1020
def startByte : Byte := 0xA5#8
/-- Every limiter value above this is held as this (R126). -/
def maxLimit : Nat := 65535
/-- Clamp of the effective length (R92). -/
def minCut : Nat := 3000
def maxCut : Nat := 70000

/-- FREE VALUE (log 13): what a planned or produced length becomes when the exact sum does not fit in the 0 to 2^48 - 1 of
R30. The manual states no result there. -/
opaque lengthBeyond48 : Nat → Nat

/-- FREE VALUE (log 14): the time since the last board advance that LINE_QUERY reports at a time when no board advance has
come since power-on (R159 states none). -/
opaque sinceNoAdvance : Nat → Nat

end Sys2Proof.Config
end

