-- ==== Sys2Proof/Machine/State.lean ====
section
/-! DEFINITION. The state of the part as plain data, block by block, and the state right after power-on of a part whose
stored image is blank. Times are counts of the millisecond time base; a timer that runs holds the time it is due. -/

namespace Sys2Proof.Machine

/-! ## Stops -/

/-- No event stops the part: the manual describes no fault of the whole machine, so there is none to raise (INVENTORY.md,
Faults). An empty type: safe. -/
inductive Fault where
  deriving DecidableEq, Repr

/-- Why a command has no meaning. -/
inductive Refusal where
  /-- Raised by exec's arm of a command whose meaning is not written yet. Safe: nothing runs. -/
  | notModelled (mnemonic : String)
  deriving DecidableEq, Repr

/-! ## Active settings (chapter 11) -/

/-- The role of a stand slot (Figure 3-1). -/
inductive Role where
  | sf1Liner | sf1Medium | sf2Liner | sf2Medium | dbLiner | spare
  deriving DecidableEq, Repr

/-- The items of one stand slot (Figure 3-1). -/
structure StandCfg where
  isPresent : Bool
  role : Role
  webPath : Nat
  takeUp : Nat
  reserve : Nat
  spliceSpeed : Nat
  spliceTimeout : Nat
  jointLead : Nat
  jointTrail : Nat
  jointSensor : Bool
  tolerance : Nat
  armDistance : Nat
  sacrifice : Nat
  lowThreshold : Nat
  deriving DecidableEq, Repr

/-- The delivery items of one lane (R109). -/
structure LaneCfg where
  transit : Nat
  forkCapacity : Nat
  changeTime : Nat
  changeTimeout : Nat
  deriving DecidableEq, Repr

/-- The items of one station (R73). -/
structure StationCfg where
  timeout : Nat
  estimate : Nat
  deriving DecidableEq, Repr

/-- A point of a bond table (Figure 7-2). -/
structure BondPoint where
  temperature : Nat
  speed : Nat
  deriving DecidableEq, Repr

/-- A point of a glue schedule (Figure 7-2). -/
structure GluePoint where
  speed : Nat
  gap : Nat
  wrap : Nat
  deriving DecidableEq, Repr

/-- The active settings (Figure 11-1). -/
structure Settings where
  psa : Nat
  psb : Nat
  pk : Nat
  pd : Nat
  sensorFitted : Bool
  primary : Encoder
  minSetup : Nat
  stands : Six StandCfg
  idleLength : Nat
  minSpacing : Nat
  maxRate : Nat
  lanes : PerLane LaneCfg
  stations : PerStation StationCfg
  lineMax : Nat
  accel : Nat
  decel : Nat
  emergDecel : Nat
  reaction : Nat
  creep : Nat
  bond : List (List BondPoint)
  glue : PerUnit (List (List GluePoint))
  rethreadLength : Nat
  band : Eight Nat
  deriving DecidableEq, Repr

/-- A slot of an unconfigured part: not present (R72). The manual gives no default for the other items: DESIGN CHOICE, the
least value of each range, the first role and no sensor (log 10). -/
def StandCfg.default : StandCfg :=
  { isPresent := false, role := .sf1Liner, webPath := 5000, takeUp := 1000, reserve := 10000, spliceSpeed := 500,
    spliceTimeout := 500, jointLead := 0, jointTrail := 0, jointSensor := false, tolerance := 1000, armDistance := 100000,
    sacrifice := 0, lowThreshold := 0 }

/-- The bond table of an unconfigured part, for every grade (Figure 7-2). -/
def defaultBond : List BondPoint := [⟨1500, 500⟩, ⟨1650, 1500⟩, ⟨1750, 2500⟩, ⟨1850, 3000⟩]

/-- The glue schedule of an unconfigured part, for every unit and grade (Figure 7-2). -/
def defaultGlue : List GluePoint := [⟨0, 400, 800⟩, ⟨1000, 300, 600⟩, ⟨2000, 260, 450⟩, ⟨3000, 220, 300⟩, ⟨5000, 200, 200⟩]

/-- The settings of an unconfigured part (R188): Figure 1-1, R34, R72, R73, R92, R109, Figure 7-2, R158, R167. -/
def Settings.default : Settings :=
  { psa := 100000, psb := 120000, pk := 300000, pd := 60000, sensorFitted := false, primary := .belt, minSetup := 50000,
    stands := Six.replicate StandCfg.default, idleLength := 10000, minSpacing := 6000, maxRate := 300,
    lanes := ⟨⟨60000, 100, 6000, 15000⟩, ⟨60000, 100, 6000, 15000⟩⟩, stations := ⟨⟨20000, 8000⟩, ⟨20000, 8000⟩⟩,
    lineMax := 3000, accel := 300, decel := 600, emergDecel := 1500, reaction := 2000, creep := 300,
    bond := List.replicate 16 defaultBond,
    glue := ⟨List.replicate 16 defaultGlue, List.replicate 16 defaultGlue, List.replicate 16 defaultGlue⟩,
    rethreadLength := 50000, band := Eight.replicate 2000 }

/-! ## Board tracker (chapter 1) -/

inductive JointSource where
  | sensed | computed
  deriving DecidableEq, Repr

inductive DefectSource where
  | sensor | report
  deriving DecidableEq, Repr

/-- The kind of a mark with the fields only that kind carries (Figure 1-2). -/
inductive MarkKind where
  | runChange (setup : Nat)
  | joint (stand : Fin 6) (source : JointSource)
  | defect (source : DefectSource)
  | brk
  deriving DecidableEq, Repr

/-- The mark record (R6). The open flag is `openSensor || openBreak`. -/
structure Mark where
  entry : Nat
  kind : MarkKind
  pos : Nat
  lead : Nat
  trail : Nat
  openSensor : Bool
  openBreak : Bool
  covered : Bool
  merged : Bool
  deriving DecidableEq, Repr

/-- A watch that runs to a time, stays expired until it is restarted, or is stopped (R4, R156). -/
inductive Watch where
  | stopped
  | running (due : Nat)
  | expired
  deriving DecidableEq, Repr

/-- The web map. The free records are the pool less the marks in the map (R13). The open sensor defect record holds its
defect length; the mark it names is the one that holds the SENSOR open reason (log 19). The sensor is stuck from the closing of its
defect at 50,000 until *defect ends* is seen (R19); power-on leaves it not stuck (log 34). -/
structure WebMap where
  marks : List Mark
  nextEntry : Nat
  sensorDefect : Option Nat
  sensorStuck : Bool
  deriving DecidableEq, Repr

/-- The axis count, the encoders and the silence watch (R1, R3 to R5). -/
structure Encoders where
  axis : Nat
  selected : Encoder
  fallback : Bool
  silence : Watch
  secondarySum : Nat
  deriving DecidableEq, Repr

/-! ## Schedule (chapter 2) -/

inductive OrderState where
  | queued | active | fed | closed
  deriving DecidableEq, Repr

inductive OrderOutcome where
  | complete | short | cancelled
  deriving DecidableEq, Repr

/-- The order record (Figure 2-1). -/
structure OrderRec where
  id : Nat
  cut : Nat
  outs : Nat
  wanted : Nat
  overrun : Nat
  underrun : Nat
  bundle : Nat
  cancel : Bool
  state : OrderState
  good : Nat
  stacked : Nat
  joint : Nat
  defect : Nat
  brk : Nat
  transition : Nat
  surplus : Nat
  diverted : Nat
  outcome : Option OrderOutcome
  deriving DecidableEq, Repr

/-- What a setup runs in one lane: its order, its target and its credited good sheets (Figure 2-3). -/
structure LaneRun where
  order : Nat
  target : Nat
  credited : Nat
  deriving DecidableEq, Repr

inductive MarkState where
  | pending | onBoard | pastKnife
  deriving DecidableEq, Repr

/-- The setup record (Figure 2-3). Its state is the list of the schedule it stands in. -/
structure Setup where
  id : Nat
  held : Bool
  runU : LaneRun
  runL : Option LaneRun
  deckle : Nat
  slits : List Nat
  scores : List Nat
  boundary : Option Nat
  grade : Nat
  waste : Nat
  planned : Nat
  produced : Nat
  markState : Option MarkState
  deriving DecidableEq, Repr

/-- The reasons of a deferral (R36), in order. -/
inductive Deferral where
  | dry | held | starved
  deriving DecidableEq, Repr

structure Schedule where
  orders : List OrderRec
  queued : List Setup
  current : Option Setup
  online : List Setup
  episode : Option Deferral
  openExtension : Option Nat
  deriving DecidableEq, Repr

/-! ## Reel stands (chapter 3) -/

/-- The running reel (Figure 3-2). -/
structure RunningReel where
  id : Nat
  loaded : Nat
  core : Nat
  caliper : Nat
  last : Nat
  usable : Nat
  deriving DecidableEq, Repr

/-- The standby reel (Figure 3-2). -/
structure StandbyReel where
  id : Nat
  diameter : Nat
  core : Nat
  caliper : Nat
  deriving DecidableEq, Repr

inductive SpliceState where
  | empty | loaded | ready | armed | firing | fault | broken | exhausted
  deriving DecidableEq, Repr

inductive PlanKind where
  | targeted | reserve
  deriving DecidableEq, Repr

structure SplicePlan where
  kind : PlanKind
  fire : Nat
  deriving DecidableEq, Repr

/-- The stand record (Figure 3-2). -/
structure Stand where
  running : Option RunningReel
  standby : Option StandbyReel
  state : SpliceState
  plan : Option SplicePlan
  joint : Option Int
  late : Bool
  reloaded : Bool
  lowWarned : Bool
  refused : Nat
  timer : Option Nat
  deriving DecidableEq, Repr

/-- The power-on values of a stand (R72). -/
def Stand.initial : Stand :=
  { running := none, standby := none, state := .empty, plan := none, joint := none, late := false, reloaded := false,
    lowWarned := false, refused := 0, timer := none }

/-! ## Stations (chapter 4) -/

inductive StationState where
  | free | positioning | ready | engaged | fault
  deriving DecidableEq, Repr

inductive ArrivalOutcome where
  | engaged | late | retracted | none
  deriving DecidableEq, Repr

/-- The mapping of a spare (R81): the named working head is 1 to 10. -/
inductive Mapping where
  | none
  | soft (head : Nat)
  | hard (head : Nat)
  deriving DecidableEq, Repr

/-- One head group (R81): head h of the working heads is retired when bit h - 1 is set (R190). -/
structure HeadSet where
  retired : BitVec 16
  spareRetired : Bool
  mapping : Mapping
  deriving DecidableEq, Repr

structure LateEngagement where
  setup : Nat
  slack : Nat
  deriving DecidableEq, Repr

/-- The station record (R73). `estimate` is the positioning estimate read at the last position output (R185). -/
structure StationRec where
  state : StationState
  pattern : Option Nat
  timer : Option Nat
  lastOutput : Option Nat
  estimate : Nat
  late : Option LateEngagement
  faultPending : Bool
  lastArrival : Option (Nat × ArrivalOutcome)
  groups : PerGroup HeadSet
  deriving DecidableEq, Repr

/-- The head a remap request names (R86). -/
structure HeadName where
  st : Station
  group : HeadGroup
  head : Nat
  deriving DecidableEq, Repr

/-- The remap sequence (R86). -/
inductive Remap where
  | none
  | prepared (h : HeadName)
  | confirmed (h : HeadName)
  deriving DecidableEq, Repr

/-! ## Knife lanes (chapter 5) -/

inductive TrimRange where
  | coarse | fine
  deriving DecidableEq, Repr

/-- What a lane cuts: the active setup and its order in this lane (R91). -/
structure LaneJob where
  setup : Nat
  order : Nat
  deriving DecidableEq, Repr

/-- The knife lane record (Figure 5-1). Switch pending is set exactly while there is a shadow length (R93). -/
structure LaneRec where
  enabled : Bool
  active : Option LaneJob
  length : Nat
  shadow : Option Nat
  since : Nat
  pendingClass : Option SheetClass
  uncovered : Bool
  trim : Int
  session : Option TrimRange
  deriving DecidableEq, Repr

/-! ## Delivery and stackers (chapter 6) -/

/-- The batch record (Figure 6-1). -/
structure Batch where
  order : Option Nat
  cls : SheetClass
  length : Nat
  outs : Nat
  cuts : Nat
  firstAxis : Nat
  delivered : Nat
  deriving DecidableEq, Repr

inductive StackerState where
  | stacking | changing | fault
  deriving DecidableEq, Repr

inductive ChangeCause where
  | size | order | closing | eject
  deriving DecidableEq, Repr

inductive WaitCause where
  | eject | closing
  deriving DecidableEq, Repr

inductive Disposition where
  | stack | divert
  deriving DecidableEq, Repr

/-- A bundle or a fork that is not empty (R113). -/
structure Pile where
  order : Nat
  count : Nat
  deriving DecidableEq, Repr

/-- One lane's delivery queue and stacker (R109, R113). -/
structure DeliveryRec where
  queue : List Batch
  stacker : StackerState
  bundle : Option Pile
  fork : Option Pile
  cause : Option ChangeCause
  waiting : Bool
  waitCause : Option WaitCause
  timer : Option Nat
  divert : Disposition
  deriving DecidableEq, Repr

/-- The power-on values of a lane's delivery (R125). -/
def DeliveryRec.initial : DeliveryRec :=
  { queue := [], stacker := .stacking, bundle := none, fork := none, cause := none, waiting := false, waitCause := none,
    timer := none, divert := .divert }

/-! ## Governor (chapter 7) -/

/-- The value of every limiter member; none is inactive (R127 to R134). -/
structure Limits where
  stop : Option Nat
  splice : Six (Option Nat)
  knife : PerLane (Option Nat)
  slitter : PerStation (Option Nat)
  stacker : PerLane (Option Nat)
  bond : Nat
  demand : Nat
  lineMax : Nat
  deriving DecidableEq, Repr

inductive Direction where
  | rising | falling
  deriving DecidableEq, Repr

/-- A ramp segment (R138). -/
structure Segment where
  dir : Direction
  rate : Nat
  startRef : Nat
  startTime : Nat
  deriving DecidableEq, Repr

inductive TempAge where
  | fresh | aging | stale
  deriving DecidableEq, Repr

/-- The gap and wrap a glue unit last issued (R146). -/
structure GapWrap where
  gap : Nat
  wrap : Nat
  deriving DecidableEq, Repr

/-- The governor record (Figure 7-1). -/
structure Governor where
  limits : Limits
  ceiling : Nat
  bindFamily : Family
  bindMember : Nat
  reference : Nat
  demand : Nat
  segment : Option Segment
  rampTimer : Option Nat
  hold : Bool
  temperature : Option Nat
  tempTime : Option Nat
  age : TempAge
  grade : Nat
  issuedGlue : PerUnit GapWrap
  deriving DecidableEq, Repr

/-! ## Line condition (chapter 8) -/

inductive Condition where
  | run | halt | brk | purged
  deriving DecidableEq, Repr

/-- A break cause (R150). -/
inductive BreakCause where
  | web (stand : Fin 6)
  | board
  | exhausted (stand : Fin 6)
  deriving DecidableEq, Repr

structure LineCond where
  condition : Condition
  lastBreak : Option BreakCause
  rethread : Bool
  deriving DecidableEq, Repr

/-- The at-rest detector (R156): the rest timer and the time of the last board advance, none since power-on. -/
structure RestDetector where
  timer : Watch
  lastAdvance : Option Nat
  deriving DecidableEq, Repr

/-! ## Accounts and counters (chapter 9) -/

/-- A class account (R160). -/
structure ClassAccount where
  sheets : Nat
  board : Nat
  deriving DecidableEq, Repr

structure LaneAccounts where
  classes : PerClass ClassAccount
  diverted : Nat
  deriving DecidableEq, Repr

/-- The waste accounts (R160 to R162). -/
structure Accounts where
  lanes : PerLane LaneAccounts
  overrun : Nat
  starvation : Nat
  heldDry : Nat
  merges : Nat
  targeted : Six Nat
  reserve : Six Nat
  absorbed : Six Nat
  lateJoints : Nat
  overshoots : Nat
  deriving DecidableEq, Repr

def LaneAccounts.zero : LaneAccounts :=
  { classes := ⟨⟨0, 0⟩, ⟨0, 0⟩, ⟨0, 0⟩, ⟨0, 0⟩, ⟨0, 0⟩, ⟨0, 0⟩, ⟨0, 0⟩⟩, diverted := 0 }

/-- Every account at 0 (R163). -/
def Accounts.zero : Accounts :=
  { lanes := ⟨LaneAccounts.zero, LaneAccounts.zero⟩, overrun := 0, starvation := 0, heldDry := 0, merges := 0,
    targeted := Six.replicate 0, reserve := Six.replicate 0, absorbed := Six.replicate 0, lateJoints := 0, overshoots := 0 }

/-- The twelve sources of Figures 9-4 and 9-5. -/
inductive Source where
  | cutSheets | cutBoard | divertedGood | splices | setupStarts | deferrals | framesRefused
  | binding | band | anyArmed | stackerChanging | notRun
  deriving DecidableEq, Repr

inductive LaneFilter where
  | u | l | any
  deriving DecidableEq, Repr

/-- The counter record (Figure 9-3); its band threshold is a setting. -/
structure Counter where
  value : Nat
  overflow : Bool
  enabled : Bool
  source : Source
  edge : Bool
  invert : Bool
  freeze : Bool
  laneFilter : LaneFilter
  orderMatch : BitVec 16
  orderMask : BitVec 16
  classSet : BitVec 8
  family : Family
  lastSeen : Bool
  deriving DecidableEq, Repr

structure Bank where
  counters : Eight Counter
  frozen : Bool
  deriving DecidableEq, Repr

/-- The configuration of Figure 9-8 with value 0 and its flags clear (R173). The default source CUT_SHEETS has no condition: last seen
is false (log 37). -/
def Counter.initial : Counter :=
  { value := 0, overflow := false, enabled := false, source := .cutSheets, edge := false, invert := false, freeze := false,
    laneFilter := .any, orderMatch := 0, orderMask := 0, classSet := 0x7F#8, family := .stop, lastSeen := false }

/-! ## Line link (chapters 10 and 12) -/

/-- The kind, tag and payload of a frame (R175). -/
structure Frame where
  kind : Byte
  tag : Byte
  payload : List Byte
  deriving DecidableEq, Repr

/-- The receiver (R176): the bytes taken after the start byte, and the time of the last byte. -/
inductive Receiver where
  | hunting
  | assembling (taken : List Byte) (last : Nat)
  deriving DecidableEq, Repr

/-- The transmitter (R182): a notice has left its queue when its first byte is sent, a reply stays in the buffer. -/
inductive Transmitter where
  | free
  | reply
  | notice (f : Frame)
  deriving DecidableEq, Repr

inductive LastSent where
  | reply | notice
  deriving DecidableEq, Repr

structure Link where
  rate : Nat
  rx : Receiver
  rxQueue : List Frame
  reply : Option Frame
  tx : Transmitter
  lastSent : LastSent
  gapCount : Nat
  crcCount : Nat
  dropCount : Nat
  deriving DecidableEq, Repr

/-- The notice queue, the notice counter and the notices-lost flag (R181, R192). -/
structure Notices where
  queue : List Frame
  number : Nat
  lost : Bool
  deriving DecidableEq, Repr

/-! ## Settings store (chapter 11) -/

inductive WriteCause where
  | commit | hardRemap
  deriving DecidableEq, Repr

/-- The items and hard mappings of an image (R187); a mapping is the head it names, or 0. -/
structure ImageContent where
  cfg : Settings
  hard : PerStation (PerGroup Nat)
  deriving DecidableEq, Repr

structure StoredImage where
  content : ImageContent
  crc : BitVec 32
  deriving DecidableEq, Repr

/-- The settings store and the configured flag. `image` is none while the non-volatile memory holds no whole image. -/
structure Store where
  writing : Option (WriteCause × ImageContent)
  imageValid : Bool
  image : Option StoredImage
  configured : Bool
  deriving DecidableEq, Repr

/-! ## Outputs -/

/-- A field output issued (00_scope.md, Figure 1). -/
inductive Output where
  | spliceFire (stand : Fin 6)
  | position (st : Station) (deckle : Nat) (slits scores : List Nat) (heads : PerGroup (BitVec 16))
  | engage (st : Station)
  | retract (st : Station)
  | knifeLength (lane : Lane) (length : Nat)
  | cut (lane : Lane)
  | divertGate (lane : Lane) (d : Disposition)
  | stackChange (lane : Lane)
  | speedReference (v : Nat)
  | glueGap (glueUnit : GlueUnit) (gap : Nat)
  | preheatWrap (glueUnit : GlueUnit) (wrap : Nat)
  deriving DecidableEq, Repr

/-! ## The whole part -/

structure State where
  /-- Milliseconds of the time base since power-on (log 2). -/
  now : Nat
  cfg : Settings
  enc : Encoders
  web : WebMap
  sched : Schedule
  stands : Six Stand
  stations : PerStation StationRec
  remap : Remap
  lanes : PerLane LaneRec
  delivery : PerLane DeliveryRec
  gov : Governor
  line : LineCond
  rest : RestDetector
  /-- The emergency-stop input as it stands (R153). -/
  emergencyStop : Bool
  accounts : Accounts
  bank : Bank
  link : Link
  notices : Notices
  store : Store
  /-- The model's own: the field outputs the last command issued, oldest first (log 8). -/
  issued : List Output
  /-- The model's own: an input of the governor has changed within the step (log 3). -/
  evalDue : Bool
  /-- The model's own: the commands that wait, first in, first out. -/
  pending : List Instr
  deriving DecidableEq, Repr

/-- A station right after power-on (R90), with the retired flags and hard mappings it comes up with. -/
def StationRec.initial (estimate : Nat) (groups : PerGroup HeadSet) : StationRec :=
  { state := .free, pattern := none, timer := none, lastOutput := none, estimate := estimate, late := none,
    faultPending := false, lastArrival := none, groups := groups }

/-- The heads of a part whose retained memory has never been written (R90). -/
def freshHeads : PerGroup HeadSet :=
  ⟨⟨0, false, .none⟩, ⟨0, false, .none⟩, ⟨0, false, .none⟩, ⟨0, false, .none⟩⟩

/-- A lane right after power-on (R108). -/
def LaneRec.initial (enabled : Bool) (idle : Nat) : LaneRec :=
  { enabled := enabled, active := none, length := idle, shadow := none, since := 0, pendingClass := none, uncovered := false,
    trim := 0, session := none }

/-- The START_UP frame of the reset state: notice number 0, UNCONFIGURED, image INVALID, 115,200 bit/s (R188, R191, R192). -/
def resetStartUp : Frame := { kind := 0xC0#8, tag := 0, payload := [0, 0, 1, 0x00#8, 0xC2#8, 0x01#8] }

/-- The part right after power-on with a blank image and a retained memory never written, straps 0 0 and the emergency stop
released (R23, R47, R72, R90, R108, R125, R149, R150, R156, R173, R184, R188; log 9). START_UP has begun to be sent. -/
def State.reset : State :=
  { now := 0
    cfg := Settings.default
    enc := { axis := 0, selected := .belt, fallback := false, silence := .running 500, secondarySum := 0 }
    web := { marks := [], nextEntry := 0, sensorDefect := none, sensorStuck := false }
    sched := { orders := [], queued := [], current := none, online := [], episode := none, openExtension := none }
    stands := Six.replicate Stand.initial
    stations := ⟨StationRec.initial 8000 freshHeads, StationRec.initial 8000 freshHeads⟩
    remap := .none
    lanes := ⟨LaneRec.initial true 10000, LaneRec.initial false 10000⟩
    delivery := ⟨DeliveryRec.initial, DeliveryRec.initial⟩
    gov := { limits := { stop := some 0, splice := Six.replicate none, knife := ⟨some 5000, none⟩, slitter := ⟨none, none⟩,
                         stacker := ⟨none, none⟩, bond := 300, demand := 0, lineMax := 3000 },
             ceiling := 0, bindFamily := .stop, bindMember := 0, reference := 0, demand := 0, segment := none,
             rampTimer := none, hold := false, temperature := none, tempTime := none, age := .stale, grade := 0,
             issuedGlue := ⟨⟨400, 800⟩, ⟨400, 800⟩, ⟨400, 800⟩⟩ }
    line := { condition := .halt, lastBreak := none, rethread := false }
    rest := { timer := .running 1000, lastAdvance := none }
    emergencyStop := false
    accounts := Accounts.zero
    bank := { counters := Eight.replicate Counter.initial, frozen := false }
    link := { rate := 115200, rx := .hunting, rxQueue := [], reply := none, tx := .notice resetStartUp,
              lastSent := .notice, gapCount := 0, crcCount := 0, dropCount := 0 }
    notices := { queue := [], number := 1, lost := false }
    store := { writing := none, imageValid := false, image := none, configured := false }
    issued := [.retract .a, .retract .b, .knifeLength .u 10000, .divertGate .u .divert, .divertGate .l .divert,
               .speedReference 0, .glueGap .sf1 400, .preheatWrap .sf1 800, .glueGap .sf2 400, .preheatWrap .sf2 800,
               .glueGap .db 400, .preheatWrap .db 800]
    evalDue := false
    pending := [] }

end Sys2Proof.Machine
end

