-- ==== Sys2Proof/Machine/Operands.lean ====
section
/-! DEFINITION. The operand forms of the link: values as bytes, least significant first (R190, R191), the fields of a payload,
the two CRCs (R175, R187), the wire form of a frame (Figure 12-1), and the codes of the enumerated values. -/

namespace Sys2Proof

/-! ## Codes of the lanes, stations, groups, encoders and families (R190) -/

def Lane.code : Lane → Nat
  | .u => 0 | .l => 1

def Lane.ofCode : Nat → Option Lane
  | 0 => some .u | 1 => some .l | _ => none

def Station.code : Station → Nat
  | .a => 0 | .b => 1

def Station.ofCode : Nat → Option Station
  | 0 => some .a | 1 => some .b | _ => none

def HeadGroup.code : HeadGroup → Nat
  | .s1 => 0 | .s2 => 1 | .c1 => 2 | .c2 => 3

def HeadGroup.ofCode : Nat → Option HeadGroup
  | 0 => some .s1 | 1 => some .s2 | 2 => some .c1 | 3 => some .c2 | _ => none

def Encoder.code : Encoder → Nat
  | .belt => 0 | .feed => 1

def Family.ofCode : Nat → Option Family
  | 0 => some .stop | 1 => some .splice | 2 => some .knife | 3 => some .slitter | 4 => some .stacker | 5 => some .bond
  | 6 => some .demand | 7 => some .lineMax | _ => none

end Sys2Proof

namespace Sys2Proof.Machine

/-! ## Values as bytes -/

/-- The low n bytes of v, least significant first (R190). -/
def le : Nat → Nat → List Byte
  | 0, _ => []
  | k + 1, v => BitVec.ofNat 8 v :: le k (v / 256)

/-- The value of bytes sent least significant first (R190). -/
def fromLE : List Byte → Nat
  | [] => 0
  | b :: bs => b.toNat + 256 * fromLE bs

/-- An unsigned quantity in n bytes, held at the field's largest value when it is wider (R190). -/
def uns (n v : Nat) : List Byte := le n (min v (256 ^ n - 1))

/-- A signed quantity in n bytes, two's complement (R190). -/
def sgn (n : Nat) (z : Int) : List Byte := le n (z % (256 ^ n : Nat)).toNat

/-- The signed value of an n-byte field (R190). -/
def toSigned (n v : Nat) : Int := if 2 * v < 256 ^ n then v else (v : Int) - (256 ^ n : Nat)

/-- A flag, a yes/no or a presence byte (R190). -/
def flag (b : Bool) : List Byte := le 1 (if b then 1 else 0)

/-- An id that is sent as 0 when none (R190). -/
def idOr0 (n : Nat) (o : Option Nat) : List Byte := uns n (o.getD 0)

/-- Any other value that may be none: a presence byte, then the value, 0 when absent (R191). -/
def optional (n : Nat) : Option Nat → List Byte
  | none => flag false ++ uns n 0
  | some v => flag true ++ uns n v

/-- A list preceded by the number of its entries in one byte (R191). -/
def listed {α : Type} (xs : List α) (f : α → List Byte) : List Byte := uns 1 xs.length ++ xs.flatMap f

/-- A payload written from its fields, each a size in bytes and a value (section 12.3). -/
def encodeFields : List (Nat × Nat) → List Byte
  | [] => []
  | (n, v) :: fs => le n v ++ encodeFields fs

/-- The values of a payload's fields of the sizes given (section 12.3). -/
def decodeFields : List Nat → List Byte → List Nat
  | [], _ => []
  | n :: ns, p => fromLE (p.take n) :: decodeFields ns (p.drop n)

/-! ## The two CRCs and the frame -/

/-- One shift of the CRC-16 register, polynomial 1021h (R175). -/
def crc16Shift (r : BitVec 16) : BitVec 16 := if r.msb then (r <<< 1) ^^^ 0x1021#16 else r <<< 1

/-- A byte entered into the high half of the register, then eight shifts (section 12.2.1). -/
def crc16Byte (r : BitVec 16) (b : Byte) : BitVec 16 :=
  Nat.repeat crc16Shift 8 (r ^^^ (b.setWidth 16 <<< 8))

/-- The CRC-16 of a frame's bytes: the register starts at FFFFh, no final inversion (R175). -/
def crc16 (bs : List Byte) : BitVec 16 := bs.foldl crc16Byte 0xFFFF#16

/-- One shift of the CRC-32 register, bytes entered least significant bit first: EDB88320h is 04C11DB7h reversed (R187). -/
def crc32Shift (r : BitVec 32) : BitVec 32 := if r.getLsbD 0 then (r >>> 1) ^^^ 0xEDB88320#32 else r >>> 1

def crc32Byte (r : BitVec 32) (b : Byte) : BitVec 32 := Nat.repeat crc32Shift 8 (r ^^^ b.setWidth 32)

/-- The CRC-32 of the stored image: preset FFFFFFFFh, result inverted (R187). -/
def crc32 (bs : List Byte) : BitVec 32 := ~~~(bs.foldl crc32Byte 0xFFFFFFFF#32)

/-- The bytes of a frame that its CRC covers: length, kind, tag and payload (R175). -/
def Frame.covered (f : Frame) : List Byte := le 2 f.payload.length ++ f.kind :: f.tag :: f.payload

/-- The bytes of a frame on the line (Figure 12-1). -/
def Frame.wire (f : Frame) : List Byte := Config.startByte :: (f.covered ++ le 2 (crc16 f.covered).toNat)

/-! ## Codes of enumerated values: their place in the list that defines them, from 0 (R190) -/

def MarkKind.code : MarkKind → Nat
  | .runChange _ => 0 | .joint _ _ => 1 | .defect _ => 2 | .brk => 3

def OrderState.code : OrderState → Nat
  | .queued => 0 | .active => 1 | .fed => 2 | .closed => 3

def OrderOutcome.code : OrderOutcome → Nat
  | .complete => 0 | .short => 1 | .cancelled => 2

def MarkState.code : MarkState → Nat
  | .pending => 0 | .onBoard => 1 | .pastKnife => 2

def Deferral.code : Deferral → Nat
  | .dry => 0 | .held => 1 | .starved => 2

def Role.code : Role → Nat
  | .sf1Liner => 0 | .sf1Medium => 1 | .sf2Liner => 2 | .sf2Medium => 3 | .dbLiner => 4 | .spare => 5

def Role.ofCode : Nat → Option Role
  | 0 => some .sf1Liner | 1 => some .sf1Medium | 2 => some .sf2Liner | 3 => some .sf2Medium | 4 => some .dbLiner
  | 5 => some .spare | _ => none

def SpliceState.code : SpliceState → Nat
  | .empty => 0 | .loaded => 1 | .ready => 2 | .armed => 3 | .firing => 4 | .fault => 5 | .broken => 6 | .exhausted => 7

def PlanKind.code : PlanKind → Nat
  | .targeted => 0 | .reserve => 1

def StationState.code : StationState → Nat
  | .free => 0 | .positioning => 1 | .ready => 2 | .engaged => 3 | .fault => 4

def ArrivalOutcome.code : ArrivalOutcome → Nat
  | .engaged => 0 | .late => 1 | .retracted => 2 | .none => 3

def Mapping.code : Mapping → Nat
  | .none => 0 | .soft _ => 1 | .hard _ => 2

/-- The head a mapping names, 0 when it names none. -/
def Mapping.head : Mapping → Nat
  | .none => 0 | .soft h => h | .hard h => h

def TrimRange.code : TrimRange → Nat
  | .coarse => 0 | .fine => 1

def TrimRange.ofCode : Nat → Option TrimRange
  | 0 => some .coarse | 1 => some .fine | _ => none

def StackerState.code : StackerState → Nat
  | .stacking => 0 | .changing => 1 | .fault => 2

def ChangeCause.code : ChangeCause → Nat
  | .size => 0 | .order => 1 | .closing => 2 | .eject => 3

def WaitCause.code : WaitCause → Nat
  | .eject => 0 | .closing => 1

def Disposition.code : Disposition → Nat
  | .stack => 0 | .divert => 1

def Direction.code : Direction → Nat
  | .rising => 0 | .falling => 1

def TempAge.code : TempAge → Nat
  | .fresh => 0 | .aging => 1 | .stale => 2

def Condition.code : Condition → Nat
  | .run => 0 | .halt => 1 | .brk => 2 | .purged => 3

def BreakCause.code : BreakCause → Nat
  | .web _ => 0 | .board => 1 | .exhausted _ => 2

/-- The stand number of a break cause, where there is one. -/
def BreakCause.stand : BreakCause → Option Nat
  | .web i => some i | .board => none | .exhausted i => some i

def Source.code : Source → Nat
  | .cutSheets => 0 | .cutBoard => 1 | .divertedGood => 2 | .splices => 3 | .setupStarts => 4 | .deferrals => 5
  | .framesRefused => 6 | .binding => 7 | .band => 8 | .anyArmed => 9 | .stackerChanging => 10 | .notRun => 11

def Source.ofCode : Nat → Option Source
  | 0 => some .cutSheets | 1 => some .cutBoard | 2 => some .divertedGood | 3 => some .splices | 4 => some .setupStarts
  | 5 => some .deferrals | 6 => some .framesRefused | 7 => some .binding | 8 => some .band | 9 => some .anyArmed
  | 10 => some .stackerChanging | 11 => some .notRun | _ => none

def LaneFilter.code : LaneFilter → Nat
  | .u => 0 | .l => 1 | .any => 2

def LaneFilter.ofCode : Nat → Option LaneFilter
  | 0 => some .u | 1 => some .l | 2 => some .any | _ => none

def WriteCause.code : WriteCause → Nat
  | .commit => 0 | .hardRemap => 1

/-! ## Answers to requests -/

/-- The result codes (Figure 10-1). -/
inductive Result where
  | ok | clamped | unknownKind | badLength | outOfRange | notFound | duplicate | tableFull | wrongState | shortSetup
  | patternUnfit | noSpare | sequenceBroken | notAtRest | busy | unconfigured
  deriving DecidableEq, Repr

def Result.code : Result → Nat
  | .ok => 0x00 | .clamped => 0x01 | .unknownKind => 0x02 | .badLength => 0x03 | .outOfRange => 0x04 | .notFound => 0x05
  | .duplicate => 0x06 | .tableFull => 0x07 | .wrongState => 0x08 | .shortSetup => 0x09 | .patternUnfit => 0x0A
  | .noSpare => 0x0B | .sequenceBroken => 0x0C | .notAtRest => 0x0D | .busy => 0x0E | .unconfigured => 0x0F

/-- What an owning block answers: the result code and the data its rule names (R180). -/
structure Answer where
  code : Result
  data : List Byte
  deriving DecidableEq, Repr

/-- A refusal, or an acceptance, that carries the code alone. -/
def Answer.plain (r : Result) : Answer := { code := r, data := [] }

/-- The payload of a reply (R180). -/
def Answer.payload (a : Answer) : List Byte := uns 1 a.code.code ++ a.data

end Sys2Proof.Machine
end

