-- ==== Sys2Proof/Machine/Ops.lean ====
section
/-! DEFINITION. The named operations every block uses: one setter for each part of the state, issuing an output, raising a
notice, and reading the tables by id. -/

namespace Sys2Proof.Machine

/-! ## Setters -/

def State.setNow (s : State) (v : Nat) : State := { s with now := v }
def State.setCfg (s : State) (v : Settings) : State := { s with cfg := v }
def State.setEnc (s : State) (v : Encoders) : State := { s with enc := v }
def State.setWeb (s : State) (v : WebMap) : State := { s with web := v }
def State.setSched (s : State) (v : Schedule) : State := { s with sched := v }
def State.setStands (s : State) (v : Six Stand) : State := { s with stands := v }
def State.setStations (s : State) (v : PerStation StationRec) : State := { s with stations := v }
def State.setRemap (s : State) (v : Remap) : State := { s with remap := v }
def State.setLanes (s : State) (v : PerLane LaneRec) : State := { s with lanes := v }
def State.setDelivery (s : State) (v : PerLane DeliveryRec) : State := { s with delivery := v }
def State.setGov (s : State) (v : Governor) : State := { s with gov := v }
def State.setLine (s : State) (v : LineCond) : State := { s with line := v }
def State.setRest (s : State) (v : RestDetector) : State := { s with rest := v }
def State.setEmergencyStop (s : State) (v : Bool) : State := { s with emergencyStop := v }
def State.setAccounts (s : State) (v : Accounts) : State := { s with accounts := v }
def State.setBank (s : State) (v : Bank) : State := { s with bank := v }
def State.setLink (s : State) (v : Link) : State := { s with link := v }
def State.setNotices (s : State) (v : Notices) : State := { s with notices := v }
def State.setStore (s : State) (v : Store) : State := { s with store := v }
def State.setIssued (s : State) (v : List Output) : State := { s with issued := v }
def State.setEvalDue (s : State) (v : Bool) : State := { s with evalDue := v }

/-! ## Outputs, notices, time -/

/-- A field output is issued. -/
def emit (o : Output) (s : State) : State := s.setIssued (s.issued ++ [o])

/-- A change of the governor's inputs (R136): the step ends with an evaluation. -/
def needEvaluation (s : State) : State := s.setEvalDue true

/-- A notice takes the next number and joins the queue, or is lost (R181, R192). -/
def Notices.add (k : Notices) (kind : Byte) (contents : List Byte) : Notices :=
  let f : Frame := { kind := kind, tag := 0, payload := uns 1 k.number ++ contents }
  if k.queue.length < Config.noticeEntries then { k with number := (k.number + 1) % 256, queue := k.queue ++ [f] }
  else { k with number := (k.number + 1) % 256, lost := true }

/-- A block raises a notice (R181). -/
def notice (kind : Byte) (contents : List Byte) (s : State) : State := s.setNotices (s.notices.add kind contents)

/-- The time base has come to a time at least this: an expiry tells so (log 2). -/
def reachTime (due : Nat) (s : State) : State := s.setNow (max s.now due)

/-! ## Accounts -/

/-- An account raised, saturating (R160). -/
def raised (n k : Nat) : Nat := sat Config.maxAccount (n + k)

/-! ## Orders and setups by id -/

/-- The order of an id (R24). -/
def findOrder (s : State) (o : Nat) : Option OrderRec := s.sched.orders.find? (fun r => r.id == o)

/-- One order's record changed. -/
def updateOrder (o : Nat) (f : OrderRec → OrderRec) (s : State) : State :=
  s.setSched { s.sched with orders := s.sched.orders.map fun r => if r.id == o then f r else r }

/-- What a setup runs in a lane; every setup has lane U (R91). -/
def Setup.run (t : Setup) : Lane → Option LaneRun
  | .u => some t.runU
  | .l => t.runL

/-- The runs of the present lanes, U before L. -/
def Setup.runs (t : Setup) : List LaneRun := t.runU :: t.runL.toList

/-- The setup names the order in either lane. -/
def Setup.names (t : Setup) (o : Nat) : Bool := t.runs.any fun r => r.order == o

/-- The orders a setup names, each once. -/
def Setup.orderIds (t : Setup) : List Nat := (t.runs.map LaneRun.order).eraseDups

/-- The setup order the schedule keeps (R74). -/
def setupOrder (s : State) : List Setup := s.sched.online ++ s.sched.current.toList ++ s.sched.queued

/-- The setup of an id among the live setups. -/
def findSetup (s : State) (id : Nat) : Option Setup := (setupOrder s).find? fun t => t.id == id

/-- The order is named by a QUEUED or the CURRENT setup (R26). -/
def namedAhead (s : State) (o : Nat) : Bool := (s.sched.current.toList ++ s.sched.queued).any fun t => t.names o

/-- One live setup's record changed, wherever it stands. -/
def updateSetup (id : Nat) (f : Setup → Setup) (s : State) : State :=
  let g := fun t : Setup => if t.id == id then f t else t
  s.setSched { s.sched with
    queued := s.sched.queued.map g, current := s.sched.current.map g, online := s.sched.online.map g }

/-- A planned or produced length as R30 holds it: 0 to 2^48 - 1, and a FREE VALUE where the sum does not fit (log 13). -/
def fit48 (x : Nat) : Nat :=
  if x < Config.axisModulus then x else Config.lengthBeyond48 x % Config.axisModulus

/-- The longest cut length among the orders of the setup's present lanes (R39). -/
def longestCut (s : State) (t : Setup) : Nat :=
  (t.runs.map fun r => ((findOrder s r.order).map OrderRec.cut).getD 0).foldl max 0

/-- ceil(sheets / outs) cuts of an order, in tenths (R33). -/
def laneLength (s : State) (o sheets : Nat) : Nat :=
  match findOrder s o with
  | some r => ceilDiv sheets r.outs * r.cut
  | none => 0

/-- The planned length of a setup from its lanes (R33). -/
def plannedLength (s : State) (t : Setup) : Nat :=
  t.waste + (t.runs.map fun r => laneLength s r.order r.target).foldl max 0

/-! ## The web map as it is read -/

/-- The free records of the pool (R13). -/
def freeRecords (s : State) : Nat := Config.poolSize - s.web.marks.length

/-- A JOINT, DEFECT or BREAK mark (00_scope.md, Terms). -/
def Mark.isReject (m : Mark) : Bool :=
  match m.kind with
  | .runChange _ => false
  | _ => true

/-- The upstream and downstream ends of a mark's zone (R7). -/
def Mark.upEnd (m : Mark) : Int := (m.pos : Int) - m.trail
def Mark.downEnd (m : Mark) : Int := (m.pos : Int) + m.lead

/-- The RUN_CHANGE mark of a setup. -/
def runMark (s : State) (id : Nat) : Option Mark := s.web.marks.find? fun m => m.kind == .runChange id

/-- The setup's RUN_CHANGE mark has arrived at a position (R74). -/
def hasArrived (s : State) (t : Setup) (x : Nat) : Bool :=
  t.markState == some .pastKnife ||
    match runMark s t.id with
    | some m => decide (x ≤ m.pos)
    | none => false

/-- The position of a station (R2). -/
def stationPosition (s : State) : Station → Nat
  | .a => s.cfg.psa
  | .b => s.cfg.psb

/-- The line is at rest (R156). -/
def atRest (s : State) : Bool := s.rest.timer == .expired && s.gov.reference == 0

/-- The part is configured (R188). -/
def configured (s : State) : Bool := s.store.configured

end Sys2Proof.Machine
end

