-- ==== Sys2Proof/Machine/Flags.lean ====
section
/-! DEFINITION. Every condition that is counted or watched: the sources, filters and tested conditions of the counter bank
(R164 to R169), and the setters of the records whose changes are handed to the bank and to the governor (R49, R73, R91,
R113, R126, R136, R150, R166). -/

namespace Sys2Proof.Machine

/-! ## The counter bank -/

/-- The condition sources of Figure 9-5. -/
def Source.isCondition : Source → Bool
  | .binding | .band | .anyArmed | .stackerChanging | .notRun => true
  | .cutSheets | .cutBoard | .divertedGood | .splices | .setupStarts | .deferrals | .framesRefused => false

/-- The source's condition as it stands (Figure 9-5). -/
def sourceHolds (s : State) (i : Fin 8) (c : Counter) : Bool :=
  match c.source with
  | .binding => s.gov.bindFamily == c.family
  | .band => decide (s.cfg.band.get i ≤ s.gov.reference)
  | .anyArmed => s.stands.toList.any fun st => st.state == .armed
  | .stackerChanging =>
    match c.laneFilter with
    | .u => s.delivery.u.stacker == .changing
    | .l => s.delivery.l.stacker == .changing
    | .any => s.delivery.u.stacker == .changing || s.delivery.l.stacker == .changing
  | .notRun => s.line.condition != .run
  | .cutSheets | .cutBoard | .divertedGood | .splices | .setupStarts | .deferrals | .framesRefused => false

/-- A counter's tested condition (R166). An event source has none, and its counter's last seen is false (log 37). -/
def tested (s : State) (i : Fin 8) (c : Counter) : Bool :=
  c.source.isCondition && (sourceHolds s i c != c.invert)

/-- The filters of the sheet sources (R165). -/
def sheetPasses (c : Counter) (lane : Lane) (order : Option Nat) (cls : SheetClass) : Bool :=
  (match c.laneFilter, lane with
   | .any, _ | .u, .u | .l, .l => true
   | _, _ => false) &&
  (match order with
   | some x => (BitVec.ofNat 16 x &&& c.orderMask) == (c.orderMatch &&& c.orderMask)
   | none => c.orderMask == 0#16) &&
  c.classSet.getLsbD cls.rank

/-- An increment, wrapping at 2^40 (R168). -/
def Counter.raise (c : Counter) (k : Nat) : Counter :=
  { c with value := (c.value + k) % Config.counterModulus
           overflow := c.overflow || decide (Config.counterModulus ≤ c.value + k) }

/-- The counters in number order. -/
def counterIds : List (Fin 8) := [0, 1, 2, 3, 4, 5, 6, 7]

/-- One hand-off applied to all eight counters together (R168); a frozen bank adds nothing (R169). COUNTER_OVERFLOW carries one counted
list of pairs, the number of each wrapped counter with its value (log 16). -/
def handOff (inc : Fin 8 → Counter → Nat) (s : State) : State :=
  if s.bank.frozen then s
  else
    let old := s.bank.counters
    let new := old.mapIdx fun i c => c.raise (inc i c)
    let wrapped := counterIds.filter fun i => decide (Config.counterModulus ≤ (old.get i).value + inc i (old.get i))
    if wrapped.any fun i => (old.get i).freeze then
      notice 0xD0#8 (listed wrapped fun i => uns 1 i ++ uns 5 (new.get i).value)
        (s.setBank { counters := new, frozen := true })
    else s.setBank { counters := new, frozen := false }

/-- An event of a source without filters, adding 1 (Figure 9-4). -/
def countEvent (src : Source) (s : State) : State :=
  handOff (fun _ c => if c.enabled && c.source == src then 1 else 0) s

/-- A cut handed to the bank (R164, R165): its sheets and its board. -/
def countCut (lane : Lane) (order : Option Nat) (cls : SheetClass) (outs length : Nat) (s : State) : State :=
  handOff (fun _ c =>
    if c.enabled && sheetPasses c lane order cls then
      (if c.source == .cutSheets then outs else if c.source == .cutBoard then length else 0)
    else 0) s

/-- A GOOD cut diverted at a stacker, tested as class GOOD (R165). -/
def countDiverted (lane : Lane) (order : Option Nat) (sheets : Nat) (s : State) : State :=
  handOff (fun _ c =>
    if c.enabled && c.source == .divertedGood && sheetPasses c lane order .good then sheets else 0) s

/-- A change handed to the condition sources: EDGE counters add an entry, and every counter takes its tested condition as
last seen, enabled or not and frozen or not (R166). -/
def conditionsChanged (s : State) : State :=
  let s1 := handOff (fun i c => if c.enabled && c.edge && !c.lastSeen && tested s i c then 1 else 0) s
  s1.setBank { s1.bank with counters := s1.bank.counters.mapIdx fun i c => { c with lastSeen := tested s i c } }

/-- A millisecond of the time base, handed to every LEVEL counter whose condition holds (R166, R168). -/
def countMillisecond (s : State) : State :=
  handOff (fun i c => if c.enabled && !c.edge && tested s i c then 1 else 0) s

/-! ## Setters with their hand-offs -/

/-- What the governor reads of a stand (R49). -/
def Stand.reading (st : Stand) : SpliceState × Option Nat × Option Nat :=
  (st.state, st.running.map RunningReel.usable, st.plan.map SplicePlan.fire)

/-- A stand's record is replaced; a change of what the governor reads and of the splice state is handed on (R49, R166). -/
def setStand (i : Fin 6) (st : Stand) (s : State) : State :=
  let old := s.stands.get i
  let s1 := (s.setStands (s.stands.set i st)).setEvalDue (s.evalDue || old.reading != st.reading)
  if old.state == st.state then s1 else conditionsChanged s1

/-- A station's record is replaced; a change of state, pattern or position output is handed to the governor (R73, R131). -/
def setStation (st : Station) (r : StationRec) (s : State) : State :=
  let old := s.stations.get st
  (s.setStations (s.stations.set st r)).setEvalDue
    (s.evalDue || old.state != r.state || old.pattern != r.pattern || old.lastOutput != r.lastOutput)

/-- A lane's record is replaced; a change of what the governor reads is handed on (R91). -/
def setLane (lane : Lane) (r : LaneRec) (s : State) : State :=
  let old := s.lanes.get lane
  (s.setLanes (s.lanes.set lane r)).setEvalDue
    (s.evalDue || old.enabled != r.enabled || old.length != r.length || old.active != r.active)

/-- A lane's delivery record is replaced; a change of stacker state is handed on (R113, R166). -/
def setDelivery (lane : Lane) (r : DeliveryRec) (s : State) : State :=
  let old := s.delivery.get lane
  let s1 := s.setDelivery (s.delivery.set lane r)
  if old.stacker == r.stacker then s1 else conditionsChanged (needEvaluation s1)

/-- The line condition changes and is handed on (R150). -/
def setCondition (c : Condition) (s : State) : State :=
  if s.line.condition == c then s
  else conditionsChanged (needEvaluation (s.setLine { s.line with condition := c }))

end Sys2Proof.Machine
end

