-- ==== Sys2Proof/Machine/Closure.lean ====
section
/-! DEFINITION. Stack changes (R115) and the closure of an order (R121, R122): the operations of the delivery block that the
schedule, the knives and the stackers' own events share. -/

namespace Sys2Proof.Machine

/-- A stack change begins: cause, change output, change timer, CHANGING (R115). -/
def startChange (lane : Lane) (cause : ChangeCause) (s : State) : State :=
  let d := s.delivery.get lane
  setDelivery lane
    { d with stacker := .changing, cause := some cause, timer := some (s.now + (s.cfg.lanes.get lane).changeTimeout) }
    (emit (.stackChange lane) s)

/-- The pile names the order. -/
def Pile.holds (p : Option Pile) (o : Nat) : Bool :=
  match p with
  | some q => q.order == o
  | none => false

/-- A lane's closing change at the closure of an order (R122). -/
def closingChange (o : Nat) (lane : Lane) (s : State) : State :=
  let d := s.delivery.get lane
  match d.stacker with
  | .stacking => if Pile.holds d.bundle o then startChange lane .closing s else s
  | .changing =>
    if Pile.holds d.fork o then setDelivery lane { d with waiting := true, waitCause := some .closing } s else s
  | .fault => s

/-- The outcome of an order at its closure (R122). -/
def closureOutcome (r : OrderRec) : OrderOutcome :=
  if r.cancel then .cancelled
  else if r.wanted ≤ r.stacked + r.underrun then .complete
  else .short

/-- An order is closed: its state and outcome, ORDER_CLOSED, the closing changes (R122). -/
def closeOrder (r : OrderRec) (s : State) : State :=
  let out := closureOutcome r
  let s1 := updateOrder r.id (fun q => { q with state := .closed, outcome := some out }) s
  let s2 := notice 0xC7#8
    (uns 2 r.id ++ uns 1 out.code ++ uns 3 r.wanted ++ uns 3 r.stacked ++ uns 3 r.diverted ++
      uns 4 (r.joint + r.defect + r.brk + r.transition + r.surplus)) s1
  closingChange r.id .l (closingChange r.id .u s2)

/-- A lane holds the order as its active order (R102). -/
def laneHolds (s : State) (o : Nat) (lane : Lane) : Bool :=
  match (s.lanes.get lane).active with
  | some j => j.order == o
  | none => false

/-- A batch in the lane's queue carries the order (R121). -/
def queueHolds (s : State) (o : Nat) (lane : Lane) : Bool :=
  (s.delivery.get lane).queue.any fun b => b.order == some o

/-- The five conditions of the closure test (R121). -/
def mayClose (s : State) (r : OrderRec) : Bool :=
  r.state == .fed && !(s.sched.online.any fun t => t.names r.id) && !(laneHolds s r.id .u) && !(laneHolds s r.id .l)
    && !(queueHolds s r.id .u) && !(queueHolds s r.id .l)

/-- The closure test of an order (R121). -/
def closureTest (o : Nat) (s : State) : State :=
  match findOrder s o with
  | some r => if mayClose s r then closeOrder r s else s
  | none => s

/-- The closure test of several orders, one after the other. -/
def closureTests (os : List Nat) (s : State) : State := os.foldl (fun s o => closureTest o s) s

/-- An order becomes FED when it is ACTIVE and named by no QUEUED and no CURRENT setup; it is then tested (R26). -/
def feedOrder (o : Nat) (s : State) : State :=
  match findOrder s o with
  | some r =>
    if r.state == .active && !namedAhead s o then
      closureTest o (updateOrder o (fun q => { q with state := .fed }) s)
    else s
  | none => s

def feedOrders (os : List Nat) (s : State) : State := os.foldl (fun s o => feedOrder o s) s

end Sys2Proof.Machine
end

