-- ==== Sys2Proof/Machine/Planning.lean ====
section
/-! DEFINITION. Usable length, the splice plan, the arming test and the firing test of a stand (R52, R54, R56 to R59). -/

namespace Sys2Proof.Machine

/-- The usable length of a reel of a diameter (R52). -/
def usableLength (cfg : StandCfg) (diameter core caliper : Nat) : Nat :=
  let paper := 355 * (diameter ^ 2 - core ^ 2) * 1000 / (113 * 4 * caliper)
  (paper - cfg.reserve) * 10000 / cfg.takeUp

/-- The web path in board tenths, Pb (R57). -/
def webPathBoard (cfg : StandCfg) : Nat := cfg.webPath * 10000 / cfg.takeUp

/-- The usable length of a stand, 0 when it is not feeding (R49). -/
def Stand.usable (st : Stand) : Nat := (st.running.map RunningReel.usable).getD 0

/-- A stand is feeding while its running reel is present (R49). -/
def Stand.feeding (st : Stand) : Bool := st.running.isSome

/-- The fire distance of a stand's plan, 0 without one. -/
def Stand.fireDistance (st : Stand) : Nat := (st.plan.map SplicePlan.fire).getD 0

/-- The plan of a stand (R57). -/
def computePlan (s : State) (i : Fin 6) : SplicePlan :=
  let cfg := s.cfg.stands.get i
  let u := (s.stands.get i).usable
  let reserve : SplicePlan := { kind := .reserve, fire := u }
  match s.sched.current, s.sched.queued with
  | some cur, head :: _ =>
    let a := cfg.jointTrail
    let b := cfg.jointLead
    if head.held || decide (head.waste < a + b) then reserve
    else
      let g := cur.planned - cur.produced
      let x := g + b + (head.waste - a - b) / 2
      let pb := webPathBoard cfg
      if pb ≤ x ∧ x - pb ≤ u ∧ u - (x - pb) ≤ cfg.sacrifice then { kind := .targeted, fire := x - pb } else reserve
  | _, _ => reserve

/-- The firing test of a stand in ARMED (R59). -/
def firingTest (i : Fin 6) (s : State) : State :=
  let st := s.stands.get i
  let cfg := s.cfg.stands.get i
  match st.state, st.plan with
  | .armed, some p =>
    if p.fire = 0 ∧ s.gov.reference ≤ cfg.spliceSpeed ∧ st.joint = none then
      setStand i { st with state := .firing, timer := some (s.now + cfg.spliceTimeout) } (emit (.spliceFire i) s)
    else s
  | _, _ => s

/-- The arming test of a stand in READY, and the firing test at arming (R58, R59). -/
def armingTest (i : Fin 6) (s : State) : State :=
  let st := s.stands.get i
  match st.state, st.plan with
  | .ready, some p =>
    if p.fire ≤ (s.cfg.stands.get i).armDistance then firingTest i (setStand i { st with state := .armed } s) else s
  | _, _ => s

/-- A stand in READY plans; the arming test follows (R56). Stands in other states do not plan. -/
def planStand (i : Fin 6) (s : State) : State :=
  let st := s.stands.get i
  match st.state with
  | .ready => armingTest i (setStand i { st with plan := some (computePlan s i) } s)
  | _ => s

/-- The splice planner takes a change of the schedule: every READY stand plans again (R56). -/
def replanAll (s : State) : State := slots.foldl (fun s i => planStand i s) s

/-- The low threshold test of a stand (R54). -/
def lowTest (i : Fin 6) (s : State) : State :=
  let st := s.stands.get i
  match st.running with
  | some r =>
    if (s.cfg.stands.get i).lowThreshold < r.usable then
      (if st.lowWarned then setStand i { st with lowWarned := false } s else s)
    else if st.standby.isNone && !st.lowWarned then
      notice 0xCA#8 (uns 1 i ++ uns 4 r.id ++ uns 4 r.usable) (setStand i { st with lowWarned := true } s)
    else s
  | none => s

end Sys2Proof.Machine
end

