-- ==== Sys2Proof/Machine/Marks.lean ====
section
/-! DEFINITION. Entering marks in the web map: RUN_CHANGE marks (R14, R158), reject marks with a record of their own (R15) or
by merge (R16, R17), the make-up extension they earn (R39, R40), the sensor defect (R18, R19), and the break causes with the
BREAK mark (R154, R155). -/

namespace Sys2Proof.Machine

/-- A mark takes its place: behind every mark at its position or downstream of it (R8, log 12). -/
def insertMark (m : Mark) : List Mark → List Mark
  | [] => [m]
  | x :: xs => if m.pos ≤ x.pos then x :: insertMark m xs else m :: x :: xs

/-- A change of the last element that a test picks. -/
def updateLast {α : Type} (p : α → Bool) (f : α → α) : List α → Option (List α)
  | [] => none
  | x :: xs =>
    match updateLast p f xs with
    | some ys => some (x :: ys)
    | none => if p x then some (f x :: xs) else none

/-- The growth of an extent, saturating (R9, log 15). -/
def grown (e k : Nat) : Nat := sat Config.max32 (e + k)

/-- A mark enters the map with the next entry number (R6). -/
def placeMark (m : Mark) (s : State) : State :=
  let t := s.web
  s.setWeb { t with marks := insertMark { m with entry := t.nextEntry } t.marks, nextEntry := (t.nextEntry + 1) % 65536 }

/-- A RUN_CHANGE mark is entered on the tracker's grant; the first after a purge is lengthened to the rethread length (R158). -/
def enterRunChange (pos trail setup : Nat) (s : State) : State :=
  let trail' := if s.line.rethread then max trail s.cfg.rethreadLength else trail
  let s1 := s.setLine { s.line with rethread := false }
  needEvaluation (placeMark
    { entry := 0, kind := .runChange setup, pos := pos, lead := 0, trail := trail', openSensor := false, openBreak := false,
      covered := false, merged := false } s1)

/-- The planned length of the CURRENT setup is raised and the change handed to the planner; a deferral whose setup no longer
has run its length ends (R38, R39, R40). -/
def raisePlanned (k : Nat) (s : State) : State :=
  match s.sched.current with
  | some cur =>
    let planned := fit48 (cur.planned + k)
    let episode := if cur.produced < planned then none else s.sched.episode
    replanAll (s.setSched { s.sched with current := some { cur with planned := planned }, episode := episode })
  | none => s

/-- A reject mark at a position stands behind the CURRENT setup's boundary (R39). -/
def qualifies (s : State) (pos : Nat) : Bool :=
  match s.sched.current with
  | some cur =>
    match cur.markState with
    | some .pastKnife => true
    | some .onBoard =>
      match runMark s cur.id with
      | some m => decide (pos ≤ m.pos)
      | none => false
    | _ => false
  | none => false

/-- The rank by which a merge keeps the higher kind: BREAK, then JOINT, then DEFECT (R16). -/
def MarkKind.rank : MarkKind → Nat
  | .brk => 3
  | .joint _ _ => 2
  | .defect _ => 1
  | .runChange _ => 0

/-- The target of a merge after it has taken the new mark's zone (R16, R17). -/
def mergeInto (m target : Mark) : Mark :=
  { target with
    trail := grown target.trail (target.upEnd - m.upEnd).toNat
    lead := grown target.lead (m.downEnd - target.downEnd).toNat
    kind := if target.kind.rank < m.kind.rank then m.kind else target.kind
    openSensor := target.openSensor || m.openSensor
    openBreak := target.openBreak || m.openBreak
    merged := true }

/-- What became of a reject mark: placed or merged, and the entry number of its record (R20, R154). -/
inductive Entered where
  | placed (entry : Nat)
  | merged (entry : Nat)
  deriving DecidableEq, Repr

def Entered.code : Entered → Nat
  | .placed _ => 0
  | .merged _ => 1

def Entered.entry : Entered → Nat
  | .placed e => e
  | .merged e => e

/-- What entering a reject mark would be now: a record of its own when one is free (R15), else a merge into the most upstream
reject mark (R8, R16). -/
def entering (s : State) : Entered :=
  if s.web.marks.length < Config.poolSize then .placed s.web.nextEntry
  else .merged (((s.web.marks.filter Mark.isReject).getLast?.map Mark.entry).getD 0)

/-- A sensor defect that qualifies records an open extension; one that does not leaves none (R40, log 22). -/
def noteExtension (m : Mark) (q : Bool) (s : State) : State :=
  match m.kind with
  | .defect .sensor => s.setSched { s.sched with openExtension := if q then s.sched.current.map Setup.id else none }
  | _ => s

/-- A reject mark is entered: by placement, with the make-up extension when it qualifies (R15, R39), or by merge (R16). -/
def enterReject (m : Mark) (s : State) : State :=
  if s.web.marks.length < Config.poolSize then
    let q := qualifies s m.pos
    let s1 := noteExtension m q (placeMark { m with covered := q, merged := false } s)
    if q then raisePlanned (m.lead + m.trail + (s.sched.current.map (longestCut s)).getD 0) s1 else s1
  else
    match updateLast Mark.isReject (mergeInto m) s.web.marks with
    | some marks =>
      (s.setWeb { s.web with marks := marks }).setAccounts
        { s.accounts with merges := raised s.accounts.merges 1 }
    | none => s

/-! ## The sensor defect -/

/-- The mark that grows for the sensor defect: the one with the SENSOR open reason (log 19). -/
def sensorMark (s : State) : Option Mark := s.web.marks.find? Mark.openSensor

/-- The schedule takes the final length of a closed sensor defect (R40). -/
def takeFinalLength (len : Nat) (s : State) : State :=
  let s1 := s.setSched { s.sched with openExtension := none }
  match s.sched.openExtension, s.sched.current with
  | some id, some cur => if cur.id = id then raisePlanned len s1 else s1
  | _, _ => s1

/-- The sensor defect record closes: the mark loses its SENSOR open reason, and an unmerged mark's final length goes to the
schedule (R19). -/
def closeSensorDefect (s : State) : State :=
  match s.web.sensorDefect with
  | some len =>
    let s1 := s.setWeb { s.web with
      sensorDefect := none, marks := s.web.marks.map fun m => { m with openSensor := false } }
    match sensorMark s with
    | some m => if m.merged then s1 else takeFinalLength len s1
    | none => s1
  | none => s

/-! ## Break causes -/

/-- The BREAK mark (R155). -/
def breakMark : Mark :=
  { entry := 0, kind := .brk, pos := 0, lead := 0, trail := 0, openSensor := false, openBreak := true, covered := false,
    merged := false }

/-- The BREAK notice (R154, R191). -/
def breakNotice (c : BreakCause) (changed : Bool) (e : Option Entered) (s : State) : State :=
  notice 0xCF#8
    (uns 1 c.code ++ optional 1 c.stand ++ flag changed ++ uns 6 s.enc.axis ++
      uns 1 ((e.map Entered.code).getD 2) ++ idOr0 2 (e.map Entered.entry)) s

/-- A break cause (R154): recorded and noticed; outside BREAK the condition becomes BREAK and the BREAK mark is entered. -/
def breakCause (c : BreakCause) (s : State) : State :=
  let s1 := s.setLine { s.line with lastBreak := some c }
  if s.line.condition == .brk then breakNotice c false none s1
  else
    let s2 := setCondition .brk s1
    breakNotice c true (some (entering s2)) (enterReject breakMark s2)

end Sys2Proof.Machine
end

