-- ==== Sys2Proof/Machine/Stations.lean ====
section
/-! DEFINITION. The slitter-scorer stations (chapter 4): loading, positioning, engagement, late engagement, faults; tool heads,
spares and remaps; the reactions to a withdrawal, a retirement, a purge and a production clear. -/

namespace Sys2Proof.Machine

/-! ## Heads in service -/

/-- One bit for each working head of a group. -/
def groupMask (g : HeadGroup) : BitVec 16 := BitVec.ofNat 16 (2 ^ g.size - 1)

/-- The bit of a working head (R190). -/
def headBit (head : Nat) : BitVec 16 := if head = 0 then 0#16 else BitVec.twoPow 16 (head - 1)

/-- The working heads in service (R81): not retired, or stood in for by a spare that is not retired. -/
def inService (g : HeadGroup) (h : HeadSet) : BitVec 16 :=
  (~~~h.retired ||| (if h.spareRetired then 0#16 else headBit h.mapping.head)) &&& groupMask g

/-- How many bits are set. -/
def bitCount (v : BitVec 16) : Nat := (List.range 16).countP fun k => v.getLsbD k

/-- The usable count of a group (R81). -/
def usableCount (g : HeadGroup) (h : HeadSet) : Nat := bitCount (inService g h)

/-- The heads in service of the four groups (R84). -/
def servicePattern (p : PerGroup HeadSet) : PerGroup (BitVec 16) :=
  ⟨inService .s1 p.s1, inService .s2 p.s2, inService .c1 p.c1, inService .c2 p.c2⟩

def usableCounts (p : PerGroup HeadSet) : PerGroup Nat := (servicePattern p).map bitCount

/-- The smaller of the usable counts of the two stations (R32). -/
def usableInBoth (s : State) (g : HeadGroup) : Nat :=
  min (usableCount g (s.stations.a.groups.get g)) (usableCount g (s.stations.b.groups.get g))

/-- How many positions lie on side 1, below the deckle centre, and on side 2 (R32). -/
def sideOne (deckle : Nat) (ps : List Nat) : Nat := ps.countP fun p => decide (p < deckle * 5)
def sideTwo (deckle : Nat) (ps : List Nat) : Nat := ps.countP fun p => decide (deckle * 5 ≤ p)

/-- The pattern of a setup fits (R32). -/
def patternFits (s : State) (t : Setup) : Bool :=
  decide (sideOne t.deckle t.slits ≤ usableInBoth s .s1) && decide (sideTwo t.deckle t.slits ≤ usableInBoth s .s2)
    && decide (sideOne t.deckle t.scores ≤ usableInBoth s .c1) && decide (sideTwo t.deckle t.scores ≤ usableInBoth s .c2)

/-- The re-check of every QUEUED setup; a change of the head's HELD flag goes to the planner (R42). -/
def recheckHeld (s : State) : State :=
  let queued := s.sched.queued.map fun t => { t with held := !patternFits s t }
  let s1 := s.setSched { s.sched with queued := queued }
  if s.sched.queued.head?.map Setup.held = queued.head?.map Setup.held then s1 else replanAll s1

/-! ## Position output and late engagement -/

/-- The position output is issued for a setup: POSITIONING, timer started, time and estimate recorded (R75, R84, R185). -/
def positionOutput (st : Station) (t : Setup) (r : StationRec) (s : State) : State :=
  let cfg := s.cfg.stations.get st
  setStation st
    { r with state := .positioning, timer := some (s.now + cfg.timeout), lastOutput := some s.now, estimate := cfg.estimate }
    (emit (.position st t.deckle t.slits t.scores (servicePattern r.groups)) s)

/-- The trailing extent of a setup's RUN_CHANGE mark grows (R79). -/
def growRunMark (id k : Nat) (s : State) : State :=
  s.setWeb { s.web with
    marks := s.web.marks.map fun m => if m.kind == .runChange id then { m with trail := grown m.trail k } else m }

/-- A late engagement begins with the mark where it stands (R79). -/
def beginLate (st : Station) (id : Nat) (s : State) : State :=
  match runMark s id with
  | some m =>
    let x : Int := stationPosition s st
    let s1 := growRunMark id (m.upEnd - x).toNat s
    setStation st { s.stations.get st with late := some { setup := id, slack := (x - m.upEnd).toNat } } s1
  | none => s

/-- A late station spends its slack, then grows the zone it missed, on an advance of n (R79). -/
def lateAdvance (n : Nat) (st : Station) (s : State) : State :=
  let r := s.stations.get st
  match r.late with
  | some le =>
    setStation st { r with late := some { le with slack := le.slack - n } } (growRunMark le.setup (n - le.slack) s)
  | none => s

/-! ## Loading -/

/-- The setup that follows another in setup order. -/
def follower (id : Nat) (ts : List Setup) : Option Setup :=
  match ts.dropWhile fun t => t.id != id with
  | _ :: t :: _ => some t
  | _ => none

/-- The candidate of a FREE station (R74). -/
def candidate (s : State) (st : Station) : Option Setup :=
  match (s.stations.get st).late with
  | some le => findSetup s le.setup
  | none =>
    match (s.stations.get st.other).pattern with
    | some id => follower id (setupOrder s)
    | none => (s.sched.current.toList ++ s.sched.queued).find? fun t => !hasArrived s t (stationPosition s st)

/-- The setup's RUN_CHANGE mark is in the web map at or beyond the station. -/
def markBeyond (s : State) (id : Nat) (st : Station) : Bool :=
  match runMark s id with
  | some m => decide (stationPosition s st ≤ m.pos)
  | none => false

/-- A FREE station's load attempt (R75). -/
def loadAttempt (st : Station) (s : State) : State :=
  let r := s.stations.get st
  match r.state with
  | .free =>
    match candidate s st with
    | some t =>
      let s1 := positionOutput st t { r with pattern := some t.id } s
      if r.late.isNone && markBeyond s t.id st then beginLate st t.id s1 else s1
    | none => s
  | _ => s

/-- The attempts that follow a change at a station: its own, then the other's, which a change of its pattern calls for, then
its own again for a change of the other's pattern (R75). An attempt of a station that is not FREE does nothing. -/
def loadAttempts (st : Station) (s : State) : State := loadAttempt st (loadAttempt st.other (loadAttempt st s))

/-! ## Engagement and retraction -/

/-- The engage output is issued and the station is ENGAGED; a late engagement ends (R78, R79). -/
def engageStation (st : Station) (s : State) : State :=
  setStation st { s.stations.get st with state := .engaged, late := none } (emit (.engage st) s)

/-- An ENGAGED station retracts into a state and a pattern, or into FAULT when a fault is pending (R76). -/
def retractStation (st : Station) (next : StationState) (pattern : Option Nat) (s : State) : State :=
  let r := s.stations.get st
  setStation st
    { r with state := if r.faultPending then .fault else next, pattern := pattern, faultPending := false }
    (emit (.retract st) s)

/-- A station that has not engaged stops, drops its pattern and becomes FREE (R79, R80). -/
def abandonPattern (st : Station) (s : State) : State :=
  setStation st { s.stations.get st with state := .free, pattern := none, timer := none, late := none } (emit (.retract st) s)

/-- *in position* (R76): READY, and ENGAGED at once when the station is late (R79) or its setup's mark is gone (R75). -/
def inPosition (st : Station) (s : State) : State :=
  let r := s.stations.get st
  match r.state with
  | .positioning =>
    let s1 := setStation st { r with state := .ready, timer := none } s
    let gone := (r.pattern.bind (findSetup s)).any fun t => t.markState == some .pastKnife
    if r.late.isSome || gone then engageStation st s1 else s1
  | _ => s

/-- STATION_FAULT (R76, R191): station, reason TIMEOUT 0 or POSITION_FAULT 1, loaded setup, the mark DEFERRED. -/
def stationFaultNotice (st : Station) (reason : Nat) (deferred : Bool) (s : State) : State :=
  notice 0xCB#8 (uns 1 st.code ++ uns 1 reason ++ idOr0 1 (s.stations.get st).pattern ++ flag deferred) s

/-- The positioning timer expires (R76). -/
def positioningTimeout (st : Station) (s : State) : State :=
  let r := s.stations.get st
  match r.state, r.timer with
  | .positioning, some due =>
    stationFaultNotice st 0 false (setStation st { r with state := .fault, timer := none } (reachTime due s))
  | _, _ => s

/-- *position fault* (R76). -/
def positionFault (st : Station) (s : State) : State :=
  let r := s.stations.get st
  match r.state with
  | .positioning | .ready => stationFaultNotice st 1 false (setStation st { r with state := .fault, timer := none } s)
  | .engaged => stationFaultNotice st 1 true (setStation st { r with faultPending := true } s)
  | .free | .fault => s

/-- The station's last arrival is recorded (R73, R78). -/
def recordArrival (st : Station) (id : Nat) (o : ArrivalOutcome) (s : State) : State :=
  setStation st { s.stations.get st with lastArrival := some (id, o) } s

/-- The arrival of setup id's RUN_CHANGE mark at a station (R78, Figure 4-2). -/
def stationArrival (st : Station) (id : Nat) (s : State) : State :=
  let r := s.stations.get st
  if r.pattern = some id then
    match r.state with
    | .ready => recordArrival st id .engaged (engageStation st s)
    | .positioning | .fault => recordArrival st id .late (beginLate st id s)
    | .engaged | .free => recordArrival st id .none s
  else if r.pattern.isSome then
    match r.state with
    | .engaged => recordArrival st id .retracted (loadAttempts st (retractStation st .free none s))
    | .positioning =>
      if r.late.isSome then recordArrival st id .retracted (loadAttempts st (abandonPattern st s))
      else recordArrival st id .none s
    | .fault =>
      if r.late.isSome then
        recordArrival st id .none (loadAttempts st.other (setStation st { r with pattern := none, late := none } s))
      else recordArrival st id .none s
    | .ready | .free => recordArrival st id .none s
  else recordArrival st id .none s

/-! ## What the schedule hands over -/

/-- A change of the setup queue or a setup start: station A attempts first, then B (R75). -/
def stationsTakeQueue (s : State) : State := loadAttempts .a s

/-- A station gives up a withdrawn setup (R80). -/
def giveUpWithdrawn (id : Nat) (st : Station) (s : State) : State :=
  let r := s.stations.get st
  if r.pattern = some id then
    match r.state with
    | .positioning | .ready => loadAttempts st (abandonPattern st s)
    | .fault => loadAttempts st (setStation st { r with state := .free, pattern := none } s)
    | .engaged | .free => s
  else s

/-- A station gives up a retired setup (R80). -/
def giveUpRetired (id : Nat) (st : Station) (s : State) : State :=
  let r := s.stations.get st
  if r.pattern = some id then
    match r.state with
    | .positioning | .ready => loadAttempts st (abandonPattern st s)
    | .engaged => loadAttempts st (retractStation st .free none s)
    | .fault => loadAttempts st.other (setStation st { r with pattern := none } s)
    | .free => s
  else s

/-- A station at a purge, before the load attempts (R89). -/
def purgeStation (st : Station) (s : State) : State :=
  let r := { s.stations.get st with late := none }
  let keep := match s.sched.current, r.pattern with
    | some cur, some id => cur.id == id
    | _, _ => false
  let pattern := if keep then r.pattern else none
  match r.state with
  | .engaged => retractStation st (if keep then .ready else .free) pattern (setStation st r s)
  | .fault => setStation st { r with pattern := pattern } s
  | .positioning | .ready | .free =>
    setStation st (if keep then r else { r with state := .free, pattern := none, timer := none }) s

/-- The stations at a purge (R89). -/
def purgeStations (s : State) : State := loadAttempts .a (purgeStation .b (purgeStation .a s))

/-- A station at a production clear (R90). -/
def clearStation (st : Station) (s : State) : State :=
  let r := s.stations.get st
  let s1 := match r.state with
    | .engaged | .positioning => emit (.retract st) s
    | .free | .ready | .fault => s
  setStation st
    { r with state := .free, pattern := none, timer := none, late := none, faultPending := false, lastArrival := none } s1

/-! ## Tool heads -/

/-- The consequences of a change of a station's heads: a change of a usable count goes to the schedule (R81, R42), and a
change of the heads in service re-issues the position output in POSITIONING and READY (R84). -/
def headsChanged (st : Station) (old : PerGroup HeadSet) (s : State) : State :=
  let r := s.stations.get st
  let s1 := if usableCounts old == usableCounts r.groups then s else recheckHeld s
  if servicePattern old == servicePattern r.groups then s1
  else
    match r.state, r.pattern.bind (findSetup s1) with
    | .positioning, some t | .ready, some t => positionOutput st t (s1.stations.get st) s1
    | _, _ => s1

/-- A station's head group changed, with its consequences. -/
def updateHeads (st : Station) (g : HeadGroup) (f : HeadSet → HeadSet) (s : State) : State :=
  let r := s.stations.get st
  headsChanged st r.groups (setStation st { r with groups := r.groups.set g (f (r.groups.get g)) } s)

/-- The head is retired; head 0 is the spare (R81). -/
def HeadSet.isRetired (h : HeadSet) (head : Nat) : Bool :=
  if head = 0 then h.spareRetired else (h.retired &&& headBit head) != 0#16

def HeadSet.retire (h : HeadSet) (head : Nat) : HeadSet :=
  if head = 0 then { h with spareRetired := true } else { h with retired := h.retired ||| headBit head }

/-- A head's retired flag cleared; a soft mapping to it is dropped (R83). -/
def HeadSet.restore (h : HeadSet) (head : Nat) : HeadSet :=
  if head = 0 then { h with spareRetired := false }
  else { h with retired := h.retired &&& ~~~headBit head,
                mapping := if h.mapping = .soft head then .none else h.mapping }

/-- The head set a head name names. -/
def headSet (s : State) (h : HeadName) : HeadSet := (s.stations.get h.st).groups.get h.group

/-- *head fault* (R82). -/
def headFault (h : HeadName) (s : State) : State :=
  let r := s.stations.get h.st
  let set := r.groups.get h.group
  if set.isRetired h.head then s
  else
    let s1 := setStation h.st { r with groups := r.groups.set h.group (set.retire h.head) } s
    headsChanged h.st r.groups
      (notice 0xCC#8 (uns 1 h.st.code ++ uns 1 h.group.code ++ uns 1 h.head ++ uns 1 r.state.code) s1)

/-- A head as three bytes of a request name it, head 0 being the spare (R81). -/
def parseHead (st g head : Nat) : Option HeadName :=
  match Station.ofCode st, HeadGroup.ofCode g with
  | some st, some g => if head ≤ g.size then some { st := st, group := g, head := head } else none
  | _, _ => none

/-- A working head as three bytes of a request name it (R81, R85, R86). -/
def parseWorkingHead (st g head : Nat) : Option HeadName :=
  (parseHead st g head).filter fun h => h.head != 0

/-- HEAD_RETIRE (R82). -/
def headRetire (st g head : Nat) (s : State) : State × Answer :=
  match parseHead st g head with
  | none => (s, .plain .outOfRange)
  | some h =>
    if (headSet s h).isRetired h.head then (s, .plain .ok)
    else (updateHeads h.st h.group (fun q => q.retire h.head) s, .plain .ok)

/-- HEAD_RESTORE (R83). -/
def headRestore (st g head : Nat) (s : State) : State × Answer :=
  match parseHead st g head with
  | none => (s, .plain .outOfRange)
  | some h =>
    let set := headSet s h
    if h.head ≠ 0 ∧ set.mapping = .hard h.head then (s, .plain .wrongState)
    else if set.isRetired h.head then (updateHeads h.st h.group (fun q => q.restore h.head) s, .plain .ok)
    else (s, .plain .ok)

/-- The station may be remapped (R85, R87). -/
def remappable (s : State) (h : HeadName) : Bool :=
  let r := s.stations.get h.st
  (r.state == .free || r.state == .ready) && (headSet s h).isRetired h.head

/-- The spare is hard-mapped (R85, R87). -/
def Mapping.isHard : Mapping → Bool
  | .hard _ => true
  | _ => false

/-- SOFT_REMAP (R85). -/
def softRemap (st g head : Nat) (s : State) : State × Answer :=
  match parseWorkingHead st g head with
  | none => (s, .plain .outOfRange)
  | some h =>
    let set := headSet s h
    if !remappable s h then (s, .plain .wrongState)
    else if set.mapping.isHard || set.spareRetired then (s, .plain .noSpare)
    else if set.mapping = .soft h.head then (s, .plain .ok)
    else (updateHeads h.st h.group (fun q => { q with mapping := .soft h.head }) s, .plain .ok)

/-- REMAP_PREPARE (R86). -/
def remapPrepare (st g head : Nat) (s : State) : State × Answer :=
  match parseWorkingHead st g head with
  | none => (s.setRemap .none, .plain .outOfRange)
  | some h => (s.setRemap (.prepared h), .plain .ok)

/-- REMAP_CONFIRM (R86). -/
def remapConfirm (st g head : Nat) (s : State) : State × Answer :=
  match parseWorkingHead st g head with
  | none => (s.setRemap .none, .plain .outOfRange)
  | some h =>
    if s.remap = .prepared h then (s.setRemap (.confirmed h), .plain .ok)
    else (s.setRemap .none, .plain .sequenceBroken)

/-- The hard mappings as the image holds them (R187). -/
def hardMappings (s : State) : PerStation (PerGroup Nat) :=
  let f := fun h : HeadSet => match h.mapping with
    | .hard k => k
    | _ => 0
  ⟨s.stations.a.groups.map f, s.stations.b.groups.map f⟩

/-- The store begins to write its image: a copy is taken and the image is INVALID until the write ends (R187). -/
def beginWrite (cause : WriteCause) (s : State) : State :=
  s.setStore { s.store with
    writing := some (cause, { cfg := s.cfg, hard := hardMappings s }), imageValid := false, image := none }

/-- HARD_REMAP (R86, R87). -/
def hardRemap (st g head : Nat) (s : State) : State × Answer :=
  let s0 := s.setRemap .none
  match parseWorkingHead st g head with
  | none => (s0, .plain .outOfRange)
  | some h =>
    let set := headSet s h
    if s.remap ≠ .confirmed h then (s0, .plain .sequenceBroken)
    else if !configured s then (s0, .plain .unconfigured)
    else if s.store.writing.isSome then (s0, .plain .busy)
    else if !remappable s h then (s0, .plain .wrongState)
    else if set.mapping.isHard then (s0, .plain .noSpare)
    else (beginWrite .hardRemap (updateHeads h.st h.group (fun q => { q with mapping := .hard h.head }) s0), .plain .ok)

/-- STATION_RESET (R77). -/
def stationReset (st : Nat) (s : State) : State × Answer :=
  match Station.ofCode st with
  | none => (s, .plain .outOfRange)
  | some st =>
    let r := s.stations.get st
    match r.state with
    | .fault =>
      (loadAttempts st (setStation st { r with state := .free, pattern := none, faultPending := false } s), .plain .ok)
    | _ => (s, .plain .wrongState)

/-! ## STATION_QUERY -/

/-- One group block of the reply (Figure 12-6). -/
def groupBlock (g : HeadGroup) (h : HeadSet) : List Byte :=
  uns 2 h.retired.toNat ++ flag h.spareRetired ++ uns 1 h.mapping.code ++ uns 1 h.mapping.head ++ uns 1 (usableCount g h)

/-- The remap sequence in the reply (Figure 12-6). -/
def remapBlock : Remap → List Byte
  | .none => [0, 0, 0, 0]
  | .prepared h => uns 1 1 ++ uns 1 h.st.code ++ uns 1 h.group.code ++ uns 1 h.head
  | .confirmed h => uns 1 2 ++ uns 1 h.st.code ++ uns 1 h.group.code ++ uns 1 h.head

/-- STATION_QUERY (R88, Figure 12-6). Before the first position output the time is the field's largest value (R90). -/
def stationQuery (st : Nat) (s : State) : State × Answer :=
  match Station.ofCode st with
  | none => (s, .plain .outOfRange)
  | some st =>
    let r := s.stations.get st
    let since := match r.lastOutput with
      | some t => s.now - t
      | none => Config.max32
    (s, { code := .ok,
          data := uns 1 st.code ++ uns 1 r.state.code ++ idOr0 1 r.pattern ++ uns 4 since ++ flag r.timer.isSome
            ++ flag r.late.isSome ++ uns 4 ((r.late.map LateEngagement.slack).getD 0) ++ flag r.faultPending
            ++ idOr0 1 (r.lastArrival.map Prod.fst) ++ uns 1 ((r.lastArrival.map fun a => a.2.code).getD 0)
            ++ groupBlock .s1 r.groups.s1 ++ groupBlock .s2 r.groups.s2 ++ groupBlock .c1 r.groups.c1
            ++ groupBlock .c2 r.groups.c2 ++ remapBlock s.remap })

end Sys2Proof.Machine
end

