-- ==== Sys2Proof/Machine/Schedule.lean ====
section
/-! DEFINITION. Orders and the setup queue (chapter 2): the requests on both tables, the start attempt, deferral, retirement,
carry-forward, and the schedule's part of a purge and of a production clear. -/

namespace Sys2Proof.Machine

/-! ## Orders -/

/-- The ranges of Figure 2-1. -/
def inRange (lo hi x : Nat) : Bool := decide (lo ≤ x) && decide (x ≤ hi)

/-- An order takes its place in order of id (section 2.1). -/
def insertOrder (r : OrderRec) : List OrderRec → List OrderRec
  | [] => [r]
  | x :: xs => if x.id < r.id then x :: insertOrder r xs else r :: x :: xs

/-- ORDER_ADD (R25). -/
def orderAdd (id cut outs wanted overrun underrun bundle : Nat) (s : State) : State × Answer :=
  if !(inRange 1 65535 id && inRange 3000 70000 cut && inRange 1 8 outs && inRange 1 999999 wanted
      && inRange 0 99999 overrun && inRange 0 99999 underrun && inRange 1 5000 bundle) then
    (s, .plain .outOfRange)
  else if (findOrder s id).isSome then (s, .plain .duplicate)
  else if Config.orderEntries ≤ s.sched.orders.length then (s, .plain .tableFull)
  else
    let r : OrderRec :=
      { id := id, cut := cut, outs := outs, wanted := wanted, overrun := overrun, underrun := underrun, bundle := bundle,
        cancel := false, state := .queued, good := 0, stacked := 0, joint := 0, defect := 0, brk := 0, transition := 0,
        surplus := 0, diverted := 0, outcome := none }
    (s.setSched { s.sched with orders := insertOrder r s.sched.orders }, .plain .ok)

/-- ORDER_AMEND (R27). -/
def orderAmend (id wanted overrun underrun : Nat) (s : State) : State × Answer :=
  match findOrder s id with
  | none => (s, .plain .notFound)
  | some r =>
    if !(inRange 1 999999 wanted && inRange 0 99999 overrun && inRange 0 99999 underrun) then (s, .plain .outOfRange)
    else if r.state = .closed then (s, .plain .wrongState)
    else
      (updateOrder id (fun q => { q with wanted := wanted, overrun := overrun, underrun := underrun }) s, .plain .ok)

/-- ORDER_CANCEL (R28). -/
def orderCancel (id : Nat) (s : State) : State × Answer :=
  match findOrder s id with
  | none => (s, .plain .notFound)
  | some r =>
    if r.state = .closed ∨ namedAhead s id then (s, .plain .wrongState)
    else if r.cancel then (s, .plain .ok)
    else if r.state = .queued then
      (closureTest id (updateOrder id (fun q => { q with cancel := true, state := .fed }) s), .plain .ok)
    else (updateOrder id (fun q => { q with cancel := true }) s, .plain .ok)

/-- A stacker still holds sheets of the order (R29). -/
def stackerHolds (s : State) (o : Nat) (lane : Lane) : Bool :=
  let d := s.delivery.get lane
  Pile.holds d.bundle o || Pile.holds d.fork o

/-- ORDER_RELEASE (R29). -/
def orderRelease (id : Nat) (s : State) : State × Answer :=
  match findOrder s id with
  | none => (s, .plain .notFound)
  | some r =>
    if r.state ≠ .closed ∨ stackerHolds s id .u ∨ stackerHolds s id .l then (s, .plain .wrongState)
    else (s.setSched { s.sched with orders := s.sched.orders.filter fun q => q.id != id }, .plain .ok)

/-- ORDER_QUERY (R29): every field of Figure 2-1 in its order. -/
def orderQuery (id : Nat) (s : State) : State × Answer :=
  match findOrder s id with
  | none => (s, .plain .notFound)
  | some r =>
    (s, { code := .ok,
          data := uns 2 r.id ++ uns 3 r.cut ++ uns 1 r.outs ++ uns 3 r.wanted ++ uns 3 r.overrun ++ uns 3 r.underrun
            ++ uns 2 r.bundle ++ flag r.cancel ++ uns 1 r.state.code ++ uns 3 r.good ++ uns 3 r.stacked ++ uns 3 r.joint
            ++ uns 3 r.defect ++ uns 3 r.brk ++ uns 3 r.transition ++ uns 3 r.surplus ++ uns 3 r.diverted
            ++ optional 1 (r.outcome.map OrderOutcome.code) })

/-! ## Setups -/

/-- A list is strictly increasing (R31). -/
def increasing : List Nat → Bool
  | [] => true
  | [_] => true
  | x :: y :: rest => decide (x < y) && increasing (y :: rest)

/-- The ranges of a SETUP_QUEUE request (R31, check 2). -/
def setupInRange (id orderU targetU presentL orderL targetL deckle boundary grade waste : Nat) (slits scores : List Nat) :
    Bool :=
  inRange 1 255 id && inRange 1 65535 orderU && inRange 1 999999 targetU && inRange 0 1 presentL
    && (presentL == 0 || (inRange 1 65535 orderL && inRange 1 999999 targetL))
    && inRange 1000 3300 deckle && inRange 2 12 slits.length && inRange 0 20 scores.length
    && increasing slits && increasing scores
    && (slits ++ scores).all (fun p => inRange 1 (deckle * 10 - 1) p)
    && slits.all (fun p => !scores.contains p)
    && (if presentL == 0 then boundary == 0 else inRange 2 (slits.length - 1) boundary)
    && inRange 0 15 grade && inRange 0 50000 waste

/-- The orders a request names are all there, and none is CLOSED or cancelled (R31, check 5). -/
def ordersUsable (s : State) (os : List Nat) : Result :=
  if os.any fun o => (findOrder s o).isNone then .notFound
  else if os.any fun o => (findOrder s o).any fun r => r.state == .closed || r.cancel then .wrongState
  else .ok

/-- The live setups (R30). -/
def liveCount (s : State) : Nat := (setupOrder s).length

/-- An order becomes ACTIVE when it was in a state (R26). -/
def activate (was : OrderState) (os : List Nat) (s : State) : State :=
  s.setSched { s.sched with
    orders := s.sched.orders.map fun r => if os.contains r.id && r.state == was then { r with state := .active } else r }

/-- SETUP_QUEUE (R31). -/
def setupQueue (id orderU targetU presentL orderL targetL deckle boundary grade waste : Nat) (slits scores : List Nat)
    (s : State) : State × Answer :=
  if !configured s then (s, .plain .unconfigured)
  else if !setupInRange id orderU targetU presentL orderL targetL deckle boundary grade waste slits scores then
    (s, .plain .outOfRange)
  else if (findSetup s id).isSome then (s, .plain .duplicate)
  else if Config.setupEntries ≤ liveCount s then (s, .plain .tableFull)
  else
    let runL : Option LaneRun := if presentL = 0 then none else some { order := orderL, target := targetL, credited := 0 }
    let t0 : Setup :=
      { id := id, held := false, runU := { order := orderU, target := targetU, credited := 0 }, runL := runL,
        deckle := deckle, slits := slits, scores := scores, boundary := if presentL = 0 then none else some boundary,
        grade := grade, waste := waste, planned := 0, produced := 0, markState := none }
    let t := { t0 with planned := plannedLength s t0 }
    match ordersUsable s t.orderIds with
    | .ok =>
      if !patternFits s t then (s, .plain .patternUnfit)
      else if t.planned < s.cfg.minSetup then (s, .plain .shortSetup)
      else
        let ahead := s.sched.queued.length
        let s1 := activate .fed t.orderIds (s.setSched { s.sched with queued := s.sched.queued ++ [t] })
        (stationsTakeQueue (replanAll s1), { code := .ok, data := uns 6 t.planned ++ uns 1 ahead })
    | r => (s, .plain r)

/-- SETUP_WITHDRAW (R43). -/
def setupWithdraw (id : Nat) (s : State) : State × Answer :=
  match s.sched.queued.find? fun t => t.id == id with
  | some t =>
    let s1 := s.setSched { s.sched with queued := s.sched.queued.filter fun q => q.id != id }
    let s2 := replanAll (feedOrders t.orderIds s1)
    (stationsTakeQueue (giveUpWithdrawn id .b (giveUpWithdrawn id .a s2)), .plain .ok)
  | none => if (findSetup s id).isSome then (s, .plain .wrongState) else (s, .plain .notFound)

/-- The code of a live setup's state: QUEUED 0, CURRENT 1, ON_LINE 2 (R30, R190). -/
def setupStateCode (s : State) (id : Nat) : Nat :=
  if s.sched.queued.any fun t => t.id == id then 0
  else if s.sched.current.any fun t => t.id == id then 1
  else 2

/-- SETUP_QUERY (R44): every field of Figure 2-3 in its order. The HELD flag is one byte without a presence byte, 0 in a setup that
is not QUEUED (log 16). -/
def setupQuery (id : Nat) (s : State) : State × Answer :=
  match findSetup s id with
  | none => (s, .plain .notFound)
  | some t =>
    (s, { code := .ok,
          data := uns 1 t.id ++ uns 1 (setupStateCode s id) ++ flag t.held ++ uns 2 t.runU.order ++ uns 3 t.runU.target
            ++ flag t.runL.isSome ++ idOr0 2 (t.runL.map LaneRun.order) ++ uns 3 ((t.runL.map LaneRun.target).getD 0)
            ++ uns 2 t.deckle ++ listed t.slits (uns 2) ++ listed t.scores (uns 2) ++ optional 1 t.boundary
            ++ uns 1 t.grade ++ uns 2 t.waste ++ uns 6 t.planned ++ uns 6 t.produced
            ++ optional 1 (t.markState.map MarkState.code) ++ uns 3 t.runU.credited
            ++ optional 3 (t.runL.map LaneRun.credited) })

/-- SCHEDULE_READ (R44): ids and states, HELD flags of the QUEUED setups, the CURRENT setup, the deferral reason (log 16). -/
def scheduleRead (s : State) : State × Answer :=
  let all := s.sched.queued ++ s.sched.current.toList ++ s.sched.online.reverse
  (s, { code := .ok,
        data := listed all (fun t => uns 1 t.id ++ uns 1 (setupStateCode s t.id))
          ++ listed s.sched.queued (fun t => flag t.held)
          ++ optional 6 (s.sched.current.map Setup.planned) ++ optional 6 (s.sched.current.map Setup.produced)
          ++ optional 1 (s.sched.current.bind fun t => t.markState.map MarkState.code)
          ++ optional 1 (s.sched.episode.map Deferral.code) })

/-! ## Starting -/

/-- The length a CURRENT setup has run in this advance beyond its planned length, as R38 counts it: the part beyond in the
advance that first reached it, the whole of every later one. The planned length is the one standing at the attempt (log 29). -/
def excessRun (n : Nat) (cur : Setup) : Nat :=
  if cur.produced - n < cur.planned then cur.produced - cur.planned else n

def countOverrun (k : Nat) (s : State) : State :=
  s.setAccounts { s.accounts with overrun := raised s.accounts.overrun k }

/-- The notice of a deferral reason, with the CURRENT setup id or none (R38). -/
def deferralNotice (d : Deferral) (s : State) : State :=
  let cur := idOr0 1 (s.sched.current.map Setup.id)
  match d with
  | .dry => notice 0xC5#8 cur s
  | .held => notice 0xC4#8 (idOr0 1 (s.sched.queued.head?.map Setup.id) ++ cur) s
  | .starved => notice 0xC6#8 cur s

/-- A deferral episode begins unless one of the same reason is in progress (R38). -/
def beginEpisode (d : Deferral) (s : State) : State :=
  if s.sched.episode = some d then s
  else
    let s1 := deferralNotice d (s.setSched { s.sched with episode := some d })
    let a := s1.accounts
    let s2 := match d with
      | .starved => s1.setAccounts { a with starvation := raised a.starvation 1 }
      | .dry | .held => s1.setAccounts { a with heldDry := raised a.heldDry 1 }
    countEvent .deferrals s2

/-- A refused start attempt (R36, R38). -/
def deferStart (n : Nat) (d : Deferral) (s : State) : State :=
  let s1 := beginEpisode d s
  match s.sched.current with
  | some cur => countOverrun (excessRun n cur) s1
  | none => s1

/-- SETUP_STARTED (R37, R191). -/
def startedNotice (t : Setup) (former : Option Nat) (overshoot : Nat) (s : State) : State :=
  notice 0xC2#8 (uns 1 t.id ++ idOr0 1 former ++ uns 2 overshoot ++ uns 6 t.planned ++ uns 6 s.enc.axis) s

/-- A setup start (R37): the head of the FIFO becomes CURRENT on an advance of n. The overshoot reads the planned length standing
at the attempt (log 29). An open extension names a setup that is CURRENT no longer, so its final length will not be added
(R40, log 22). -/
def startSetup (n : Nat) (head : Setup) (rest : List Setup) (s : State) : State :=
  let former := s.sched.current
  let late := match former with
    | some cur => decide (cur.planned ≤ cur.produced - n)
    | none => false
  let overshoot := match former with
    | some cur => if late then 0 else cur.produced - cur.planned
    | none => 0
  let s1 := enterRunChange overshoot head.waste head.id s
  let s2 := s1.setSched { s1.sched with
    queued := rest, current := some { head with markState := some .onBoard, produced := overshoot },
    online := s1.sched.online ++ former.toList, episode := none, openExtension := none }
  let s3 := activate .queued head.orderIds s2
  let s4 := startedNotice head (former.map Setup.id) overshoot s3
  let s5 := countEvent .setupStarts (if late then countOverrun n s4 else s4)
  let s6 := feedOrders ((former.map Setup.orderIds).getD []) s5
  stationsTakeQueue (replanAll s6)

/-- The start attempt of an advance of n is due (R36). -/
def attemptDue (s : State) : Bool :=
  match s.sched.current with
  | some cur => (cur.markState == some .onBoard || cur.markState == some .pastKnife) && decide (cur.planned ≤ cur.produced)
  | none => s.line.condition == .run

/-- The start attempt (R36). -/
def startAttempt (n : Nat) (s : State) : State :=
  if !attemptDue s then s
  else
    match s.sched.queued with
    | [] => deferStart n .dry s
    | head :: rest =>
      if head.held then deferStart n .held s
      else if freeRecords s ≤ Config.poolReserve then deferStart n .starved s
      else startSetup n head rest s

/-- The restart mark of a CURRENT setup kept by a purge (R158). -/
def restartMark (s : State) : State :=
  match s.sched.current with
  | some cur =>
    if s.line.condition = .run ∧ cur.markState = some .pending ∧ Config.poolReserve < freeRecords s then
      let s1 := enterRunChange 0 cur.waste cur.id s
      s1.setSched { s1.sched with current := some { cur with markState := some .onBoard, produced := 0 } }
    else s
  | none => s

/-! ## Retirement -/

/-- A setup has stood ON_LINE long enough: its own mark is gone and a later setup's mark has arrived at PK (R45). -/
def retireDue (s : State) (t : Setup) (later : List Setup) : Bool :=
  t.markState == some .pastKnife && later.any fun q => hasArrived s q s.cfg.pk

/-- The ON_LINE setups to retire, in order of start (R45). -/
def dueForRetirement (s : State) : List Setup → List Setup
  | [] => []
  | t :: rest =>
    if retireDue s t (rest ++ s.sched.current.toList) then t :: dueForRetirement s rest else dueForRetirement s rest

/-- A retirement but for the stations: the record is freed, SETUP_RETIRED is sent, the orders are tested (R45). -/
def retireRecord (t : Setup) (s : State) : State :=
  let s1 := s.setSched { s.sched with online := s.sched.online.filter fun q => q.id != t.id }
  closureTests t.orderIds (notice 0xC3#8 (uns 1 t.id) s1)

/-- A retirement at the knife, handed to the stations as well (R45, R80). -/
def retireSetup (t : Setup) (s : State) : State :=
  giveUpRetired t.id .b (giveUpRetired t.id .a (retireRecord t s))

/-- The retirements due (R45). -/
def retireAll (s : State) : State := (dueForRetirement s s.sched.online).foldl (fun s t => retireSetup t s) s

/-! ## Carry-forward -/

/-- A setup whose first lane naming the order takes more sheets (R41). -/
def Setup.carry (t : Setup) (o outs : Nat) : Setup :=
  let add := fun r : LaneRun => { r with target := min (r.target + outs) 999999 }
  if t.runU.order = o then { t with runU := add t.runU }
  else { t with runL := t.runL.map fun r => if r.order = o then add r else r }

/-- The first setup of a list that names the order takes the sheets, and its planned length is recomputed (R33, R41). -/
def carryInto (s : State) (o outs : Nat) : List Setup → List Setup
  | [] => []
  | t :: rest =>
    if t.names o then
      let t' := t.carry o outs
      { t' with planned := fit48 (plannedLength s t') } :: rest
    else t :: carryInto s o outs rest

/-- A reject cut handed to the schedule (R41). -/
def carryForward (o outs : Nat) (uncovered : Bool) (s : State) : State :=
  if uncovered && (s.sched.queued.any fun t => t.names o) then
    replanAll (s.setSched { s.sched with queued := carryInto s o outs s.sched.queued })
  else s

/-! ## Purge and production clear -/

/-- The lengths that remain to be made in the present lanes (R46). -/
def remainingLength (s : State) (t : Setup) : Nat :=
  (t.runs.map fun r => laneLength s r.order (r.target - r.credited)).foldl max 0

/-- The ON_LINE setups retire at a purge, in order of start (R46). -/
def retireOnline (s : State) : State := s.sched.online.foldl (fun s t => retireRecord t s) s

/-- The schedule's own state at a purge (R46); the hand-off to the splice planner is `replanRestated`. -/
def purgeSchedule (s : State) : State :=
  let s1 := retireOnline s
  let restate := fun t : Setup =>
    { t with planned := fit48 (max s1.cfg.minSetup (t.waste + remainingLength s1 t)), produced := 0,
             markState := some .pending }
  s1.setSched { s1.sched with current := s1.sched.current.map restate, episode := none, openExtension := none }

/-- The restated planned length of a purge is handed to the splice planner (R46, R70). Without a CURRENT setup there is none to hand
over, so no READY stand plans again, although Figure 3-8 says 'replanned where READY' without that condition (log 33). -/
def replanRestated (s : State) : State := if s.sched.current.isSome then replanAll s else s

/-- The schedule's own state at a production clear: both tables empty (R47). The queue's change goes to the planner after it. -/
def clearSchedule (s : State) : State :=
  s.setSched { orders := [], queued := [], current := none, online := [], episode := none, openExtension := none }

end Sys2Proof.Machine
end

