-- ==== Sys2Proof/Machine/Delivery.lean ====
section
/-! DEFINITION. The delivery queues, the divert gate and the stackers (chapter 6). -/

namespace Sys2Proof.Machine

/-! ## The queue -/

/-- A cut record handed over by a knife lane (R97). -/
structure CutRec where
  order : Option Nat
  cls : SheetClass
  length : Nat
  outs : Nat
  axis : Nat
  deriving DecidableEq, Repr

/-- The axis count at a batch's j-th cut, counting the first as cut 0 (R110). -/
def Batch.axisOf (b : Batch) (j : Nat) : Nat := (b.firstAxis + j * b.length) % Config.axisModulus

/-- The cut joins the tail batch (R110). -/
def Batch.takes (b : Batch) (c : CutRec) : Bool :=
  b.order == c.order && b.cls == c.cls && b.length == c.length && b.axisOf b.cuts == c.axis && decide (b.cuts < 65535)

/-- The cut joins the tail batch or starts a new one (R110). -/
def joinQueue (c : CutRec) : List Batch → List Batch
  | [] => [{ order := c.order, cls := c.cls, length := c.length, outs := c.outs, cuts := 1, firstAxis := c.axis, delivered := 0 }]
  | [b] => if b.takes c then [{ b with cuts := b.cuts + 1 }] else b :: joinQueue c []
  | b :: b' :: rest => b :: joinQueue c (b' :: rest)

/-- The lane's delivery queue takes a cut record (R110). -/
def enqueueCut (lane : Lane) (c : CutRec) (s : State) : State :=
  let d := s.delivery.get lane
  setDelivery lane { d with queue := joinQueue c d.queue } s

/-! ## The stacker -/

/-- The divert output is issued when the disposition differs from the value last issued (R112). -/
def setGate (lane : Lane) (g : Disposition) (s : State) : State :=
  let d := s.delivery.get lane
  if d.divert = g then s else emit (.divertGate lane g) (setDelivery lane { d with divert := g } s)

/-- A tally raised, saturating (R97). -/
def tally (n k : Nat) : Nat := sat Config.maxTally (n + k)

/-- A GOOD cut is laid: the order's stacked tally rises (R112). -/
def layCut (lane : Lane) (o outs : Nat) (s : State) : State :=
  setGate lane .stack (updateOrder o (fun q => { q with stacked := tally q.stacked outs }) s)

/-- A GOOD cut is diverted: the tallies, the accounts and the counters take it (R112, R161, R164). -/
def divertGood (lane : Lane) (o outs : Nat) (s : State) : State :=
  let s1 := updateOrder o (fun q => { q with good := q.good - outs, diverted := tally q.diverted outs }) s
  let la := s1.accounts.lanes.get lane
  let s2 := s1.setAccounts { s1.accounts with
    lanes := s1.accounts.lanes.set lane { la with diverted := raised la.diverted outs } }
  setGate lane .divert (countDiverted lane (some o) outs s2)

/-- The bundle size of an order. -/
def bundleSize (s : State) (o : Nat) : Nat := ((findOrder s o).map OrderRec.bundle).getD 0

/-- A GOOD cut offered in CHANGING (R116). -/
def offerFork (lane : Lane) (o outs : Nat) (s : State) : State :=
  let d := s.delivery.get lane
  let count := (d.fork.map Pile.count).getD 0
  if (d.fork.isNone || Pile.holds d.fork o) && decide (count + outs ≤ (s.cfg.lanes.get lane).forkCapacity) then
    layCut lane o outs (setDelivery lane
      { d with fork := some { order := o, count := count + outs },
               waiting := d.waiting || decide (bundleSize s o ≤ count + outs) } s)
  else divertGood lane o outs s

/-- A GOOD cut offered in STACKING (R114). -/
def offerBundle (lane : Lane) (o outs : Nat) (s : State) : State :=
  let d := s.delivery.get lane
  let count := (d.bundle.map Pile.count).getD 0
  if d.bundle.isNone || Pile.holds d.bundle o then
    let s1 := layCut lane o outs (setDelivery lane { d with bundle := some { order := o, count := count + outs } } s)
    if bundleSize s o ≤ count + outs then startChange lane .size s1 else s1
  else offerFork lane o outs (startChange lane .order s)

/-- A delivered cut is stacked or diverted by its class and the stacker (R112, R114, R116, R118). -/
def deliverCut (lane : Lane) (b : Batch) (s : State) : State :=
  match b.cls, b.order with
  | .good, some o =>
    match (s.delivery.get lane).stacker with
    | .stacking => offerBundle lane o b.outs s
    | .changing => offerFork lane o b.outs s
    | .fault => divertGood lane o b.outs s
  | _, _ => setGate lane .divert s

/-- The front batch's next cut has reached the stacker end (R111). -/
def frontReached (s : State) (lane : Lane) (b : Batch) : Bool :=
  let cut := b.axisOf b.delivered
  decide ((s.cfg.lanes.get lane).transit ≤ (s.enc.axis + Config.axisModulus - cut) % Config.axisModulus)

/-- One cut leaves the front of the queue (R111): the batch leaves with its last cut, and its order is tested (R121). -/
def deliverFront (lane : Lane) (b : Batch) (rest : List Batch) (s : State) : State :=
  let s1 := deliverCut lane b s
  let d := s1.delivery.get lane
  if b.cuts ≤ b.delivered + 1 then closureTests b.order.toList (setDelivery lane { d with queue := rest } s1)
  else setDelivery lane { d with queue := { b with delivered := b.delivered + 1 } :: rest } s1

/-- The lane delivers every cut that has reached the stacker end, oldest first, at most so many (R111). -/
def deliverReached (lane : Lane) : Nat → State → State
  | 0, s => s
  | k + 1, s =>
    match (s.delivery.get lane).queue with
    | b :: rest => if frontReached s lane b then deliverReached lane k (deliverFront lane b rest s) else s
    | [] => s

/-- The cuts a lane's queue still holds. -/
def heldCuts (s : State) (lane : Lane) : Nat :=
  ((s.delivery.get lane).queue.map fun b => max 1 (b.cuts - b.delivered)).sum

/-- A lane's deliveries of one advance (R111). -/
def deliverLane (lane : Lane) (s : State) : State := deliverReached lane (heldCuts s lane) s

/-! ## Stacker events and requests -/

/-- *change done* (R117). With the waiting flag set and an empty fork no change begins, and the change cause becomes none
(log 31). -/
def changeDone (lane : Lane) (s : State) : State :=
  let d := s.delivery.get lane
  match d.stacker with
  | .changing =>
    let s1 := setDelivery lane
      { d with stacker := .stacking, bundle := d.fork, fork := none, cause := none, waiting := false, waitCause := none,
               timer := none } s
    match d.waiting, d.fork with
    | true, some p =>
      let s2 := startChange lane .size s1
      if bundleSize s p.order ≤ p.count then s2
      else
        setDelivery lane { s2.delivery.get lane with
          cause := d.waitCause.map fun w => match w with | .eject => ChangeCause.eject | .closing => .closing } s2
    | _, _ => s1
  | .stacking | .fault => s

/-- The change timer expires (R118). STACKER_FAULT: lane, cause, then order and count of bundle and of fork (log 16). -/
def changeTimeout (lane : Lane) (s : State) : State :=
  let d := s.delivery.get lane
  match d.stacker, d.timer with
  | .changing, some due =>
    let pile := fun p : Option Pile => idOr0 2 (p.map Pile.order) ++ uns 2 ((p.map Pile.count).getD 0)
    notice 0xCD#8
      (uns 1 lane.code ++ uns 1 ((d.cause.map ChangeCause.code).getD 0) ++ pile d.bundle ++ pile d.fork)
      (setDelivery lane { d with stacker := .fault, waiting := false, waitCause := none, timer := none } (reachTime due s))
  | _, _ => s

/-- STACK_EJECT (R119). -/
def stackEject (lane : Nat) (s : State) : State × Answer :=
  match Lane.ofCode lane with
  | none => (s, .plain .outOfRange)
  | some lane =>
    let d := s.delivery.get lane
    match d.stacker with
    | .stacking => if d.bundle.isSome then (startChange lane .eject s, .plain .ok) else (s, .plain .wrongState)
    | .changing =>
      (setDelivery lane
        { d with waiting := true, waitCause := if d.waitCause = some .closing then some .closing else some .eject } s,
        .plain .ok)
    | .fault => (s, .plain .wrongState)

/-- STACKER_RESET (R120). -/
def stackerReset (lane : Nat) (s : State) : State × Answer :=
  match Lane.ofCode lane with
  | none => (s, .plain .outOfRange)
  | some lane =>
    let d := s.delivery.get lane
    match d.stacker with
    | .fault =>
      (setDelivery lane
        { d with stacker := .stacking, bundle := none, fork := none, cause := none, waiting := false, waitCause := none } s,
        .plain .ok)
    | _ => (s, .plain .wrongState)

/-- DELIVERY_QUERY (R123, R191, log 16). -/
def deliveryQuery (lane : Nat) (s : State) : State × Answer :=
  match Lane.ofCode lane with
  | none => (s, .plain .outOfRange)
  | some lane =>
    let d := s.delivery.get lane
    let pile := fun p : Option Pile => idOr0 2 (p.map Pile.order) ++ uns 2 ((p.map Pile.count).getD 0)
    (s, { code := .ok,
          data := uns 1 d.stacker.code ++ pile d.bundle ++ pile d.fork ++ optional 1 (d.cause.map ChangeCause.code)
            ++ flag d.waiting ++ optional 1 (d.waitCause.map WaitCause.code) ++ flag d.timer.isSome
            ++ listed d.queue (fun b => idOr0 2 b.order ++ uns 1 b.cls.rank ++ uns 3 b.length ++ uns 1 b.outs
                ++ uns 2 b.cuts ++ uns 6 b.firstAxis ++ uns 2 b.delivered)
            ++ uns 1 d.divert.code })

/-- A lane's delivery at a production clear (R125): the power-on values, and the divert output issued with DIVERT. -/
def clearDelivery (lane : Lane) (s : State) : State :=
  emit (.divertGate lane .divert) (setDelivery lane DeliveryRec.initial s)

end Sys2Proof.Machine
end

