-- ==== Sys2Proof/Machine/Knives.lean ====
section
/-! DEFINITION. The duplex knife (chapter 5): the crossing report (R11), cuts and classes, run changes at the knife, trim, and
the lanes' part of a purge and of a production clear. -/

namespace Sys2Proof.Machine

/-! ## The crossing report -/

/-- A mark whose zone crossed PK in the advance, with the first and last offsets it covers (R11). -/
structure Crossing where
  cls : SheetClass
  uncovered : Bool
  first : Nat
  last : Nat
  deriving DecidableEq, Repr

/-- The class a mark gives the board it covers (R95). -/
def MarkKind.sheetClass : MarkKind → SheetClass
  | .runChange _ => .transition
  | .joint _ _ => .joint
  | .defect _ => .defect
  | .brk => .brk

/-- The entry of one mark in the crossing report of an advance of n (R11). -/
def crossingOf (pk n : Nat) (m : Mark) : Option Crossing :=
  let lo : Int := max m.upEnd pk
  let hi : Int := min m.downEnd (pk + n - 1)
  if lo ≤ hi then
    some { cls := m.kind.sheetClass, uncovered := m.isReject && !m.covered,
           first := (pk + n - hi).toNat, last := (pk + n - lo).toNat }
  else none

/-- The crossing report of an advance of n, from the map after the movement (R11). -/
def crossingReport (s : State) (n : Nat) : List Crossing := s.web.marks.filterMap (crossingOf s.cfg.pk n)

/-- The arrivals at a position in an advance of n: the setup and the overshoot, in map order (R10). -/
def arrivals (s : State) (x n : Nat) : List (Nat × Nat) :=
  s.web.marks.filterMap fun m =>
    match m.kind with
    | .runChange id => if x ≤ m.pos ∧ m.pos < x + n then some (id, m.pos - x) else none
    | _ => none

/-! ## Lengths -/

/-- An order's cut length with a trim correction, clamped (R92). -/
def trimmed (cut : Nat) (trim : Int) : Nat := (clamp Config.minCut Config.maxCut ((cut : Int) + trim)).toNat

/-- The cut length of an order, 0 when there is none. -/
def cutLength (s : State) (o : Nat) : Nat := ((findOrder s o).map OrderRec.cut).getD 0

/-- The effective length of a lane (R92). -/
def effectiveLength (s : State) (lane : Lane) : Nat :=
  let r := s.lanes.get lane
  match r.active with
  | some j => trimmed (cutLength s j.order) r.trim
  | none => s.cfg.idleLength

/-- The new rate limit of a length, mm/s (R130, R141). -/
def rateLimit (s : State) (length : Nat) : Nat := length * s.cfg.maxRate / 600

/-! ## Cuts -/

/-- The classes that cover offsets a to b are taken by a sheet (R95). -/
def takeClasses (report : List Crossing) (a b : Nat) (start : Option SheetClass × Bool) : Option SheetClass × Bool :=
  report.foldl (fun acc c =>
    if c.first ≤ b ∧ a ≤ c.last then
      (some (match acc.1 with | some d => d.higher c.cls | none => c.cls), acc.2 || c.uncovered)
    else acc) start

/-- The class of a sheet that ends at a cut (R96). -/
def classify (s : State) (active : Option LaneJob) (pending : Option SheetClass) : SheetClass :=
  match pending with
  | some c => c
  | none =>
    match active.bind fun j => findOrder s j.order with
    | none => .unassigned
    | some o =>
      if o.cancel then .surplus
      else if o.wanted ≤ o.good ∧ o.wanted + o.overrun < o.good + o.outs then .surplus
      else .good

/-- A class tally of an order raised by the outs (R97). -/
def OrderRec.raiseTally (r : OrderRec) (c : SheetClass) (k : Nat) : OrderRec :=
  match c with
  | .good => { r with good := tally r.good k }
  | .joint => { r with joint := tally r.joint k }
  | .defect => { r with defect := tally r.defect k }
  | .brk => { r with brk := tally r.brk k }
  | .transition => { r with transition := tally r.transition k }
  | .surplus => { r with surplus := tally r.surplus k }
  | .unassigned => r

/-- A GOOD cut credits the active setup in this lane while it is live (R97). -/
def creditSetup (lane : Lane) (outs : Nat) (s : State) : State :=
  match (s.lanes.get lane).active with
  | some j =>
    let add := fun r : LaneRun => { r with credited := tally r.credited outs }
    updateSetup j.setup (fun t =>
      match lane with
      | .u => { t with runU := add t.runU }
      | .l => { t with runL := t.runL.map add }) s
  | none => s

/-- The three reject classes (R96). -/
def rejectClass : SheetClass → Bool
  | .brk | .joint | .defect => true
  | .transition | .unassigned | .surplus | .good => false

/-- A cut taken whole with everything it hands on (R97): tallies, delivery, carry-forward, accounts and counters, cut output.
A sheet of class UNASSIGNED carries no order (R96). -/
def handCut (lane : Lane) (cls : SheetClass) (order : Option Nat) (length : Nat) (uncovered : Bool) (axis : Nat) (s : State) :
    State :=
  let order := if cls = .unassigned then none else order.filter fun o => (findOrder s o).isSome
  let outs := match order.bind (findOrder s) with
    | some r => r.outs
    | none => 1
  let s1 := match order with
    | some o =>
      let q := updateOrder o (fun r => r.raiseTally cls outs) s
      if cls = .good then creditSetup lane outs q else q
    | none => s
  let s2 := enqueueCut lane
    { order := order, cls := cls, length := length, outs := outs, axis := axis % Config.axisModulus } s1
  let s3 := match order with
    | some o => if rejectClass cls then carryForward o outs uncovered s2 else s2
    | none => s2
  let la := s3.accounts.lanes.get lane
  let ca := la.classes.get cls
  let s4 := s3.setAccounts { s3.accounts with
    lanes := s3.accounts.lanes.set lane
      { la with classes := la.classes.set cls { sheets := raised ca.sheets outs, board := raised ca.board length } } }
  emit (.cut lane) (countCut lane order cls outs length s4)

/-- The lane takes its shadow length after a cut (R93). -/
def takeShadow (lane : Lane) (s : State) : State :=
  let r := s.lanes.get lane
  match r.shadow with
  | some l => emit (.knifeLength lane l) (setLane lane { r with length := l, shadow := none } s)
  | none => s

/-- Offsets a to b of an advance counted and cut on the lane's active length (R94, R95, R98). `axis` is the axis count before
the advance. -/
def stretch (lane : Lane) (report : List Crossing) (axis a b : Nat) (s : State) : State :=
  let r := s.lanes.get lane
  if !r.enabled || decide (b < a) then s
  else
    let k := r.length - r.since
    if b + 1 - a < k then
      let p := takeClasses report a b (r.pendingClass, r.uncovered)
      setLane lane { r with since := r.since + (b + 1 - a), pendingClass := p.1, uncovered := p.2 } s
    else
      let c := a + k - 1
      let p := takeClasses report a c (r.pendingClass, r.uncovered)
      let q := takeClasses report (c + 1) b (none, false)
      let s1 := handCut lane (classify s r.active p.1) (r.active.map LaneJob.order) (r.since + k) p.2 (axis + c) s
      takeShadow lane (setLane lane { r with since := b - c, pendingClass := q.1, uncovered := q.2 } s1)

/-! ## Run changes -/

/-- A lane releases an order: it is handed to the closure test (R102). -/
def releaseOrder (former : Option LaneJob) (s : State) : State := closureTests (former.map LaneJob.order).toList s

/-- The board a lane holds is cut at the point, as TRANSITION at the least, with its former order (R99, R101). -/
def cutPiece (lane : Lane) (r : LaneRec) (axis : Nat) (s : State) : State :=
  handCut lane (match r.pendingClass with | some c => c.higher .transition | none => .transition)
    (r.active.map LaneJob.order) r.since r.uncovered axis s

/-- A knife point passed above the lane's new rate limit (R141). -/
def knifeOvershoot (lane : Lane) (s : State) : State :=
  if rateLimit s (s.lanes.get lane).length < s.gov.reference then
    s.setAccounts { s.accounts with overshoots := raised s.accounts.overshoots 1 }
  else s

/-- An enabled lane takes the arrival of a setup that has it (R99). -/
def changeOver (lane : Lane) (id : Nat) (run : LaneRun) (axis : Nat) (s : State) : State :=
  let r := s.lanes.get lane
  let length := trimmed (cutLength s run.order) r.trim
  let boundary := decide (s.cfg.minSpacing ≤ r.since) || decide (length ≤ r.since)
  let s1 := if boundary then cutPiece lane r axis s else s
  let taken := { r with active := some { setup := id, order := run.order }, length := length, shadow := none }
  let taken' := if boundary then { taken with since := 0, pendingClass := none, uncovered := false } else taken
  let s2 := emit (.knifeLength lane length) (setLane lane taken' s1)
  releaseOrder r.active (knifeOvershoot lane s2)

/-- A disabled lane is enabled at the arrival of a setup that has it (R100). -/
def enableLane (lane : Lane) (id : Nat) (run : LaneRun) (s : State) : State :=
  let r := s.lanes.get lane
  let length := trimmed (cutLength s run.order) r.trim
  knifeOvershoot lane (emit (.knifeLength lane length) (setLane lane
    { r with enabled := true, active := some { setup := id, order := run.order }, length := length, shadow := none,
             since := 0, pendingClass := none, uncovered := false } s))

/-- An enabled lane cuts away what it holds and stops (R101). -/
def closeLane (lane : Lane) (axis : Nat) (s : State) : State :=
  let r := s.lanes.get lane
  let s1 := if 0 < r.since then cutPiece lane r axis s else s
  let s2 := setLane lane
    { r with enabled := false, active := none, length := s.cfg.idleLength, shadow := none, since := 0,
             pendingClass := none, uncovered := false, session := none } s1
  releaseOrder r.active (emit (.knifeLength lane s.cfg.idleLength) s2)

/-- A lane at the arrival of a setup at PK (R98 to R101). -/
def laneArrival (lane : Lane) (id axis : Nat) (s : State) : State :=
  match findSetup s id with
  | none => s
  | some t =>
    match t.run lane, (s.lanes.get lane).enabled with
    | some run, true => changeOver lane id run axis s
    | some run, false => enableLane lane id run s
    | none, true => closeLane lane axis s
    | none, false => s

/-- The stretches of an advance from offset a on, with the points (setup, offset) still to come (R98). -/
def laneStretches (lane : Lane) (report : List Crossing) (axis n : Nat) : Nat → List (Nat × Nat) → State → State
  | a, [], s => stretch lane report axis a n s
  | a, (id, q) :: ps, s =>
    laneStretches lane report axis n q ps (laneArrival lane id (axis + q - 1) (stretch lane report axis a (q - 1) s))

/-- A lane's whole advance of n (R94, R98). -/
def laneAdvance (lane : Lane) (report : List Crossing) (points : List (Nat × Nat)) (axis n : Nat) (s : State) : State :=
  laneStretches lane report axis n 1 points s

/-! ## Trim -/

/-- A changed trim makes the new effective length the shadow of a lane with an active setup (R103, R104). -/
def shadowTrim (s : State) (r : LaneRec) : LaneRec :=
  match r.active with
  | some j => { r with shadow := some (trimmed (cutLength s j.order) r.trim) }
  | none => r

/-- The step of a range in tenths (Figure 5-5). -/
def TrimRange.step : TrimRange → Int
  | .coarse => 10
  | .fine => 1

/-- The most steps either way (Figure 5-5). -/
def TrimRange.steps : TrimRange → Int
  | .coarse => 25
  | .fine => 50

/-- A correction brought into a range at TRIM_ENTER (R103). -/
def TrimRange.bring : TrimRange → Int → Int
  | .coarse, t => t.tdiv 10 * 10
  | .fine, t => clamp (-50) 50 t

/-- TRIM_ENTER (R103). -/
def trimEnter (lane range : Nat) (s : State) : State × Answer :=
  match Lane.ofCode lane, TrimRange.ofCode range with
  | some lane, some range =>
    let r := s.lanes.get lane
    if !r.enabled || r.session.isSome then (s, .plain .wrongState)
    else
      let t := range.bring r.trim
      let r1 := { r with session := some range, trim := t }
      let r2 := if t = r.trim then r1 else shadowTrim s r1
      (setLane lane r2 s, { code := .ok, data := sgn 1 (t.tdiv range.step) })
  | _, _ => (s, .plain .outOfRange)

/-- TRIM_SET (R104). -/
def trimSet (lane : Nat) (steps : Int) (s : State) : State × Answer :=
  match Lane.ofCode lane with
  | none => (s, .plain .outOfRange)
  | some lane =>
    if steps < -127 then (s, .plain .outOfRange)
    else
      let r := s.lanes.get lane
      match r.session with
      | none => (s, .plain .wrongState)
      | some range =>
        let k := clamp (-range.steps) range.steps steps
        let t := k * range.step
        (setLane lane (shadowTrim s { r with trim := t }) s,
          { code := if k = steps then .ok else .clamped, data := sgn 2 t })

/-- TRIM_EXIT (R105). -/
def trimExit (lane : Nat) (s : State) : State × Answer :=
  match Lane.ofCode lane with
  | none => (s, .plain .outOfRange)
  | some lane =>
    let r := s.lanes.get lane
    if r.session.isSome then (setLane lane { r with session := none } s, .plain .ok) else (s, .plain .wrongState)

/-- KNIFE_QUERY (R106, R191). -/
def knifeQuery (lane : Nat) (s : State) : State × Answer :=
  match Lane.ofCode lane with
  | none => (s, .plain .outOfRange)
  | some lane =>
    let r := s.lanes.get lane
    let order := r.active.bind fun j => findOrder s j.order
    (s, { code := .ok,
          data := flag r.enabled ++ idOr0 1 (r.active.map LaneJob.setup) ++ uns 3 r.length ++ optional 3 r.shadow
            ++ flag r.shadow.isSome ++ uns 3 r.since ++ optional 1 (r.pendingClass.map SheetClass.rank) ++ flag r.uncovered
            ++ sgn 2 r.trim ++ optional 1 (r.session.map TrimRange.code) ++ idOr0 2 (r.active.map LaneJob.order)
            ++ optional 3 (order.map OrderRec.cut) ++ optional 1 (order.map OrderRec.outs) ++ uns 3 (effectiveLength s lane) })

/-! ## Purge and production clear -/

/-- A lane at a purge (R107). -/
def purgeLane (lane : Lane) (s : State) : State :=
  let r := s.lanes.get lane
  let idle := s.cfg.idleLength
  let r1 := { r with active := none, shadow := none, since := 0, uncovered := false }
  let s1 :=
    if r.enabled then emit (.knifeLength lane idle) (setLane lane { r1 with length := idle, pendingClass := some .unassigned } s)
    else setLane lane { r1 with pendingClass := none } s
  releaseOrder r.active s1

/-- The lanes at a production clear (R108): the power-on values but for the trim correction. -/
def clearLanes (s : State) : State :=
  let idle := s.cfg.idleLength
  let s1 := setLane .u { LaneRec.initial true idle with trim := s.lanes.u.trim } s
  let s2 := setLane .l { LaneRec.initial false idle with trim := s.lanes.l.trim } s1
  emit (.knifeLength .u idle) s2

end Sys2Proof.Machine
end

