-- ==== Sys2Proof/Machine/Governor.lean ====
section
/-! DEFINITION. The speed governor (chapter 7): the braking curve, the eight limiter families, the ceiling, the ramp, the bond
limit, the glue setpoints, the evaluation, and the governor's own events and requests. -/

namespace Sys2Proof.Machine

/-! ## The braking curve -/

/-- The bits of the root from bit k - 1 down, over what is found so far. -/
def isqrtFrom : Nat → Nat → Nat → Nat
  | 0, _, r => r
  | k + 1, n, r => isqrtFrom k n (if (r + 2 ^ k) * (r + 2 ^ k) ≤ n then r + 2 ^ k else r)

/-- isqrt (00_scope.md, Arithmetic): the greatest r with r * r at most n. -/
def isqrt (n : Nat) : Nat := isqrtFrom (Nat.log2 n / 2 + 1) n 0

/-- A limiter value as it is held (R126). -/
def held (v : Nat) : Nat := min v Config.maxLimit

/-- The effective distance in mm (R127). -/
def effectiveDistance (s : State) (d : Nat) : Nat := d / 10 - s.cfg.reaction

/-- The braking limit B(vt, d) (R127). -/
def braking (s : State) (vt d : Nat) : Nat := held (isqrt (vt ^ 2 + 2 * s.cfg.decel * effectiveDistance s d))

/-! ## The limiters -/

/-- STOP (R128). -/
def stopLimit (s : State) : Option Nat := if s.line.condition = .run then none else some 0

/-- SPLICE of one stand slot (R129, Figure 7-4). -/
def spliceLimit (s : State) (i : Fin 6) : Option Nat :=
  let cfg := s.cfg.stands.get i
  let st := s.stands.get i
  if !cfg.isPresent then none
  else if !st.feeding then (if cfg.role = .spare then none else some 0)
  else
    match st.state with
    | .ready | .armed | .firing => some (braking s cfg.spliceSpeed st.fireDistance)
    | .empty | .loaded | .fault | .broken | .exhausted => some (braking s 0 st.usable)

/-- The nearest RUN_CHANGE mark below PK whose setup has the lane: its distance to PK and what it runs there (R130). -/
def nearestChange (s : State) (lane : Lane) : Option (Nat × LaneRun) :=
  s.web.marks.findSome? fun m =>
    match m.kind with
    | .runChange id =>
      if m.pos < s.cfg.pk then
        ((findSetup s id).bind fun t => t.run lane).map fun run => (s.cfg.pk - m.pos, run)
      else none
    | _ => none

/-- The change term of a lane (R130). -/
def changeTerm (s : State) (lane : Lane) : Option Nat :=
  (nearestChange s lane).map fun c =>
    braking s (rateLimit s (trimmed (cutLength s c.2.order) (s.lanes.get lane).trim)) c.1

/-- The lesser of the terms that apply. -/
def lesser : Option Nat → Option Nat → Option Nat
  | some a, some b => some (min a b)
  | some a, none => some a
  | none, b => b

/-- KNIFE of one lane (R130). -/
def knifeLimit (s : State) (lane : Lane) : Option Nat :=
  let r := s.lanes.get lane
  lesser (if r.enabled then some (held (rateLimit s r.length)) else none) (changeTerm s lane)

/-- SLITTER of one station (R131). -/
def slitterLimit (s : State) (st : Station) : Option Nat :=
  let r := s.stations.get st
  match r.pattern.bind (runMark s) with
  | some m =>
    let x := stationPosition s st
    if m.pos < x then
      match r.state with
      | .positioning =>
        let elapsed := s.now - r.lastOutput.getD s.now
        if r.estimate ≤ elapsed then some s.cfg.creep
        else some (held ((x - m.pos) / 10 * 1000 / (r.estimate - elapsed)))
      | .fault => some s.cfg.creep
      | .free | .ready | .engaged => none
    else none
  | none => none

/-- STACKER of one lane (R132). -/
def stackerLimit (s : State) (lane : Lane) : Option Nat :=
  match (s.delivery.get lane).stacker, (s.lanes.get lane).active.bind fun j => findOrder s j.order with
  | .fault, _ | _, none => none
  | _, some o => some (held (ceilDiv o.bundle o.outs * o.cut * 100 / (s.cfg.lanes.get lane).changeTime))

/-- A value interpolated along points, its quotient truncated toward zero (R144, R145). -/
def interpolate : List (Nat × Nat) → Nat → Nat
  | [], _ => 0
  | [p], _ => p.2
  | p :: q :: rest, x =>
    if x ≤ p.1 then p.2
    else if x < q.1 then
      ((p.2 : Int) + (((q.2 : Int) - p.2) * ((x : Int) - p.1)).tdiv ((q.1 : Int) - p.1)).toNat
    else interpolate (q :: rest) x

/-- The governing grade (R133). -/
def governingGrade (s : State) : Nat := (s.sched.current.map Setup.grade).getD 0

/-- The bond speed of a grade at a temperature (R144). -/
def bondSpeed (s : State) (grade theta : Nat) : Nat :=
  let table := s.cfg.bond.getD grade []
  match table with
  | p :: _ =>
    if theta < p.temperature then s.cfg.creep else interpolate (table.map fun p => (p.temperature, p.speed)) theta
  | [] => s.cfg.creep

/-- BOND (R133, R143). -/
def bondLimit (s : State) : Nat :=
  match s.gov.temperature, s.gov.age with
  | some theta, .fresh | some theta, .aging => bondSpeed s (governingGrade s) theta
  | _, _ => s.cfg.creep

/-- Every limiter from its inputs as they stand (R128 to R134). -/
def computeLimits (s : State) : Limits :=
  { stop := stopLimit s
    splice := ⟨spliceLimit s 0, spliceLimit s 1, spliceLimit s 2, spliceLimit s 3, spliceLimit s 4, spliceLimit s 5⟩
    knife := ⟨knifeLimit s .u, knifeLimit s .l⟩
    slitter := ⟨slitterLimit s .a, slitterLimit s .b⟩
    stacker := ⟨stackerLimit s .u, stackerLimit s .l⟩
    bond := bondLimit s
    demand := s.gov.demand
    lineMax := s.cfg.lineMax }

/-! ## The ceiling -/

/-- The members in the order of R135, each with its number in its family: the stand, the lane or the station. The one member of
STOP, BOND, DEMAND and LINE_MAX, to which no rule gives a number, has 0 (log 39). -/
def Limits.members (l : Limits) : List (Family × Nat × Option Nat) :=
  [(.stop, 0, l.stop), (.splice, 0, l.splice.s0), (.splice, 1, l.splice.s1), (.splice, 2, l.splice.s2),
   (.splice, 3, l.splice.s3), (.splice, 4, l.splice.s4), (.splice, 5, l.splice.s5), (.knife, 0, l.knife.u),
   (.knife, 1, l.knife.l), (.slitter, 0, l.slitter.a), (.slitter, 1, l.slitter.b), (.stacker, 0, l.stacker.u),
   (.stacker, 1, l.stacker.l), (.bond, 0, some l.bond), (.demand, 0, some l.demand), (.lineMax, 0, some l.lineMax)]

/-- The first member that holds the least active value, after one that already does (R135). -/
def firstLeast (best : Family × Nat × Nat) : List (Family × Nat × Option Nat) → Family × Nat × Nat
  | [] => best
  | (f, m, some v) :: rest => firstLeast (if v < best.2.2 then (f, m, v) else best) rest
  | (_, _, none) :: rest => firstLeast best rest

/-- The binding limiter's family and member, and the ceiling (R135). LINE_MAX is always active, and it is the last. -/
def Limits.binding (l : Limits) : Family × Nat × Nat :=
  match l.members.find? fun m => m.2.2.isSome with
  | some (f, m, some v) => firstLeast (f, m, v) l.members
  | _ => (.lineMax, 0, l.lineMax)

/-- The limiters, the ceiling and the binding limiter are recomputed; a change of family is noticed and handed on (R126,
R135). -/
def takeLimits (s : State) : State :=
  let l := computeLimits s
  let b := l.binding
  let s1 := s.setGov { s.gov with limits := l, ceiling := b.2.2, bindFamily := b.1, bindMember := b.2.1 }
  if s.gov.bindFamily = b.1 then s1
  else
    conditionsChanged (notice 0xCE#8
      (uns 1 b.1.code ++ uns 1 b.2.1 ++ uns 1 s.gov.bindFamily.code ++ uns 2 b.2.2 ++ uns 2 s.gov.reference) s1)

/-! ## The ramp -/

/-- The rate in force for a direction (R138). The STOP limiter is active in BREAK. -/
def rateInForce (s : State) : Direction → Nat
  | .rising => s.cfg.accel
  | .falling => if s.line.condition = .brk then s.cfg.emergDecel else s.cfg.decel

/-- Where a segment has brought the reference (R138). -/
def Segment.reached (g : Segment) (now ceiling : Nat) : Nat :=
  let moved := g.rate * (now - g.startTime) / 1000
  match g.dir with
  | .rising => min ceiling (g.startRef + moved)
  | .falling => max ceiling (g.startRef - moved)

/-- The reference and the segment after R139 has cut them, where it does. -/
def cutReference (s : State) : Nat × Option Segment :=
  let g := s.gov
  let top := min g.demand s.cfg.lineMax
  if g.hold then (0, none) else if top < g.reference then (top, none) else (g.reference, g.segment)

/-- The reference and the segment after an evaluation (R138, R139, R140). -/
def movedReference (s : State) : Nat × Option Segment :=
  let g := s.gov
  let c := cutReference s
  if g.hold then c
  else if c.1 = g.ceiling then (c.1, none)
  else
    let dir : Direction := if c.1 < g.ceiling then .rising else .falling
    let fresh : Segment := { dir := dir, rate := rateInForce s dir, startRef := c.1, startTime := s.now }
    match c.2 with
    | some q =>
      if q.dir = dir ∧ q.rate = fresh.rate then
        let v := q.reached s.now g.ceiling
        (v, if v = g.ceiling then none else some q)
      else (c.1, some fresh)
    | none => (c.1, some fresh)

/-- Every stand makes its firing test; only an ARMED stand has one (R59, R126). -/
def firingTests (s : State) : State := slots.foldl (fun s i => firingTest i s) s

/-- The reference moves; a change is issued, and handed to the counter bank and then to the ARMED stands (R126, log 28). A stand
that fires hands its own change to the bank, a hand-off of its own (R166, R168). -/
def takeReference (s : State) : State :=
  let m := movedReference s
  let s1 := s.setGov { s.gov with reference := m.1, segment := m.2 }
  if s.gov.reference = m.1 then s1 else firingTests (conditionsChanged (emit (.speedReference m.1) s1))

/-- The ramp timer after an evaluation (R137). -/
def takeRampTimer (s : State) : State :=
  let g := s.gov
  s.setGov { g with
    rampTimer := if g.hold ∨ g.reference = g.ceiling then none else some (g.rampTimer.getD (s.now + Config.rampPeriod)) }

/-! ## Glue gap and preheat wrap -/

/-- The gap and wrap of a unit for a grade at a speed (R145). -/
def glueSetpoint (s : State) (unit : GlueUnit) (grade v : Nat) : GapWrap :=
  let table := (s.cfg.glue.get unit).getD grade []
  { gap := interpolate (table.map fun p => (p.speed, p.gap)) v, wrap := interpolate (table.map fun p => (p.speed, p.wrap)) v }

/-- How far two values lie apart. -/
def apart (a b : Nat) : Nat := max a b - min a b

/-- A unit issues its gap and its wrap, each outside its deadband or at a change of grade (R146). -/
def issueGlue (changed : Bool) (unit : GlueUnit) (s : State) : State :=
  let p := glueSetpoint s unit s.gov.grade s.gov.reference
  let last := s.gov.issuedGlue.get unit
  let gapOut := changed || decide (5 ≤ apart p.gap last.gap)
  let wrapOut := changed || decide (10 ≤ apart p.wrap last.wrap)
  let s1 := s.setGov { s.gov with
    issuedGlue := s.gov.issuedGlue.set unit
      { gap := if gapOut then p.gap else last.gap, wrap := if wrapOut then p.wrap else last.wrap } }
  let s2 := if gapOut then emit (.glueGap unit p.gap) s1 else s1
  if wrapOut then emit (.preheatWrap unit p.wrap) s2 else s2

/-- The glue outputs of an evaluation (R145, R146). -/
def takeGlue (s : State) : State :=
  let grade := governingGrade s
  let changed := s.gov.grade != grade
  let s1 := s.setGov { s.gov with grade := grade }
  issueGlue changed .db (issueGlue changed .sf2 (issueGlue changed .sf1 s1))

/-! ## The evaluation -/

/-- An evaluation (R136). A splice that fires within it changes no limiter, since B(splice speed, 0) is the value of ARMED and
of FIRING alike, so the evaluation that hand-off asks for would change nothing (log 3). -/
def evaluate (s : State) : State := (takeGlue (takeRampTimer (takeReference (takeLimits s)))).setEvalDue false

/-! ## The governor's own events -/

/-- The ramp timer expires: it restarts itself and an evaluation is made (R137). -/
def rampExpiry (s : State) : State :=
  match s.gov.rampTimer with
  | some due =>
    let s1 := reachTime due s
    needEvaluation (s1.setGov { s1.gov with rampTimer := some (due + Config.rampPeriod) })
  | none => s

/-- The positioning estimate of a station runs out (R131). -/
def estimateRunout (st : Station) (s : State) : State :=
  let r := s.stations.get st
  match r.state, r.lastOutput with
  | .positioning, some t => needEvaluation (reachTime (t + r.estimate) s)
  | _, _ => s

/-- A hot-plate reading (R142). -/
def hotPlateReading (tenthsC : Int) (s : State) : State :=
  if 0 ≤ tenthsC ∧ tenthsC ≤ 2500 then
    needEvaluation (s.setGov { s.gov with temperature := some tenthsC.toNat, tempTime := some s.now, age := .fresh })
  else s

/-- The temperature has aged: FRESH to AGING after 5,000 ms (R143). -/
def temperatureAging (s : State) : State :=
  match s.gov.age, s.gov.tempTime with
  | .fresh, some t =>
    let s1 := reachTime (t + Config.agingAfter) s
    needEvaluation (s1.setGov { s1.gov with age := .aging })
  | _, _ => s

/-- AGING to STALE after 30,000 ms (R143). -/
def temperatureStale (s : State) : State :=
  match s.gov.age, s.gov.tempTime with
  | .aging, some t =>
    let s1 := reachTime (t + Config.staleAfter) s
    needEvaluation (s1.setGov { s1.gov with age := .stale })
  | _, _ => s

/-! ## Requests -/

/-- SPEED_DEMAND (R134). -/
def speedDemand (speed : Nat) (s : State) : State × Answer :=
  let v := min speed s.cfg.lineMax
  (needEvaluation (s.setGov { s.gov with demand := v }),
    { code := if speed ≤ s.cfg.lineMax then .ok else .clamped, data := uns 2 v })

/-- GOVERNOR_QUERY (R147, R191, log 16). -/
def governorQuery (s : State) : State × Answer :=
  let g := s.gov
  let segment := match g.segment with
    | some q => flag true ++ uns 1 q.dir.code ++ uns 2 q.rate ++ uns 2 q.startRef ++ uns 4 (s.now - q.startTime)
    | none => flag false ++ uns 1 0 ++ uns 2 0 ++ uns 2 0 ++ uns 4 0
  let glue := fun p : GapWrap => uns 2 p.gap ++ uns 2 p.wrap
  (s, { code := .ok,
        data := (g.limits.members.flatMap fun m => optional 2 m.2.2) ++ uns 2 g.ceiling ++ uns 1 g.bindFamily.code
          ++ uns 1 g.bindMember ++ uns 2 g.reference ++ uns 2 g.demand ++ segment ++ flag g.rampTimer.isSome ++ flag g.hold
          ++ optional 2 g.temperature ++ uns 1 g.age.code ++ uns 1 g.grade ++ glue g.issuedGlue.sf1
          ++ glue g.issuedGlue.sf2 ++ glue g.issuedGlue.db })

end Sys2Proof.Machine
end

