-- ==== Sys2Proof/Machine/StandEvents.lean ====
section
/-! DEFINITION. The reel stands' own events and requests (chapter 3): joints, readings, preparation, confirmation, breaks,
exhaustion, loads, and the stands' part of a purge and of a production clear. -/

namespace Sys2Proof.Machine

/-- The slot exists on this line; the field inputs of one that does not are ignored (R48). -/
def slotPresent (s : State) (i : Fin 6) : Bool := (s.cfg.stands.get i).isPresent

/-! ## Pending joints -/

/-- The absorbed test: a zone lies wholly within the zone of one RUN_CHANGE mark (R68). -/
def isAbsorbed (s : State) (up down : Int) : Bool :=
  s.web.marks.any fun m => !m.isReject && decide (m.upEnd ≤ up) && decide (down ≤ m.downEnd)

/-- A stand enters its JOINT mark and its pending joint is removed; the firing test follows (R66, R67, R68). -/
def placeJoint (i : Fin 6) (source : JointSource) (pos widen : Nat) (s : State) : State :=
  let cfg := s.cfg.stands.get i
  let m : Mark :=
    { entry := 0, kind := .joint i source, pos := pos, lead := cfg.jointLead + widen, trail := cfg.jointTrail + widen,
      openSensor := false, openBreak := false, covered := false, merged := false }
  let a := s.accounts
  let s1 := if isAbsorbed s m.upEnd m.downEnd then
    s.setAccounts { a with absorbed := a.absorbed.set i (raised (a.absorbed.get i) 1) } else s
  let s2 := enterReject m s1
  firingTest i (setStand i { s2.stands.get i with joint := none } s2)

/-- A pending joint after an advance: computed at the join line without a sensor (R66), or once the tolerance has passed with
one (R67). -/
def jointTest (i : Fin 6) (s : State) : State :=
  let cfg := s.cfg.stands.get i
  match (s.stands.get i).joint with
  | some r =>
    if cfg.jointSensor then
      if r ≤ -(cfg.tolerance : Int) then
        placeJoint i .computed (-r).toNat cfg.tolerance (setStand i { s.stands.get i with late := true } s)
      else s
    else if r ≤ 0 then placeJoint i .computed (-r).toNat 0 s
    else s
  | none => s

/-- *joint sensed* (R67). -/
def jointSensed (i : Fin 6) (s : State) : State :=
  let st := s.stands.get i
  if slotPresent s i && (s.cfg.stands.get i).jointSensor then
    if st.joint.isSome then placeJoint i .sensed 0 0 s
    else if st.late then
      let s1 := setStand i { st with late := false } s
      s1.setAccounts { s1.accounts with lateJoints := raised s1.accounts.lateJoints 1 }
    else s
  else s

/-! ## Exhaustion and breaks -/

/-- The states that test exhaustion (R64). -/
def SpliceState.testsExhaustion : SpliceState → Bool
  | .empty | .loaded | .ready | .armed | .fault => true
  | .firing | .broken | .exhausted => false

/-- The exhaustion test of a stand (R64). -/
def exhaustionTest (i : Fin 6) (s : State) : State :=
  let st := s.stands.get i
  if st.feeding ∧ st.usable = 0 ∧ st.state.testsExhaustion then
    breakCause (.exhausted i) (setStand i { st with state := .exhausted, plan := none, reloaded := false } s)
  else s

/-- The web break input: the stand is BROKEN (R63), and the line takes the break cause in every state of a present stand
(R154). The stand reacts before the line, so its own break neither replans nor fires it, and a change of ANY_ARMED reaches the counter
bank before one of NOT_RUN (log 36). -/
def webBreak (i : Fin 6) (s : State) : State :=
  if slotPresent s i then
    let st := s.stands.get i
    let s1 := if st.state = .broken then s else
      setStand i { st with state := .broken, plan := none, timer := none, joint := none, late := false, reloaded := false } s
    breakCause (.web i) s1
  else s

/-! ## Readings -/

/-- A reading is refused (R53). -/
def RunningReel.refuses (r : RunningReel) (d : Nat) : Bool :=
  decide (r.loaded < d) || decide (r.last * 102 < d * 100) || decide (d < r.core)

/-- A diameter reading (R53, R54, R56, R64). A READY stand plans before the exhaustion test, so with U = 0 it may arm and fire and is then
not exhausted (log 35). -/
def diameterReading (i : Fin 6) (d : Nat) (s : State) : State :=
  let st := s.stands.get i
  match slotPresent s i, st.running with
  | true, some r =>
    if r.refuses d then s.setStands (s.stands.set i { st with refused := sat 65535 (st.refused + 1) })
    else
      let u := usableLength (s.cfg.stands.get i) d r.core r.caliper
      let s1 := setStand i { st with running := some { r with last := d, usable := u } } s
      exhaustionTest i (planStand i (lowTest i s1))
  | _, _ => s

/-! ## The splice cycle -/

/-- *standby prepared* (R55). -/
def standbyPrepared (i : Fin 6) (s : State) : State :=
  let st := s.stands.get i
  if slotPresent s i ∧ st.state = .loaded then planStand i (setStand i { st with state := .ready } s) else s

/-- A confirmed splice in the accounts, under its kind (R60, R162). -/
def countSplice (i : Fin 6) (k : PlanKind) (s : State) : State :=
  let a := s.accounts
  s.setAccounts (match k with
    | .targeted => { a with targeted := a.targeted.set i (raised (a.targeted.get i) 1) }
    | .reserve => { a with reserve := a.reserve.set i (raised (a.reserve.get i) 1) })

/-- *splice confirmed* (R60). -/
def spliceConfirmed (i : Fin 6) (s : State) : State :=
  let st := s.stands.get i
  let cfg := s.cfg.stands.get i
  match slotPresent s i, st.state, st.running, st.standby, st.plan with
  | true, .firing, some old, some sb, some plan =>
    let u := usableLength cfg sb.diameter sb.core sb.caliper
    let pb := webPathBoard cfg
    let reel : RunningReel :=
      { id := sb.id, loaded := sb.diameter, core := sb.core, caliper := sb.caliper, last := sb.diameter, usable := u }
    let s1 := setStand i { st with running := some reel, standby := none, state := .empty, plan := none, joint := some pb,
                                   late := false, refused := 0, timer := none } s
    let s2 := notice 0xC8#8
      (uns 1 i ++ uns 1 plan.kind.code ++ uns 4 old.id ++ uns 4 reel.id ++ uns 4 u ++ uns 3 pb) s1
    lowTest i (countEvent .splices (countSplice i plan.kind s2))
  | _, _, _, _, _ => s

/-- The splice timer expires (R61). -/
def spliceTimeout (i : Fin 6) (s : State) : State :=
  let st := s.stands.get i
  match st.state, st.timer with
  | .firing, some due =>
    notice 0xC9#8 (uns 1 i ++ idOr0 4 (st.standby.map StandbyReel.id))
      (setStand i { st with state := .fault, plan := none, timer := none } (reachTime due s))
  | _, _ => s

/-! ## Requests -/

/-- The slot a stand request names, or the refusal (R48). -/
def parseStand (s : State) (n : Nat) : Except Result (Fin 6) :=
  if h : n < 6 then (if slotPresent s ⟨n, h⟩ then .ok ⟨n, h⟩ else .error .notFound) else .error .outOfRange

/-- The fields of a REEL_LOAD in their ranges (R50, Figure 3-2). -/
def reelInRange (reelVariant reel diameter core caliper : Nat) : Bool :=
  inRange 0 1 reelVariant && inRange 1 4294967295 reel && inRange 150 2500 diameter && inRange 50 400 core
    && inRange 80 1500 caliper && decide (core < diameter)

/-- REEL_LOAD (R50, R51). -/
def reelLoad (stand reelVariant reel diameter core caliper : Nat) (s : State) : State × Answer :=
  if h : stand < 6 then
    let i : Fin 6 := ⟨stand, h⟩
    let st := s.stands.get i
    if !configured s then (s, .plain .unconfigured)
    else if !slotPresent s i then (s, .plain .notFound)
    else if !reelInRange reelVariant reel diameter core caliper then (s, .plain .outOfRange)
    else if reelVariant = 0 then
      match st.state with
      | .empty | .broken | .exhausted =>
        let r : RunningReel :=
          { id := reel, loaded := diameter, core := core, caliper := caliper, last := diameter,
            usable := usableLength (s.cfg.stands.get i) diameter core caliper }
        let reloaded := if st.state = .empty then st.reloaded else true
        (lowTest i (setStand i { st with running := some r, refused := 0, lowWarned := false, reloaded := reloaded } s),
          .plain .ok)
      | _ => (s, .plain .wrongState)
    else if st.state = .empty ∧ st.feeding then
      (setStand i { st with standby := some { id := reel, diameter := diameter, core := core, caliper := caliper },
                            state := .loaded } s, .plain .ok)
    else (s, .plain .wrongState)
  else (s, .plain .outOfRange)

/-- REEL_UNLOAD (R51). -/
def reelUnload (stand : Nat) (s : State) : State × Answer :=
  match parseStand s stand with
  | .error r => (s, .plain r)
  | .ok i =>
    let st := s.stands.get i
    match st.state with
    | .loaded | .ready => (lowTest i (setStand i { st with standby := none, plan := none, state := .empty } s), .plain .ok)
    | _ => (s, .plain .wrongState)

/-- SPLICE_FORCE (R62). -/
def spliceForce (stand : Nat) (s : State) : State × Answer :=
  match parseStand s stand with
  | .error r => (s, .plain r)
  | .ok i =>
    let st := s.stands.get i
    match st.state with
    | .ready | .armed =>
      (firingTest i (setStand i { st with state := .armed, plan := some { kind := .reserve, fire := 0 } } s), .plain .ok)
    | _ => (s, .plain .wrongState)

/-- STAND_RESET (R65). -/
def standReset (stand : Nat) (s : State) : State × Answer :=
  match parseStand s stand with
  | .error r => (s, .plain r)
  | .ok i =>
    let st := s.stands.get i
    match st.state with
    | .fault => (setStand i { st with state := .loaded } s, .plain .ok)
    | .broken | .exhausted =>
      if st.reloaded then
        (setStand i { st with standby := none, joint := none, reloaded := false, late := false, state := .empty } s,
          .plain .ok)
      else (s, .plain .wrongState)
    | _ => (s, .plain .wrongState)

/-- One bit of a flag byte. -/
def bitOf (k : Nat) (b : Bool) : Nat := if b then 2 ^ k else 0

/-- STAND_QUERY (R69, Figure 12-5). -/
def standQuery (stand : Nat) (s : State) : State × Answer :=
  match parseStand s stand with
  | .error r => (s, .plain r)
  | .ok i =>
    let st := s.stands.get i
    let cfg := s.cfg.stands.get i
    let run := fun f : RunningReel → Nat => (st.running.map f).getD 0
    let sb := fun f : StandbyReel → Nat => (st.standby.map f).getD 0
    (s, { code := .ok,
          data := uns 1 i ++ uns 1 cfg.role.code ++ uns 1 st.state.code
            ++ uns 1 (bitOf 0 st.running.isSome + bitOf 1 st.standby.isSome + bitOf 2 st.plan.isSome
                + bitOf 3 (st.plan.any fun p => p.kind == .reserve) + bitOf 4 st.joint.isSome + bitOf 5 st.late
                + bitOf 6 st.reloaded + bitOf 7 st.lowWarned)
            ++ flag st.timer.isSome ++ uns 4 (run RunningReel.id) ++ uns 2 (run RunningReel.loaded)
            ++ uns 2 (run RunningReel.core) ++ uns 2 (run RunningReel.caliper) ++ uns 2 (run RunningReel.last)
            ++ uns 4 (run RunningReel.usable) ++ uns 4 (sb StandbyReel.id) ++ uns 2 (sb StandbyReel.diameter)
            ++ uns 2 (sb StandbyReel.core) ++ uns 2 (sb StandbyReel.caliper) ++ uns 4 st.fireDistance
            ++ sgn 4 (st.joint.getD 0) ++ uns 2 st.refused ++ uns 4 (webPathBoard cfg) })

/-! ## Purge and production clear -/

/-- One stand at a purge or a production clear (R70, R71): the pending joint and the late watch go, and a stand in ARMED
returns to READY and plans. -/
def unlockStand (i : Fin 6) (s : State) : State :=
  let st := { s.stands.get i with joint := none, late := false }
  if st.state = .armed then planStand i (setStand i { st with state := .ready } s) else setStand i st s

/-- The stands at a purge or a production clear (R70, R71). An absent slot holds nothing to discard. -/
def unlockStands (s : State) : State := slots.foldl (fun s i => unlockStand i s) s

end Sys2Proof.Machine
end

