-- ==== Sys2Proof/Machine/Advance.lean ====
section
/-! DEFINITION. The board advance with every block's reaction to it, in the order the model fixes (log 1), the encoders and the
silence watch (R3, R4), the defect sensor (R18, R19), and the tracker's requests (R20, R21). -/

namespace Sys2Proof.Machine

/-! ## The parts of a board advance -/

/-- The rest timer is restarted and the time noted (R156). -/
def restartRest (s : State) : State :=
  s.setRest { timer := .running (s.now + Config.restPeriod), lastAdvance := some s.now }

/-- How far the sensor defect grows in an advance of n (R19). -/
def defectGrowth (d : Option Nat) (n : Nat) : Nat :=
  match d with
  | some len => min n (Config.defectLimit - len)
  | none => 0

/-- One mark after an advance of n in which the sensor defect grows by g (R9). -/
def Mark.advance (n g : Nat) (m : Mark) : Mark :=
  { m with pos := grown m.pos n
           trail := if m.openBreak then grown m.trail n else if m.openSensor then grown m.trail g else m.trail }

/-- The axis count and the web map travel (R1, R9, R19). -/
def advanceTracker (n : Nat) (s : State) : State :=
  let w := s.web
  let g := defectGrowth w.sensorDefect n
  (s.setEnc { s.enc with axis := (s.enc.axis + n) % Config.axisModulus }).setWeb
    { w with marks := w.marks.map (Mark.advance n g), sensorDefect := w.sensorDefect.map fun len => len + g }

/-- The CURRENT setup's produced length grows unless its mark is PENDING (R35). -/
def advanceProduced (n : Nat) (s : State) : State :=
  let grow := fun t : Setup =>
    if t.markState = some .onBoard ∨ t.markState = some .pastKnife then { t with produced := fit48 (t.produced + n) } else t
  s.setSched { s.sched with current := s.sched.current.map grow }

/-- One stand runs down U, F and its pending joint (R54, R58, R66). -/
def Stand.advance (n : Nat) (st : Stand) : Stand :=
  { st with running := st.running.map fun r => { r with usable := r.usable - n }
            plan := st.plan.map fun p => { p with fire := p.fire - n }
            joint := st.joint.map fun r => r - n }

/-- A stand in ARMED whose F comes to 0 in the advance with the reference above its splice speed (R141). -/
def passesFirePoint (s : State) (n : Nat) (i : Fin 6) : Bool :=
  let st := s.stands.get i
  st.state == .armed && decide (0 < st.fireDistance) && decide (st.fireDistance ≤ n)
    && decide ((s.cfg.stands.get i).spliceSpeed < s.gov.reference)

/-- The stands run down, and the splice overshoots are recorded (R54, R58, R66, R141). -/
def advanceStands (n : Nat) (s : State) : State :=
  let k := slots.countP (passesFirePoint s n)
  let p := s.stands
  (s.setStands ⟨p.s0.advance n, p.s1.advance n, p.s2.advance n, p.s3.advance n, p.s4.advance n, p.s5.advance n⟩).setAccounts
    { s.accounts with overshoots := raised s.accounts.overshoots k }

/-- A mark has left the board at the knife (R12). -/
def leaves (pk : Nat) (m : Mark) : Bool := decide ((pk : Int) ≤ m.upEnd)

/-- The setup that a mark which has left the board names is PAST_KNIFE (R12, R35). -/
def passKnife (m : Mark) (s : State) : State :=
  match m.kind with
  | .runChange id => updateSetup id (fun t => { t with markState := some .pastKnife }) s
  | _ => s

def passKnifeAll (gone : List Mark) (s : State) : State := gone.foldl (fun s m => passKnife m s) s

/-- The marks that have passed the knife are removed, and the setups they name are PAST_KNIFE (R12, R35). -/
def removeMarks (s : State) : State :=
  passKnifeAll (s.web.marks.filter (leaves s.cfg.pk))
    (s.setWeb { s.web with marks := s.web.marks.filter fun m => !leaves s.cfg.pk m })

/-- The stuck flag of the defect sensor (R19). -/
def setStuck (b : Bool) (s : State) : State := s.setWeb { s.web with sensorStuck := b }

/-- The sensor defect closes at its limit, and the sensor is taken to be stuck (R19). -/
def defectLimitTest (s : State) : State :=
  if s.web.sensorDefect = some Config.defectLimit then setStuck true (closeSensorDefect s) else s

/-- The arrivals at a station, in map order (R10, R78). -/
def stationArrivals (st : Station) (ids : List Nat) (s : State) : State := ids.foldl (fun s id => stationArrival st id s) s

/-- The tests a stand makes after an advance (R54, R58, R59, R66, R67, R64). The low threshold test is made after every advance,
one that finds U at 0 and leaves it there too (log 30). A pending joint that the advance settles is removed, and the firing test after
its removal made, before the exhaustion test (log 1). -/
def standTests (i : Fin 6) (s : State) : State :=
  exhaustionTest i (jointTest i (firingTest i (armingTest i (lowTest i s))))

def allStandTests (s : State) : State := slots.foldl (fun s i => standTests i s) s

/-- The points of a lane's advance: the setup and the offset at which its mark's point crosses the knife (R11). -/
def pointsOf (n : Nat) (at_pk : List (Nat × Nat)) : List (Nat × Nat) := at_pk.map fun a => (a.1, n - a.2)

/-- A board advance of n tenths (R3): every block moves its lengths, then the blocks react in one fixed order, and one
evaluation ends it (log 1, log 3). -/
def boardAdvance (n : Nat) (s : State) : State :=
  let axis := s.enc.axis
  let moved := advanceStands n (advanceProduced n (advanceTracker n (restartRest s)))
  let report := crossingReport moved n
  let toA := (arrivals moved moved.cfg.psa n).map Prod.fst
  let toB := (arrivals moved moved.cfg.psb n).map Prod.fst
  let points := pointsOf n (arrivals moved moved.cfg.pk n)
  let tracked := defectLimitTest (removeMarks moved)
  let stationed := stationArrivals .b toB (stationArrivals .a toA (lateAdvance n .b (lateAdvance n .a tracked)))
  let cut := laneAdvance .l report points axis n (laneAdvance .u report points axis n stationed)
  let delivered := deliverLane .l (deliverLane .u (retireAll cut))
  let started := restartMark (startAttempt n delivered)
  evaluate (allStandTests started)

/-! ## Encoders -/

/-- k advances of 1,000 tenths. -/
def fullAdvances : Nat → State → State
  | 0, s => s
  | k + 1, s => fullAdvances k (boardAdvance Config.maxAdvance s)

/-- A travel of k tenths delivered as board advances (R3). -/
def deliverTravel (k : Nat) (s : State) : State :=
  let s1 := fullAdvances (k / Config.maxAdvance) s
  if k % Config.maxAdvance = 0 then s1 else boardAdvance (k % Config.maxAdvance) s1

/-- The silence watch is restarted (R4, R5). -/
def restartSilence (s : State) : State :=
  s.setEnc { s.enc with silence := .running (s.now + Config.silencePeriod), secondarySum := 0 }

/-- The silence watch at a purge or production clear: restarted when no fallback is in force (R5). -/
def restartSilenceUnlessFallen (s : State) : State := if s.enc.fallback then s else restartSilence s

/-- The fallback: the secondary is selected and its sum delivered in catch-up (R4). -/
def fallBack (s : State) : State :=
  let t := s.enc
  let e := t.selected.other
  let s1 := deliverTravel t.secondarySum (s.setEnc { t with selected := e, fallback := true, silence := .stopped })
  notice 0xC1#8 (uns 1 e.code ++ uns 4 t.secondarySum) s1

/-- The fallback condition, tested at the expiry and at each later secondary report (R4). -/
def fallbackTest (s : State) : State :=
  if s.enc.silence = .expired ∧ Config.fallbackTravel ≤ s.enc.secondarySum then fallBack s else s

/-- A report of an encoder (R3, R4). -/
def encoderReport (e : Encoder) (k : Nat) (s : State) : State :=
  if k = 0 then s
  else if e = s.enc.selected then
    if s.enc.fallback then deliverTravel k s else deliverTravel k (restartSilence s)
  else if s.enc.fallback then s
  else
    fallbackTest (s.setEnc { s.enc with secondarySum := sat Config.max32 (s.enc.secondarySum + k) })

/-- The silence timer expires (R4). -/
def silenceExpiry (s : State) : State :=
  match s.enc.silence with
  | .running due =>
    let s1 := reachTime due s
    fallbackTest (s1.setEnc { s1.enc with silence := .expired })
  | .expired | .stopped => s

/-! ## The defect sensor -/

/-- *defect begins* (R18); a stuck sensor opens no defect (R19). -/
def defectBegins (s : State) : State :=
  if s.cfg.sensorFitted ∧ s.web.sensorDefect = none ∧ s.web.sensorStuck = false then
    let s1 := enterReject
      { entry := 0, kind := .defect .sensor, pos := s.cfg.pd, lead := 0, trail := 0, openSensor := true, openBreak := false,
        covered := false, merged := false } s
    s1.setWeb { s1.web with sensorDefect := some 0 }
  else s

/-- *defect ends* closes an open record, and a stuck sensor is stuck no more (R19); while the sensor is not fitted both inputs are
ignored, so it stays stuck (R18, log 34). -/
def defectEnds (s : State) : State := if s.cfg.sensorFitted then setStuck false (closeSensorDefect s) else s

/-! ## Requests -/

/-- DEFECT_REPORT (R20). -/
def defectReport (pos lead trail : Nat) (s : State) : State × Answer :=
  if s.cfg.pk ≤ pos ∨ 50000 < lead ∨ 50000 < trail then (s, .plain .outOfRange)
  else
    let e := entering s
    (enterReject
      { entry := 0, kind := .defect .report, pos := pos, lead := lead, trail := trail, openSensor := false, openBreak := false,
        covered := false, merged := false } s,
      { code := .ok, data := uns 1 e.code ++ uns 2 e.entry })

/-- The source bit of a mark's flag byte (R191). -/
def MarkKind.sourceBit : MarkKind → Bool
  | .joint _ .computed => true
  | .defect .report => true
  | _ => false

/-- The last byte of a mark in MAP_READ (R191). -/
def MarkKind.lastByte : MarkKind → Nat
  | .runChange id => id
  | .joint i _ => i
  | _ => 0

/-- One mark in MAP_READ, 17 bytes (R191). -/
def Mark.bytes (m : Mark) : List Byte :=
  uns 2 m.entry ++ uns 1 m.kind.code ++ uns 4 m.pos ++ uns 4 m.lead ++ uns 4 m.trail
    ++ uns 1 (bitOf 0 (m.openSensor || m.openBreak) + bitOf 1 m.covered + bitOf 2 m.merged + bitOf 3 m.kind.sourceBit
        + bitOf 4 m.openSensor + bitOf 5 m.openBreak)
    ++ uns 1 m.kind.lastByte

/-- MAP_READ (R21, R191). -/
def mapRead (start : Nat) (s : State) : State × Answer :=
  if 127 < start then (s, .plain .outOfRange)
  else
    let e := s.enc
    let t := s.web
    let shown := (t.marks.drop start).take 56
    (s, { code := .ok,
          data := uns 6 e.axis ++ uns 1 e.selected.code ++ flag e.fallback ++ uns 1 (freeRecords s) ++ uns 1 t.marks.length
            ++ flag t.sensorDefect.isSome ++ uns 2 (t.sensorDefect.getD 0) ++ listed shown Mark.bytes })

/-! ## Purge and production clear -/

/-- The tracker at a purge (R22). -/
def purgeTracker (s : State) : State :=
  needEvaluation (restartSilenceUnlessFallen (s.setWeb { s.web with marks := [], sensorDefect := none }))

/-- The tracker at a production clear (R23). -/
def clearTracker (s : State) : State :=
  purgeTracker ((s.setEnc { s.enc with axis := 0 }).setWeb { s.web with nextEntry := 0 })

end Sys2Proof.Machine
end

