-- ==== Sys2Proof/Machine/LineCondition.lean ====
section
/-! DEFINITION. The line condition (chapter 8): stops, the emergency stop, breaks, the rest timer, the purge, and the production
clear with every block's part of it (R189). -/

namespace Sys2Proof.Machine

/-! ## Field events -/

/-- The emergency-stop input becomes active (R140, R153). An event that changes no level is no event (log 24). -/
def emergencyStopActive (s : State) : State :=
  if s.emergencyStop then s
  else
    let s1 := s.setEmergencyStop true
    let s2 := if s.line.condition = .run then setCondition .halt s1 else s1
    needEvaluation (s2.setGov { s2.gov with hold := true })

/-- The emergency-stop input becomes released (R140, R153). -/
def emergencyStopReleased (s : State) : State :=
  if s.emergencyStop then
    needEvaluation ((s.setEmergencyStop false).setGov { s.gov with hold := false })
  else s

/-- The board break input becomes active (R154). -/
def boardBreak (s : State) : State := breakCause .board s

/-- The rest timer expires (R156). -/
def restExpiry (s : State) : State :=
  match s.rest.timer with
  | .running due =>
    let s1 := reachTime due s
    s1.setRest { s1.rest with timer := .expired }
  | .expired | .stopped => s

/-! ## Requests -/

/-- LINE_STOP (R151). -/
def lineStop (s : State) : State × Answer :=
  match s.line.condition with
  | .brk => (s, .plain .wrongState)
  | .run => (setCondition .halt s, { code := .ok, data := uns 1 Condition.halt.code })
  | c => (s, { code := .ok, data := uns 1 c.code })

/-- LINE_RESTART (R152). -/
def lineRestart (s : State) : State × Answer :=
  if !configured s then (s, .plain .unconfigured)
  else if s.line.condition = .brk then (s, .plain .wrongState)
  else if s.emergencyStop then (s, .plain .wrongState)
  else (setCondition .run s, .plain .ok)

/-- Every block's own reaction to an accepted purge (Figure 8-2), then PURGED with the rethread pending (R157). The stands that were
ARMED unlock before the schedule's hand-off is planned, so that one the hand-off arms stays ARMED (log 25). -/
def purgeAll (s : State) : State :=
  let s1 := purgeStations (replanRestated (unlockStands (purgeSchedule (purgeTracker s))))
  let s2 := setCondition .purged (purgeLane .l (purgeLane .u s1))
  s2.setLine { s2.line with rethread := true }

/-- PURGE (R157). -/
def purge (s : State) : State × Answer :=
  if (s.line.condition = .brk ∨ s.line.condition = .halt) ∧ atRest s then
    (purgeAll s,
      { code := .ok,
        data := uns 1 s.web.marks.length ++ uns 1 s.sched.online.length ++ uns 1 Condition.purged.code })
  else (s, .plain .notAtRest)

/-- The time since the last board advance (R159); a FREE VALUE when none has come since power-on (log 14). -/
def sinceAdvance (s : State) : Nat :=
  match s.rest.lastAdvance with
  | some t => s.now - t
  | none => Config.sinceNoAdvance s.now

/-- LINE_QUERY (R159, R191, log 16). -/
def lineQuery (s : State) : State × Answer :=
  let l := s.line
  (s, { code := .ok,
        data := uns 1 l.condition.code ++ flag (atRest s) ++ uns 2 (sinceAdvance s)
          ++ uns 1 (if s.emergencyStop then 0 else 1) ++ optional 1 (l.lastBreak.map BreakCause.code)
          ++ optional 1 (l.lastBreak.bind BreakCause.stand) ++ flag l.rethread ++ uns 3 s.cfg.rethreadLength })

/-! ## Production clear -/

/-- Every block's own reaction to an accepted production clear (R189), the stands before the hand-off of the queue's change (R47, R71,
log 25). -/
def clearAll (s : State) : State :=
  let s1 := replanAll (unlockStands (clearSchedule (clearTracker s)))
  let s2 := clearDelivery .l (clearDelivery .u (clearLanes (clearStation .b (clearStation .a s1))))
  needEvaluation ((s2.setAccounts Accounts.zero).setRemap .none)

/-- PRODUCTION_CLEAR (R189). -/
def productionClear (s : State) : State × Answer :=
  if (s.line.condition = .halt ∨ s.line.condition = .purged) ∧ atRest s then (clearAll s, .plain .ok)
  else (s, .plain .notAtRest)

end Sys2Proof.Machine
end

