-- ==== Sys2Proof/Machine/Counters.lean ====
section
/-! DEFINITION. The requests on the waste accounts and on the counter bank, and the millisecond of the time base (chapter 9). -/

namespace Sys2Proof.Machine

/-! ## Accounts -/

/-- One lane's accounts in ACCOUNTS_READ (section 12.4). -/
def LaneAccounts.bytes (a : LaneAccounts) : List Byte :=
  (a.classes.toList.flatMap fun c => uns 6 c.sheets ++ uns 6 c.board) ++ uns 6 a.diverted

/-- ACCOUNTS_READ (R163, section 12.4). -/
def accountsRead (s : State) : State × Answer :=
  let a := s.accounts
  (s, { code := .ok,
        data := a.lanes.u.bytes ++ a.lanes.l.bytes ++ uns 6 a.overrun ++ uns 6 a.starvation ++ uns 6 a.heldDry ++ uns 6 a.merges
          ++ a.targeted.toList.flatMap (uns 6) ++ a.reserve.toList.flatMap (uns 6) ++ a.absorbed.toList.flatMap (uns 6)
          ++ uns 6 a.lateJoints ++ uns 6 a.overshoots })

/-- ACCOUNTS_CLEAR (R163). -/
def accountsClear (s : State) : State × Answer := (s.setAccounts Accounts.zero, .plain .ok)

/-! ## The counter bank -/

/-- One counter's record changed. -/
def updateCounter (i : Fin 8) (f : Counter → Counter) (s : State) : State :=
  s.setBank { s.bank with counters := s.bank.counters.set i (f (s.bank.counters.get i)) }

/-- The configuration a COUNTER_SETUP carries, when every value is in its range (R170, check 3). -/
def counterConfig (enable source mode invert freeze laneFilter orderMatch orderMask classSet family : Nat) : Option Counter :=
  match Source.ofCode source, LaneFilter.ofCode laneFilter, Family.ofCode family with
  | some src, some lanes, some fam =>
    if inRange 0 1 enable && inRange 0 1 mode && inRange 0 1 invert && inRange 0 1 freeze && inRange 0 127 classSet
        && (src.isCondition || (mode == 0 && invert == 0)) then
      some { value := 0, overflow := false, enabled := enable == 1, source := src, edge := mode == 1, invert := invert == 1,
             freeze := freeze == 1, laneFilter := lanes, orderMatch := BitVec.ofNat 16 orderMatch,
             orderMask := BitVec.ofNat 16 orderMask, classSet := BitVec.ofNat 8 classSet, family := fam, lastSeen := false }
    else none
  | _, _, _ => none

/-- COUNTER_SETUP (R170). -/
def counterSetup (counter enable source mode invert freeze laneFilter orderMatch orderMask classSet family : Nat) (s : State) :
    State × Answer :=
  if h : counter < 8 then
    let i : Fin 8 := ⟨counter, h⟩
    if (s.bank.counters.get i).enabled then (s, .plain .wrongState)
    else
      match counterConfig enable source mode invert freeze laneFilter orderMatch orderMask classSet family with
      | some c =>
        (updateCounter i (fun old => { c with value := old.value, overflow := old.overflow, lastSeen := tested s i c }) s,
          .plain .ok)
      | none => (s, .plain .outOfRange)
  else (s, .plain .outOfRange)

/-- COUNTER_ENABLE (R171). -/
def counterEnable (counter enable : Nat) (s : State) : State × Answer :=
  if h : counter < 8 then
    if 1 < enable then (s, .plain .outOfRange)
    else (updateCounter ⟨counter, h⟩ (fun c => { c with enabled := enable == 1 }) s, .plain .ok)
  else (s, .plain .outOfRange)

/-- COUNTER_PRESET (R171). -/
def counterPreset (counter value : Nat) (s : State) : State × Answer :=
  if h : counter < 8 then
    if Config.counterModulus ≤ value then (s, .plain .outOfRange)
    else (updateCounter ⟨counter, h⟩ (fun c => { c with value := value }) s, .plain .ok)
  else (s, .plain .outOfRange)

/-- COUNTER_UNFREEZE (R169). -/
def counterUnfreeze (s : State) : State × Answer := (s.setBank { s.bank with frozen := false }, .plain .ok)

/-- One counter's record in COUNTER_READ, 16 bytes (section 12.4). -/
def Counter.bytes (c : Counter) (band : Nat) : List Byte :=
  uns 5 c.value
    ++ uns 1 (bitOf 0 c.overflow + bitOf 1 c.enabled + bitOf 2 c.invert + bitOf 3 c.freeze + bitOf 4 c.edge)
    ++ uns 1 c.source.code ++ uns 1 c.laneFilter.code ++ uns 2 c.orderMatch.toNat ++ uns 2 c.orderMask.toNat
    ++ uns 1 c.classSet.toNat ++ uns 1 c.family.code ++ uns 2 band

/-- COUNTER_READ (R172, section 12.4); the clear option is CLEAR 0 or SET 1. -/
def counterRead (clear : Nat) (s : State) : State × Answer :=
  if 1 < clear then (s, .plain .outOfRange)
  else
    let b := s.bank
    let data := flag b.frozen ++ counterIds.flatMap fun i => (b.counters.get i).bytes (s.cfg.band.get i)
    (if clear = 1 then s.setBank { b with counters := b.counters.mapIdx fun _ c => { c with overflow := false } } else s,
      { code := .ok, data := data })

/-- A millisecond of the time base passes (R166, log 2). -/
def millisecond (s : State) : State := countMillisecond (s.setNow (s.now + 1))

end Sys2Proof.Machine
end

