-- ==== Sys2Proof/Machine/SettingsStore.lean ====
section
/-! DEFINITION. The settings store (chapter 11): the items with their numbers, ranges and places, the cross-checks,
SETTINGS_WRITE and its effects, and the stored image. -/

namespace Sys2Proof.Machine

/-! ## Items -/

/-- The items of the settings (section 12.3); the indices count from 0 in the order of the figures. -/
inductive Item where
  | psa | psb | pk | pd | sensorFitted | primary | minSetup
  | stand (i : Fin 6) (k : Nat)
  | idleLength | minSpacing | maxRate
  | lane (lane : Lane) (k : Nat)
  | station (st : Station) (k : Nat)
  | governor (k : Nat)
  | bond (grade point : Nat)
  | glue (unit : GlueUnit) (grade point : Nat)
  | rethread
  | band (i : Fin 8)
  deriving DecidableEq, Repr

/-- The geometry, encoder and schedule items, 0001h to 0007h. -/
def geometryItem : Nat → Option Item
  | 1 => some .psa | 2 => some .psb | 3 => some .pk | 4 => some .pd | 5 => some .sensorFitted | 6 => some .primary
  | 7 => some .minSetup | _ => none

/-- The glue units in the order of their item numbers. -/
def glueUnitOf : Nat → GlueUnit
  | 0 => .sf1 | 1 => .sf2 | _ => .db

/-- The item of a number (section 12.3). -/
def Item.ofNumber (n : Nat) : Option Item :=
  if n < 0x100 then geometryItem n
  else if n < 0x160 then
    (if n % 16 < 14 then some (.stand (Fin.ofNat 6 ((n - 0x100) / 16)) (n % 16)) else none)
  else if n = 0x200 then some .idleLength
  else if n = 0x201 then some .minSpacing
  else if n = 0x202 then some .maxRate
  else if 0x210 ≤ n ∧ n < 0x218 then some (.lane (if n < 0x214 then .u else .l) (n % 4))
  else if 0x220 ≤ n ∧ n < 0x224 then some (.station (if n < 0x222 then .a else .b) (n % 2))
  else if 0x300 ≤ n ∧ n < 0x306 then some (.governor (n - 0x300))
  else if 0x400 ≤ n ∧ n < 0x440 then some (.bond ((n - 0x400) / 4) (n % 4))
  else if 0x500 ≤ n ∧ n < 0x800 then
    (if n % 256 < 128 ∧ n % 8 < 5 then some (.glue (glueUnitOf ((n - 0x500) / 256)) (n % 256 / 8) (n % 8)) else none)
  else if n = 0x800 then some .rethread
  else if 0x810 ≤ n ∧ n < 0x818 then some (.band (Fin.ofNat 8 (n - 0x810)))
  else none

/-- The least and the greatest value of an item sent as one number. Values are sent signed (R190); every range begins at 0 or
above, so a negative value, read unsigned, lies above its range. -/
def Item.limits : Item → Nat × Nat
  | .psa => (1000, 1200000)
  | .psb | .pk | .pd => (0, 1200000)
  | .sensorFitted | .primary => (0, 1)
  | .minSetup => (8000, 10000000)
  | .stand _ k =>
    [(0, 1), (0, 5), (5000, 150000), (1000, 1800), (10000, 200000), (500, 6000), (500, 10000), (0, 50000), (0, 50000),
     (0, 1), (1000, 20000), (100000, 5000000), (0, 5000000), (0, 2000000000)].getD k (1, 0)
  | .idleLength => (3000, 70000)
  | .minSpacing => (3000, 20000)
  | .maxRate => (30, 600)
  | .lane _ k => [(20000, 150000), (0, 400), (1000, 30000), (2000, 60000)].getD k (1, 0)
  | .station _ k => [(2000, 60000), (500, 60000)].getD k (1, 0)
  | .governor k => [(1000, 7000), (50, 5000), (50, 5000), (50, 5000), (0, 20000), (100, 1000)].getD k (1, 0)
  | .rethread => (0, 200000)
  | .band _ => (0, 7000)
  | .bond _ _ | .glue _ _ _ => (0, 0)

/-- The three 2-byte fields of a point's value (section 12.3). -/
def field0 (v : Nat) : Nat := v % 65536
def field1 (v : Nat) : Nat := v / 65536 % 65536
def field2 (v : Nat) : Nat := v / 4294967296

/-- A value lies in its item's range (R185; Figures 3-1, 7-2; section 12.3). -/
def Item.accepts (it : Item) (v : Nat) : Bool :=
  match it with
  | .bond _ _ => inRange 0 2500 (field0 v) && inRange 100 7000 (field1 v) && field2 v == 0
  | .glue _ _ _ => inRange 0 7000 (field0 v) && inRange 50 1500 (field1 v) && inRange 0 1000 (field2 v)
  | _ => inRange it.limits.1 it.limits.2 v

/-- A restricted item (R185); every other is free. -/
def Item.isRestricted : Item → Bool
  | .governor _ | .bond _ _ | .glue _ _ _ | .rethread | .band _ => false
  | _ => true

/-- An item the governor reads (R126, R136). -/
def Item.governorReads : Item → Bool
  | .psa | .psb | .pk | .maxRate | .governor _ | .bond _ _ | .glue _ _ _ => true
  | .stand _ k => k == 0 || k == 1 || k == 5
  | .lane _ k => k == 2
  | .station _ k => k == 1
  | _ => false

/-! ## Reading and writing one item -/

/-- One stand item written, in the order of Figure 3-1. -/
def StandCfg.write (c : StandCfg) (k v : Nat) : StandCfg :=
  match k with
  | 0 => { c with isPresent := v == 1 }
  | 1 => { c with role := (Role.ofCode v).getD c.role }
  | 2 => { c with webPath := v }
  | 3 => { c with takeUp := v }
  | 4 => { c with reserve := v }
  | 5 => { c with spliceSpeed := v }
  | 6 => { c with spliceTimeout := v }
  | 7 => { c with jointLead := v }
  | 8 => { c with jointTrail := v }
  | 9 => { c with jointSensor := v == 1 }
  | 10 => { c with tolerance := v }
  | 11 => { c with armDistance := v }
  | 12 => { c with sacrifice := v }
  | 13 => { c with lowThreshold := v }
  | _ => c

def bit (b : Bool) : Nat := if b then 1 else 0

/-- One stand item as a value. -/
def StandCfg.read (c : StandCfg) (k : Nat) : Nat :=
  [bit c.isPresent, c.role.code, c.webPath, c.takeUp, c.reserve, c.spliceSpeed, c.spliceTimeout, c.jointLead, c.jointTrail,
   bit c.jointSensor, c.tolerance, c.armDistance, c.sacrifice, c.lowThreshold].getD k 0

def LaneCfg.write (c : LaneCfg) (k v : Nat) : LaneCfg :=
  match k with
  | 0 => { c with transit := v }
  | 1 => { c with forkCapacity := v }
  | 2 => { c with changeTime := v }
  | 3 => { c with changeTimeout := v }
  | _ => c

def LaneCfg.read (c : LaneCfg) (k : Nat) : Nat :=
  [c.transit, c.forkCapacity, c.changeTime, c.changeTimeout].getD k 0

def StationCfg.write (c : StationCfg) (k v : Nat) : StationCfg :=
  match k with
  | 0 => { c with timeout := v }
  | 1 => { c with estimate := v }
  | _ => c

def StationCfg.read (c : StationCfg) (k : Nat) : Nat := [c.timeout, c.estimate].getD k 0

/-- The six governor speeds and rates in the order of Figure 7-2. -/
def Settings.writeGovernor (c : Settings) (k v : Nat) : Settings :=
  match k with
  | 0 => { c with lineMax := v }
  | 1 => { c with accel := v }
  | 2 => { c with decel := v }
  | 3 => { c with emergDecel := v }
  | 4 => { c with reaction := v }
  | 5 => { c with creep := v }
  | _ => c

def Settings.readGovernor (c : Settings) (k : Nat) : Nat :=
  [c.lineMax, c.accel, c.decel, c.emergDecel, c.reaction, c.creep].getD k 0

/-- One item written (R185). -/
def Item.write (it : Item) (v : Nat) (c : Settings) : Settings :=
  match it with
  | .psa => { c with psa := v }
  | .psb => { c with psb := v }
  | .pk => { c with pk := v }
  | .pd => { c with pd := v }
  | .sensorFitted => { c with sensorFitted := v == 1 }
  | .primary => { c with primary := if v = 0 then .belt else .feed }
  | .minSetup => { c with minSetup := v }
  | .stand i k => { c with stands := c.stands.set i ((c.stands.get i).write k v) }
  | .idleLength => { c with idleLength := v }
  | .minSpacing => { c with minSpacing := v }
  | .maxRate => { c with maxRate := v }
  | .lane ln k => { c with lanes := c.lanes.set ln ((c.lanes.get ln).write k v) }
  | .station st k => { c with stations := c.stations.set st ((c.stations.get st).write k v) }
  | .governor k => c.writeGovernor k v
  | .bond g p =>
    { c with bond := c.bond.set g ((c.bond.getD g []).set p { temperature := field0 v, speed := field1 v }) }
  | .glue unit g p =>
    let tables := c.glue.get unit
    let table := (tables.getD g []).set p { speed := field0 v, gap := field1 v, wrap := field2 v }
    { c with glue := c.glue.set unit (tables.set g table) }
  | .rethread => { c with rethreadLength := v }
  | .band i => { c with band := c.band.set i v }

/-- One item as the six-byte value that would write it; a point that is not there reads as one out of its range. -/
def Item.read (it : Item) (c : Settings) : Nat :=
  match it with
  | .psa => c.psa
  | .psb => c.psb
  | .pk => c.pk
  | .pd => c.pd
  | .sensorFitted => bit c.sensorFitted
  | .primary => c.primary.code
  | .minSetup => c.minSetup
  | .stand i k => (c.stands.get i).read k
  | .idleLength => c.idleLength
  | .minSpacing => c.minSpacing
  | .maxRate => c.maxRate
  | .lane ln k => (c.lanes.get ln).read k
  | .station st k => (c.stations.get st).read k
  | .governor k => c.readGovernor k
  | .bond g p =>
    match (c.bond.getD g [])[p]? with
    | some q => q.temperature + 65536 * q.speed
    | none => 0
  | .glue unit g p =>
    match ((c.glue.get unit).getD g [])[p]? with
    | some q => q.speed + 65536 * q.gap + 4294967296 * q.wrap
    | none => 0
  | .rethread => c.rethreadLength
  | .band i => c.band.get i

/-! ## Cross-checks (Figure 11-2) -/

/-- A cross-check on a set of settings: whether it holds, and the items that take part. -/
structure CrossCheck where
  holds : Bool
  takesPart : Item → Bool

/-- The spacing of two positions lies between two bounds. -/
def spaced (lo hi x y : Nat) : Bool := decide (x + lo ≤ y) && decide (y ≤ x + hi)

/-- The geometry and the setup lengths (R2, R34), for live setups of these planned lengths. -/
def geometryChecks (c : Settings) (planned : List Nat) : List CrossCheck :=
  [{ holds := spaced 8000 40000 c.psa c.psb, takesPart := fun it => it == .psa || it == .psb },
   { holds := spaced 20000 200000 c.psb c.pk, takesPart := fun it => it == .psb || it == .pk },
   { holds := decide (c.pk ≤ 1200000), takesPart := fun it => it == .pk },
   { holds := !c.sensorFitted || decide (c.pd < c.psa),
     takesPart := fun it => it == .psa || it == .pd || it == .sensorFitted },
   { holds := decide (c.psb ≤ c.psa + c.minSetup), takesPart := fun it => it == .psa || it == .psb || it == .minSetup },
   { holds := planned.all fun p => decide (c.psb ≤ c.psa + p), takesPart := fun it => it == .psa || it == .psb }]

/-- A single-facer role (R48). -/
def Role.isSingleFacer : Role → Bool
  | .sf1Liner | .sf1Medium | .sf2Liner | .sf2Medium => true
  | .dbLiner | .spare => false

/-- A present single-facer stand has its joint sensor (R48). -/
def standCheck (c : Settings) (i : Fin 6) : CrossCheck :=
  let k := c.stands.get i
  { holds := !(k.isPresent && k.role.isSingleFacer) || k.jointSensor
    takesPart := fun it => it == .stand i 0 || it == .stand i 1 || it == .stand i 9 }

/-- A station's estimate is within its timeout (R73). -/
def stationCheck (c : Settings) (st : Station) : CrossCheck :=
  let k := c.stations.get st
  { holds := decide (k.estimate ≤ k.timeout), takesPart := fun it => it == .station st 0 || it == .station st 1 }

/-- A lane's change time and transit length (R109). -/
def laneChecks (c : Settings) (ln : Lane) : List CrossCheck :=
  let k := c.lanes.get ln
  [{ holds := decide (k.changeTime ≤ k.changeTimeout), takesPart := fun it => it == .lane ln 2 || it == .lane ln 3 },
   { holds := decide (k.transit / 3000 + 2 ≤ 64), takesPart := fun it => it == .lane ln 0 }]

/-- The grades a table is kept for. -/
def grades : List Nat := List.range 16

/-- A grade's bond table has strictly increasing temperatures (Figure 7-2). -/
def bondCheck (c : Settings) (g : Nat) : CrossCheck :=
  { holds := increasing ((c.bond.getD g []).map BondPoint.temperature)
    takesPart := fun it => match it with | .bond g' _ => g' == g | _ => false }

/-- A unit's glue schedule of a grade has strictly increasing speeds (Figure 7-2). -/
def glueCheck (c : Settings) (unit : GlueUnit) (g : Nat) : CrossCheck :=
  { holds := increasing (((c.glue.get unit).getD g []).map GluePoint.speed)
    takesPart := fun it => match it with | .glue u g' _ => u == unit && g' == g | _ => false }

/-- Every cross-check, in the order of Figure 11-2. -/
def crossChecks (c : Settings) (planned : List Nat) : List CrossCheck :=
  geometryChecks c planned ++ slots.map (standCheck c) ++ [stationCheck c .a, stationCheck c .b]
    ++ laneChecks c .u ++ laneChecks c .l
    ++ [{ holds := decide (c.decel ≤ c.emergDecel), takesPart := fun it => it == .governor 2 || it == .governor 3 }]
    ++ grades.map (bondCheck c) ++ grades.map (glueCheck c .sf1) ++ grades.map (glueCheck c .sf2)
    ++ grades.map (glueCheck c .db)

/-- The set is valid (R186). -/
def validSettings (c : Settings) (planned : List Nat) : Bool := (crossChecks c planned).all CrossCheck.holds

/-- The planned lengths of the live setups (R34). -/
def plannedLengths (s : State) : List Nat := (setupOrder s).map Setup.planned

/-! ## SETTINGS_WRITE -/

/-- The first list position, from 1, at which step 2 fails: an unknown number, a number sent before, a value out of its range
(R185). Which of its two positions an item that appears twice fails at is the model's choice: the later one, so that its first
position fails only for its value (log 40). -/
def firstBad (seen : List Nat) (pos : Nat) : List (Nat × Nat) → Option Nat
  | [] => none
  | (n, v) :: rest =>
    match Item.ofNumber n with
    | some it => if seen.contains n || !it.accepts v then some pos else firstBad (n :: seen) (pos + 1) rest
    | none => some pos

/-- The items of a list with their values. -/
def itemsOf (entries : List (Nat × Nat)) : List (Item × Nat) :=
  entries.filterMap fun e => (Item.ofNumber e.1).map fun it => (it, e.2)

/-- The settings as they would stand (R186). -/
def written (c : Settings) (items : List (Item × Nat)) : Settings := items.foldl (fun c e => e.1.write e.2 c) c

/-- The list position, from 1, of the first item that takes part (R185). -/
def positionOf (p : Item → Bool) (pos : Nat) : List (Item × Nat) → Option Nat
  | [] => none
  | (it, _) :: rest => if p it then some pos else positionOf p (pos + 1) rest

/-- A stand slot after a write: made present or absent, it holds the power-on values (R48, R72). -/
def standWritten (old : Settings) (i : Fin 6) (s : State) : State :=
  if (old.stands.get i).isPresent = (s.cfg.stands.get i).isPresent then s else setStand i Stand.initial s

def standsWritten (old : Settings) (s : State) : State := slots.foldl (fun s i => standWritten old i s) s

/-- The primary encoder item written (R5). -/
def encoderWritten (s : State) : State :=
  restartSilence (s.setEnc { s.enc with selected := s.cfg.primary, fallback := false })

/-- The idle length written: the shadow of an enabled lane with no active setup (R92). -/
def idleWritten (lane : Lane) (s : State) : State :=
  let r := s.lanes.get lane
  if r.enabled && r.active.isNone then setLane lane { r with shadow := some s.cfg.idleLength } s else s

/-- The effects of an accepted write on the other blocks (R5, R48, R92, R136, R167). The bank tests the new band thresholds in one
hand-off, before any stand hands it a change of its own (R168, log 28). -/
def takeWrite (items : List (Item × Nat)) (s : State) : State :=
  let old := s.cfg
  let has := fun p : Item → Bool => items.any fun e => p e.1
  let s1 := conditionsChanged (s.setCfg (written s.cfg items))
  let s2 := if has (· == .primary) then encoderWritten s1 else s1
  let s3 := standsWritten old s2
  let s4 := if has (· == .idleLength) then idleWritten .l (idleWritten .u s3) else s3
  if has Item.governorReads then needEvaluation s4 else s4

/-- The line stands as restricted items need it (R185, step 3). -/
def mayWriteRestricted (s : State) : Bool :=
  (s.line.condition == .halt || s.line.condition == .purged) && atRest s && s.web.marks.isEmpty

/-- SETTINGS_WRITE (R185): the item numbers and six-byte values of the list. A refusal that carries a list position carries it as
one byte without a presence byte, and one that carries none ends after its code (log 17). An item that appears twice fails at the
later of its positions (log 40). -/
def settingsWrite (entries : List (Nat × Nat)) (s : State) : State × Answer :=
  if s.store.writing.isSome then (s, .plain .busy)
  else
    match firstBad [] 1 entries with
    | some pos => (s, { code := .outOfRange, data := uns 1 pos })
    | none =>
      let items := itemsOf entries
      if items.any (fun e => e.1.isRestricted) && !mayWriteRestricted s then (s, .plain .wrongState)
      else
        match (crossChecks (written s.cfg items) (plannedLengths s)).find? fun k => !k.holds with
        | some k =>
          (s, { code := .outOfRange,
                data := match positionOf k.takesPart 1 items with | some pos => uns 1 pos | none => [] })
        | none => (takeWrite items s, .plain .ok)

/-! ## The stored image -/

/-- SETTINGS_COMMIT (R187). -/
def settingsCommit (s : State) : State × Answer :=
  if s.store.writing.isSome then (s, .plain .busy) else (beginWrite .commit s, .plain .ok)

/-- Every item number that is one, in order (section 12.3). -/
def itemNumbers : List Nat := (List.range 0x818).filter fun n => (Item.ofNumber n).isSome

/-- The bytes of an image: every item in number order as SETTINGS_WRITE would carry it, then the hard mappings (log 18). -/
def ImageContent.bytes (c : ImageContent) : List Byte :=
  (itemNumbers.flatMap fun n => uns 2 n ++ uns 6 (((Item.ofNumber n).map fun it => it.read c.cfg).getD 0))
    ++ c.hard.a.toList.flatMap (uns 1) ++ c.hard.b.toList.flatMap (uns 1)

/-- The image is valid: its CRC-32 agrees, every item lies in its range, and the set passes every check (R188). -/
def StoredImage.isValid (m : StoredImage) : Bool :=
  crc32 m.content.bytes == m.crc
    && (itemNumbers.all fun n => (Item.ofNumber n).all fun it => it.accepts (it.read m.content.cfg))
    && validSettings m.content.cfg []

/-- The write of the image ends well (R187). With no write in progress there is none to end, and the input is ignored (log 24). -/
def imageWriteSuccess (s : State) : State :=
  match s.store.writing with
  | some (cause, c) =>
    s.setStore { s.store with
      writing := none, imageValid := true, image := some { content := c, crc := crc32 c.bytes },
      configured := s.store.configured || cause == .commit }
  | none => s

/-- The write of the image fails (R187). With no write in progress the input is ignored (log 24). -/
def imageWriteFailure (s : State) : State :=
  match s.store.writing with
  | some (cause, _) => notice 0xD1#8 (uns 1 cause.code) (s.setStore { s.store with writing := none })
  | none => s

end Sys2Proof.Machine
end

