-- ==== Sys2Proof/Machine/Link.lean ====
section
/-! DEFINITION. The line link (chapters 10 and 12): the receiver, the receive queue, the taking of a request and its reply, the
transmitter, and the frame in which every event of the part stands (one evaluation and one arbitration at its end). -/

namespace Sys2Proof.Machine

/-! ## The request kinds (Figure 10-3) -/

inductive Request where
  | status | mapRead | defectReport | orderAdd | orderAmend | orderCancel | orderRelease | orderQuery | setupQueue
  | setupWithdraw | setupQuery | scheduleRead | reelLoad | reelUnload | spliceForce | standReset | standQuery
  | stationReset | headRetire | headRestore | softRemap | remapPrepare | remapConfirm | hardRemap | stationQuery
  | trimEnter | trimSet | trimExit | knifeQuery | stackEject | stackerReset | deliveryQuery | speedDemand
  | governorQuery | lineStop | lineRestart | purge | lineQuery | accountsRead | accountsClear | counterSetup
  | counterEnable | counterPreset | counterUnfreeze | counterRead | settingsWrite | settingsCommit | productionClear
  deriving DecidableEq, Repr

/-- The kind byte of a request (Figure 10-3). -/
def Request.code : Request → Nat
  | .status => 0x00 | .mapRead => 0x01 | .defectReport => 0x02 | .orderAdd => 0x03 | .orderAmend => 0x04
  | .orderCancel => 0x05 | .orderRelease => 0x06 | .orderQuery => 0x07 | .setupQueue => 0x08 | .setupWithdraw => 0x09
  | .setupQuery => 0x0A | .scheduleRead => 0x0B | .reelLoad => 0x0C | .reelUnload => 0x0D | .spliceForce => 0x0E
  | .standReset => 0x0F | .standQuery => 0x10 | .stationReset => 0x11 | .headRetire => 0x12 | .headRestore => 0x13
  | .softRemap => 0x14 | .remapPrepare => 0x15 | .remapConfirm => 0x16 | .hardRemap => 0x17 | .stationQuery => 0x18
  | .trimEnter => 0x19 | .trimSet => 0x1A | .trimExit => 0x1B | .knifeQuery => 0x1C | .stackEject => 0x1D
  | .stackerReset => 0x1E | .deliveryQuery => 0x1F | .speedDemand => 0x20 | .governorQuery => 0x21
  | .lineStop => 0x22 | .lineRestart => 0x23 | .purge => 0x24 | .lineQuery => 0x25 | .accountsRead => 0x26
  | .accountsClear => 0x27 | .counterSetup => 0x28 | .counterEnable => 0x29 | .counterPreset => 0x2A
  | .counterUnfreeze => 0x2B | .counterRead => 0x2C | .settingsWrite => 0x2D | .settingsCommit => 0x2E
  | .productionClear => 0x2F

/-- The request of a kind byte (Figure 10-3). -/
def Request.ofCode : Nat → Option Request
  | 0x00 => some .status | 0x01 => some .mapRead | 0x02 => some .defectReport | 0x03 => some .orderAdd
  | 0x04 => some .orderAmend | 0x05 => some .orderCancel | 0x06 => some .orderRelease | 0x07 => some .orderQuery
  | 0x08 => some .setupQueue | 0x09 => some .setupWithdraw | 0x0A => some .setupQuery | 0x0B => some .scheduleRead
  | 0x0C => some .reelLoad | 0x0D => some .reelUnload | 0x0E => some .spliceForce | 0x0F => some .standReset
  | 0x10 => some .standQuery | 0x11 => some .stationReset | 0x12 => some .headRetire | 0x13 => some .headRestore
  | 0x14 => some .softRemap | 0x15 => some .remapPrepare | 0x16 => some .remapConfirm | 0x17 => some .hardRemap
  | 0x18 => some .stationQuery | 0x19 => some .trimEnter | 0x1A => some .trimSet | 0x1B => some .trimExit
  | 0x1C => some .knifeQuery | 0x1D => some .stackEject | 0x1E => some .stackerReset | 0x1F => some .deliveryQuery
  | 0x20 => some .speedDemand | 0x21 => some .governorQuery | 0x22 => some .lineStop | 0x23 => some .lineRestart
  | 0x24 => some .purge | 0x25 => some .lineQuery | 0x26 => some .accountsRead | 0x27 => some .accountsClear
  | 0x28 => some .counterSetup | 0x29 => some .counterEnable | 0x2A => some .counterPreset
  | 0x2B => some .counterUnfreeze | 0x2C => some .counterRead | 0x2D => some .settingsWrite
  | 0x2E => some .settingsCommit | 0x2F => some .productionClear
  | _ => none

/-- The sizes of a request's payload fields, in their order (Figures 12-3 and 12-4); the two kinds with counted lists give the
fields before their lists. -/
def Request.header : Request → List Nat
  | .status | .scheduleRead | .governorQuery | .lineStop | .lineRestart | .purge | .lineQuery | .accountsRead
  | .accountsClear | .counterUnfreeze | .settingsCommit | .productionClear => []
  | .mapRead | .setupWithdraw | .setupQuery | .reelUnload | .spliceForce | .standReset | .standQuery | .stationReset
  | .stationQuery | .trimExit | .knifeQuery | .stackEject | .stackerReset | .deliveryQuery | .counterRead => [1]
  | .orderCancel | .orderRelease | .orderQuery | .speedDemand => [2]
  | .trimEnter | .trimSet | .counterEnable => [1, 1]
  | .headRetire | .headRestore | .softRemap | .remapPrepare | .remapConfirm | .hardRemap => [1, 1, 1]
  | .counterPreset => [1, 5]
  | .defectReport => [4, 4, 4]
  | .reelLoad => [1, 1, 4, 2, 2, 2]
  | .counterSetup => [1, 1, 1, 1, 1, 1, 1, 2, 2, 1, 1]
  | .orderAmend => [2, 4, 4, 4]
  | .orderAdd => [2, 4, 1, 4, 4, 4, 2]
  | .setupQueue => [1, 2, 4, 1, 2, 4, 2, 1, 1, 2, 1, 1]
  | .settingsWrite => [1]

/-- The sizes of the fields of a request's lists, from the counts its header gives (R193). -/
def Request.lists (r : Request) (head : List Nat) : List Nat :=
  match r with
  | .setupQueue => List.replicate (head.getD 10 0 + head.getD 11 0) 2
  | .settingsWrite => (List.replicate (head.getD 0 0) [2, 6]).flatten
  | _ => []

/-- The sizes of all the fields a payload must have (R193). -/
def Request.widths (r : Request) (p : List Byte) : List Nat := r.header ++ r.lists (decodeFields r.header p)

/-- The payload has the length its kind requires; one too short for its counts has not (R179, R193). -/
def Request.lengthFits (r : Request) (p : List Byte) : Bool :=
  decide (r.header.sum ≤ p.length) && p.length == (r.widths p).sum

/-- A list of item numbers and values taken two by two (R185). -/
def pairs : List Nat → List (Nat × Nat)
  | n :: v :: rest => (n, v) :: pairs rest
  | _ => []

/-! ## STATUS -/

/-- STATUS (R183): the configured flag is CONFIGURED 1 or UNCONFIGURED 0 (log 16); the notices-lost flag is cleared once it is
reported. -/
def statusRequest (s : State) : State × Answer :=
  let k := s.link
  (s.setNotices { s.notices with lost := false },
    { code := .ok,
      data := flag s.store.configured ++ uns 1 s.line.condition.code ++ flag (atRest s) ++ uns 1 s.enc.selected.code
        ++ flag s.enc.fallback ++ flag s.store.writing.isSome ++ uns 3 k.rate ++ uns 1 s.notices.queue.length
        ++ flag s.notices.lost
        ++ uns 2 k.gapCount ++ uns 2 k.crcCount ++ uns 2 k.dropCount })

/-! ## Taking a request -/

/-- The owning block acts on a request of the field values v (R179, Figure 10-3). -/
def perform (r : Request) (v : List Nat) (s : State) : State × Answer :=
  let f := fun k => v.getD k 0
  match r with
  | .status => statusRequest s
  | .mapRead => mapRead (f 0) s
  | .defectReport => defectReport (f 0) (f 1) (f 2) s
  | .orderAdd => orderAdd (f 0) (f 1) (f 2) (f 3) (f 4) (f 5) (f 6) s
  | .orderAmend => orderAmend (f 0) (f 1) (f 2) (f 3) s
  | .orderCancel => orderCancel (f 0) s
  | .orderRelease => orderRelease (f 0) s
  | .orderQuery => orderQuery (f 0) s
  | .setupQueue =>
    setupQueue (f 0) (f 1) (f 2) (f 3) (f 4) (f 5) (f 6) (f 7) (f 8) (f 9) ((v.drop 12).take (f 10)) ((v.drop 12).drop (f 10)) s
  | .setupWithdraw => setupWithdraw (f 0) s
  | .setupQuery => setupQuery (f 0) s
  | .scheduleRead => scheduleRead s
  | .reelLoad => reelLoad (f 0) (f 1) (f 2) (f 3) (f 4) (f 5) s
  | .reelUnload => reelUnload (f 0) s
  | .spliceForce => spliceForce (f 0) s
  | .standReset => standReset (f 0) s
  | .standQuery => standQuery (f 0) s
  | .stationReset => stationReset (f 0) s
  | .headRetire => headRetire (f 0) (f 1) (f 2) s
  | .headRestore => headRestore (f 0) (f 1) (f 2) s
  | .softRemap => softRemap (f 0) (f 1) (f 2) s
  | .remapPrepare => remapPrepare (f 0) (f 1) (f 2) s
  | .remapConfirm => remapConfirm (f 0) (f 1) (f 2) s
  | .hardRemap => hardRemap (f 0) (f 1) (f 2) s
  | .stationQuery => stationQuery (f 0) s
  | .trimEnter => trimEnter (f 0) (f 1) s
  | .trimSet => trimSet (f 0) (toSigned 1 (f 1)) s
  | .trimExit => trimExit (f 0) s
  | .knifeQuery => knifeQuery (f 0) s
  | .stackEject => stackEject (f 0) s
  | .stackerReset => stackerReset (f 0) s
  | .deliveryQuery => deliveryQuery (f 0) s
  | .speedDemand => speedDemand (f 0) s
  | .governorQuery => governorQuery s
  | .lineStop => lineStop s
  | .lineRestart => lineRestart s
  | .purge => purge s
  | .lineQuery => lineQuery s
  | .accountsRead => accountsRead s
  | .accountsClear => accountsClear s
  | .counterSetup =>
    counterSetup (f 0) (f 1) (f 2) (f 3) (f 4) (f 5) (f 6) (f 7) (f 8) (f 9) (f 10) s
  | .counterEnable => counterEnable (f 0) (f 1) s
  | .counterPreset => counterPreset (f 0) (f 1) s
  | .counterUnfreeze => counterUnfreeze s
  | .counterRead => counterRead (f 0) s
  | .settingsWrite => settingsWrite (pairs (v.drop 1)) s
  | .settingsCommit => settingsCommit s
  | .productionClear => productionClear s

/-- A request of the remap sequence, which keeps its own stage (R86). -/
def Request.inSequence : Request → Bool
  | .remapPrepare | .remapConfirm | .hardRemap => true
  | _ => false

/-- Every other request taken breaks a remap sequence in progress, once it has been answered (R86, log 11); PURGE too, as a request,
although the purge itself leaves the sequence as it is (log 38). -/
def breakSequence (r : Request) (s : State) : State := if r.inSequence then s else s.setRemap .none

/-- A taken frame is examined and answered: the state after it, the reply's kind and its payload (R179, R180). -/
def answerFrame (q : Frame) (s : State) : State × Byte × List Byte :=
  match Request.ofCode q.kind.toNat with
  | none => (s.setRemap .none, 0xBF#8, uns 1 Result.unknownKind.code ++ [q.kind])
  | some r =>
    if r.lengthFits q.payload then
      let a := perform r (decodeFields (r.widths q.payload) q.payload) s
      (breakSequence r a.1, q.kind + 0x80#8, a.2.payload)
    else (s.setRemap .none, q.kind + 0x80#8, (Answer.plain .badLength).payload)

/-- A frame is taken: it is answered, and its reply is placed in the reply buffer (R179, R180). -/
def takeFrame (q : Frame) (s : State) : State :=
  let a := answerFrame q s
  a.1.setLink { a.1.link with reply := some { kind := a.2.1, tag := q.tag, payload := a.2.2 } }

/-- The link takes the oldest frame when the reply buffer is empty (R179). -/
def takeOldest (s : State) : State :=
  match s.link.reply, s.link.rxQueue with
  | none, q :: rest => takeFrame q (s.setLink { s.link with rxQueue := rest })
  | _, _ => s

/-! ## Arrival -/

/-- A count of the link raised by 1 (R177, R178). -/
def counted (n : Nat) : Nat := sat 65535 (n + 1)

/-- A frame has arrived (R178): it joins the receive queue, or is dropped. -/
def arrive (q : Frame) (s : State) : State :=
  let k := s.link
  if k.rxQueue.length < Config.rxEntries then takeOldest (s.setLink { k with rxQueue := k.rxQueue ++ [q] })
  else countEvent .framesRefused (s.setLink { k with dropCount := counted k.dropCount })

/-! ## The receiver -/

def setRx (r : Receiver) (s : State) : State := s.setLink { s.link with rx := r }

/-- The two length bytes of a false start, examined again (R176). -/
def reexamine (lo hi : Byte) (now : Nat) : Receiver :=
  if lo = Config.startByte then .assembling [hi] now
  else if hi = Config.startByte then .assembling [] now
  else .hunting

/-- A frame is whole: its CRC is checked (R176, R177). The bytes are those after the start byte. -/
def checkFrame (taken : List Byte) (len : Nat) (s : State) : State :=
  let s1 := setRx .hunting s
  if (crc16 (taken.take (len + 4))).toNat = fromLE (taken.drop (len + 4)) then
    arrive { kind := taken.getD 2 0, tag := taken.getD 3 0, payload := (taken.drop 4).take len } s1
  else countEvent .framesRefused (s1.setLink { s1.link with crcCount := counted s1.link.crcCount })

/-- One byte received (R176). -/
def rxByte (b : Byte) (s : State) : State :=
  match s.link.rx with
  | .hunting => if b = Config.startByte then setRx (.assembling [] s.now) s else s
  | .assembling taken _ =>
    let t := taken ++ [b]
    let len := fromLE (t.take 2)
    if t.length = 2 ∧ Config.maxPayload < len then setRx (reexamine (t.getD 0 0) b s.now) s
    else if 2 ≤ t.length ∧ t.length = len + 6 then checkFrame t len s
    else setRx (.assembling t s.now) s

/-- Bytes received one after the other, without a gap. -/
def rxBytes (bs : List Byte) (s : State) : State := bs.foldl (fun s b => rxByte b s) s

/-- A gap within a frame (R177); silence in HUNTING is none. -/
def gapTimeout (s : State) : State :=
  match s.link.rx with
  | .assembling _ last =>
    let s1 := setRx .hunting (reachTime (last + Config.gapTime) s)
    countEvent .framesRefused (s1.setLink { s1.link with gapCount := counted s1.link.gapCount })
  | .hunting => s

/-! ## The transmitter -/

/-- The transmitter starts the reply. -/
def sendReply (s : State) : State := s.setLink { s.link with tx := .reply, lastSent := .reply }

/-- The transmitter starts the oldest notice, which leaves its queue. -/
def sendNotice (n : Frame) (rest : List Frame) (s : State) : State :=
  (s.setLink { s.link with tx := .notice n, lastSent := .notice }).setNotices { s.notices with queue := rest }

/-- A free transmitter starts the next frame, replies and notices in turn when both wait (R182). -/
def arbitrate (s : State) : State :=
  match s.link.tx with
  | .free =>
    match s.link.reply, s.notices.queue with
    | some _, [] => sendReply s
    | none, n :: rest => sendNotice n rest s
    | some _, n :: rest => if s.link.lastSent = .reply then sendNotice n rest s else sendReply s
    | none, [] => s
  | .reply | .notice _ => s

/-- The last byte of the frame in progress has been sent (R179, R182). -/
def transmitComplete (s : State) : State :=
  match s.link.tx with
  | .free => s
  | .notice _ => s.setLink { s.link with tx := .free }
  | .reply => takeOldest (s.setLink { s.link with tx := .free, reply := none })

/-! ## Events -/

/-- Before an event: no output has been issued in it, and no evaluation is due. -/
def begin (s : State) : State := (s.setIssued []).setEvalDue false

/-- The end of an event: the evaluation that its changes of input ask for (R136, log 3), then the transmitter (R182, log 5). -/
def settle (s : State) : State := arbitrate (if s.evalDue then evaluate s else s)

/-- A whole event of the part. -/
def event (f : State → State) (s : State) : State := settle (f (begin s))

/-- A command's outcome: no event stops the part. -/
def run (f : State → State) (s : State) : Host.Outcome State Fault Refusal := .next (event f s)

/-- The frame of a request: its tag and its payload fields, each a size and a value. -/
def requestFrame (r : Request) (tag : Byte) (fields : List (Nat × Nat)) : Frame :=
  { kind := BitVec.ofNat 8 r.code, tag := tag, payload := encodeFields fields }

/-- A request command: its frame arrives (R178, log 4). -/
def request (r : Request) (tag : Byte) (fields : List (Nat × Nat)) (s : State) : Host.Outcome State Fault Refusal :=
  run (arrive (requestFrame r tag fields)) s

end Sys2Proof.Machine
end

