-- ==== Sys2Proof/Machine/PowerOn.lean ====
section
/-! DEFINITION. Power-on (R188): what is read back, what every block comes up with, and START_UP. -/

namespace Sys2Proof.Machine

/-- The bit rate of the two strap inputs (R174). -/
def strapRate : Bool → Bool → Nat
  | false, true => 460800
  | true, false => 921600
  | _, _ => 115200

/-- One head group at power-on (R90): its retired flags kept, no soft mapping, and a hard mapping loaded from the image, which
sets its head retired. -/
def HeadSet.powerOn (h : HeadSet) (hard : Nat) : HeadSet :=
  if hard = 0 then { h with mapping := .none }
  else { h with retired := h.retired ||| headBit hard, mapping := .hard hard }

/-- The four head groups of a station at power-on. -/
def headsAtPowerOn (p : PerGroup HeadSet) (hard : PerGroup Nat) : PerGroup HeadSet :=
  ⟨p.s1.powerOn hard.s1, p.s2.powerOn hard.s2, p.c1.powerOn hard.c1, p.c2.powerOn hard.c2⟩

/-- No hard mapping. -/
def noHard : PerStation (PerGroup Nat) := ⟨⟨0, 0, 0, 0⟩, ⟨0, 0, 0, 0⟩⟩

/-- The content of a valid image (R188). -/
def loadedImage (s : State) : Option ImageContent :=
  s.store.image.bind fun m => if m.isValid then some m.content else none

/-- The part before its limits, its glue outputs and its first notice: the retained memory and the non-volatile image are all
that power-off leaves (R23, R47, R72, R90, R108, R125, R149, R150, R163, R173, R184, R188). -/
def powerOnBase (rate : Nat) (stopped : Bool) (s : State) : State :=
  let image := loadedImage s
  let cfg := (image.map ImageContent.cfg).getD Settings.default
  let hard := (image.map ImageContent.hard).getD noHard
  let r := State.reset
  { r with
    cfg := cfg
    enc := { r.enc with selected := cfg.primary }
    stations := ⟨StationRec.initial cfg.stations.a.estimate (headsAtPowerOn s.stations.a.groups hard.a),
                 StationRec.initial cfg.stations.b.estimate (headsAtPowerOn s.stations.b.groups hard.b)⟩
    lanes := ⟨LaneRec.initial true cfg.idleLength, LaneRec.initial false cfg.idleLength⟩
    gov := { r.gov with hold := stopped }
    emergencyStop := stopped
    link := { r.link with rate := rate, tx := .free }
    notices := { queue := [], number := 0, lost := false }
    store := { writing := none, imageValid := image.isSome, image := s.store.image, configured := image.isSome }
    pending := s.pending }

/-- The limits, the glue outputs and the field outputs of power-on (R90, R108, R125, R149). Every limiter has the value that its
inputs give at power-on (log 32). -/
def powerOnOutputs (s : State) : State :=
  let g := fun u : GlueUnit => glueSetpoint s u 0 0
  let s1 := s.setGov { s.gov with limits := computeLimits s, issuedGlue := ⟨g .sf1, g .sf2, g .db⟩ }
  s1.setIssued
    [.retract .a, .retract .b, .knifeLength .u s.cfg.idleLength, .divertGate .u .divert, .divertGate .l .divert,
     .speedReference 0, .glueGap .sf1 (g .sf1).gap, .preheatWrap .sf1 (g .sf1).wrap, .glueGap .sf2 (g .sf2).gap,
     .preheatWrap .sf2 (g .sf2).wrap, .glueGap .db (g .db).gap, .preheatWrap .db (g .db).wrap]

/-- START_UP (R188, R191): the configured flag, CONFIGURED 1 or UNCONFIGURED 0 (log 16), the image state VALID 0 or INVALID 1, the
bit rate. -/
def startUpNotice (s : State) : State :=
  notice 0xC0#8 (flag s.store.configured ++ uns 1 (if s.store.imageValid then 0 else 1) ++ uns 3 s.link.rate) s

/-- POWER_ON (R188): the straps are read (R174), and the emergency stop as it stands (R140, R153). -/
def powerOn (strapHigh strapLow stopped : Bool) (s : State) : State :=
  startUpNotice (powerOnOutputs (powerOnBase (strapRate strapHigh strapLow) stopped s))

end Sys2Proof.Machine
end

