-- ==== Sys2Proof/Machine/FieldCommands.lean ====
section
/-! DEFINITION. The meanings of the commands that are not requests: power, field inputs, timers,
the line itself and the non-volatile memory. Each is one event of the part. -/

namespace Sys2Proof.Machine

/-- POWER_ON (R188). -/
def execPowerOn (strapHigh strapLow emergencyStop : Bool) (s : State) : Host.Outcome State Fault Refusal :=
  run (powerOn strapHigh strapLow emergencyStop) s

/-- ENCODER_REPORT (R3, R4). -/
def execEncoderReport (enc : Encoder) (tenths : Nat) (s : State) : Host.Outcome State Fault Refusal :=
  run (encoderReport enc tenths) s

/-- SILENCE_TIMER_EXPIRY (R4). -/
def execSilenceTimerExpiry (s : State) : Host.Outcome State Fault Refusal :=
  run silenceExpiry s

/-- DEFECT_BEGINS (R18). -/
def execDefectBegins (s : State) : Host.Outcome State Fault Refusal :=
  run defectBegins s

/-- DEFECT_ENDS (R19). -/
def execDefectEnds (s : State) : Host.Outcome State Fault Refusal :=
  run defectEnds s

/-- DIAMETER_READING (R53). -/
def execDiameterReading (stand : Fin 6) (mm : Nat) (s : State) : Host.Outcome State Fault Refusal :=
  run (diameterReading stand mm) s

/-- STANDBY_PREPARED (R55). -/
def execStandbyPrepared (stand : Fin 6) (s : State) : Host.Outcome State Fault Refusal :=
  run (standbyPrepared stand) s

/-- SPLICE_CONFIRMED (R60). -/
def execSpliceConfirmed (stand : Fin 6) (s : State) : Host.Outcome State Fault Refusal :=
  run (spliceConfirmed stand) s

/-- SPLICE_TIMER_EXPIRY (R61). -/
def execSpliceTimerExpiry (stand : Fin 6) (s : State) : Host.Outcome State Fault Refusal :=
  run (spliceTimeout stand) s

/-- WEB_BREAK (R63, R154). -/
def execWebBreak (stand : Fin 6) (s : State) : Host.Outcome State Fault Refusal :=
  run (webBreak stand) s

/-- JOINT_SENSED (R67). -/
def execJointSensed (stand : Fin 6) (s : State) : Host.Outcome State Fault Refusal :=
  run (jointSensed stand) s

/-- IN_POSITION (R76). -/
def execInPosition (st : Station) (s : State) : Host.Outcome State Fault Refusal :=
  run (inPosition st) s

/-- POSITIONING_TIMER_EXPIRY (R76). -/
def execPositioningTimerExpiry (st : Station) (s : State) : Host.Outcome State Fault Refusal :=
  run (positioningTimeout st) s

/-- POSITION_FAULT (R76). -/
def execPositionFault (st : Station) (s : State) : Host.Outcome State Fault Refusal :=
  run (positionFault st) s

/-- HEAD_FAULT (R82). -/
def execHeadFault (st : Station) (group : HeadGroup) (head : Nat) (s : State) : Host.Outcome State Fault Refusal :=
  run (headFault { st := st, group := group, head := head }) s

/-- CHANGE_DONE (R117). -/
def execChangeDone (lane : Lane) (s : State) : Host.Outcome State Fault Refusal :=
  run (changeDone lane) s

/-- CHANGE_TIMER_EXPIRY (R118). -/
def execChangeTimerExpiry (lane : Lane) (s : State) : Host.Outcome State Fault Refusal :=
  run (changeTimeout lane) s

/-- RAMP_TIMER_EXPIRY (R137). -/
def execRampTimerExpiry (s : State) : Host.Outcome State Fault Refusal :=
  run rampExpiry s

/-- POSITIONING_ESTIMATE_RUNOUT (R131). -/
def execPositioningEstimateRunout (st : Station) (s : State) : Host.Outcome State Fault Refusal :=
  run (estimateRunout st) s

/-- HOT_PLATE_READING (R142). -/
def execHotPlateReading (tenthsC : Int) (s : State) : Host.Outcome State Fault Refusal :=
  run (hotPlateReading tenthsC) s

/-- TEMPERATURE_AGING (R143). -/
def execTemperatureAging (s : State) : Host.Outcome State Fault Refusal :=
  run temperatureAging s

/-- TEMPERATURE_STALE (R143). -/
def execTemperatureStale (s : State) : Host.Outcome State Fault Refusal :=
  run temperatureStale s

/-- EMERGENCY_STOP_ACTIVE (R140, R153). -/
def execEmergencyStopActive (s : State) : Host.Outcome State Fault Refusal :=
  run emergencyStopActive s

/-- EMERGENCY_STOP_RELEASED (R140, R153). -/
def execEmergencyStopReleased (s : State) : Host.Outcome State Fault Refusal :=
  run emergencyStopReleased s

/-- BOARD_BREAK (R154). -/
def execBoardBreak (s : State) : Host.Outcome State Fault Refusal :=
  run boardBreak s

/-- REST_TIMER_EXPIRY (R156). -/
def execRestTimerExpiry (s : State) : Host.Outcome State Fault Refusal :=
  run restExpiry s

/-- COUNTER_MILLISECOND (R166, R168). -/
def execCounterMillisecond (s : State) : Host.Outcome State Fault Refusal :=
  run millisecond s

/-- FRAME_RECEIVED (R176). -/
def execFrameReceived (bytes : List Byte) (s : State) : Host.Outcome State Fault Refusal :=
  run (rxBytes bytes) s

/-- GAP_TIMEOUT (R177). -/
def execGapTimeout (s : State) : Host.Outcome State Fault Refusal :=
  run gapTimeout s

/-- UNKNOWN_KIND (R179). -/
def execUnknownKind (kind tag : Byte) (payload : List Byte) (s : State) : Host.Outcome State Fault Refusal :=
  run (arrive { kind := kind, tag := tag, payload := payload }) s

/-- TRANSMIT_COMPLETE (R182). -/
def execTransmitComplete (s : State) : Host.Outcome State Fault Refusal :=
  run transmitComplete s

/-- IMAGE_WRITE_SUCCESS (R187). -/
def execImageWriteSuccess (s : State) : Host.Outcome State Fault Refusal :=
  run imageWriteSuccess s

/-- IMAGE_WRITE_FAILURE (R187). -/
def execImageWriteFailure (s : State) : Host.Outcome State Fault Refusal :=
  run imageWriteFailure s

/-- FALSE_START (R176). -/
def execFalseStart (lenLow lenHigh : Byte) (s : State) : Host.Outcome State Fault Refusal :=
  run (rxBytes [Config.startByte, lenLow, lenHigh]) s

end Sys2Proof.Machine
end

