-- ==== Sys2Proof/Machine/Requests.lean ====
section
/-! DEFINITION. The meanings of the requests, kinds 00h to 2Fh: the frame with the request's tag and payload
fields (Figures 12-3 and 12-4) arrives. Its effect is the owning block's, in Link.perform, when the link takes the frame
(R179). -/

namespace Sys2Proof.Machine

/-- STATUS (R183). -/
def execStatus (tag : Byte) (s : State) : Host.Outcome State Fault Refusal :=
  request .status tag [] s

/-- MAP_READ (R21). -/
def execMapRead (tag start : Byte) (s : State) : Host.Outcome State Fault Refusal :=
  request .mapRead tag [(1, start.toNat)] s

/-- DEFECT_REPORT (R20). -/
def execDefectReport (tag : Byte) (position leading trailing : BitVec 32) (s : State) : Host.Outcome State Fault Refusal :=
  request .defectReport tag [(4, position.toNat), (4, leading.toNat), (4, trailing.toNat)] s

/-- ORDER_ADD (R25). -/
def execOrderAdd (tag : Byte) (id : BitVec 16) (cut : BitVec 32) (outs : Byte) (wanted overrun underrun : BitVec 32)
    (bundle : BitVec 16) (s : State) : Host.Outcome State Fault Refusal :=
  request .orderAdd tag
    [(2, id.toNat), (4, cut.toNat), (1, outs.toNat),
     (4, wanted.toNat), (4, overrun.toNat), (4, underrun.toNat), (2, bundle.toNat)] s

/-- ORDER_AMEND (R27). -/
def execOrderAmend (tag : Byte) (id : BitVec 16) (wanted overrun underrun : BitVec 32) (s : State) :
    Host.Outcome State Fault Refusal :=
  request .orderAmend tag [(2, id.toNat), (4, wanted.toNat), (4, overrun.toNat), (4, underrun.toNat)] s

/-- ORDER_CANCEL (R28). -/
def execOrderCancel (tag : Byte) (id : BitVec 16) (s : State) : Host.Outcome State Fault Refusal :=
  request .orderCancel tag [(2, id.toNat)] s

/-- ORDER_RELEASE (R29). -/
def execOrderRelease (tag : Byte) (id : BitVec 16) (s : State) : Host.Outcome State Fault Refusal :=
  request .orderRelease tag [(2, id.toNat)] s

/-- ORDER_QUERY (R29). -/
def execOrderQuery (tag : Byte) (id : BitVec 16) (s : State) : Host.Outcome State Fault Refusal :=
  request .orderQuery tag [(2, id.toNat)] s

/-- SETUP_QUEUE (R31). -/
def execSetupQueue (tag id : Byte) (orderU : BitVec 16) (targetU : BitVec 32) (presentL : Byte) (orderL : BitVec 16)
    (targetL : BitVec 32) (deckle : BitVec 16) (boundary grade : Byte) (waste : BitVec 16)
    (slits scores : List (BitVec 16)) (s : State) : Host.Outcome State Fault Refusal :=
  request .setupQueue tag
    ([(1, id.toNat), (2, orderU.toNat), (4, targetU.toNat), (1, presentL.toNat), (2, orderL.toNat), (4, targetL.toNat),
      (2, deckle.toNat), (1, boundary.toNat), (1, grade.toNat), (2, waste.toNat), (1, slits.length), (1, scores.length)]
      ++ (slits ++ scores).map fun p => (2, p.toNat)) s

/-- SETUP_WITHDRAW (R43). -/
def execSetupWithdraw (tag id : Byte) (s : State) : Host.Outcome State Fault Refusal :=
  request .setupWithdraw tag [(1, id.toNat)] s

/-- SETUP_QUERY (R44). -/
def execSetupQuery (tag id : Byte) (s : State) : Host.Outcome State Fault Refusal :=
  request .setupQuery tag [(1, id.toNat)] s

/-- SCHEDULE_READ (R44). -/
def execScheduleRead (tag : Byte) (s : State) : Host.Outcome State Fault Refusal :=
  request .scheduleRead tag [] s

/-- REEL_LOAD (R50, R51). -/
def execReelLoad (tag stand reelVariant : Byte) (reel : BitVec 32) (diameter core caliper : BitVec 16) (s : State) :
    Host.Outcome State Fault Refusal :=
  request .reelLoad tag
    [(1, stand.toNat), (1, reelVariant.toNat), (4, reel.toNat),
     (2, diameter.toNat), (2, core.toNat), (2, caliper.toNat)] s

/-- REEL_UNLOAD (R51). -/
def execReelUnload (tag stand : Byte) (s : State) : Host.Outcome State Fault Refusal :=
  request .reelUnload tag [(1, stand.toNat)] s

/-- SPLICE_FORCE (R62). -/
def execSpliceForce (tag stand : Byte) (s : State) : Host.Outcome State Fault Refusal :=
  request .spliceForce tag [(1, stand.toNat)] s

/-- STAND_RESET (R65). -/
def execStandReset (tag stand : Byte) (s : State) : Host.Outcome State Fault Refusal :=
  request .standReset tag [(1, stand.toNat)] s

/-- STAND_QUERY (R69). -/
def execStandQuery (tag stand : Byte) (s : State) : Host.Outcome State Fault Refusal :=
  request .standQuery tag [(1, stand.toNat)] s

/-- STATION_RESET (R77). -/
def execStationReset (tag st : Byte) (s : State) : Host.Outcome State Fault Refusal :=
  request .stationReset tag [(1, st.toNat)] s

/-- HEAD_RETIRE (R82). -/
def execHeadRetire (tag st group head : Byte) (s : State) : Host.Outcome State Fault Refusal :=
  request .headRetire tag [(1, st.toNat), (1, group.toNat), (1, head.toNat)] s

/-- HEAD_RESTORE (R83). -/
def execHeadRestore (tag st group head : Byte) (s : State) : Host.Outcome State Fault Refusal :=
  request .headRestore tag [(1, st.toNat), (1, group.toNat), (1, head.toNat)] s

/-- SOFT_REMAP (R85). -/
def execSoftRemap (tag st group head : Byte) (s : State) : Host.Outcome State Fault Refusal :=
  request .softRemap tag [(1, st.toNat), (1, group.toNat), (1, head.toNat)] s

/-- REMAP_PREPARE (R86). -/
def execRemapPrepare (tag st group head : Byte) (s : State) : Host.Outcome State Fault Refusal :=
  request .remapPrepare tag [(1, st.toNat), (1, group.toNat), (1, head.toNat)] s

/-- REMAP_CONFIRM (R86). -/
def execRemapConfirm (tag st group head : Byte) (s : State) : Host.Outcome State Fault Refusal :=
  request .remapConfirm tag [(1, st.toNat), (1, group.toNat), (1, head.toNat)] s

/-- HARD_REMAP (R86, R87). -/
def execHardRemap (tag st group head : Byte) (s : State) : Host.Outcome State Fault Refusal :=
  request .hardRemap tag [(1, st.toNat), (1, group.toNat), (1, head.toNat)] s

/-- STATION_QUERY (R88). -/
def execStationQuery (tag st : Byte) (s : State) : Host.Outcome State Fault Refusal :=
  request .stationQuery tag [(1, st.toNat)] s

/-- TRIM_ENTER (R103). -/
def execTrimEnter (tag lane range : Byte) (s : State) : Host.Outcome State Fault Refusal :=
  request .trimEnter tag [(1, lane.toNat), (1, range.toNat)] s

/-- TRIM_SET (R104). -/
def execTrimSet (tag lane steps : Byte) (s : State) : Host.Outcome State Fault Refusal :=
  request .trimSet tag [(1, lane.toNat), (1, steps.toNat)] s

/-- TRIM_EXIT (R105). -/
def execTrimExit (tag lane : Byte) (s : State) : Host.Outcome State Fault Refusal :=
  request .trimExit tag [(1, lane.toNat)] s

/-- KNIFE_QUERY (R106). -/
def execKnifeQuery (tag lane : Byte) (s : State) : Host.Outcome State Fault Refusal :=
  request .knifeQuery tag [(1, lane.toNat)] s

/-- STACK_EJECT (R119). -/
def execStackEject (tag lane : Byte) (s : State) : Host.Outcome State Fault Refusal :=
  request .stackEject tag [(1, lane.toNat)] s

/-- STACKER_RESET (R120). -/
def execStackerReset (tag lane : Byte) (s : State) : Host.Outcome State Fault Refusal :=
  request .stackerReset tag [(1, lane.toNat)] s

/-- DELIVERY_QUERY (R123). -/
def execDeliveryQuery (tag lane : Byte) (s : State) : Host.Outcome State Fault Refusal :=
  request .deliveryQuery tag [(1, lane.toNat)] s

/-- SPEED_DEMAND (R134). -/
def execSpeedDemand (tag : Byte) (speed : BitVec 16) (s : State) : Host.Outcome State Fault Refusal :=
  request .speedDemand tag [(2, speed.toNat)] s

/-- GOVERNOR_QUERY (R147). -/
def execGovernorQuery (tag : Byte) (s : State) : Host.Outcome State Fault Refusal :=
  request .governorQuery tag [] s

/-- LINE_STOP (R151). -/
def execLineStop (tag : Byte) (s : State) : Host.Outcome State Fault Refusal :=
  request .lineStop tag [] s

/-- LINE_RESTART (R152). -/
def execLineRestart (tag : Byte) (s : State) : Host.Outcome State Fault Refusal :=
  request .lineRestart tag [] s

/-- PURGE (R157). -/
def execPurge (tag : Byte) (s : State) : Host.Outcome State Fault Refusal :=
  request .purge tag [] s

/-- LINE_QUERY (R159). -/
def execLineQuery (tag : Byte) (s : State) : Host.Outcome State Fault Refusal :=
  request .lineQuery tag [] s

/-- ACCOUNTS_READ (R163). -/
def execAccountsRead (tag : Byte) (s : State) : Host.Outcome State Fault Refusal :=
  request .accountsRead tag [] s

/-- ACCOUNTS_CLEAR (R163). -/
def execAccountsClear (tag : Byte) (s : State) : Host.Outcome State Fault Refusal :=
  request .accountsClear tag [] s

/-- COUNTER_SETUP (R170). -/
def execCounterSetup (tag counter enable source mode invert freeze laneFilter : Byte) (orderMatch orderMask : BitVec 16)
    (classSet family : Byte) (s : State) : Host.Outcome State Fault Refusal :=
  request .counterSetup tag
    [(1, counter.toNat), (1, enable.toNat), (1, source.toNat), (1, mode.toNat), (1, invert.toNat),
     (1, freeze.toNat), (1, laneFilter.toNat), (2, orderMatch.toNat), (2, orderMask.toNat), (1, classSet.toNat), (1, family.toNat)] s

/-- COUNTER_ENABLE (R171). -/
def execCounterEnable (tag counter enable : Byte) (s : State) : Host.Outcome State Fault Refusal :=
  request .counterEnable tag [(1, counter.toNat), (1, enable.toNat)] s

/-- COUNTER_PRESET (R171). -/
def execCounterPreset (tag counter : Byte) (value : BitVec 40) (s : State) : Host.Outcome State Fault Refusal :=
  request .counterPreset tag [(1, counter.toNat), (5, value.toNat)] s

/-- COUNTER_UNFREEZE (R169). -/
def execCounterUnfreeze (tag : Byte) (s : State) : Host.Outcome State Fault Refusal :=
  request .counterUnfreeze tag [] s

/-- COUNTER_READ (R172). -/
def execCounterRead (tag clear : Byte) (s : State) : Host.Outcome State Fault Refusal :=
  request .counterRead tag [(1, clear.toNat)] s

/-- SETTINGS_WRITE (R185). -/
def execSettingsWrite (tag : Byte) (entries : List (BitVec 16 × BitVec 48)) (s : State) : Host.Outcome State Fault Refusal :=
  request .settingsWrite tag ((1, entries.length) :: entries.flatMap fun e => [(2, e.1.toNat), (6, e.2.toNat)]) s

/-- SETTINGS_COMMIT (R187). -/
def execSettingsCommit (tag : Byte) (s : State) : Host.Outcome State Fault Refusal :=
  request .settingsCommit tag [] s

/-- PRODUCTION_CLEAR (R189). -/
def execProductionClear (tag : Byte) (s : State) : Host.Outcome State Fault Refusal :=
  request .productionClear tag [] s

end Sys2Proof.Machine
end

