-- ==== Sys2Proof/Machine/Dispatch.lean ====
section
/-! DEFINITION. One arm for each command: a direct call of its meaning. -/

namespace Sys2Proof.Machine

def exec (i : Instr) (s : State) : Host.Outcome State Fault Refusal :=
  match i with
  | .powerOn strapHigh strapLow emergencyStop => Sys2Proof.Machine.execPowerOn strapHigh strapLow emergencyStop s
  | .encoderReport enc tenths => Sys2Proof.Machine.execEncoderReport enc tenths s
  | .silenceTimerExpiry => Sys2Proof.Machine.execSilenceTimerExpiry s
  | .defectBegins => Sys2Proof.Machine.execDefectBegins s
  | .defectEnds => Sys2Proof.Machine.execDefectEnds s
  | .diameterReading stand mm => Sys2Proof.Machine.execDiameterReading stand mm s
  | .standbyPrepared stand => Sys2Proof.Machine.execStandbyPrepared stand s
  | .spliceConfirmed stand => Sys2Proof.Machine.execSpliceConfirmed stand s
  | .spliceTimerExpiry stand => Sys2Proof.Machine.execSpliceTimerExpiry stand s
  | .webBreak stand => Sys2Proof.Machine.execWebBreak stand s
  | .jointSensed stand => Sys2Proof.Machine.execJointSensed stand s
  | .inPosition st => Sys2Proof.Machine.execInPosition st s
  | .positioningTimerExpiry st => Sys2Proof.Machine.execPositioningTimerExpiry st s
  | .positionFault st => Sys2Proof.Machine.execPositionFault st s
  | .headFault st group head => Sys2Proof.Machine.execHeadFault st group head s
  | .changeDone lane => Sys2Proof.Machine.execChangeDone lane s
  | .changeTimerExpiry lane => Sys2Proof.Machine.execChangeTimerExpiry lane s
  | .rampTimerExpiry => Sys2Proof.Machine.execRampTimerExpiry s
  | .positioningEstimateRunout st => Sys2Proof.Machine.execPositioningEstimateRunout st s
  | .hotPlateReading tenthsC => Sys2Proof.Machine.execHotPlateReading tenthsC s
  | .temperatureAging => Sys2Proof.Machine.execTemperatureAging s
  | .temperatureStale => Sys2Proof.Machine.execTemperatureStale s
  | .emergencyStopActive => Sys2Proof.Machine.execEmergencyStopActive s
  | .emergencyStopReleased => Sys2Proof.Machine.execEmergencyStopReleased s
  | .boardBreak => Sys2Proof.Machine.execBoardBreak s
  | .restTimerExpiry => Sys2Proof.Machine.execRestTimerExpiry s
  | .counterMillisecond => Sys2Proof.Machine.execCounterMillisecond s
  | .frameReceived bytes => Sys2Proof.Machine.execFrameReceived bytes s
  | .gapTimeout => Sys2Proof.Machine.execGapTimeout s
  | .unknownKind kind tag payload => Sys2Proof.Machine.execUnknownKind kind tag payload s
  | .transmitComplete => Sys2Proof.Machine.execTransmitComplete s
  | .imageWriteSuccess => Sys2Proof.Machine.execImageWriteSuccess s
  | .imageWriteFailure => Sys2Proof.Machine.execImageWriteFailure s
  | .status tag => Sys2Proof.Machine.execStatus tag s
  | .mapRead tag start => Sys2Proof.Machine.execMapRead tag start s
  | .defectReport tag position leading trailing => Sys2Proof.Machine.execDefectReport tag position leading trailing s
  | .orderAdd tag id cut outs wanted overrun underrun bundle => Sys2Proof.Machine.execOrderAdd tag id cut outs wanted overrun underrun bundle s
  | .orderAmend tag id wanted overrun underrun => Sys2Proof.Machine.execOrderAmend tag id wanted overrun underrun s
  | .orderCancel tag id => Sys2Proof.Machine.execOrderCancel tag id s
  | .orderRelease tag id => Sys2Proof.Machine.execOrderRelease tag id s
  | .orderQuery tag id => Sys2Proof.Machine.execOrderQuery tag id s
  | .setupQueue tag id orderU targetU presentL orderL targetL deckle boundary grade waste slits scores => Sys2Proof.Machine.execSetupQueue tag id orderU targetU presentL orderL targetL deckle boundary grade waste slits scores s
  | .setupWithdraw tag id => Sys2Proof.Machine.execSetupWithdraw tag id s
  | .setupQuery tag id => Sys2Proof.Machine.execSetupQuery tag id s
  | .scheduleRead tag => Sys2Proof.Machine.execScheduleRead tag s
  | .reelLoad tag stand reelVariant reel diameter core caliper => Sys2Proof.Machine.execReelLoad tag stand reelVariant reel diameter core caliper s
  | .reelUnload tag stand => Sys2Proof.Machine.execReelUnload tag stand s
  | .spliceForce tag stand => Sys2Proof.Machine.execSpliceForce tag stand s
  | .standReset tag stand => Sys2Proof.Machine.execStandReset tag stand s
  | .standQuery tag stand => Sys2Proof.Machine.execStandQuery tag stand s
  | .stationReset tag st => Sys2Proof.Machine.execStationReset tag st s
  | .headRetire tag st group head => Sys2Proof.Machine.execHeadRetire tag st group head s
  | .headRestore tag st group head => Sys2Proof.Machine.execHeadRestore tag st group head s
  | .softRemap tag st group head => Sys2Proof.Machine.execSoftRemap tag st group head s
  | .remapPrepare tag st group head => Sys2Proof.Machine.execRemapPrepare tag st group head s
  | .remapConfirm tag st group head => Sys2Proof.Machine.execRemapConfirm tag st group head s
  | .hardRemap tag st group head => Sys2Proof.Machine.execHardRemap tag st group head s
  | .stationQuery tag st => Sys2Proof.Machine.execStationQuery tag st s
  | .trimEnter tag lane range => Sys2Proof.Machine.execTrimEnter tag lane range s
  | .trimSet tag lane steps => Sys2Proof.Machine.execTrimSet tag lane steps s
  | .trimExit tag lane => Sys2Proof.Machine.execTrimExit tag lane s
  | .knifeQuery tag lane => Sys2Proof.Machine.execKnifeQuery tag lane s
  | .stackEject tag lane => Sys2Proof.Machine.execStackEject tag lane s
  | .stackerReset tag lane => Sys2Proof.Machine.execStackerReset tag lane s
  | .deliveryQuery tag lane => Sys2Proof.Machine.execDeliveryQuery tag lane s
  | .speedDemand tag speed => Sys2Proof.Machine.execSpeedDemand tag speed s
  | .governorQuery tag => Sys2Proof.Machine.execGovernorQuery tag s
  | .lineStop tag => Sys2Proof.Machine.execLineStop tag s
  | .lineRestart tag => Sys2Proof.Machine.execLineRestart tag s
  | .purge tag => Sys2Proof.Machine.execPurge tag s
  | .lineQuery tag => Sys2Proof.Machine.execLineQuery tag s
  | .accountsRead tag => Sys2Proof.Machine.execAccountsRead tag s
  | .accountsClear tag => Sys2Proof.Machine.execAccountsClear tag s
  | .counterSetup tag counter enable source mode invert freeze laneFilter orderMatch orderMask classSet family => Sys2Proof.Machine.execCounterSetup tag counter enable source mode invert freeze laneFilter orderMatch orderMask classSet family s
  | .counterEnable tag counter enable => Sys2Proof.Machine.execCounterEnable tag counter enable s
  | .counterPreset tag counter value => Sys2Proof.Machine.execCounterPreset tag counter value s
  | .counterUnfreeze tag => Sys2Proof.Machine.execCounterUnfreeze tag s
  | .counterRead tag clear => Sys2Proof.Machine.execCounterRead tag clear s
  | .settingsWrite tag entries => Sys2Proof.Machine.execSettingsWrite tag entries s
  | .settingsCommit tag => Sys2Proof.Machine.execSettingsCommit tag s
  | .productionClear tag => Sys2Proof.Machine.execProductionClear tag s
  | .falseStart lenLow lenHigh => Sys2Proof.Machine.execFalseStart lenLow lenHigh s

end Sys2Proof.Machine
end

