-- ==== Sys2Proof/WellFormed.lean ====
section
/-! DEFINITION. Which commands a sender can really send: the limits that the types of the operands do not carry. The step is
total on the others as well (log 21). -/

namespace Sys2Proof

/-- One whole frame: the start byte, a length of at most 1,020, and as many bytes as it says (R175). -/
def isOneFrame : List Byte → Bool
  | start :: lo :: hi :: rest =>
    start == Config.startByte && decide (lo.toNat + 256 * hi.toNat ≤ Config.maxPayload)
      && rest.length == lo.toNat + 256 * hi.toNat + 4
  | _ => false

/-- A command a sender can send: a head its group has (R81), one whole frame (R175), a kind that is no request (R175), lists
that fit a payload (R175, R193), a false start that is one (R176). -/
def Instr.wellFormed : Instr → Bool
  | .powerOn _ _ _ => true
  | .encoderReport _ _ => true
  | .silenceTimerExpiry => true
  | .defectBegins => true
  | .defectEnds => true
  | .diameterReading _ _ => true
  | .standbyPrepared _ => true
  | .spliceConfirmed _ => true
  | .spliceTimerExpiry _ => true
  | .webBreak _ => true
  | .jointSensed _ => true
  | .inPosition _ => true
  | .positioningTimerExpiry _ => true
  | .positionFault _ => true
  | .headFault _ group head =>
    decide (head ≤ group.size)
  | .changeDone _ => true
  | .changeTimerExpiry _ => true
  | .rampTimerExpiry => true
  | .positioningEstimateRunout _ => true
  | .hotPlateReading _ => true
  | .temperatureAging => true
  | .temperatureStale => true
  | .emergencyStopActive => true
  | .emergencyStopReleased => true
  | .boardBreak => true
  | .restTimerExpiry => true
  | .counterMillisecond => true
  | .frameReceived bytes =>
    isOneFrame bytes
  | .gapTimeout => true
  | .unknownKind kind _ payload =>
    decide (0x30 ≤ kind.toNat) && decide (payload.length ≤ Config.maxPayload)
  | .transmitComplete => true
  | .imageWriteSuccess => true
  | .imageWriteFailure => true
  | .status _ => true
  | .mapRead _ _ => true
  | .defectReport _ _ _ _ => true
  | .orderAdd _ _ _ _ _ _ _ _ => true
  | .orderAmend _ _ _ _ _ => true
  | .orderCancel _ _ => true
  | .orderRelease _ _ => true
  | .orderQuery _ _ => true
  | .setupQueue _ _ _ _ _ _ _ _ _ _ _ slits scores =>
    decide (slits.length ≤ 255) && decide (scores.length ≤ 255) && decide (22 + 2 * (slits.length + scores.length) ≤ Config.maxPayload)
  | .setupWithdraw _ _ => true
  | .setupQuery _ _ => true
  | .scheduleRead _ => true
  | .reelLoad _ _ _ _ _ _ _ => true
  | .reelUnload _ _ => true
  | .spliceForce _ _ => true
  | .standReset _ _ => true
  | .standQuery _ _ => true
  | .stationReset _ _ => true
  | .headRetire _ _ _ _ => true
  | .headRestore _ _ _ _ => true
  | .softRemap _ _ _ _ => true
  | .remapPrepare _ _ _ _ => true
  | .remapConfirm _ _ _ _ => true
  | .hardRemap _ _ _ _ => true
  | .stationQuery _ _ => true
  | .trimEnter _ _ _ => true
  | .trimSet _ _ _ => true
  | .trimExit _ _ => true
  | .knifeQuery _ _ => true
  | .stackEject _ _ => true
  | .stackerReset _ _ => true
  | .deliveryQuery _ _ => true
  | .speedDemand _ _ => true
  | .governorQuery _ => true
  | .lineStop _ => true
  | .lineRestart _ => true
  | .purge _ => true
  | .lineQuery _ => true
  | .accountsRead _ => true
  | .accountsClear _ => true
  | .counterSetup _ _ _ _ _ _ _ _ _ _ _ _ => true
  | .counterEnable _ _ _ => true
  | .counterPreset _ _ _ => true
  | .counterUnfreeze _ => true
  | .counterRead _ _ => true
  | .settingsWrite _ entries =>
    decide (1 + 8 * entries.length ≤ Config.maxPayload)
  | .settingsCommit _ => true
  | .productionClear _ => true
  | .falseStart lenLow lenHigh =>
    decide (Config.maxPayload < lenLow.toNat + 256 * lenHigh.toNat)

end Sys2Proof
end

