-- ==== Sys2Proof/Safety.lean ====
section
/-! DEFINITION. The words the statements are made of: the frame of every request command (Figures 12-3 and 12-4), what a taken
request leaves, what the end of an event may change, and the invariants that every step keeps. -/

namespace Sys2Proof

open Machine

/-- A payload of numbers, each a size in bytes and a value. -/
def fields (vs : List (Nat × Nat)) : List Byte := vs.flatMap fun f => le f.1 f.2

/-- The frame a command stands for when it is a request, or a frame of a kind that is none: kind (Figure 10-3), tag, and
payload (Figures 12-3 and 12-4). -/
def Instr.frame : Instr → Option Frame
  | .status tag => some ⟨0x00#8, tag, []⟩
  | .mapRead tag start => some ⟨0x01#8, tag, [start]⟩
  | .defectReport tag p l t => some ⟨0x02#8, tag, fields [(4, p.toNat), (4, l.toNat), (4, t.toNat)]⟩
  | .orderAdd tag id cut outs w o u b =>
    some ⟨0x03#8, tag, fields [(2, id.toNat), (4, cut.toNat)] ++ outs ::
      fields [(4, w.toNat), (4, o.toNat), (4, u.toNat), (2, b.toNat)]⟩
  | .orderAmend tag id w o u => some ⟨0x04#8, tag, fields [(2, id.toNat), (4, w.toNat), (4, o.toNat), (4, u.toNat)]⟩
  | .orderCancel tag id => some ⟨0x05#8, tag, fields [(2, id.toNat)]⟩
  | .orderRelease tag id => some ⟨0x06#8, tag, fields [(2, id.toNat)]⟩
  | .orderQuery tag id => some ⟨0x07#8, tag, fields [(2, id.toNat)]⟩
  | .setupQueue tag id oU tU pL oL tL d b g w slits scores =>
    some ⟨0x08#8, tag, id :: fields [(2, oU.toNat), (4, tU.toNat)] ++ pL :: fields [(2, oL.toNat), (4, tL.toNat), (2, d.toNat)]
      ++ [b, g] ++ fields [(2, w.toNat), (1, slits.length), (1, scores.length)]
      ++ fields (slits.map fun p => (2, p.toNat)) ++ fields (scores.map fun p => (2, p.toNat))⟩
  | .setupWithdraw tag id => some ⟨0x09#8, tag, [id]⟩
  | .setupQuery tag id => some ⟨0x0A#8, tag, [id]⟩
  | .scheduleRead tag => some ⟨0x0B#8, tag, []⟩
  | .reelLoad tag stand v reel d c k =>
    some ⟨0x0C#8, tag, [stand, v] ++ fields [(4, reel.toNat), (2, d.toNat), (2, c.toNat), (2, k.toNat)]⟩
  | .reelUnload tag stand => some ⟨0x0D#8, tag, [stand]⟩
  | .spliceForce tag stand => some ⟨0x0E#8, tag, [stand]⟩
  | .standReset tag stand => some ⟨0x0F#8, tag, [stand]⟩
  | .standQuery tag stand => some ⟨0x10#8, tag, [stand]⟩
  | .stationReset tag st => some ⟨0x11#8, tag, [st]⟩
  | .headRetire tag st g h => some ⟨0x12#8, tag, [st, g, h]⟩
  | .headRestore tag st g h => some ⟨0x13#8, tag, [st, g, h]⟩
  | .softRemap tag st g h => some ⟨0x14#8, tag, [st, g, h]⟩
  | .remapPrepare tag st g h => some ⟨0x15#8, tag, [st, g, h]⟩
  | .remapConfirm tag st g h => some ⟨0x16#8, tag, [st, g, h]⟩
  | .hardRemap tag st g h => some ⟨0x17#8, tag, [st, g, h]⟩
  | .stationQuery tag st => some ⟨0x18#8, tag, [st]⟩
  | .trimEnter tag lane range => some ⟨0x19#8, tag, [lane, range]⟩
  | .trimSet tag lane steps => some ⟨0x1A#8, tag, [lane, steps]⟩
  | .trimExit tag lane => some ⟨0x1B#8, tag, [lane]⟩
  | .knifeQuery tag lane => some ⟨0x1C#8, tag, [lane]⟩
  | .stackEject tag lane => some ⟨0x1D#8, tag, [lane]⟩
  | .stackerReset tag lane => some ⟨0x1E#8, tag, [lane]⟩
  | .deliveryQuery tag lane => some ⟨0x1F#8, tag, [lane]⟩
  | .speedDemand tag v => some ⟨0x20#8, tag, fields [(2, v.toNat)]⟩
  | .governorQuery tag => some ⟨0x21#8, tag, []⟩
  | .lineStop tag => some ⟨0x22#8, tag, []⟩
  | .lineRestart tag => some ⟨0x23#8, tag, []⟩
  | .purge tag => some ⟨0x24#8, tag, []⟩
  | .lineQuery tag => some ⟨0x25#8, tag, []⟩
  | .accountsRead tag => some ⟨0x26#8, tag, []⟩
  | .accountsClear tag => some ⟨0x27#8, tag, []⟩
  | .counterSetup tag n e src m i f lf om ok cs fam =>
    some ⟨0x28#8, tag, [n, e, src, m, i, f, lf] ++ fields [(2, om.toNat), (2, ok.toNat)] ++ [cs, fam]⟩
  | .counterEnable tag n e => some ⟨0x29#8, tag, [n, e]⟩
  | .counterPreset tag n v => some ⟨0x2A#8, tag, n :: fields [(5, v.toNat)]⟩
  | .counterUnfreeze tag => some ⟨0x2B#8, tag, []⟩
  | .counterRead tag clear => some ⟨0x2C#8, tag, [clear]⟩
  | .settingsWrite tag es =>
    some ⟨0x2D#8, tag, fields ((1, es.length) :: es.flatMap fun e => [(2, e.1.toNat), (6, e.2.toNat)])⟩
  | .settingsCommit tag => some ⟨0x2E#8, tag, []⟩
  | .productionClear tag => some ⟨0x2F#8, tag, []⟩
  | .unknownKind kind tag payload => some ⟨kind, tag, payload⟩
  | _ => none

namespace Machine

/-! ## Requests -/

/-- The link can take a request at its arrival (R179). -/
abbrev LinkFree (s : State) : Prop := s.link.reply = none ∧ s.link.rxQueue = []

/-- The state after a request taken, where its owner leaves t and answers a code and data: a request outside the remap sequence
breaks it (R86), the reply stands in the buffer (R180), and the event ends (R136, R182). -/
def answered (r : Request) (tag : Byte) (code : Result) (data : List Byte) (t : State) : State :=
  let u := breakSequence r t
  settle (u.setLink { u.link with
    reply := some { kind := BitVec.ofNat 8 (r.code + 0x80), tag := tag, payload := uns 1 code.code ++ data } })

/-- The same for what an owner's operation gives. -/
def answer (r : Request) (tag : Byte) (a : State × Answer) : State := answered r tag a.2.code a.2.data a.1

/-- A command that changes nothing: no output, no change of input; the transmitter may start a waiting frame (R182). -/
abbrev Ignored (c : Instr) (s : State) : Prop := exec c s = .next (settle (begin s))

/-- A request that is refused changes nothing; the reply carries the code alone (R180). -/
abbrev Refuses (c : Instr) (r : Request) (tag : Byte) (code : Result) (s : State) : Prop :=
  exec c s = .next (answered r tag code [] (begin s))

/-- The setup a SETUP_QUEUE request describes (R31, R33): its planned length is the waste plus the greater lane length. -/
def requestedSetup (s : State) (id orderU targetU : Nat) (lower : Option (Nat × Nat)) (deckle : Nat) (boundary : Option Nat)
    (grade waste : Nat) (slits scores : List Nat) : Setup :=
  { id := id, held := false, runU := { order := orderU, target := targetU, credited := 0 },
    runL := lower.map fun p => { order := p.1, target := p.2, credited := 0 }, deckle := deckle, slits := slits,
    scores := scores, boundary := boundary, grade := grade, waste := waste,
    planned := waste + max (laneLength s orderU targetU) ((lower.map fun p => laneLength s p.1 p.2).getD 0),
    produced := 0, markState := none }

/-- y lies on the line through the points at x: the first and the last value beyond the ends, and between two points the quotient
truncated toward zero (R144, R145). -/
def Interpolates (ps : List (Nat × Nat)) (x y : Nat) : Prop :=
  (∀ p rest, ps = p :: rest → x ≤ p.1 → y = p.2) ∧ (∀ p, ps.getLast? = some p → p.1 ≤ x → y = p.2) ∧
    ∀ before a b after, ps = before ++ a :: b :: after → a.1 ≤ x → x < b.1 →
      (y : Int) = a.2 + (((b.2 : Int) - a.2) * ((x : Int) - a.1)).tdiv ((b.1 : Int) - a.1)

/-! ## The start of a setup -/

/-- The web map once the RUN_CHANGE mark of a setup has entered it at a position, with the waste as its trailing extent, or the rethread
length where that is greater and the mark is the first after a purge (R6, R37, R158; its place among equal positions is log 12's). -/
def mapWithRunChange (id pos waste : Nat) (s : State) : WebMap :=
  { s.web with
    marks := insertMark
      { entry := s.web.nextEntry, kind := .runChange id, pos := pos, lead := 0
        trail := if s.line.rethread then max waste s.cfg.rethreadLength else waste
        openSensor := false, openBreak := false, covered := false, merged := false } s.web.marks
    nextEntry := (s.web.nextEntry + 1) % 65536 }

/-- The effects of a start on an advance of n (R26, R37, R38, R158), from the state s of its attempt: the overshoot and the mark, the
former setup ON_LINE, the orders ACTIVE and FED, the overrun of an advance that ends a deferral. Whether the planned length had come
before this advance reads the one standing at the attempt (log 29); an open extension is discarded (R40, log 22). The mark stays as it
entered, and the others as they were, but for the trailing extent that a FREE station lengthens which loads a setup too late (R75, R79). -/
def StartsFrom (n : Nat) (head : Setup) (rest : List Setup) (s t : State) : Prop :=
  let deferred := s.sched.current.any fun c => decide (c.planned ≤ c.produced - n)
  let overshoot := if deferred then 0 else (s.sched.current.map fun c => c.produced - c.planned).getD 0
  let former := (s.sched.current.map Setup.orderIds).getD []
  t.sched.current = some { head with markState := some .onBoard, produced := overshoot } ∧ t.sched.queued = rest ∧
    t.sched.online = s.sched.online ++ s.sched.current.toList ∧ t.sched.episode = none ∧ t.sched.openExtension = none ∧
    (∀ o, findOrder t o = (findOrder s o).map fun r => { r with
      state := if o ∈ head.orderIds ∧ r.state = .queued then .active
        else if o ∈ former ∧ r.state = .active ∧ (head :: rest).all (fun q => !q.names o) = true then .fed
        else r.state }) ∧
    (let web := mapWithRunChange head.id overshoot head.waste s
     let bare := fun w : WebMap => { w with marks := w.marks.map fun m : Mark => { m with trail := 0 } }
     bare t.web = bare web ∧
       ((∀ st, (s.stations.get st).state = .free → ∀ m ∈ web.marks, m.isReject = true ∨ m.pos < stationPosition s st) →
         t.web = web)) ∧
    t.line = { s.line with rethread := false } ∧
    t.accounts.overrun = if deferred then min (2 ^ 48 - 1) (s.accounts.overrun + n) else s.accounts.overrun

/-- A report of k tenths that meets nothing but the schedule: no mark on the board, no open sensor defect, no ON_LINE setup, no late
station, no pending joint, no reel that runs out, no lane that comes to its cut, and no cut of an order under way to a stacker. -/
def QuietReport (k : Nat) (s : State) : Prop :=
  s.web.marks = [] ∧ s.web.sensorDefect = none ∧ s.sched.online = [] ∧ (∀ st, (s.stations.get st).late = none) ∧
    (∀ i, (s.stands.get i).joint = none ∧ ∀ r, (s.stands.get i).running = some r → k < r.usable) ∧
    (∀ lane, (s.lanes.get lane).enabled = false ∨ (s.lanes.get lane).since + k < (s.lanes.get lane).length) ∧
    ∀ lane, ∀ b ∈ (s.delivery.get lane).queue, b.order = none

/-! ## What the end of an event may change -/

/-- A stand as an event left it, or fired by the evaluation that ended the event (R59, R126). -/
def FiredOrKept (s : State) (i : Fin 6) (old new : Stand) : Prop :=
  new = old ∨
    old.state = .armed ∧ old.joint = none ∧ old.fireDistance = 0 ∧
      new = { old with state := .firing, timer := some (s.now + (s.cfg.stands.get i).spliceTimeout) }

/-- Every block but the governor, the counter bank, the notices, the outputs, a stand that fires and the transmitter is as it
was. -/
def EndKeeps (s t : State) : Prop :=
  t.now = s.now ∧ t.cfg = s.cfg ∧ t.enc = s.enc ∧ t.web = s.web ∧ t.sched = s.sched ∧ t.stations = s.stations ∧
    t.remap = s.remap ∧ t.lanes = s.lanes ∧ t.delivery = s.delivery ∧ t.line = s.line ∧ t.rest = s.rest ∧
    t.emergencyStop = s.emergencyStop ∧ t.accounts = s.accounts ∧ t.store = s.store ∧ t.pending = s.pending ∧
    t.link = { s.link with tx := t.link.tx, lastSent := t.link.lastSent } ∧
    ∀ i, FiredOrKept s i (s.stands.get i) (t.stands.get i)

/-! ## Invariants -/

/-- The web map: at most 128 marks, the most downstream first (R8, R13); a sensor defect that is open has not reached 50,000
and none is open while the sensor is stuck (R19); the axis count and the entry counter in their ranges (R1, R6). -/
def MapHolds (s : State) : Prop :=
  s.web.marks.length ≤ 128 ∧ s.web.marks.Pairwise (fun m k => k.pos ≤ m.pos) ∧
    (∀ len, s.web.sensorDefect = some len → len < 50000 ∧ s.web.sensorStuck = false) ∧ s.enc.axis < 2 ^ 48 ∧ s.web.nextEntry < 65536

/-- The tables: at most 32 orders in strict order of id, at most 16 live setups (sections 2.1, 2.2). -/
def TablesHold (s : State) : Prop :=
  s.sched.orders.length ≤ 32 ∧ s.sched.orders.Pairwise (fun r q => r.id < q.id) ∧ (setupOrder s).length ≤ 16

/-- One stand: a plan exactly in READY, ARMED and FIRING, the splice timer exactly in FIRING, no pending joint in FIRING
(R59), and a standby reel wherever a splice may come (Figure 3-2, Figure 3-3). -/
def StandHolds (st : Stand) : Prop :=
  (st.plan.isSome ↔ st.state = .ready ∨ st.state = .armed ∨ st.state = .firing) ∧
    (st.timer.isSome ↔ st.state = .firing) ∧ (st.state = .firing → st.joint = none) ∧
    (st.state = .loaded ∨ st.state = .ready ∨ st.state = .armed ∨ st.state = .firing ∨ st.state = .fault →
      st.standby.isSome ∧ st.running.isSome)

/-- One stacker: its timer and a bundle exactly when and whenever it changes, its fork and its waiting flag only then or in
FAULT (R113, R115 to R118). -/
def StackerHolds (d : DeliveryRec) : Prop :=
  (d.timer.isSome ↔ d.stacker = .changing) ∧ (d.stacker = .changing → d.bundle.isSome) ∧
    (d.stacker = .stacking → d.fork = none ∧ d.cause = none) ∧ (d.waiting = true → d.stacker = .changing)

/-- The trim correction of a lane (R105). -/
def TrimHolds (r : LaneRec) : Prop := -250 ≤ r.trim ∧ r.trim ≤ 250

/-- The reference never exceeds DEMAND nor LINE_MAX (R134), stands at 0 while the emergency hold is set (R140), and a falling
segment that has moved on lies at or below it. -/
def ReferenceHolds (s : State) : Prop :=
  s.gov.reference ≤ s.gov.demand ∧ s.gov.reference ≤ s.cfg.lineMax ∧ s.gov.hold = s.emergencyStop ∧
    (s.gov.hold = true → s.gov.reference = 0) ∧
    ∀ q, s.gov.segment = some q → q.dir = .falling →
      q.startRef - q.rate * (s.now - q.startTime) / 1000 ≤ s.gov.reference

/-- The link: at most 4 frames wait, and only behind a reply (R178, R179); at most 32 notices wait, their numbers in one byte
(R181, R192); a free transmitter has nothing to send (R182). -/
def LinkHolds (s : State) : Prop :=
  s.link.rxQueue.length ≤ 4 ∧ (s.link.reply = none → s.link.rxQueue = []) ∧ s.notices.queue.length ≤ 32 ∧
    s.notices.number < 256 ∧ (s.link.tx = .free → s.link.reply = none ∧ s.notices.queue = []) ∧
    (s.link.tx = .reply → s.link.reply.isSome)

/-- Every counter value lies below 2^40 (R168). -/
def CountersHold (s : State) : Prop := ∀ i, (s.bank.counters.get i).value < 2 ^ 40

/-- The active settings pass every cross-check of Figure 11-2 that is of the settings alone (R186). -/
def SettingsHold (s : State) : Prop := validSettings s.cfg [] = true

end Machine

end Sys2Proof
end

