-- ==== Sys2Proof/Certificates/Slice0/Obligations.lean ====
section
/-! DEFINITION. The statements for the provers. Every command of the part ends in a next state; a request is stated for a link
that is free (R179), and what a busy link does with it is stated once for all requests. -/

open Sys2Proof Sys2Proof.Machine

/-! ## The step -/

/-- With a command at the front of the queue, a step runs it on the state with the queue's rest. -/
def Obligations.StepRunsFrontCommand : Prop :=
  ∀ (c : Instr) (rest : List Instr) (s : State), s.pending = c :: rest → step s = exec c { s with pending := rest }

/-- Every command ends in a next state and leaves the queue of commands as it is; with none waiting the part idles (the model's
choice, log 7). -/
def Obligations.EveryStepGoesOn : Prop :=
  (∀ s : State, s.pending = [] → step s = .next s) ∧
  (∀ (c : Instr) (s : State), ∃ t, exec c s = .next t ∧ t.pending = s.pending ∧ t.evalDue = false)

/-- What the end of an event leaves as it was (R126, R136, R182). -/
def Obligations.EndOfEventKeepsBlocks : Prop := ∀ s : State, EndKeeps s (settle s) ∧ (s.evalDue = false → (settle s).gov = s.gov ∧
  (settle s).stands = s.stands ∧ (settle s).bank = s.bank ∧ (settle s).issued = s.issued)

/-! ## Power -/

/-- POWER_ON (R1, R5, R23, R72, R90, R108, R125, R149, R150, R156, R163, R174, R184, R188). These clauses are the model's readings
and choices: START_UP has left the notice queue and is in the transmitter (log 5), and its configured byte is 1 for CONFIGURED and
0 for UNCONFIGURED (log 16); the binding limiter STOP has the member number 0 (log 39); the defect sensor is not stuck (log 34);
last seen is false in every counter (log 37); the items of the absent stand slots in the default settings (log 10); and the limiter
values in the reset state, which POWER_ON makes too (log 32). The reset state is what POWER_ON makes of a part with a blank image
and retained memory never written, straps 0 0 and the emergency stop released (the model's choice of part: log 9). -/
def Obligations.PowerOnValues : Prop :=
  exec (.powerOn false false false) State.reset = .next State.reset ∧
  ∀ (h l e : Bool) (s : State), ∃ t, exec (.powerOn h l e) s = .next t ∧
    let image := s.store.image.bind fun m => if m.isValid then some m.content else none
    let rate := if h then (if l then 115200 else 921600) else if l then 460800 else 115200
    t.now = 0 ∧ t.cfg = (image.map ImageContent.cfg).getD Settings.default ∧
    t.enc = { axis := 0, selected := t.cfg.primary, fallback := false, silence := .running 500, secondarySum := 0 } ∧
    t.web = { marks := [], nextEntry := 0, sensorDefect := none, sensorStuck := false } ∧
    t.sched = { orders := [], queued := [], current := none, online := [], episode := none, openExtension := none } ∧
    (∀ i, t.stands.get i = Stand.initial) ∧ t.remap = .none ∧
    t.lanes = ⟨LaneRec.initial true t.cfg.idleLength, LaneRec.initial false t.cfg.idleLength⟩ ∧
    t.delivery = ⟨DeliveryRec.initial, DeliveryRec.initial⟩ ∧
    (t.gov.ceiling = 0 ∧ t.gov.bindFamily = .stop ∧ t.gov.reference = 0 ∧ t.gov.demand = 0 ∧ t.gov.segment = none ∧
      t.gov.rampTimer = none ∧ t.gov.hold = e ∧ t.gov.temperature = none ∧ t.gov.age = .stale ∧ t.gov.grade = 0) ∧
    t.line = { condition := .halt, lastBreak := none, rethread := false } ∧
    t.rest = { timer := .running 1000, lastAdvance := none } ∧ t.emergencyStop = e ∧ t.accounts = Accounts.zero ∧
    t.bank = { counters := Eight.replicate Counter.initial, frozen := false } ∧
    t.store = { writing := none, imageValid := image.isSome, image := s.store.image, configured := image.isSome } ∧
    t.notices = { queue := [], number := 1, lost := false } ∧
    t.link = { rate := rate, rx := .hunting, rxQueue := [], reply := none, lastSent := .notice, gapCount := 0, crcCount := 0,
               dropCount := 0,
               tx := .notice { kind := 0xC0#8, tag := 0, payload :=
                 [0, if image.isSome then 1 else 0, if image.isSome then 0 else 1] ++ le 3 rate } } ∧
    (∀ st : Station,
      let r := t.stations.get st
      r.state = .free ∧ r.pattern = none ∧ r.timer = none ∧ r.lastOutput = none ∧ r.late = none ∧ r.faultPending = false ∧
        r.lastArrival = none ∧ ∀ g : HeadGroup,
          let old := (s.stations.get st).groups.get g
          let hard := (((image.map ImageContent.hard).getD noHard).get st).get g
          r.groups.get g = if hard = 0 then { old with mapping := .none }
            else { old with retired := old.retired ||| headBit hard, mapping := .hard hard }) ∧
    Output.retract .a ∈ t.issued ∧ Output.retract .b ∈ t.issued ∧ Output.speedReference 0 ∈ t.issued

/-! ## The line link -/

/-- A frame of Figure 12-1 on the wire, with its CRC, received in HUNTING, arrives unchanged; and a request command is its frame
of Figures 12-3 and 12-4. -/
def Obligations.RequestCommandIsItsWireFrame : Prop :=
  (∀ (c : Instr) (q : Frame) (s : State), c.frame = some q → c.wellFormed = true → s.link.rx = .hunting →
     exec (.frameReceived q.wire) s = exec c s ∧ exec c s = .next (settle (arrive q (begin s)))) ∧
  (∀ (q : Frame) (s : State), q.payload.length ≤ 1020 → s.link.rx = .hunting →
     exec (.frameReceived q.wire) s = .next (settle (arrive q (begin s))))

/-- An arrived frame joins the tail of the receive queue, or with four frames held is dropped and counted (R178), and the oldest is
taken where the reply buffer is empty (R179). A request command is the arrival of its frame (log 4). -/
def Obligations.ReceiveQueueHoldsFour : Prop :=
  ∀ (c : Instr) (q : Frame) (s : State), c.frame = some q →
    (s.link.rxQueue.length < 4 → exec c s =
      .next (settle (takeOldest ((begin s).setLink { s.link with rxQueue := s.link.rxQueue ++ [q] })))) ∧
    (s.link.rxQueue.length < 4 → s.link.reply.isSome = true → exec c s =
      .next (settle ((begin s).setLink { s.link with rxQueue := s.link.rxQueue ++ [q] }))) ∧
    (4 ≤ s.link.rxQueue.length → exec c s = .next (settle (countEvent .framesRefused
      ((begin s).setLink { s.link with dropCount := min 65535 (s.link.dropCount + 1) }))))

/-- The receiver in HUNTING and ASSEMBLING, and FALSE_START: a length above 1,020 is no frame, and its two bytes are examined
again (R176). A frame whose CRC does not agree, and an unfinished frame at GAP_TIMEOUT, are discarded without an answer and
counted; silence in HUNTING is no gap (R177; the time base at GAP_TIMEOUT is the model's choice, log 2 and log 20). -/
def Obligations.ReceiverAssemblesAndDiscards : Prop :=
  (∀ (b : Byte) (s : State),
     (s.link.rx = .hunting → b = 0xA5#8 → rxByte b s = s.setLink { s.link with rx := .assembling [] s.now }) ∧
     (s.link.rx = .hunting → b ≠ 0xA5#8 → rxByte b s = s) ∧
     (∀ taken last, s.link.rx = .assembling taken last → taken.length = 0 →
       rxByte b s = s.setLink { s.link with rx := .assembling [b] s.now }) ∧
     (∀ lo last, s.link.rx = .assembling [lo] last → lo.toNat + 256 * b.toNat ≤ 1020 →
       rxByte b s = s.setLink { s.link with rx := .assembling [lo, b] s.now }) ∧
     (∀ lo hi more last, s.link.rx = .assembling (lo :: hi :: more) last →
       more.length + 1 < lo.toNat + 256 * hi.toNat + 4 →
       rxByte b s = s.setLink { s.link with rx := .assembling (lo :: hi :: more ++ [b]) s.now })) ∧
  (∀ (lo hi : Byte) (s : State), s.link.rx = .hunting → 1020 < lo.toNat + 256 * hi.toNat →
     exec (.falseStart lo hi) s = .next (settle ((begin s).setLink { s.link with
       rx := if lo = 0xA5#8 then .assembling [hi] s.now else if hi = 0xA5#8 then .assembling [] s.now else .hunting }))) ∧
  (∀ (bytes : List Byte) (s : State), isOneFrame bytes = true → s.link.rx = .hunting →
     (crc16 (bytes.drop 1 |>.take (bytes.length - 3))).toNat ≠ fromLE (bytes.drop (bytes.length - 2)) →
     exec (.frameReceived bytes) s = .next (settle (countEvent .framesRefused
       ((begin s).setLink { s.link with crcCount := min 65535 (s.link.crcCount + 1) })))) ∧
  (∀ s : State,
     (∀ taken last, s.link.rx = .assembling taken last → exec .gapTimeout s = .next (settle (countEvent .framesRefused
       { begin s with now := max s.now (last + 5),
                      link := { s.link with rx := .hunting, gapCount := min 65535 (s.link.gapCount + 1) } }))) ∧
     (s.link.rx = .hunting → Ignored .gapTimeout s))

/-- UNKNOWN_KIND: the reply has kind BFh and carries the code and the kind received. A request of the wrong length is answered
BAD_LENGTH. Both break a remap sequence and change nothing else (R86, R179, R180, R193). -/
def Obligations.RefusedFramesAreAnswered : Prop :=
  (∀ (kind tag : Byte) (payload : List Byte) (s : State), 0x30 ≤ kind.toNat → LinkFree s →
     exec (.unknownKind kind tag payload) s = .next (settle (((begin s).setRemap .none).setLink
       { s.link with reply := some { kind := 0xBF#8, tag := tag, payload := [0x02#8, kind] } }))) ∧
  (∀ (r : Request) (tag : Byte) (p : List Byte) (s : State), LinkFree s → s.link.rx = .hunting → p.length ≤ 1020 →
     r.lengthFits p = false →
     exec (.frameReceived (Frame.wire { kind := BitVec.ofNat 8 r.code, tag := tag, payload := p })) s =
       .next (answered r tag .badLength [] ((begin s).setRemap .none)))

/-- TRANSMIT_COMPLETE (R179, R182; of a free transmitter it is ignored, log 24): the transmitter is free, a reply sent leaves its
buffer and the next frame is taken. A notice takes the next number, or is lost with 32 waiting (R181, R192); a free transmitter
sends replies and notices in turn (R182). -/
def Obligations.TransmitterSendsRepliesAndNotices : Prop :=
  (∀ s : State,
     (s.link.tx = .reply → s.link.rxQueue = [] → exec .transmitComplete s =
       .next (settle ((begin s).setLink { s.link with tx := .free, reply := none }))) ∧
     (∀ q rest, s.link.tx = .reply → s.link.rxQueue = q :: rest → exec .transmitComplete s =
       .next (settle (takeFrame q ((begin s).setLink { s.link with tx := .free, reply := none, rxQueue := rest })))) ∧
     (∀ n, s.link.tx = .notice n → exec .transmitComplete s = .next (settle ((begin s).setLink { s.link with tx := .free }))) ∧
     (s.link.tx = .free → Ignored .transmitComplete s)) ∧
  (∀ (kind : Byte) (contents : List Byte) (s : State), s.notices.number < 256 →
     (s.notices.queue.length < 32 → (notice kind contents s).notices =
       { s.notices with number := (s.notices.number + 1) % 256
                        queue := s.notices.queue ++
                          [{ kind := kind, tag := 0, payload := BitVec.ofNat 8 s.notices.number :: contents }] }) ∧
     (32 ≤ s.notices.queue.length → (notice kind contents s).notices =
       { s.notices with number := (s.notices.number + 1) % 256, lost := true })) ∧
  (∀ s : State, s.link.tx = .free →
     (∀ f, s.link.reply = some f → s.notices.queue = [] →
       arbitrate s = s.setLink { s.link with tx := .reply, lastSent := .reply }) ∧
     (∀ n rest, s.link.reply = none → s.notices.queue = n :: rest → arbitrate s =
       (s.setLink { s.link with tx := .notice n, lastSent := .notice }).setNotices { s.notices with queue := rest }) ∧
     (∀ f n rest, s.link.reply = some f → s.notices.queue = n :: rest → s.link.lastSent = .notice →
       arbitrate s = s.setLink { s.link with tx := .reply, lastSent := .reply }) ∧
     (∀ f n rest, s.link.reply = some f → s.notices.queue = n :: rest → s.link.lastSent = .reply → arbitrate s =
       (s.setLink { s.link with tx := .notice n, lastSent := .notice }).setNotices { s.notices with queue := rest }) ∧
     (s.link.reply = none → s.notices.queue = [] → arbitrate s = s))

/-- STATUS (R183) reports, and clears the notices-lost flag alone; MAP_READ (R21) shows the tracker from the start index on. The
configured flag is sent as CONFIGURED 1 (log 16). -/
def Obligations.StatusAndMapRead : Prop :=
  (∀ (tag : Byte) (s : State), LinkFree s → exec (.status tag) s = .next (answered .status tag .ok
     (flag s.store.configured ++ uns 1 s.line.condition.code ++ flag (atRest s) ++ uns 1 s.enc.selected.code
       ++ flag s.enc.fallback ++ flag s.store.writing.isSome ++ uns 3 s.link.rate ++ uns 1 s.notices.queue.length
       ++ flag s.notices.lost ++ uns 2 s.link.gapCount ++ uns 2 s.link.crcCount ++ uns 2 s.link.dropCount)
     ((begin s).setNotices { s.notices with lost := false }))) ∧
  (∀ (tag start : Byte) (s : State), LinkFree s →
     (127 < start.toNat → Refuses (.mapRead tag start) .mapRead tag .outOfRange s) ∧
     (start.toNat ≤ 127 → exec (.mapRead tag start) s = .next (answered .mapRead tag .ok
       (uns 6 s.enc.axis ++ uns 1 s.enc.selected.code ++ flag s.enc.fallback ++ uns 1 (128 - s.web.marks.length)
         ++ uns 1 s.web.marks.length ++ flag s.web.sensorDefect.isSome ++ uns 2 (s.web.sensorDefect.getD 0)
         ++ listed ((s.web.marks.drop start.toNat).take 56) Mark.bytes) (begin s))))

/-! ## The board tracker -/

/-- ENCODER_REPORT of the selected encoder (R1, R3, R4, R156): the axis takes the travel, and the blocks no travel touches keep
their values. -/
def Obligations.SelectedTravelMovesAxis : Prop :=
  ∀ (e : Encoder) (k : Nat) (s : State), e = s.enc.selected → 0 < k →
    ∃ t, exec (.encoderReport e k) s = .next t ∧
      t.enc = { s.enc with
        axis := (s.enc.axis + k) % 2 ^ 48
        silence := if s.enc.fallback then s.enc.silence else .running (s.now + 500)
        secondarySum := if s.enc.fallback then s.enc.secondarySum else 0 } ∧
      t.rest = { timer := .running (s.now + 1000), lastAdvance := some s.now } ∧
      t.now = s.now ∧ t.cfg = s.cfg ∧ t.remap = s.remap ∧ t.emergencyStop = s.emergencyStop ∧ t.store = s.store ∧
      t.link = { s.link with tx := t.link.tx, lastSent := t.link.lastSent }

/-- Reports that are no travel of the board (R3, R4), and SILENCE_TIMER_EXPIRY: with less than 1,000 tenths from the secondary
the watch waits; else the secondary is selected, its sum is delivered as travel, and ENCODER_FALLBACK is raised. A secondary report
after the expiry that brings the sum to 1,000 falls back in the same way. An expiry takes the time base to its time (the model's
choice, log 2), and one of a timer that does not run is ignored (log 24). -/
def Obligations.SecondaryTravelAndFallback : Prop :=
  (∀ (e : Encoder) (k : Nat) (s : State),
     Ignored (.encoderReport e 0) s ∧
     (e ≠ s.enc.selected → s.enc.fallback = true → Ignored (.encoderReport e k) s) ∧
     (e ≠ s.enc.selected → s.enc.fallback = false → 0 < k →
       (s.enc.silence = .expired → min 4294967295 (s.enc.secondarySum + k) < 1000) →
       exec (.encoderReport e k) s =
         .next (settle ((begin s).setEnc { s.enc with secondarySum := min 4294967295 (s.enc.secondarySum + k) }))) ∧
     (let sum := min 4294967295 (s.enc.secondarySum + k)
      e ≠ s.enc.selected → s.enc.fallback = false → 0 < k → s.enc.silence = .expired → 1000 ≤ sum →
       exec (.encoderReport e k) s = .next (settle (notice 0xC1#8 (uns 1 s.enc.selected.other.code ++ uns 4 sum)
         (deliverTravel sum { begin s with
           enc := { axis := s.enc.axis, selected := s.enc.selected.other, fallback := true, silence := .stopped,
                    secondarySum := sum } }))) ∧
       ∃ t, exec (.encoderReport e k) s = .next t ∧ t.enc.selected = s.enc.selected.other ∧ t.enc.fallback = true ∧
         t.enc.silence = .stopped ∧ t.enc.axis = (s.enc.axis + sum) % 2 ^ 48)) ∧
  (∀ s : State, (∀ due, s.enc.silence ≠ .running due) → Ignored .silenceTimerExpiry s) ∧
  (∀ (due : Nat) (s : State), s.enc.silence = .running due →
     (s.enc.secondarySum < 1000 → exec .silenceTimerExpiry s =
       .next (settle { begin s with now := max s.now due, enc := { s.enc with silence := .expired } })) ∧
     (1000 ≤ s.enc.secondarySum → exec .silenceTimerExpiry s =
       .next (settle (notice 0xC1#8 (uns 1 s.enc.selected.other.code ++ uns 4 s.enc.secondarySum)
         (deliverTravel s.enc.secondarySum
           { begin s with now := max s.now due,
                          enc := { s.enc with selected := s.enc.selected.other, fallback := true, silence := .stopped } })))) ∧
     (1000 ≤ s.enc.secondarySum → ∃ t, exec .silenceTimerExpiry s = .next t ∧
       t.enc.selected = s.enc.selected.other ∧ t.enc.fallback = true ∧ t.enc.silence = .stopped ∧
       t.enc.axis = (s.enc.axis + s.enc.secondarySum) % 2 ^ 48))

/-- Board travel (R9, R12, R19, R35, R54, R58, R66, R67): U and F run down, a pending joint runs down and is placed when it is due,
the CURRENT setup's produced length grows, and the marks move, grow and leave at the knife, in a report of one advance while
nothing else enters or grows a mark. Positions and extents saturate as log 15 says. A produced length beyond 48 bits is a free
value (log 13); a sensor defect that reaches 50,000 closes after the marks have left (log 1), and the sensor is then stuck (R19).
-/
def Obligations.TravelMovesMarksSetupAndReels : Prop :=
  ∀ (e : Encoder) (k : Nat) (s : State), e = s.enc.selected → 0 < k → ∃ t, exec (.encoderReport e k) s = .next t ∧
    (∀ i,
      let old := s.stands.get i
      let new := t.stands.get i
      let cfg := s.cfg.stands.get i
      let due : Int := if cfg.jointSensor then -(cfg.tolerance : Int) else 0
      new.running = old.running.map (fun r => { r with usable := r.usable - k }) ∧
      (old.joint = none → new.joint = none) ∧
      (∀ r, old.joint = some r → due < r - k → new.joint = some (r - k)) ∧
      (∀ r, old.joint = some r → r - k ≤ due → new.joint = none ∧ (cfg.jointSensor = true → new.late = true)) ∧
      (∀ p, old.plan = some p → old.state = .firing ∨ (old.state = .armed ∧ ∃ r, old.running = some r ∧ k < r.usable) →
        new.plan = some { p with fire := p.fire - k } ∧ (new.state = .armed ∨ new.state = .firing))) ∧
    (k ≤ 1000 → ∀ cur, s.sched.current = some cur → cur.markState = some .onBoard ∨ cur.markState = some .pastKnife →
      s.sched.queued = [] ∨ (s.web.sensorDefect = none ∧ fit48 (cur.produced + k) < cur.planned) →
      t.sched.current.map (fun q => (q.id, q.produced)) = some (cur.id, fit48 (cur.produced + k))) ∧
    (k ≤ 1000 → s.sched.current = none → s.line.condition ≠ .run →
      (∀ x, (s.stations.get x).late = none ∧ (s.stations.get x).pattern = none) →
      (∀ i, (s.stands.get i).joint = none ∧ ∀ r, (s.stands.get i).running = some r → k < r.usable) →
      let grow := fun v n : Nat => min (2 ^ 32 - 1) (v + n)
      let g := match s.web.sensorDefect with
        | some len => min k (50000 - len)
        | none => 0
      let closes := s.web.sensorDefect.any fun len => len + g == 50000
      let moved := fun m : Mark => { m with
        pos := grow m.pos k, trail := if m.openBreak then grow m.trail k else if m.openSensor then grow m.trail g else m.trail }
      let left := (s.web.marks.map moved).filter fun m => decide (m.pos < s.cfg.pk + m.trail)
      t.web = { s.web with
        marks := if closes then left.map fun m => { m with openSensor := false } else left
        sensorDefect := if closes then none else s.web.sensorDefect.map fun len => len + g
        sensorStuck := closes || s.web.sensorStuck })

/-- A reject mark with a record of its own (R6, R8, R15, R39), and by merge when none is free: the most upstream reject mark takes
the zone, the higher kind, the open reasons and the merged flag (R16, R17). The place among equal positions is log 12's, and an
extent saturates as log 15 says. -/
def Obligations.RejectMarkPlacedOrMerged : Prop :=
  ∀ (m : Mark) (s : State),
    (s.web.marks.length < 128 →
      (enterReject m s).web = { s.web with
        marks := insertMark { m with entry := s.web.nextEntry, covered := qualifies s m.pos, merged := false } s.web.marks
        nextEntry := (s.web.nextEntry + 1) % 65536 } ∧
      (enterReject m s).accounts = s.accounts ∧
      (enterReject m s).sched.current.map Setup.planned = (s.sched.current.map fun t =>
        if qualifies s m.pos then fit48 (t.planned + (m.lead + m.trail + longestCut s t)) else t.planned)) ∧
    (∀ before target after, 128 ≤ s.web.marks.length → s.web.marks = before ++ target :: after → target.isReject = true →
      (∀ q ∈ after, q.isReject = false) →
      let rank := fun k : MarkKind => match k with
        | .brk => 3
        | .joint _ _ => 2
        | .defect _ => 1
        | .runChange _ => 0
      let up := fun q : Mark => (q.pos : Int) - q.trail
      let down := fun q : Mark => (q.pos : Int) + q.lead
      (enterReject m s).web = { s.web with marks := before ++ { target with
        trail := min (2 ^ 32 - 1) (target.trail + (up target - up m).toNat)
        lead := min (2 ^ 32 - 1) (target.lead + (down m - down target).toNat)
        kind := if rank target.kind < rank m.kind then m.kind else target.kind
        openSensor := target.openSensor || m.openSensor
        openBreak := target.openBreak || m.openBreak
        merged := true } :: after } ∧
      (enterReject m s).sched = s.sched ∧
      (enterReject m s).accounts = { s.accounts with merges := min (2 ^ 48 - 1) (s.accounts.merges + 1) })

/-- DEFECT_BEGINS and DEFECT_ENDS (R18, R19), with the final length that a defect not merged hands to the setup extended while that
setup is CURRENT (R40); a stuck sensor opens no defect until *defect ends* is seen, and while the sensor is not fitted it stays stuck
(R19, log 34). DEFECT_REPORT (R20). A planned length beyond 48 bits is a free value (log 13). -/
def Obligations.DefectsEnterMarks : Prop :=
  (∀ s : State,
     (s.cfg.sensorFitted = true → s.web.sensorDefect = none → s.web.sensorStuck = false →
       exec .defectBegins s = .next (settle
         (let u := enterReject { entry := 0, kind := .defect .sensor, pos := s.cfg.pd, lead := 0, trail := 0, openSensor := true,
                                 openBreak := false, covered := false, merged := false } (begin s)
          u.setWeb { u.web with sensorDefect := some 0 }))) ∧
     (s.cfg.sensorFitted = false ∨ s.web.sensorDefect.isSome = true ∨ s.web.sensorStuck = true → Ignored .defectBegins s) ∧
     (s.cfg.sensorFitted = true → s.web.sensorDefect.isSome = true →
       ∃ t, exec .defectEnds s = .next t ∧
         t.web = { s.web with
           sensorDefect := none, sensorStuck := false, marks := s.web.marks.map fun m => { m with openSensor := false } } ∧
         t.sched.openExtension = (if (sensorMark s).any fun m => !m.merged then none else s.sched.openExtension) ∧
         (∀ len m cur, s.web.sensorDefect = some len → sensorMark s = some m → m.merged = false →
           s.sched.openExtension = some cur.id → s.sched.current = some cur →
           t.sched.current = some { cur with planned := fit48 (cur.planned + len) }) ∧
         ((sensorMark s).all Mark.merged = true ∨ s.sched.openExtension = none ∨
             (∀ cur, s.sched.current = some cur → s.sched.openExtension ≠ some cur.id) →
           t.sched.current = s.sched.current)) ∧
     (s.cfg.sensorFitted = true → s.web.sensorDefect = none →
       exec .defectEnds s = .next (settle { begin s with web := { s.web with sensorStuck := false } })) ∧
     (s.cfg.sensorFitted = false ∨ (s.web.sensorDefect = none ∧ s.web.sensorStuck = false) → Ignored .defectEnds s)) ∧
  (∀ (tag : Byte) (p l t : BitVec 32) (s : State), LinkFree s →
     (s.cfg.pk ≤ p.toNat ∨ 50000 < l.toNat ∨ 50000 < t.toNat →
       Refuses (.defectReport tag p l t) .defectReport tag .outOfRange s) ∧
     (p.toNat < s.cfg.pk → l.toNat ≤ 50000 → t.toNat ≤ 50000 →
       exec (.defectReport tag p l t) s = .next (answered .defectReport tag .ok
         (if s.web.marks.length < 128 then uns 1 0 ++ uns 2 s.web.nextEntry
           else uns 1 1 ++ uns 2 (((s.web.marks.filter Mark.isReject).getLast?.map Mark.entry).getD 0))
         (enterReject { entry := 0, kind := .defect .report, pos := p.toNat, lead := l.toNat, trail := t.toNat,
                        openSensor := false, openBreak := false, covered := false, merged := false } (begin s)))))

/-! ## Orders and setups -/

/-- R25. -/
def Obligations.OrderAddChecksAndEnters : Prop :=
  ∀ (tag : Byte) (id : BitVec 16) (cut : BitVec 32) (outs : Byte) (wanted over' under : BitVec 32) (bundle : BitVec 16)
    (s : State), LinkFree s →
    let c := Instr.orderAdd tag id cut outs wanted over' under bundle
    let ranged := (1 ≤ id.toNat ∧ 3000 ≤ cut.toNat ∧ cut.toNat ≤ 70000 ∧ 1 ≤ outs.toNat ∧ outs.toNat ≤ 8 ∧
      1 ≤ wanted.toNat ∧ wanted.toNat ≤ 999999 ∧ over'.toNat ≤ 99999 ∧ under.toNat ≤ 99999 ∧ 1 ≤ bundle.toNat ∧
      bundle.toNat ≤ 5000)
    let taken := ∃ r ∈ s.sched.orders, r.id = id.toNat
    let entered : OrderRec :=
      { id := id.toNat, cut := cut.toNat, outs := outs.toNat, wanted := wanted.toNat, overrun := over'.toNat,
        underrun := under.toNat, bundle := bundle.toNat, cancel := false, state := .queued, good := 0, stacked := 0,
        joint := 0, defect := 0, brk := 0, transition := 0, surplus := 0, diverted := 0, outcome := none }
    (¬ranged → Refuses c .orderAdd tag .outOfRange s) ∧
    (ranged → taken → Refuses c .orderAdd tag .duplicate s) ∧
    (ranged → ¬taken → 32 ≤ s.sched.orders.length → Refuses c .orderAdd tag .tableFull s) ∧
    (ranged → ¬taken → s.sched.orders.length < 32 → exec c s = .next (answered .orderAdd tag .ok []
      ((begin s).setSched { s.sched with orders := insertOrder entered s.sched.orders })))

/-- R27. -/
def Obligations.OrderAmendReplacesThreeValues : Prop :=
  ∀ (tag : Byte) (id : BitVec 16) (wanted over' under : BitVec 32) (s : State), LinkFree s →
    let c := Instr.orderAmend tag id wanted over' under
    let ranged := 1 ≤ wanted.toNat ∧ wanted.toNat ≤ 999999 ∧ over'.toNat ≤ 99999 ∧ under.toNat ≤ 99999
    (findOrder s id.toNat = none → Refuses c .orderAmend tag .notFound s) ∧
    ∀ r, findOrder s id.toNat = some r →
      (¬ranged → Refuses c .orderAmend tag .outOfRange s) ∧
      (ranged → r.state = .closed → Refuses c .orderAmend tag .wrongState s) ∧
      (ranged → r.state ≠ .closed → exec c s = .next (answered .orderAmend tag .ok []
        ((begin s).setSched { s.sched with orders := s.sched.orders.map fun q =>
          if q.id = id.toNat then { q with wanted := wanted.toNat, overrun := over'.toNat, underrun := under.toNat } else q })))

/-- ORDER_RELEASE (R29). ORDER_CANCEL (R28): a QUEUED order becomes FED and is tested for closure; any other keeps its state. The
closure test (R121, R122): an order that may close is CLOSED, as CANCELLED, COMPLETE or SHORT, and every other order keeps its
record. -/
def Obligations.OrderCancelReleaseAndClosure : Prop :=
  (∀ (tag : Byte) (id : BitVec 16) (s : State), LinkFree s →
     let holds := stackerHolds s id.toNat .u = true ∨ stackerHolds s id.toNat .l = true
     (findOrder s id.toNat = none → Refuses (.orderRelease tag id) .orderRelease tag .notFound s) ∧
     ∀ r, findOrder s id.toNat = some r →
       (r.state ≠ .closed ∨ holds → Refuses (.orderRelease tag id) .orderRelease tag .wrongState s) ∧
       (r.state = .closed → ¬holds → exec (.orderRelease tag id) s = .next (answered .orderRelease tag .ok []
         ((begin s).setSched { s.sched with orders := s.sched.orders.filter fun q => q.id != id.toNat })))) ∧
  (∀ (tag : Byte) (id : BitVec 16) (s : State), LinkFree s →
     (findOrder s id.toNat = none → Refuses (.orderCancel tag id) .orderCancel tag .notFound s) ∧
     ∀ r, findOrder s id.toNat = some r →
       (r.state = .closed ∨ namedAhead s id.toNat = true → Refuses (.orderCancel tag id) .orderCancel tag .wrongState s) ∧
       (r.state ≠ .closed → namedAhead s id.toNat = false → r.cancel = true →
         exec (.orderCancel tag id) s = .next (answered .orderCancel tag .ok [] (begin s))) ∧
       (r.state = .queued → namedAhead s id.toNat = false → r.cancel = false →
         exec (.orderCancel tag id) s = .next (answered .orderCancel tag .ok [] (closureTest id.toNat
           (updateOrder id.toNat (fun q => { q with cancel := true, state := .fed }) (begin s))))) ∧
       (r.state = .active ∨ r.state = .fed → namedAhead s id.toNat = false → r.cancel = false →
         exec (.orderCancel tag id) s = .next (answered .orderCancel tag .ok []
           (updateOrder id.toNat (fun q => { q with cancel := true }) (begin s))))) ∧
  (∀ (o : Nat) (r : OrderRec) (s : State), findOrder s o = some r →
     (mayClose s r = false → closureTest o s = s) ∧
     (mayClose s r = true → (closureTest o s).sched = { s.sched with orders := s.sched.orders.map fun q =>
       if q.id = o then { q with state := .closed, outcome := some (if r.cancel then .cancelled
         else if r.wanted ≤ r.stacked + r.underrun then .complete else .short) } else q }))

/-- ORDER_QUERY, SETUP_QUERY and SCHEDULE_READ (R29, R44): the fields as they stand, laid out as log 16 reads R191; nothing
changes. -/
def Obligations.ScheduleQueriesShowTables : Prop :=
  ∀ (tag : Byte) (o : BitVec 16) (id : Byte) (s : State), LinkFree s →
    (findOrder s o.toNat = none → Refuses (.orderQuery tag o) .orderQuery tag .notFound s) ∧
    (∀ r, findOrder s o.toNat = some r → exec (.orderQuery tag o) s = .next (answered .orderQuery tag .ok
      (uns 2 r.id ++ uns 3 r.cut ++ uns 1 r.outs ++ uns 3 r.wanted ++ uns 3 r.overrun ++ uns 3 r.underrun ++ uns 2 r.bundle
        ++ flag r.cancel ++ uns 1 r.state.code ++ uns 3 r.good ++ uns 3 r.stacked ++ uns 3 r.joint ++ uns 3 r.defect
        ++ uns 3 r.brk ++ uns 3 r.transition ++ uns 3 r.surplus ++ uns 3 r.diverted
        ++ optional 1 (r.outcome.map OrderOutcome.code)) (begin s))) ∧
    (findSetup s id.toNat = none → Refuses (.setupQuery tag id) .setupQuery tag .notFound s) ∧
    (∀ t, findSetup s id.toNat = some t → exec (.setupQuery tag id) s = .next (answered .setupQuery tag .ok
      (uns 1 t.id ++ uns 1 (setupStateCode s id.toNat) ++ flag t.held ++ uns 2 t.runU.order ++ uns 3 t.runU.target
        ++ flag t.runL.isSome ++ idOr0 2 (t.runL.map LaneRun.order) ++ uns 3 ((t.runL.map LaneRun.target).getD 0)
        ++ uns 2 t.deckle ++ listed t.slits (uns 2) ++ listed t.scores (uns 2) ++ optional 1 t.boundary ++ uns 1 t.grade
        ++ uns 2 t.waste ++ uns 6 t.planned ++ uns 6 t.produced ++ optional 1 (t.markState.map MarkState.code)
        ++ uns 3 t.runU.credited ++ optional 3 (t.runL.map LaneRun.credited)) (begin s))) ∧
    exec (.scheduleRead tag) s = .next (answered .scheduleRead tag .ok
      (listed (s.sched.queued ++ s.sched.current.toList ++ s.sched.online.reverse)
          (fun t => uns 1 t.id ++ uns 1 (setupStateCode s t.id))
        ++ listed s.sched.queued (fun t => flag t.held) ++ optional 6 (s.sched.current.map Setup.planned)
        ++ optional 6 (s.sched.current.map Setup.produced)
        ++ optional 1 (s.sched.current.bind fun t => t.markState.map MarkState.code)
        ++ optional 1 (s.sched.episode.map Deferral.code)) (begin s))

/-- SETUP_QUEUE (R31): the seven checks in order, and the admission. SETUP_WITHDRAW (R43, R80). -/
def Obligations.SetupQueueAndWithdraw : Prop :=
  (∀ (tag id : Byte) (oU : BitVec 16) (tU : BitVec 32) (pL : Byte) (oL : BitVec 16) (tL : BitVec 32) (d : BitVec 16)
     (b g : Byte) (w : BitVec 16) (slits scores : List (BitVec 16)) (s : State), LinkFree s →
     slits.length < 256 → scores.length < 256 →
     let c := Instr.setupQueue tag id oU tU pL oL tL d b g w slits scores
     let ps := slits.map BitVec.toNat
     let qs := scores.map BitVec.toNat
     let ranged := setupInRange id.toNat oU.toNat tU.toNat pL.toNat oL.toNat tL.toNat d.toNat b.toNat g.toNat w.toNat ps qs
     let lower := if pL = 0#8 then none else some (oL.toNat, tL.toNat)
     let t := requestedSetup s id.toNat oU.toNat tU.toNat lower d.toNat (if pL = 0#8 then none else some b.toNat) g.toNat
       w.toNat ps qs
     let refuses := fun r : Result => Refuses c .setupQueue tag r s
     (s.store.configured = false → refuses .unconfigured) ∧
     (s.store.configured = true → ranged = false → refuses .outOfRange) ∧
     (s.store.configured = true → ranged = true →
       ((findSetup s id.toNat).isSome = true → refuses .duplicate) ∧
       ((findSetup s id.toNat) = none →
         (16 ≤ (setupOrder s).length → refuses .tableFull) ∧
         ((setupOrder s).length < 16 →
           ((∃ o ∈ t.orderIds, findOrder s o = none) → refuses .notFound) ∧
           ((∀ o ∈ t.orderIds, (findOrder s o).isSome = true) →
             ((∃ o ∈ t.orderIds, ∃ r, findOrder s o = some r ∧ (r.state = .closed ∨ r.cancel = true)) → refuses .wrongState) ∧
             ((∀ o ∈ t.orderIds, ∀ r, findOrder s o = some r → r.state ≠ .closed ∧ r.cancel = false) →
               (patternFits s t = false → refuses .patternUnfit) ∧
               (patternFits s t = true → t.planned < s.cfg.minSetup → refuses .shortSetup) ∧
               (patternFits s t = true → s.cfg.minSetup ≤ t.planned →
                 exec c s = .next (answered .setupQueue tag .ok (uns 6 t.planned ++ uns 1 s.sched.queued.length)
                   (stationsTakeQueue (replanAll (activate .fed t.orderIds
                     ((begin s).setSched { s.sched with queued := s.sched.queued ++ [t] })))))))))))) ∧
  (∀ (tag id : Byte) (s : State), LinkFree s →
     (∀ t, s.sched.queued.find? (fun q => q.id == id.toNat) = some t →
       exec (.setupWithdraw tag id) s = .next (answered .setupWithdraw tag .ok []
         (stationsTakeQueue (giveUpWithdrawn id.toNat .b (giveUpWithdrawn id.toNat .a (replanAll (feedOrders t.orderIds
           ((begin s).setSched { s.sched with queued := s.sched.queued.filter fun q => q.id != id.toNat })))))))) ∧
     (s.sched.queued.find? (fun q => q.id == id.toNat) = none → (findSetup s id.toNat).isSome = true →
       Refuses (.setupWithdraw tag id) .setupWithdraw tag .wrongState s) ∧
     (findSetup s id.toNat = none → Refuses (.setupWithdraw tag id) .setupWithdraw tag .notFound s))

/-- The start attempt (R36): none while none is due, a deferral with its episode, notice and overrun (R38), or a start with its
notice (R37). The restart mark of a setup kept by a purge (R158). In a report of one advance that meets nothing else, a CURRENT
setup runs on, is deferred or is followed by the head of the FIFO, and a PENDING one takes its restart mark; and on an empty board
in RUN with no CURRENT setup the head of the FIFO becomes CURRENT. The planned length of R37 and R38 is the one standing at the
attempt (log 29), a produced length beyond 48 bits is a free value (log 13), and the layout of the notices is log 16's. -/
def Obligations.SetupsStartOrAreDeferred : Prop :=
  (∀ (n : Nat) (s : State),
     let due := (∃ c, s.sched.current = some c ∧ (c.markState = some .onBoard ∨ c.markState = some .pastKnife) ∧
         c.planned ≤ c.produced) ∨ (s.sched.current = none ∧ s.line.condition = .run)
     let id := uns 1 ((s.sched.current.map Setup.id).getD 0)
     let deferred := fun (d : Deferral) (kind : Byte) (data : List Byte) =>
       let a := s.accounts
       let fresh := s.sched.episode ≠ some d
       let u : State := { s with
         sched := { s.sched with episode := some d }
         accounts := { a with
           heldDry := if fresh ∧ d ≠ .starved then min (2 ^ 48 - 1) (a.heldDry + 1) else a.heldDry
           starvation := if fresh ∧ d = .starved then min (2 ^ 48 - 1) (a.starvation + 1) else a.starvation
           overrun := match s.sched.current with
             | some c => min (2 ^ 48 - 1)
                 (a.overrun + if c.produced - n < c.planned then c.produced - c.planned else n)
             | none => a.overrun } }
       startAttempt n s = if fresh then countEvent .deferrals (notice kind data u) else u
     (¬due → startAttempt n s = s) ∧
     (due → s.sched.queued = [] → deferred .dry 0xC5#8 id) ∧
     (∀ head rest, due → s.sched.queued = head :: rest →
       (head.held = true → deferred .held 0xC4#8 (uns 1 head.id ++ id)) ∧
       (head.held = false → 120 ≤ s.web.marks.length → deferred .starved 0xC6#8 id) ∧
       (head.held = false → s.web.marks.length < 120 →
         let c := (s.sched.current.map fun c => if c.planned ≤ c.produced - n then 0 else c.produced - c.planned).getD 0
         StartsFrom n head rest s (startAttempt n s) ∧
         (notice 0xC2#8 (uns 1 head.id ++ id ++ uns 2 c ++ uns 6 head.planned ++ uns 6 s.enc.axis) s).notices.queue <+:
           (startAttempt n s).notices.queue))) ∧
  (∀ s : State,
     (∀ c, s.sched.current = some c → s.line.condition = .run → c.markState = some .pending → s.web.marks.length < 120 →
       restartMark s = { s with
         sched := { s.sched with current := some { c with markState := some .onBoard, produced := 0 } }
         web := mapWithRunChange c.id 0 c.waste s, line := { s.line with rethread := false }, evalDue := true }) ∧
     ((∀ c, s.sched.current = some c → c.markState ≠ some .pending) ∨ s.line.condition ≠ .run ∨ 120 ≤ s.web.marks.length →
       restartMark s = s)) ∧
  (∀ (e : Encoder) (k : Nat) (c : Setup) (s : State), e = s.enc.selected → 0 < k → k ≤ 1000 → QuietReport k s →
     s.sched.current = some c → ∃ t, exec (.encoderReport e k) s = .next t ∧
       (c.markState = some .pending → s.line.condition = .run →
         t.sched = { s.sched with current := some { c with markState := some .onBoard, produced := 0 } } ∧
         t.web = mapWithRunChange c.id 0 c.waste s ∧ t.line = { s.line with rethread := false }) ∧
       (c.markState = some .pending → s.line.condition ≠ .run → t.sched = s.sched ∧ t.web = s.web ∧ t.line = s.line) ∧
       (c.markState = some .onBoard ∨ c.markState = some .pastKnife →
         let grown := { c with produced := fit48 (c.produced + k) }
         let excess := min (2 ^ 48 - 1) (s.accounts.overrun +
           if grown.produced - k < c.planned then grown.produced - c.planned else k)
         let ran := fun d : Option Deferral => t.sched = { s.sched with current := some grown, episode := d } ∧ t.web = s.web
         (grown.produced < c.planned → ran s.sched.episode ∧ t.accounts.overrun = s.accounts.overrun) ∧
         (c.planned ≤ grown.produced → s.sched.queued = [] → ran (some .dry) ∧ t.accounts.overrun = excess) ∧
         (∀ head rest, c.planned ≤ grown.produced → s.sched.queued = head :: rest →
           (head.held = true → ran (some .held) ∧ t.accounts.overrun = excess) ∧
           (head.held = false → StartsFrom k head rest { s with sched := { s.sched with current := some grown } } t)))) ∧
  (∀ (e : Encoder) (k : Nat) (head : Setup) (rest : List Setup) (s : State), e = s.enc.selected → 0 < k → k ≤ 1000 →
     s.line.condition = .run → s.sched.current = none → s.sched.online = [] → s.sched.queued = head :: rest →
     head.held = false → s.web.marks = [] → s.web.sensorDefect = none →
     (∀ i, (s.stands.get i).running = none ∧ (s.stands.get i).joint = none) →
     (∀ st, (s.stations.get st).late = none) → s.lanes.u.active = none → s.lanes.l.active = none →
     (∀ lane, (s.delivery.get lane).queue = [] ∨ ∀ b ∈ (s.delivery.get lane).queue, b.order = none) →
     ∃ t, exec (.encoderReport e k) s = .next t ∧ StartsFrom k head rest s t ∧
       t.sched.orders = (s.sched.orders.map fun r =>
         if r.id ∈ head.orderIds ∧ r.state = .queued then { r with state := .active } else r))

/-! ## Reel stands -/

/-- DIAMETER_READING: refused or accepted (R53), with U from the diameter (R52), then the low threshold test (R54), in READY the plan
with arming and firing (R56), and the exhaustion test (R64). That the plan comes before the exhaustion test is the model's choice
(log 35). -/
def Obligations.DiameterReadingTakenOrRefused : Prop :=
  ∀ (i : Fin 6) (d : Nat) (s : State),
    let st := s.stands.get i
    let cfg := s.cfg.stands.get i
    (cfg.isPresent = false ∨ st.running = none → Ignored (.diameterReading i d) s) ∧
    ∀ r, cfg.isPresent = true → st.running = some r →
      (r.loaded < d ∨ r.last * 102 < d * 100 ∨ d < r.core → exec (.diameterReading i d) s =
        .next (settle ((begin s).setStands (s.stands.set i { st with refused := min 65535 (st.refused + 1) })))) ∧
      (d ≤ r.loaded → d * 100 ≤ r.last * 102 → r.core ≤ d → exec (.diameterReading i d) s =
        .next (settle (exhaustionTest i (planStand i (lowTest i (setStand i
          { st with running := some { r with
              last := d
              usable := (355 * (d ^ 2 - r.core ^ 2) * 1000 / (113 * 4 * r.caliper) - cfg.reserve) * 10000 / cfg.takeUp } }
          (begin s)))))))

/-- STANDBY_PREPARED (R55), SPLICE_CONFIRMED (R60, R162, R164), SPLICE_TIMER_EXPIRY (R61), JOINT_SENSED (R67, R68). The expiry takes
the time base to its time (the model's choice, log 2), SPLICE_FAULT carries the standby reel id, 0 when none
(log 16), and an expiry of a timer that does not run is ignored (log 24). -/
def Obligations.SpliceCycleInputs : Prop :=
  (∀ (i : Fin 6) (s : State),
     let st := s.stands.get i
     ((s.cfg.stands.get i).isPresent = true → st.state = .loaded →
       exec (.standbyPrepared i) s = .next (settle (planStand i (setStand i { st with state := .ready } (begin s))))) ∧
     ((s.cfg.stands.get i).isPresent = false ∨ st.state ≠ .loaded → Ignored (.standbyPrepared i) s)) ∧
  (∀ (i : Fin 6) (s : State),
     let st := s.stands.get i
     let cfg := s.cfg.stands.get i
     (∀ old sb plan, cfg.isPresent = true → st.state = .firing → st.running = some old → st.standby = some sb →
       st.plan = some plan →
       let u := usableLength cfg sb.diameter sb.core sb.caliper
       let pb := cfg.webPath * 10000 / cfg.takeUp
       exec (.spliceConfirmed i) s = .next (settle (lowTest i (countEvent .splices (countSplice i plan.kind
         (notice 0xC8#8 (uns 1 i ++ uns 1 plan.kind.code ++ uns 4 old.id ++ uns 4 sb.id ++ uns 4 u ++ uns 3 pb)
           (setStand i { st with
             running := some { id := sb.id, loaded := sb.diameter, core := sb.core, caliper := sb.caliper,
                               last := sb.diameter, usable := u }
             standby := none, state := .empty, plan := none, joint := some pb, late := false, refused := 0,
             timer := none } (begin s)))))))) ∧
     (cfg.isPresent = false ∨ st.state ≠ .firing → Ignored (.spliceConfirmed i) s)) ∧
  (∀ (i : Fin 6) (s : State),
     let st := s.stands.get i
     (∀ due, st.state = .firing → st.timer = some due → exec (.spliceTimerExpiry i) s =
       .next (settle (notice 0xC9#8 (uns 1 i ++ idOr0 4 (st.standby.map StandbyReel.id))
         (setStand i { st with state := .fault, plan := none, timer := none } { begin s with now := max s.now due })))) ∧
     (st.state ≠ .firing ∨ st.timer = none → Ignored (.spliceTimerExpiry i) s)) ∧
  (∀ (i : Fin 6) (s : State),
     let st := s.stands.get i
     let cfg := s.cfg.stands.get i
     let fitted := cfg.isPresent = true ∧ cfg.jointSensor = true
     let m : Mark := { entry := 0, kind := .joint i .sensed, pos := 0, lead := cfg.jointLead, trail := cfg.jointTrail,
                       openSensor := false, openBreak := false, covered := false, merged := false }
     let within := s.web.marks.any fun k => !k.isReject && decide (k.upEnd ≤ m.upEnd) && decide (m.downEnd ≤ k.downEnd)
     (fitted → st.joint.isSome = true → exec (.jointSensed i) s = .next (settle
       (let a := s.accounts
        let u := enterReject m (if within then (begin s).setAccounts
          { a with absorbed := a.absorbed.set i (min (2 ^ 48 - 1) (a.absorbed.get i + 1)) } else begin s)
        firingTest i (setStand i { u.stands.get i with joint := none } u)))) ∧
     (fitted → st.joint = none → st.late = true → exec (.jointSensed i) s = .next (settle
       ((setStand i { st with late := false } (begin s)).setAccounts
         { s.accounts with lateJoints := min (2 ^ 48 - 1) (s.accounts.lateJoints + 1) }))) ∧
     (¬fitted ∨ st.joint = none ∧ st.late = false → Ignored (.jointSensed i) s))

/-- A stand's plan (R57): TARGETED when its six steps give a fire distance, RESERVE with F = U otherwise. The firing test (R59). -/
def Obligations.PlanAndFiring : Prop :=
  (∀ (i : Fin 6) (s : State),
     let cfg := s.cfg.stands.get i
     let u := (s.stands.get i).usable
     let pb := cfg.webPath * 10000 / cfg.takeUp
     (∀ cur head rest, s.sched.current = some cur → s.sched.queued = head :: rest → head.held = false →
       cfg.jointTrail + cfg.jointLead ≤ head.waste →
       let x := (cur.planned - cur.produced) + cfg.jointLead + (head.waste - cfg.jointTrail - cfg.jointLead) / 2
       (pb ≤ x → x - pb ≤ u → u ≤ x - pb + cfg.sacrifice → computePlan s i = { kind := .targeted, fire := x - pb }) ∧
       (x < pb ∨ u < x - pb ∨ x - pb + cfg.sacrifice < u → computePlan s i = { kind := .reserve, fire := u })) ∧
     (s.sched.current = none ∨ s.sched.queued = [] → computePlan s i = { kind := .reserve, fire := u }) ∧
     (∀ cur head rest, s.sched.current = some cur → s.sched.queued = head :: rest →
       head.held = true ∨ head.waste < cfg.jointTrail + cfg.jointLead → computePlan s i = { kind := .reserve, fire := u })) ∧
  (∀ (i : Fin 6) (p : SplicePlan) (s : State),
     let st := s.stands.get i
     let cfg := s.cfg.stands.get i
     st.state = .armed → st.plan = some p →
     (p.fire = 0 → s.gov.reference ≤ cfg.spliceSpeed → st.joint = none →
       (firingTest i s).stands = s.stands.set i { st with state := .firing, timer := some (s.now + cfg.spliceTimeout) } ∧
       (firingTest i s).issued = s.issued ++ [.spliceFire i] ∧ (firingTest i s).evalDue = true) ∧
     (p.fire ≠ 0 ∨ cfg.spliceSpeed < s.gov.reference ∨ st.joint.isSome = true → firingTest i s = s))

/-- WEB_BREAK and BOARD_BREAK (R63, R154, R155): the line is in BREAK with the cause recorded; outside BREAK a BREAK mark with
a free record is entered at the join line; a web break takes its stand to BROKEN. The input of an absent
slot is ignored (R48). -/
def Obligations.BreakTakesLineDown : Prop :=
  (∀ (c : Instr) (cause : BreakCause) (s : State),
     c = .boardBreak ∧ cause = .board ∨
       (∃ i, c = .webBreak i ∧ cause = .web i ∧ (s.cfg.stands.get i).isPresent = true) →
     ∃ t, exec c s = .next t ∧ t.line = { s.line with condition := .brk, lastBreak := some cause } ∧
       (s.line.condition = .brk → t.web = s.web ∧ t.sched = s.sched) ∧
       (s.line.condition ≠ .brk → s.web.marks.length < 128 →
         t.web = { s.web with
           marks := insertMark { entry := s.web.nextEntry, kind := .brk, pos := 0, lead := 0, trail := 0, openSensor := false,
                                 openBreak := true, covered := qualifies s 0, merged := false } s.web.marks
           nextEntry := (s.web.nextEntry + 1) % 65536 }) ∧
       (∀ i, c = .webBreak i → (s.stands.get i).state ≠ .broken → t.stands.get i =
         { s.stands.get i with state := .broken, plan := none, timer := none, joint := none, late := false,
                               reloaded := false }) ∧
       t.now = s.now ∧ t.cfg = s.cfg ∧ t.enc = s.enc ∧ t.stations = s.stations ∧ t.remap = s.remap ∧ t.lanes = s.lanes ∧
       t.delivery = s.delivery ∧ t.rest = s.rest ∧ t.emergencyStop = s.emergencyStop ∧ t.store = s.store ∧
       t.link = { s.link with tx := t.link.tx, lastSent := t.link.lastSent }) ∧
  (∀ (i : Fin 6) (s : State), (s.cfg.stands.get i).isPresent = false → Ignored (.webBreak i) s)

/-- REEL_LOAD (R50, R51), of a stand number above 5 too; REEL_UNLOAD, SPLICE_FORCE and STAND_RESET of a present stand (R51, R62,
R65). -/
def Obligations.ReelAndStandRequests : Prop :=
  (∀ (tag : Byte) (i : Fin 6) (v : Byte) (reel : BitVec 32) (d core cal : BitVec 16) (s : State), LinkFree s →
     let c := Instr.reelLoad tag (BitVec.ofNat 8 i) v reel d core cal
     let st := s.stands.get i
     let cfg := s.cfg.stands.get i
     let ranged := v.toNat ≤ 1 ∧ 1 ≤ reel.toNat ∧ 150 ≤ d.toNat ∧ d.toNat ≤ 2500 ∧ 50 ≤ core.toNat ∧ core.toNat ≤ 400 ∧
       80 ≤ cal.toNat ∧ cal.toNat ≤ 1500 ∧ core.toNat < d.toNat
     (s.store.configured = false → Refuses c .reelLoad tag .unconfigured s) ∧
     (s.store.configured = true → cfg.isPresent = false → Refuses c .reelLoad tag .notFound s) ∧
     (s.store.configured = true → cfg.isPresent = true → ¬ranged → Refuses c .reelLoad tag .outOfRange s) ∧
     (s.store.configured = true → cfg.isPresent = true → ranged →
       (v = 0#8 → st.state = .empty ∨ st.state = .broken ∨ st.state = .exhausted →
         exec c s = .next (answered .reelLoad tag .ok [] (lowTest i (setStand i
           { st with running := some { id := reel.toNat, loaded := d.toNat, core := core.toNat, caliper := cal.toNat,
                                       last := d.toNat, usable := usableLength cfg d.toNat core.toNat cal.toNat }
                     refused := 0, lowWarned := false
                     reloaded := if st.state = .empty then st.reloaded else true } (begin s))))) ∧
       (v = 0#8 → st.state ≠ .empty → st.state ≠ .broken → st.state ≠ .exhausted →
         Refuses c .reelLoad tag .wrongState s) ∧
       (v = 1#8 → st.state = .empty → st.running.isSome = true →
         exec c s = .next (answered .reelLoad tag .ok [] (setStand i
           { st with standby := some { id := reel.toNat, diameter := d.toNat, core := core.toNat, caliper := cal.toNat }
                     state := .loaded } (begin s)))) ∧
       (v = 1#8 → st.state ≠ .empty ∨ st.running = none → Refuses c .reelLoad tag .wrongState s))) ∧
  (∀ (tag n v : Byte) (reel : BitVec 32) (d core cal : BitVec 16) (s : State), LinkFree s → 5 < n.toNat →
     Refuses (.reelLoad tag n v reel d core cal) .reelLoad tag .outOfRange s) ∧
  (∀ (tag : Byte) (i : Fin 6) (s : State), LinkFree s → (s.cfg.stands.get i).isPresent = true →
     let n := BitVec.ofNat 8 i
     let st := s.stands.get i
     (st.state = .loaded ∨ st.state = .ready → exec (.reelUnload tag n) s = .next (answered .reelUnload tag .ok []
       (lowTest i (setStand i { st with standby := none, plan := none, state := .empty } (begin s))))) ∧
     (st.state ≠ .loaded → st.state ≠ .ready → Refuses (.reelUnload tag n) .reelUnload tag .wrongState s) ∧
     (st.state = .ready ∨ st.state = .armed → exec (.spliceForce tag n) s = .next (answered .spliceForce tag .ok []
       (firingTest i (setStand i { st with state := .armed, plan := some { kind := .reserve, fire := 0 } } (begin s))))) ∧
     (st.state ≠ .ready → st.state ≠ .armed → Refuses (.spliceForce tag n) .spliceForce tag .wrongState s) ∧
     (st.state = .fault → exec (.standReset tag n) s = .next (answered .standReset tag .ok []
       (setStand i { st with state := .loaded } (begin s)))) ∧
     (st.state = .broken ∨ st.state = .exhausted → st.reloaded = true →
       exec (.standReset tag n) s = .next (answered .standReset tag .ok []
         (setStand i { st with standby := none, joint := none, reloaded := false, late := false, state := .empty }
           (begin s)))) ∧
     (st.state ≠ .fault → (st.state = .broken ∨ st.state = .exhausted → st.reloaded = false) →
       Refuses (.standReset tag n) .standReset tag .wrongState s))

/-- STAND_QUERY (R69, Figure 12-5): 46 bytes with the result code; a stand number above 5 and an absent slot are refused (R48).
STATION_QUERY (R88, Figure 12-6): 45 bytes with the result code, the remap sequence as it stands when the request is taken
(log 11). -/
def Obligations.StandAndStationQueryLayouts : Prop :=
  (∀ (tag : Byte) (s : State), LinkFree s →
     (∀ i : Fin 6, (s.cfg.stands.get i).isPresent = true →
       let st := s.stands.get i
       let cfg := s.cfg.stands.get i
       let run := fun f : RunningReel → Nat => (st.running.map f).getD 0
       let sb := fun f : StandbyReel → Nat => (st.standby.map f).getD 0
       let bit := fun (k : Nat) (b : Bool) => if b then 2 ^ k else 0
       ∃ data : List Byte, data.length = 45 ∧
         exec (.standQuery tag (BitVec.ofNat 8 i)) s = .next (answered .standQuery tag .ok data (begin s)) ∧
         data.take 4 = [BitVec.ofNat 8 i, BitVec.ofNat 8 cfg.role.code, BitVec.ofNat 8 st.state.code,
           BitVec.ofNat 8 (bit 0 st.running.isSome + bit 1 st.standby.isSome + bit 2 st.plan.isSome
             + bit 3 (st.plan.any fun p => p.kind == .reserve) + bit 4 st.joint.isSome + bit 5 st.late
             + bit 6 st.reloaded + bit 7 st.lowWarned)] ∧
         data.drop 4 = flag st.timer.isSome ++ uns 4 (run RunningReel.id) ++ uns 2 (run RunningReel.loaded)
           ++ uns 2 (run RunningReel.core) ++ uns 2 (run RunningReel.caliper) ++ uns 2 (run RunningReel.last)
           ++ uns 4 (run RunningReel.usable) ++ uns 4 (sb StandbyReel.id) ++ uns 2 (sb StandbyReel.diameter)
           ++ uns 2 (sb StandbyReel.core) ++ uns 2 (sb StandbyReel.caliper) ++ uns 4 ((st.plan.map SplicePlan.fire).getD 0)
           ++ sgn 4 (st.joint.getD 0) ++ uns 2 st.refused ++ uns 4 (cfg.webPath * 10000 / cfg.takeUp)) ∧
     (∀ n : Byte, ∀ r : Result, (5 < n.toNat ∧ r = .outOfRange) ∨
         (∃ i : Fin 6, n.toNat = i ∧ (s.cfg.stands.get i).isPresent = false ∧ r = .notFound) →
       Refuses (.standQuery tag n) .standQuery tag r s ∧ Refuses (.reelUnload tag n) .reelUnload tag r s ∧
         Refuses (.spliceForce tag n) .spliceForce tag r s ∧ Refuses (.standReset tag n) .standReset tag r s)) ∧
  (∀ (tag n : Byte) (s : State), LinkFree s →
     (1 < n.toNat → Refuses (.stationQuery tag n) .stationQuery tag .outOfRange s) ∧
     (∀ x : Station, n.toNat = x.code →
       let r := s.stations.get x
       let block := fun g : HeadGroup => uns 2 (r.groups.get g).retired.toNat ++ flag (r.groups.get g).spareRetired
         ++ uns 1 (r.groups.get g).mapping.code ++ uns 1 (r.groups.get g).mapping.head ++ uns 1 (usableCount g (r.groups.get g))
       ∃ data : List Byte, data.length = 44 ∧
         exec (.stationQuery tag n) s = .next (answered .stationQuery tag .ok data (begin s)) ∧
         data.take 16 = uns 1 x.code ++ uns 1 r.state.code ++ uns 1 (r.pattern.getD 0)
           ++ uns 4 (match r.lastOutput with | some t => s.now - t | none => 4294967295) ++ flag r.timer.isSome
           ++ flag r.late.isSome ++ uns 4 ((r.late.map LateEngagement.slack).getD 0) ++ flag r.faultPending
           ++ uns 1 ((r.lastArrival.map Prod.fst).getD 0) ++ uns 1 ((r.lastArrival.map fun a => a.2.code).getD 0) ∧
         (data.drop 16).take 24 = block .s1 ++ block .s2 ++ block .c1 ++ block .c2 ∧
         data.drop 40 = (match s.remap with
           | .none => [0, 0, 0, 0]
           | .prepared h => [1, BitVec.ofNat 8 h.st.code, BitVec.ofNat 8 h.group.code, BitVec.ofNat 8 (min h.head 255)]
           | .confirmed h => [2, BitVec.ofNat 8 h.st.code, BitVec.ofNat 8 h.group.code, BitVec.ofNat 8 (min h.head 255)])))

/-! ## Stations -/

/-- IN_POSITION, POSITIONING_TIMER_EXPIRY and POSITION_FAULT (R75, R76, R79); STATION_RESET (R77). The expiry takes the time base to
its time (the model's choice, log 2), the deferred byte of STATION_FAULT is log 16's, and an expiry of a timer that
does not run is ignored (log 24). -/
def Obligations.StationEventsAndReset : Prop :=
  (∀ (x : Station) (s : State),
     let r := s.stations.get x
     let gone := (r.pattern.bind (findSetup s)).any fun t => t.markState == some .pastKnife
     let fault := fun (reason : Nat) (deferred : Bool) =>
       notice 0xCB#8 (uns 1 x.code ++ uns 1 reason ++ idOr0 1 r.pattern ++ flag deferred)
     (r.state = .positioning → r.late = none → gone = false → exec (.inPosition x) s =
       .next (settle (setStation x { r with state := .ready, timer := none } (begin s)))) ∧
     (r.state = .positioning → r.late.isSome = true ∨ gone = true → ∃ t, exec (.inPosition x) s = .next t ∧
       t.stations = s.stations.set x { r with state := .engaged, timer := none, late := none } ∧ t.web = s.web ∧
       t.sched = s.sched ∧ t.lanes = s.lanes ∧ t.delivery = s.delivery ∧ t.line = s.line ∧ t.accounts = s.accounts) ∧
     (r.state ≠ .positioning → Ignored (.inPosition x) s) ∧
     (∀ due, r.state = .positioning → r.timer = some due → exec (.positioningTimerExpiry x) s =
       .next (settle (fault 0 false (setStation x { r with state := .fault, timer := none }
         { begin s with now := max s.now due })))) ∧
     (r.state ≠ .positioning ∨ r.timer = none → Ignored (.positioningTimerExpiry x) s) ∧
     (r.state = .positioning ∨ r.state = .ready → exec (.positionFault x) s =
       .next (settle (fault 1 false (setStation x { r with state := .fault, timer := none } (begin s))))) ∧
     (r.state = .engaged → exec (.positionFault x) s =
       .next (settle (fault 1 true (setStation x { r with faultPending := true } (begin s))))) ∧
     (r.state = .free ∨ r.state = .fault → Ignored (.positionFault x) s)) ∧
  (∀ (tag n : Byte) (s : State), LinkFree s →
     (∀ x : Station, n.toNat = x.code → (s.stations.get x).state = .fault →
       exec (.stationReset tag n) s = .next (answered .stationReset tag .ok []
         (loadAttempts x (setStation x { s.stations.get x with state := .free, pattern := none, faultPending := false }
           (begin s))))) ∧
     (∀ x : Station, n.toNat = x.code → (s.stations.get x).state ≠ .fault →
       Refuses (.stationReset tag n) .stationReset tag .wrongState s) ∧
     (1 < n.toNat → Refuses (.stationReset tag n) .stationReset tag .outOfRange s))

/-- The arrival of the RUN_CHANGE mark of a setup at a station, row by row of Figure 4-2 (R78), and the late engagement as it
begins and as it grows the mark's zone (R79). In a report of one advance a READY station engages with its setup's mark. -/
def Obligations.StationsMeetRunChangeMarks : Prop :=
  (∀ (x : Station) (id : Nat) (s : State),
     let r := s.stations.get x
     let t := stationArrival x id s
     let pos := if x = .a then s.cfg.psa else s.cfg.psb
     let records := fun o : ArrivalOutcome =>
       t.stations = s.stations.set x { r with lastArrival := some (id, o) } ∧ t.web = s.web ∧ t.issued = s.issued
     (r.pattern = some id → r.state = .ready →
       t.stations = s.stations.set x { r with state := .engaged, late := none, lastArrival := some (id, .engaged) } ∧
       t.web = s.web ∧ t.issued = s.issued ++ [.engage x]) ∧
     (∀ m, r.pattern = some id → r.state = .positioning ∨ r.state = .fault → runMark s id = some m →
       let up : Int := (m.pos : Int) - m.trail
       t.stations = s.stations.set x
         { r with late := some { setup := id, slack := (pos - up).toNat }, lastArrival := some (id, .late) } ∧
       t.web = { s.web with marks := s.web.marks.map fun q =>
         if q.kind = .runChange id then { q with trail := min (2 ^ 32 - 1) (q.trail + (up - pos).toNat) } else q } ∧
       t.issued = s.issued) ∧
     (∀ other, r.pattern = some other → other ≠ id → r.state = .engaged ∨ (r.state = .positioning ∧ r.late.isSome = true) →
       (t.stations.get x).lastArrival = some (id, .retracted) ∧ Output.retract x ∈ t.issued ∧
       (r.state = .engaged → r.faultPending = true → (t.stations.get x).state = .fault ∧ (t.stations.get x).pattern = none) ∧
       (r.state = .positioning ∨ r.faultPending = false →
         ((t.stations.get x).state = .free ∧ (t.stations.get x).pattern = none) ∨
         ((t.stations.get x).state = .positioning ∧ ∃ c ∈ setupOrder s, (t.stations.get x).pattern = some c.id ∧
           (t.stations.get x).lastOutput = some s.now))) ∧
     (∀ other, r.pattern = some other → other ≠ id → r.state = .fault → r.late.isSome = true →
       t.stations.get x = { r with pattern := none, late := none, lastArrival := some (id, .none) } ∧
       Output.retract x ∉ t.issued.drop s.issued.length) ∧
     (∀ other, r.pattern = some other → other ≠ id → r.late = none →
       r.state = .positioning ∨ r.state = .ready ∨ r.state = .fault → records .none) ∧
     (r.pattern = none → records .none)) ∧
  (∀ (x : Station) (n : Nat) (s : State),
     let r := s.stations.get x
     (r.late = none → lateAdvance n x s = s) ∧
     (∀ le, r.late = some le →
       (lateAdvance n x s).stations = s.stations.set x { r with late := some { le with slack := le.slack - n } } ∧
       (lateAdvance n x s).web = { s.web with marks := s.web.marks.map fun q => if q.kind = .runChange le.setup then
         { q with trail := min (2 ^ 32 - 1) (q.trail + (n - le.slack)) } else q })) ∧
  (∀ (e : Encoder) (k : Nat) (x : Station) (id : Nat) (m : Mark) (s : State), e = s.enc.selected → 0 < k → k ≤ 1000 →
     let pos := if x = .a then s.cfg.psa else s.cfg.psb
     m ∈ s.web.marks → m.kind = .runChange id → m.pos < pos → pos ≤ m.pos + k → pos + 1000 < 2 ^ 32 →
     (∀ q ∈ s.web.marks, ∀ o, q.kind = .runChange o → q.pos < pos → pos ≤ q.pos + k → o = id) →
     (s.stations.get x).pattern = some id → (s.stations.get x).state = .ready → s.sched.online = [] →
     ∃ t, exec (.encoderReport e k) s = .next t ∧ (t.stations.get x).state = .engaged ∧
       (t.stations.get x).pattern = some id ∧ (t.stations.get x).late = none ∧ Output.engage x ∈ t.issued)

/-- HEAD_FAULT, HEAD_RETIRE and HEAD_RESTORE (R81 to R84): a head that stands as asked already changes nothing. HEAD_FAULT is a
field input, so it holds on any link; the requests are stated for a free one. -/
def Obligations.HeadsRetireAndReturn : Prop :=
  ∀ (tag : Byte) (h : HeadName) (s : State), h.head ≤ h.group.size →
    let r := s.stations.get h.st
    let set := r.groups.get h.group
    let st := BitVec.ofNat 8 h.st.code
    let g := BitVec.ofNat 8 h.group.code
    let n := BitVec.ofNat 8 h.head
    let retired := { set with retired := if h.head = 0 then set.retired else set.retired ||| headBit h.head,
                              spareRetired := if h.head = 0 then true else set.spareRetired }
    (set.isRetired h.head = false →
      exec (.headFault h.st h.group h.head) s = .next (settle (headsChanged h.st r.groups (notice 0xCC#8
        (uns 1 h.st.code ++ uns 1 h.group.code ++ uns 1 h.head ++ uns 1 r.state.code)
        (setStation h.st { r with groups := r.groups.set h.group retired } (begin s)))))) ∧
    (set.isRetired h.head = true → Ignored (.headFault h.st h.group h.head) s) ∧
    (LinkFree s → set.isRetired h.head = false → exec (.headRetire tag st g n) s =
      .next (answered .headRetire tag .ok [] (headsChanged h.st r.groups
        (setStation h.st { r with groups := r.groups.set h.group retired } (begin s))))) ∧
    (LinkFree s → set.isRetired h.head = true → exec (.headRetire tag st g n) s =
      .next (answered .headRetire tag .ok [] (begin s))) ∧
    (LinkFree s → h.head ≠ 0 → set.mapping = .hard h.head →
      Refuses (.headRestore tag st g n) .headRestore tag .wrongState s) ∧
    (LinkFree s → h.head = 0 ∨ set.mapping ≠ .hard h.head → set.isRetired h.head = false →
      exec (.headRestore tag st g n) s = .next (answered .headRestore tag .ok [] (begin s))) ∧
    (LinkFree s → h.head = 0 ∨ set.mapping ≠ .hard h.head → set.isRetired h.head = true →
      let back := if h.head = 0 then { set with spareRetired := false }
        else { set with retired := set.retired &&& ~~~headBit h.head,
                        mapping := if set.mapping = .soft h.head then .none else set.mapping }
      exec (.headRestore tag st g n) s = .next (answered .headRestore tag .ok [] (headsChanged h.st r.groups
        (setStation h.st { r with groups := r.groups.set h.group back } (begin s)))))

/-- SOFT_REMAP (R85), and the refusal of a head that a request cannot name (R81, R85, R86). -/
def Obligations.SoftRemapAndHeadRanges : Prop :=
  (∀ (tag : Byte) (h : HeadName) (s : State), 1 ≤ h.head → h.head ≤ h.group.size → LinkFree s →
     let r := s.stations.get h.st
     let set := r.groups.get h.group
     let c := Instr.softRemap tag (BitVec.ofNat 8 h.st.code) (BitVec.ofNat 8 h.group.code) (BitVec.ofNat 8 h.head)
     let placed := (r.state = .free ∨ r.state = .ready) ∧ set.isRetired h.head = true
     let spare := (∀ k, set.mapping ≠ .hard k) ∧ set.spareRetired = false
     (¬placed → Refuses c .softRemap tag .wrongState s) ∧
     (placed → ¬spare → Refuses c .softRemap tag .noSpare s) ∧
     (placed → spare → set.mapping = .soft h.head → exec c s = .next (answered .softRemap tag .ok [] (begin s))) ∧
     (placed → spare → set.mapping ≠ .soft h.head → exec c s = .next (answered .softRemap tag .ok []
       (headsChanged h.st r.groups
         (setStation h.st { r with groups := r.groups.set h.group { set with mapping := .soft h.head } } (begin s)))))) ∧
  (∀ (tag st g n : Byte) (s : State), LinkFree s →
     let bad := 1 < st.toNat ∨ 3 < g.toNat ∨ (g.toNat ≤ 1 ∧ 6 < n.toNat) ∨ 10 < n.toNat
     (bad → Refuses (.headRetire tag st g n) .headRetire tag .outOfRange s ∧
       Refuses (.headRestore tag st g n) .headRestore tag .outOfRange s) ∧
     (bad ∨ n = 0#8 → Refuses (.softRemap tag st g n) .softRemap tag .outOfRange s ∧
       exec (.remapPrepare tag st g n) s = .next (answered .remapPrepare tag .outOfRange [] ((begin s).setRemap .none)) ∧
       exec (.remapConfirm tag st g n) s = .next (answered .remapConfirm tag .outOfRange [] ((begin s).setRemap .none)) ∧
       exec (.hardRemap tag st g n) s = .next (answered .hardRemap tag .outOfRange [] ((begin s).setRemap .none))))

/-- REMAP_PREPARE, REMAP_CONFIRM and HARD_REMAP (R86, R87). -/
def Obligations.HardRemapTakesThreeRequests : Prop :=
  ∀ (tag : Byte) (h : HeadName) (s : State), 1 ≤ h.head → h.head ≤ h.group.size → LinkFree s →
    let r := s.stations.get h.st
    let set := r.groups.get h.group
    let st := BitVec.ofNat 8 h.st.code
    let g := BitVec.ofNat 8 h.group.code
    let n := BitVec.ofNat 8 h.head
    let ended := (begin s).setRemap .none
    let refuses := fun code : Result => exec (.hardRemap tag st g n) s = .next (answered .hardRemap tag code [] ended)
    let placed := (r.state = .free ∨ r.state = .ready) ∧ set.isRetired h.head = true
    exec (.remapPrepare tag st g n) s =
      .next (answered .remapPrepare tag .ok [] ((begin s).setRemap (.prepared h))) ∧
    (s.remap = .prepared h → exec (.remapConfirm tag st g n) s =
      .next (answered .remapConfirm tag .ok [] ((begin s).setRemap (.confirmed h)))) ∧
    (s.remap ≠ .prepared h → exec (.remapConfirm tag st g n) s =
      .next (answered .remapConfirm tag .sequenceBroken [] ended)) ∧
    (s.remap ≠ .confirmed h → refuses .sequenceBroken) ∧
    (s.remap = .confirmed h →
      (s.store.configured = false → refuses .unconfigured) ∧
      (s.store.configured = true → s.store.writing.isSome = true → refuses .busy) ∧
      (s.store.configured = true → s.store.writing = none →
        (¬placed → refuses .wrongState) ∧
        (placed → (∃ k, set.mapping = .hard k) → refuses .noSpare) ∧
        (placed → (∀ k, set.mapping ≠ .hard k) →
          let u := headsChanged h.st r.groups
            (setStation h.st { r with groups := r.groups.set h.group { set with mapping := .hard h.head } } ended)
          exec (.hardRemap tag st g n) s = .next (answered .hardRemap tag .ok []
            (u.setStore { u.store with writing := some (.hardRemap, { cfg := s.cfg, hard := hardMappings u }),
                                       imageValid := false, image := none })))))

/-! ## Knives -/

/-- TRIM_ENTER, TRIM_SET and TRIM_EXIT (R103 to R105). -/
def Obligations.TrimSessionsClampSteps : Prop :=
  ∀ (tag steps range : Byte) (lane : Lane) (s : State), LinkFree s →
    let n := BitVec.ofNat 8 lane.code
    let r := s.lanes.get lane
    let shadow := fun (old : Option Nat) (t : Int) => match r.active with
      | some j => some (trimmed (cutLength s j.order) t)
      | none => old
    (r.enabled = true → r.session = none → range = 0#8 →
      let t := r.trim.tdiv 10 * 10
      exec (.trimEnter tag n range) s = .next (answered .trimEnter tag .ok (sgn 1 (t.tdiv 10))
        (setLane lane { r with session := some .coarse, trim := t,
                               shadow := if t = r.trim then r.shadow else shadow r.shadow t } (begin s)))) ∧
    (r.enabled = true → r.session = none → range = 1#8 →
      let t := max (-50) (min 50 r.trim)
      exec (.trimEnter tag n range) s = .next (answered .trimEnter tag .ok (sgn 1 (t.tdiv 1))
        (setLane lane { r with session := some .fine, trim := t,
                               shadow := if t = r.trim then r.shadow else shadow r.shadow t } (begin s)))) ∧
    (1 < range.toNat → Refuses (.trimEnter tag n range) .trimEnter tag .outOfRange s) ∧
    (range.toNat ≤ 1 → r.enabled = false ∨ r.session.isSome = true →
      Refuses (.trimEnter tag n range) .trimEnter tag .wrongState s) ∧
    (∀ k : TrimRange, r.session = some k → -127 ≤ steps.toInt →
      let most : Int := if k = .coarse then 25 else 50
      let t := max (-most) (min most steps.toInt) * (if k = .coarse then 10 else 1)
      exec (.trimSet tag n steps) s = .next (answered .trimSet tag
        (if -most ≤ steps.toInt ∧ steps.toInt ≤ most then .ok else .clamped) (sgn 2 t)
        (setLane lane { r with trim := t, shadow := shadow r.shadow t } (begin s)))) ∧
    (steps.toInt = -128 → Refuses (.trimSet tag n steps) .trimSet tag .outOfRange s) ∧
    (r.session = none → steps.toInt ≠ -128 → Refuses (.trimSet tag n steps) .trimSet tag .wrongState s) ∧
    (r.session.isSome = true → exec (.trimExit tag n) s = .next (answered .trimExit tag .ok []
      (setLane lane { r with session := none } (begin s)))) ∧
    (r.session = none → Refuses (.trimExit tag n) .trimExit tag .wrongState s)

/-- KNIFE_QUERY and DELIVERY_QUERY (R106, R123) show the lane, laid out as log 16 reads R191, and change nothing; a lane other than
U or L is refused (R103 to R106, R119, R120, R123). -/
def Obligations.LaneQueriesAndRanges : Prop :=
  (∀ (tag : Byte) (lane : Lane) (s : State), LinkFree s →
     let n := BitVec.ofNat 8 lane.code
     let r := s.lanes.get lane
     let d := s.delivery.get lane
     let order := r.active.bind fun j => findOrder s j.order
     let pile := fun p : Option Pile => uns 2 ((p.map Pile.order).getD 0) ++ uns 2 ((p.map Pile.count).getD 0)
     exec (.knifeQuery tag n) s = .next (answered .knifeQuery tag .ok
       (flag r.enabled ++ uns 1 ((r.active.map LaneJob.setup).getD 0) ++ uns 3 r.length ++ optional 3 r.shadow
         ++ flag r.shadow.isSome ++ uns 3 r.since ++ optional 1 (r.pendingClass.map SheetClass.rank) ++ flag r.uncovered
         ++ sgn 2 r.trim ++ optional 1 (r.session.map TrimRange.code) ++ uns 2 ((r.active.map LaneJob.order).getD 0)
         ++ optional 3 (order.map OrderRec.cut) ++ optional 1 (order.map OrderRec.outs) ++ uns 3 (effectiveLength s lane))
       (begin s)) ∧
     exec (.deliveryQuery tag n) s = .next (answered .deliveryQuery tag .ok
       (uns 1 d.stacker.code ++ pile d.bundle ++ pile d.fork ++ optional 1 (d.cause.map ChangeCause.code) ++ flag d.waiting
         ++ optional 1 (d.waitCause.map WaitCause.code) ++ flag d.timer.isSome
         ++ listed d.queue (fun b => uns 2 (b.order.getD 0) ++ uns 1 b.cls.rank ++ uns 3 b.length ++ uns 1 b.outs
             ++ uns 2 b.cuts ++ uns 6 b.firstAxis ++ uns 2 b.delivered)
         ++ uns 1 d.divert.code) (begin s))) ∧
  (∀ (tag n range steps : Byte) (s : State), LinkFree s → 1 < n.toNat →
     Refuses (.trimEnter tag n range) .trimEnter tag .outOfRange s ∧ Refuses (.trimSet tag n steps) .trimSet tag .outOfRange s ∧
     Refuses (.trimExit tag n) .trimExit tag .outOfRange s ∧ Refuses (.knifeQuery tag n) .knifeQuery tag .outOfRange s ∧
     Refuses (.stackEject tag n) .stackEject tag .outOfRange s ∧
     Refuses (.stackerReset tag n) .stackerReset tag .outOfRange s ∧
     Refuses (.deliveryQuery tag n) .deliveryQuery tag .outOfRange s)

/-- Cuts (R11, R94 to R97, R110, R160): the crossing report names the tenths a zone covers, a sheet takes the highest class of what
covers it, a stretch counts or cuts, the sheet is classified by the first case that applies, and the cut is charged to one class
account of its lane, raises its order's tally of the class, and joins the delivery queue. In a report of one advance that no zone
crosses, each enabled lane counts on, or cuts at its active length; that the cut is classified before any diversion of the same
advance lowers its order's good tally is the model's choice (log 1). -/
def Obligations.CutsAreMadeClassifiedAndCharged : Prop :=
  (∀ (lane : Lane) (cls : SheetClass) (o : Option Nat) (length axis : Nat) (uncovered : Bool) (s : State),
     let order := if cls = .unassigned then none else o.filter fun x => (findOrder s x).isSome
     let outs := ((order.bind (findOrder s)).map OrderRec.outs).getD 1
     let t := handCut lane cls o length uncovered axis s
     let la := s.accounts.lanes.get lane
     let ca := la.classes.get cls
     let d := s.delivery.get lane
     let charged : ClassAccount :=
       { sheets := min (2 ^ 48 - 1) (ca.sheets + outs), board := min (2 ^ 48 - 1) (ca.board + length) }
     let record : CutRec := { order := order, cls := cls, length := length, outs := outs, axis := axis % 2 ^ 48 }
     let more := fun v : Nat => min 16777215 (v + outs)
     t.accounts = { s.accounts with lanes := s.accounts.lanes.set lane { la with classes := la.classes.set cls charged } } ∧
     t.delivery = s.delivery.set lane { d with queue := joinQueue record d.queue } ∧
     (t.sched.orders = s.sched.orders.map fun q => if order = some q.id then (match cls with
       | .good => { q with good := more q.good }
       | .joint => { q with joint := more q.joint }
       | .defect => { q with defect := more q.defect }
       | .brk => { q with brk := more q.brk }
       | .transition => { q with transition := more q.transition }
       | .surplus => { q with surplus := more q.surplus }
       | .unassigned => q) else q) ∧
     t.issued.getLast? = some (.cut lane) ∧ t.web = s.web ∧ t.lanes = s.lanes ∧ t.enc = s.enc ∧ t.line = s.line) ∧
  (∀ (pk n : Nat) (m : Mark),
     (∀ j, 1 ≤ j → j ≤ n → ((∃ c, crossingOf pk n m = some c ∧ c.first ≤ j ∧ j ≤ c.last) ↔
       (m.pos : Int) - m.trail ≤ pk + n - j ∧ (pk : Int) + n - j ≤ m.pos + m.lead)) ∧
     (∀ c, crossingOf pk n m = some c → c.uncovered = (m.isReject && !m.covered) ∧ c.cls = (match m.kind with
       | .runChange _ => .transition
       | .joint _ _ => .joint
       | .defect _ => .defect
       | .brk => .brk))) ∧
  (∀ (report : List Crossing) (a b : Nat) (old : Option SheetClass) (bare : Bool),
     let covers := fun c : Crossing => c ∈ report ∧ c.first ≤ b ∧ a ≤ c.last
     let p := takeClasses report a b (old, bare)
     (p.1 = none ↔ old = none ∧ ∀ c, ¬covers c) ∧ (∀ d, p.1 = some d → old = some d ∨ ∃ c, covers c ∧ c.cls = d) ∧
     (∀ d c, p.1 = some d → (covers c → d.rank ≤ c.cls.rank)) ∧ (∀ d c, p.1 = some d → old = some c → d.rank ≤ c.rank) ∧
     (p.2 = true ↔ bare = true ∨ ∃ c, covers c ∧ c.uncovered = true)) ∧
  (∀ (lane : Lane) (report : List Crossing) (axis a b : Nat) (s : State), a ≤ b →
     let r := s.lanes.get lane
     let t := stretch lane report axis a b s
     let c := a + (r.length - r.since) - 1
     let p := takeClasses report a c (r.pendingClass, r.uncovered)
     let q := takeClasses report (c + 1) b (none, false)
     (r.enabled = false → t = s) ∧
     (r.enabled = true → r.since + (b + 1 - a) < r.length →
       let p := takeClasses report a b (r.pendingClass, r.uncovered)
       t = setLane lane { r with since := r.since + (b + 1 - a), pendingClass := p.1, uncovered := p.2 } s) ∧
     (r.enabled = true → r.since < r.length → r.length ≤ r.since + (b + 1 - a) →
       t.lanes = s.lanes.set lane { r with since := r.since + (b + 1 - a) - r.length, pendingClass := q.1, uncovered := q.2,
                                           length := r.shadow.getD r.length, shadow := none } ∧
       t.accounts = (handCut lane (classify s r.active p.1) (r.active.map LaneJob.order) r.length p.2 (axis + c) s).accounts ∧
       t.delivery = (handCut lane (classify s r.active p.1) (r.active.map LaneJob.order) r.length p.2 (axis + c) s).delivery ∧
       Output.cut lane ∈ t.issued)) ∧
  (∀ (s : State) (active : Option LaneJob) (o : OrderRec) (c : SheetClass),
     let order := active.bind fun j => findOrder s j.order
     let spent := o.wanted ≤ o.good ∧ o.wanted + o.overrun < o.good + o.outs
     classify s active (some c) = c ∧
     (order = none → classify s active none = .unassigned) ∧
     (order = some o → o.cancel = true ∨ spent → classify s active none = .surplus) ∧
     (order = some o → o.cancel = false → ¬spent → classify s active none = .good)) ∧
  (∀ (e : Encoder) (k : Nat) (lane : Lane) (s : State), e = s.enc.selected → 0 < k → k ≤ 1000 →
     (∀ m ∈ s.web.marks, m.pos + m.lead + k < s.cfg.pk) →
     (lane = .l → s.lanes.u.enabled = false ∨ s.lanes.u.since + k < s.lanes.u.length) →
     let r := s.lanes.get lane
     let cls := classify s r.active r.pendingClass
     let order := if cls = .unassigned then none else r.active.bind fun j => findOrder s j.order
     let ca := (s.accounts.lanes.get lane).classes.get cls
     r.enabled = true → r.since < r.length → ∃ t, exec (.encoderReport e k) s = .next t ∧
       (r.since + k < r.length → t.lanes.get lane = { r with since := r.since + k } ∧
         (t.accounts.lanes.get lane).classes = (s.accounts.lanes.get lane).classes) ∧
       (r.length ≤ r.since + k →
         t.lanes.get lane = { r with since := r.since + k - r.length, pendingClass := none, uncovered := false,
                                     length := r.shadow.getD r.length, shadow := none } ∧
         (t.accounts.lanes.get lane).classes = (s.accounts.lanes.get lane).classes.set cls
           ⟨min (2 ^ 48 - 1) (ca.sheets + (order.map OrderRec.outs).getD 1), min (2 ^ 48 - 1) (ca.board + r.length)⟩ ∧
         Output.cut lane ∈ t.issued))

/-- A run change at the knife (R98 to R102, R141): an advance with a point is taken in three stretches; at the point an enabled lane
makes a boundary cut where the piece is long enough and takes the setup, a disabled lane is enabled, and a lane the setup does not
have makes its closing cut and stops. -/
def Obligations.RunChangesAtKnife : Prop :=
  (∀ (lane : Lane) (report : List Crossing) (id q axis n : Nat) (s : State),
     laneAdvance lane report [] axis n s = stretch lane report axis 1 n s ∧
     laneAdvance lane report [(id, q)] axis n s = stretch lane report axis q n (laneArrival lane id (axis + q - 1)
       (stretch lane report axis 1 (q - 1) s))) ∧
  (∀ (lane : Lane) (id axis : Nat) (j : Setup) (s : State), findSetup s id = some j →
     let r := s.lanes.get lane
     let t := laneArrival lane id axis s
     let run := if lane = .u then some j.runU else j.runL
     let cls := match r.pendingClass with
       | some c => if 3 < c.rank then SheetClass.transition else c
       | none => .transition
     let outs := match r.active.bind fun a => findOrder s a.order with
       | some o => o.outs
       | none => 1
     let la := s.accounts.lanes.get lane
     let ca := la.classes.get cls
     let charged : ClassAccount := ⟨min (2 ^ 48 - 1) (ca.sheets + outs), min (2 ^ 48 - 1) (ca.board + r.since)⟩
     let pieceCharged := s.accounts.lanes.set lane { la with classes := la.classes.set cls charged }
     (∀ o, run = some o →
       let cut := ((findOrder s o.order).map OrderRec.cut).getD 0
       let length := (max 3000 (min 70000 ((cut : Int) + r.trim))).toNat
       let fast := length * s.cfg.maxRate / 600 < s.gov.reference
       let taken : LaneRec := { r with active := some { setup := id, order := o.order }, length := length, shadow := none }
       let fresh : LaneRec := { taken with since := 0, pendingClass := none, uncovered := false }
       Output.knifeLength lane length ∈ t.issued ∧
       t.accounts.overshoots = (if fast then min (2 ^ 48 - 1) (s.accounts.overshoots + 1) else s.accounts.overshoots) ∧
       (r.enabled = true → s.cfg.minSpacing ≤ r.since ∨ length ≤ r.since →
         t.lanes = s.lanes.set lane fresh ∧ t.accounts.lanes = pieceCharged ∧ Output.cut lane ∈ t.issued) ∧
       (r.enabled = true → r.since < s.cfg.minSpacing → r.since < length →
         t.lanes = s.lanes.set lane taken ∧ t.accounts.lanes = s.accounts.lanes) ∧
       (r.enabled = false →
         t.lanes = s.lanes.set lane { fresh with enabled := true } ∧ t.accounts = { s.accounts with
           overshoots := t.accounts.overshoots })) ∧
     (run = none → r.enabled = true →
       t.lanes = s.lanes.set lane { r with enabled := false, active := none, length := s.cfg.idleLength, shadow := none,
                                           since := 0, pendingClass := none, uncovered := false, session := none } ∧
       Output.knifeLength lane s.cfg.idleLength ∈ t.issued ∧
       (0 < r.since → t.accounts.lanes = pieceCharged ∧ Output.cut lane ∈ t.issued) ∧
       (r.since = 0 → t.accounts = s.accounts)) ∧
     (run = none → r.enabled = false → t = s))

/-! ## Delivery -/

/-- CHANGE_DONE (R117), CHANGE_TIMER_EXPIRY (R118), STACK_EJECT (R119) and STACKER_RESET (R120). The cause after a change done with
the waiting flag set and an empty fork is the model's choice (log 31), as is the time an expiry takes the time base to (log 2);
STACKER_FAULT is laid out as log 16 says, and an expiry of a timer that does not run is ignored (log 24). -/
def Obligations.StackChangesAndRequests : Prop :=
  (∀ (lane : Lane) (s : State),
     let d := s.delivery.get lane
     let done : DeliveryRec := { d with stacker := .stacking, bundle := d.fork, fork := none, cause := none, waiting := false,
                                        waitCause := none, timer := none }
     let pile := fun p : Option Pile => uns 2 ((p.map Pile.order).getD 0) ++ uns 2 ((p.map Pile.count).getD 0)
     (d.stacker = .changing → d.waiting = false ∨ d.fork = none → exec (.changeDone lane) s =
       .next (settle (setDelivery lane done (begin s)))) ∧
     (∀ p, d.stacker = .changing → d.waiting = true → d.fork = some p → ∃ t, exec (.changeDone lane) s = .next t ∧
       t.delivery = s.delivery.set lane { done with
         stacker := .changing, timer := some (s.now + (s.cfg.lanes.get lane).changeTimeout)
         cause := if bundleSize s p.order ≤ p.count then some .size
           else d.waitCause.map fun w => if w = .eject then .eject else .closing } ∧
       t.sched = s.sched ∧ t.accounts = s.accounts ∧ t.lanes = s.lanes ∧ t.web = s.web ∧ t.line = s.line) ∧
     (d.stacker ≠ .changing → Ignored (.changeDone lane) s) ∧
     (∀ due, d.stacker = .changing → d.timer = some due → exec (.changeTimerExpiry lane) s =
       .next (settle (notice 0xCD#8
         (uns 1 lane.code ++ uns 1 ((d.cause.map ChangeCause.code).getD 0) ++ pile d.bundle ++ pile d.fork)
         (setDelivery lane { d with stacker := .fault, waiting := false, waitCause := none, timer := none }
           { begin s with now := max s.now due })))) ∧
     (d.stacker ≠ .changing ∨ d.timer = none → Ignored (.changeTimerExpiry lane) s)) ∧
  (∀ (tag : Byte) (lane : Lane) (s : State), LinkFree s →
     let n := BitVec.ofNat 8 lane.code
     let d := s.delivery.get lane
     (d.stacker = .stacking → d.bundle.isSome = true → ∃ t, exec (.stackEject tag n) s = .next t ∧
       t = answered .stackEject tag .ok [] (setDelivery lane
         { d with stacker := .changing, cause := some .eject, timer := some (s.now + (s.cfg.lanes.get lane).changeTimeout) }
         ((begin s).setIssued [.stackChange lane]))) ∧
     (d.stacker = .stacking → d.bundle = none → Refuses (.stackEject tag n) .stackEject tag .wrongState s) ∧
     (d.stacker = .changing → exec (.stackEject tag n) s = .next (answered .stackEject tag .ok [] (setDelivery lane
       { d with waiting := true, waitCause := if d.waitCause = some .closing then some .closing else some .eject }
       (begin s)))) ∧
     (d.stacker = .fault → Refuses (.stackEject tag n) .stackEject tag .wrongState s) ∧
     (d.stacker = .fault → exec (.stackerReset tag n) s = .next (answered .stackerReset tag .ok [] (setDelivery lane
       { d with stacker := .stacking, bundle := none, fork := none, cause := none, waiting := false, waitCause := none }
       (begin s)))) ∧
     (d.stacker ≠ .fault → Refuses (.stackerReset tag n) .stackerReset tag .wrongState s))

/-- Delivery (R111): nothing is delivered before a cut has reached the stacker end, and then the front batch gives up one cut. A
delivered cut is laid or diverted (R112, R114, R116, R118): only a GOOD cut is offered to the stacker, and it is laid on the bundle,
on the bundle after a change has begun, on the fork, or diverted whole. -/
def Obligations.DeliveriesAreLaidOrDiverted : Prop :=
  (∀ (lane : Lane) (s : State),
     let reached := fun b : Batch => (s.cfg.lanes.get lane).transit ≤
       (s.enc.axis + 2 ^ 48 - (b.firstAxis + b.delivered * b.length) % 2 ^ 48) % 2 ^ 48
     ((s.delivery.get lane).queue = [] → deliverLane lane s = s) ∧
     (∀ b rest, (s.delivery.get lane).queue = b :: rest →
       (¬reached b → deliverLane lane s = s) ∧
       (reached b → deliverLane lane s = deliverLane lane (deliverFront lane b rest s) ∧
         ((deliverFront lane b rest s).delivery.get lane).queue =
           (if b.cuts ≤ b.delivered + 1 then rest else { b with delivered := b.delivered + 1 } :: rest) ∧
         (b.delivered + 1 < b.cuts → ∃ d, (deliverFront lane b rest s) = setDelivery lane d (deliverCut lane b s))))) ∧
  (∀ (lane : Lane) (b : Batch) (s : State),
     let d := s.delivery.get lane
     let t := deliverCut lane b s
     b.cls ≠ .good ∨ b.order = none →
       t.delivery = s.delivery.set lane { d with divert := .divert } ∧ t.sched = s.sched ∧ t.accounts = s.accounts ∧
       t.issued = s.issued ++ (if d.divert = .divert then [] else [.divertGate lane .divert])) ∧
  (∀ (lane : Lane) (b : Batch) (o : Nat) (s : State), b.cls = .good → b.order = some o →
     let d := s.delivery.get lane
     let t := deliverCut lane b s
     let size := ((findOrder s o).map OrderRec.bundle).getD 0
     let held := fun p : Option Pile => (p.map Pile.count).getD 0
     let accepts := fun p : Option Pile => p = none ∨ p.map Pile.order = some o
     let pile := fun p : Option Pile => some ({ order := o, count := held p + b.outs } : Pile)
     let laid := t.sched = { s.sched with orders := s.sched.orders.map fun q =>
         if q.id = o then { q with stacked := min 16777215 (q.stacked + b.outs) } else q } ∧ t.accounts = s.accounts
     let la := s.accounts.lanes.get lane
     let diverted := t.sched = { s.sched with orders := s.sched.orders.map fun q => if q.id = o then
           { q with good := q.good - b.outs, diverted := min 16777215 (q.diverted + b.outs) } else q } ∧
         t.accounts = { s.accounts with
           lanes := s.accounts.lanes.set lane { la with diverted := min (2 ^ 48 - 1) (la.diverted + b.outs) } }
     let changing := fun (c : ChangeCause) (q : DeliveryRec) => { q with
       stacker := .changing, cause := some c, timer := some (s.now + (s.cfg.lanes.get lane).changeTimeout) }
     let room := (s.cfg.lanes.get lane).forkCapacity
     (d.stacker = .stacking → accepts d.bundle → laid ∧
       t.delivery = s.delivery.set lane
         (let q := { d with bundle := pile d.bundle, divert := .stack }
          if size ≤ held d.bundle + b.outs then changing .size q else q)) ∧
     (d.stacker = .stacking → ¬accepts d.bundle → d.fork = none →
       (b.outs ≤ room → laid ∧ t.delivery = s.delivery.set lane (changing .order
         { d with fork := pile none, divert := .stack, waiting := d.waiting || decide (size ≤ b.outs) })) ∧
       (room < b.outs → diverted ∧ t.delivery = s.delivery.set lane (changing .order { d with divert := .divert }))) ∧
     (d.stacker = .changing →
       (accepts d.fork → held d.fork + b.outs ≤ room → laid ∧ t.delivery = s.delivery.set lane
         { d with fork := pile d.fork, divert := .stack, waiting := d.waiting || decide (size ≤ held d.fork + b.outs) }) ∧
       (¬accepts d.fork ∨ room < held d.fork + b.outs → diverted ∧
         t.delivery = s.delivery.set lane { d with divert := .divert })) ∧
     (d.stacker = .fault → diverted ∧ t.delivery = s.delivery.set lane { d with divert := .divert })) ∧
  (∀ (e : Encoder) (k : Nat) (lane : Lane) (b : Batch) (o : Nat) (q : OrderRec) (s : State),
     e = s.enc.selected → 0 < k → k ≤ 1000 → s.web.marks = [] →
     (∀ x, (s.lanes.get x).enabled = false ∨ (s.lanes.get x).since + k < (s.lanes.get x).length) →
     s.delivery = (PerLane.set ⟨DeliveryRec.initial, DeliveryRec.initial⟩ lane { DeliveryRec.initial with queue := [b] }) →
     b.cls = .good → b.order = some o → b.cuts = b.delivered + 1 → findOrder s o = some q →
     (s.cfg.lanes.get lane).transit ≤
       (s.enc.axis + k + 2 ^ 48 - (b.firstAxis + b.delivered * b.length) % 2 ^ 48) % 2 ^ 48 →
     ∃ t, exec (.encoderReport e k) s = .next t ∧ (t.delivery.get lane).queue = [] ∧
       (t.delivery.get lane).bundle = some { order := o, count := b.outs } ∧
       (findOrder t o).map OrderRec.stacked = some (min 16777215 (q.stacked + b.outs)))

/-! ## Governor -/

/-- The limiters as an evaluation finds their inputs (R127 to R134, R143, R144), with isqrt the floor of the square root
(00_scope.md, Arithmetic), and the glue setpoints it leaves (R145, R146). Outside RUN the ceiling is 0 and STOP binds (R128, R135).
-/
def Obligations.LimitersFollowTheirInputs : Prop :=
  (∀ n : Nat, isqrt n ^ 2 ≤ n ∧ n < (isqrt n + 1) ^ 2) ∧
  ∀ s : State,
    let g := (evaluate s).gov
    let l := g.limits
    let curve := fun vt d : Nat => min 65535 (isqrt (vt ^ 2 + 2 * s.cfg.decel * (d / 10 - s.cfg.reaction)))
    let grade := (s.sched.current.map Setup.grade).getD 0
    (s.line.condition = .run → l.stop = none) ∧
    (s.line.condition ≠ .run → l.stop = some 0 ∧ g.ceiling = 0 ∧ g.bindFamily = .stop) ∧
    l.demand = s.gov.demand ∧ l.lineMax = s.cfg.lineMax ∧
    (∀ i,
      let st := s.stands.get i
      let cfg := s.cfg.stands.get i
      (cfg.isPresent = false → l.splice.get i = none) ∧
      (cfg.isPresent = true → st.running = none → l.splice.get i = if cfg.role = .spare then none else some 0) ∧
      (∀ r, cfg.isPresent = true → st.running = some r → l.splice.get i =
        if st.state = .ready ∨ st.state = .armed ∨ st.state = .firing then
          some (curve cfg.spliceSpeed ((st.plan.map SplicePlan.fire).getD 0)) else some (curve 0 r.usable))) ∧
    (∀ lane,
      let r := s.lanes.get lane
      let now := if r.enabled then some (min 65535 (r.length * s.cfg.maxRate / 600)) else none
      let ahead := fun (m : Mark) (o : LaneRun) => m.pos < s.cfg.pk ∧
        ∃ id j, m.kind = .runChange id ∧ findSetup s id = some j ∧ (if lane = .u then some j.runU else j.runL) = some o
      ((∀ m ∈ s.web.marks, ∀ o, ¬ahead m o) → l.knife.get lane = now) ∧
      (∀ before m after o, s.web.marks = before ++ m :: after → (∀ q ∈ before, ∀ o, ¬ahead q o) → ahead m o →
        let cut := ((findOrder s o.order).map OrderRec.cut).getD 0
        let next := curve ((max 3000 (min 70000 ((cut : Int) + r.trim))).toNat * s.cfg.maxRate / 600) (s.cfg.pk - m.pos)
        l.knife.get lane = some (if r.enabled then min (min 65535 (r.length * s.cfg.maxRate / 600)) next else next))) ∧
    (∀ x,
      let r := s.stations.get x
      let pos := if x = .a then s.cfg.psa else s.cfg.psb
      ((∀ id m, r.pattern = some id → runMark s id = some m → pos ≤ m.pos) → l.slitter.get x = none) ∧
      (∀ id m, r.pattern = some id → runMark s id = some m → m.pos < pos →
        (∀ at', r.state = .positioning → r.lastOutput = some at' → l.slitter.get x =
          some (if r.estimate ≤ s.now - at' then s.cfg.creep
            else min 65535 ((pos - m.pos) / 10 * 1000 / (r.estimate - (s.now - at'))))) ∧
        (r.state = .fault → l.slitter.get x = some s.cfg.creep) ∧
        (r.state ≠ .positioning → r.state ≠ .fault → l.slitter.get x = none))) ∧
    (∀ lane,
      let order := (s.lanes.get lane).active.bind fun j => findOrder s j.order
      ((s.delivery.get lane).stacker = .fault ∨ order = none → l.stacker.get lane = none) ∧
      (∀ o, (s.delivery.get lane).stacker ≠ .fault → order = some o → l.stacker.get lane =
        some (min 65535 ((o.bundle + o.outs - 1) / o.outs * o.cut * 100 / (s.cfg.lanes.get lane).changeTime)))) ∧
    (s.gov.temperature = none ∨ s.gov.age = .stale → l.bond = s.cfg.creep) ∧
    (∀ theta p rest, s.gov.temperature = some theta → s.gov.age ≠ .stale → s.cfg.bond.getD grade [] = p :: rest →
      (p :: rest).Pairwise (fun a b => a.temperature < b.temperature) →
      (theta < p.temperature → l.bond = s.cfg.creep) ∧
      (p.temperature ≤ theta → Interpolates ((p :: rest).map fun q => (q.temperature, q.speed)) theta l.bond)) ∧
    g.grade = grade ∧
    ∀ u p rest, (s.cfg.glue.get u).getD grade [] = p :: rest → (p :: rest).Pairwise (fun a b => a.speed < b.speed) →
      ∃ gap wrap, Interpolates ((p :: rest).map fun q => (q.speed, q.gap)) g.reference gap ∧
        Interpolates ((p :: rest).map fun q => (q.speed, q.wrap)) g.reference wrap ∧
        let last := s.gov.issuedGlue.get u
        let far := fun a b c : Nat => a + c ≤ b ∨ b + c ≤ a
        g.issuedGlue.get u = { gap := if s.gov.grade ≠ grade ∨ far gap last.gap 5 then gap else last.gap
                               wrap := if s.gov.grade ≠ grade ∨ far wrap last.wrap 10 then wrap else last.wrap } ∧
        (s.gov.grade ≠ grade ∨ far gap last.gap 5 → Output.glueGap u gap ∈ (evaluate s).issued) ∧
        (s.gov.grade ≠ grade ∨ far wrap last.wrap 10 → Output.preheatWrap u wrap ∈ (evaluate s).issued)

/-- After an evaluation the ceiling is the least active limiter and the binding limiter the first that holds it (R135). The
reference is cut under the hold, and to DEMAND or LINE_MAX, and else follows its segment up to the ceiling (R138 to R140). The
number of a member alone in its family is 0 by the model's choice (log 39). -/
def Obligations.CeilingAndReference : Prop :=
  (∀ s : State,
     let g := (evaluate s).gov
     let ms := g.limits.members
     (∀ f m v, (f, m, some v) ∈ ms → g.ceiling ≤ v) ∧ g.ceiling ≤ s.cfg.lineMax ∧
     ∃ before after, ms = before ++ (g.bindFamily, g.bindMember, some g.ceiling) :: after ∧
       ∀ f m v, (f, m, some v) ∈ before → g.ceiling < v) ∧
  (∀ s : State,
     let g := s.gov
     let r := movedReference s
     (g.hold = true → r = (0, none)) ∧
     (g.hold = false → min g.demand s.cfg.lineMax < g.reference → r.1 = min g.demand s.cfg.lineMax) ∧
     (g.hold = false → g.reference ≤ min g.demand s.cfg.lineMax → g.reference = g.ceiling → r = (g.reference, none)) ∧
     (∀ q, g.hold = false → g.reference ≤ min g.demand s.cfg.lineMax → g.segment = some q →
       (g.reference < g.ceiling → q.dir = .rising → q.rate = s.cfg.accel →
         r.1 = min g.ceiling (q.startRef + q.rate * (s.now - q.startTime) / 1000)) ∧
       (g.ceiling < g.reference → q.dir = .falling →
         q.rate = (if s.line.condition = .brk then s.cfg.emergDecel else s.cfg.decel) →
         r.1 = max g.ceiling (q.startRef - q.rate * (s.now - q.startTime) / 1000))) ∧
     (g.hold = false → g.reference ≤ min g.demand s.cfg.lineMax → g.segment = none → g.reference ≠ g.ceiling →
       r.1 = g.reference ∧ ∃ q, r.2 = some q ∧ q.startRef = g.reference ∧ q.startTime = s.now))

/-- RAMP_TIMER_EXPIRY, POSITIONING_ESTIMATE_RUNOUT, HOT_PLATE_READING, TEMPERATURE_AGING and TEMPERATURE_STALE (R131, R137,
R142, R143). The time an expiry takes the time base to is the model's choice (log 2), and one that is not running is ignored
(log 24). -/
def Obligations.GovernorTimeEventsEvaluate : Prop :=
  ∀ (x : Station) (z : Int) (s : State),
    let g := s.gov
    let r := s.stations.get x
    (∀ due, g.rampTimer = some due → exec .rampTimerExpiry s = .next (settle
      { begin s with now := max s.now due, gov := { g with rampTimer := some (due + 20) }, evalDue := true })) ∧
    (g.rampTimer = none → Ignored .rampTimerExpiry s) ∧
    (∀ t, r.state = .positioning → r.lastOutput = some t → exec (.positioningEstimateRunout x) s = .next (settle
      { begin s with now := max s.now (t + r.estimate), evalDue := true })) ∧
    (r.state ≠ .positioning ∨ r.lastOutput = none → Ignored (.positioningEstimateRunout x) s) ∧
    (0 ≤ z → z ≤ 2500 → exec (.hotPlateReading z) s = .next (settle
      { begin s with gov := { g with temperature := some z.toNat, tempTime := some s.now, age := .fresh }, evalDue := true })) ∧
    (z < 0 ∨ 2500 < z → Ignored (.hotPlateReading z) s) ∧
    (∀ t, g.age = .fresh → g.tempTime = some t → exec .temperatureAging s = .next (settle
      { begin s with now := max s.now (t + 5000), gov := { g with age := .aging }, evalDue := true })) ∧
    (g.age ≠ .fresh ∨ g.tempTime = none → Ignored .temperatureAging s) ∧
    (∀ t, g.age = .aging → g.tempTime = some t → exec .temperatureStale s = .next (settle
      { begin s with now := max s.now (t + 30000), gov := { g with age := .stale }, evalDue := true })) ∧
    (g.age ≠ .aging ∨ g.tempTime = none → Ignored .temperatureStale s)

/-- SPEED_DEMAND (R134): DEMAND is the speed, or LINE_MAX and CLAMPED above it; the reference never exceeds it afterwards. -/
def Obligations.SpeedDemandSetsDemand : Prop :=
  ∀ (tag : Byte) (v : BitVec 16) (s : State), LinkFree s →
    let demand := min v.toNat s.cfg.lineMax
    exec (.speedDemand tag v) s = .next (answered .speedDemand tag (if v.toNat ≤ s.cfg.lineMax then .ok else .clamped)
      (uns 2 demand) (((begin s).setGov { s.gov with demand := demand }).setEvalDue true)) ∧
    ∃ t, exec (.speedDemand tag v) s = .next t ∧ t.gov.demand = demand ∧
      (s.gov.reference ≤ demand ∨ s.gov.hold = true ∨ t.gov.reference = demand)

/-- GOVERNOR_QUERY (R147) and LINE_QUERY (R159) change nothing. The time since the last advance is given where one has come since
power-on; before that the manual states none, and it is a free value (log 14). The layouts are log 16's reading of R191, and
the number of a member alone in its family is log 39's. -/
def Obligations.GovernorAndLineQueries : Prop :=
  (∀ (tag : Byte) (s : State), LinkFree s →
     let g := s.gov
     let l := g.limits
     exec (.governorQuery tag) s = .next (answered .governorQuery tag .ok
       (([l.stop, l.splice.s0, l.splice.s1, l.splice.s2, l.splice.s3, l.splice.s4, l.splice.s5, l.knife.u, l.knife.l,
          l.slitter.a, l.slitter.b, l.stacker.u, l.stacker.l, some l.bond, some l.demand, some l.lineMax].flatMap (optional 2))
         ++ uns 2 g.ceiling ++ uns 1 g.bindFamily.code ++ uns 1 g.bindMember ++ uns 2 g.reference ++ uns 2 g.demand
         ++ (match g.segment with
             | some q => flag true ++ uns 1 q.dir.code ++ uns 2 q.rate ++ uns 2 q.startRef ++ uns 4 (s.now - q.startTime)
             | none => List.replicate 10 0)
         ++ flag g.rampTimer.isSome ++ flag g.hold ++ optional 2 g.temperature ++ uns 1 g.age.code ++ uns 1 g.grade
         ++ ([g.issuedGlue.sf1, g.issuedGlue.sf2, g.issuedGlue.db].flatMap fun p => uns 2 p.gap ++ uns 2 p.wrap)) (begin s))) ∧
  (∀ (tag : Byte) (s : State), LinkFree s → ∃ since : Nat,
     (∀ t, s.rest.lastAdvance = some t → since = s.now - t) ∧
     exec (.lineQuery tag) s = .next (answered .lineQuery tag .ok
       (uns 1 s.line.condition.code ++ flag (s.rest.timer == .expired && s.gov.reference == 0) ++ uns 2 since
         ++ uns 1 (if s.emergencyStop then 0 else 1) ++ optional 1 (s.line.lastBreak.map BreakCause.code)
         ++ optional 1 (s.line.lastBreak.bind BreakCause.stand) ++ flag s.line.rethread ++ uns 3 s.cfg.rethreadLength) (begin s)))

/-! ## Line condition -/

/-- EMERGENCY_STOP_ACTIVE and EMERGENCY_STOP_RELEASED (R139, R140, R153): RUN becomes HALT, the reference is cut to 0 and stays
there, and a release changes no condition. A change to the level that stands is no event (log 24). -/
def Obligations.EmergencyStopHoldsReference : Prop :=
  ∀ s : State,
    (s.emergencyStop = false → ∃ t, exec .emergencyStopActive s = .next t ∧ t.emergencyStop = true ∧ t.gov.hold = true ∧
      t.gov.reference = 0 ∧ t.gov.segment = none ∧ t.gov.rampTimer = none ∧
      t.line = { s.line with condition := if s.line.condition = .run then .halt else s.line.condition } ∧
      (s.gov.reference ≠ 0 → Output.speedReference 0 ∈ t.issued) ∧ t.web = s.web ∧ t.sched = s.sched ∧ t.enc = s.enc ∧
      t.lanes = s.lanes ∧ t.delivery = s.delivery ∧ t.stations = s.stations ∧ t.accounts = s.accounts) ∧
    (s.emergencyStop = true → Ignored .emergencyStopActive s) ∧
    (s.emergencyStop = true → exec .emergencyStopReleased s = .next (settle
      { begin s with emergencyStop := false, gov := { s.gov with hold := false }, evalDue := true })) ∧
    (s.emergencyStop = false → Ignored .emergencyStopReleased s)

/-- LINE_STOP (R151), LINE_RESTART (R152) and REST_TIMER_EXPIRY (R156), which takes the time base to its time (the model's choice,
log 2) and is ignored where the timer does not run (log 24). -/
def Obligations.LineStopsRestartsAndRests : Prop :=
  (∀ (tag : Byte) (s : State), LinkFree s →
     (s.line.condition = .run → ∃ t, exec (.lineStop tag) s = .next t ∧
       t = answered .lineStop tag .ok [1] (setCondition .halt (begin s)) ∧ t.line = { s.line with condition := .halt }) ∧
     (s.line.condition = .halt → exec (.lineStop tag) s = .next (answered .lineStop tag .ok [1] (begin s))) ∧
     (s.line.condition = .purged → exec (.lineStop tag) s = .next (answered .lineStop tag .ok [3] (begin s))) ∧
     (s.line.condition = .brk → Refuses (.lineStop tag) .lineStop tag .wrongState s) ∧
     (s.store.configured = false → Refuses (.lineRestart tag) .lineRestart tag .unconfigured s) ∧
     (s.store.configured = true → s.line.condition = .brk ∨ s.emergencyStop = true →
       Refuses (.lineRestart tag) .lineRestart tag .wrongState s) ∧
     (s.store.configured = true → s.line.condition ≠ .brk → s.emergencyStop = false → ∃ t,
       exec (.lineRestart tag) s = .next t ∧ t = answered .lineRestart tag .ok [] (setCondition .run (begin s)) ∧
       t.line = { s.line with condition := .run })) ∧
  (∀ s : State,
     (∀ due, s.rest.timer = .running due → exec .restTimerExpiry s = .next (settle
       { begin s with now := max s.now due, rest := { s.rest with timer := .expired } })) ∧
     ((∀ due, s.rest.timer ≠ .running due) → Ignored .restTimerExpiry s))

/-- PURGE (R22, R46, R70, R89, R107, R157, R158): accepted at rest in BREAK or HALT, it empties the board and what travels with it,
and restates the CURRENT setup as PENDING, its planned length from the sheets that remain (a free value beyond 48 bits, log 13). An
ARMED stand returns to READY and plans; a READY one plans again where a CURRENT setup's length is restated and else keeps its
record (log 33); every other stand keeps its own but for the joint and the late watch. A stuck defect sensor stays stuck (log 34),
and the request breaks a remap sequence in progress (log 38). The order of the blocks is log 25's. -/
def Obligations.PurgeEmptiesBoard : Prop :=
  ∀ (tag : Byte) (s : State), LinkFree s →
    let rest := s.rest.timer = .expired ∧ s.gov.reference = 0
    (s.line.condition = .run ∨ s.line.condition = .purged ∨ ¬rest → Refuses (.purge tag) .purge tag .notAtRest s) ∧
    (s.line.condition = .brk ∨ s.line.condition = .halt → rest → ∃ t, exec (.purge tag) s = .next t ∧
      t = answered .purge tag .ok (uns 1 s.web.marks.length ++ uns 1 s.sched.online.length ++ [3]) (purgeAll (begin s)) ∧
      t.line = { s.line with condition := .purged, rethread := true } ∧
      t.web = { s.web with marks := [], sensorDefect := none } ∧ t.enc.axis = s.enc.axis ∧
      t.enc.selected = s.enc.selected ∧ t.enc.fallback = s.enc.fallback ∧
      t.sched.queued = s.sched.queued ∧ t.sched.episode = none ∧
      t.sched.current.map (fun q => (q.id, q.produced, q.markState)) =
        s.sched.current.map (fun q => (q.id, 0, some .pending)) ∧
      (let remaining := fun r : LaneRun =>
         match findOrder s r.order with
         | some o => (r.target - r.credited + o.outs - 1) / o.outs * o.cut
         | none => 0
       t.sched.current.map Setup.planned = s.sched.current.map fun q =>
         fit48 (max s.cfg.minSetup (q.waste + max (remaining q.runU) ((q.runL.map remaining).getD 0)))) ∧
      t.remap = .none ∧
      (∀ i, (t.stands.get i).joint = none ∧ (t.stands.get i).late = false ∧
        (t.stands.get i).running = (s.stands.get i).running ∧ (t.stands.get i).standby = (s.stands.get i).standby) ∧
      (∀ i,
        let old := s.stands.get i
        let new := t.stands.get i
        let plan := computePlan t i
        (old.state ≠ .armed → (old.state = .ready → s.sched.current = none) → new = { old with joint := none, late := false }) ∧
        (old.state = .armed ∨ (old.state = .ready ∧ s.sched.current.isSome = true) → new.plan = some plan ∧
          (new.state = .ready ∨ new.state = .armed ∨ new.state = .firing) ∧
          (new.state = .ready ↔ (s.cfg.stands.get i).armDistance < plan.fire))) ∧
      (∀ x, (t.stations.get x).late = none ∧ (t.stations.get x).state ≠ .engaged) ∧
      (∀ lane, (t.lanes.get lane).active = none ∧ (t.lanes.get lane).since = 0 ∧ (t.lanes.get lane).shadow = none ∧
        (t.lanes.get lane).enabled = (s.lanes.get lane).enabled ∧ (t.lanes.get lane).trim = (s.lanes.get lane).trim ∧
        (t.delivery.get lane).queue = (s.delivery.get lane).queue) ∧
      t.accounts = s.accounts ∧ t.cfg = s.cfg ∧ t.store = s.store ∧ t.rest = s.rest ∧ t.emergencyStop = s.emergencyStop)

/-- PRODUCTION_CLEAR (R23, R47, R71, R90, R108, R125, R148, R163, R173, R189): accepted at rest in HALT or PURGED. The counter bank
keeps its configuration, and a value changes only in an enabled EDGE counter that counts one of the clear's own hand-offs. A stuck
defect sensor stays stuck (log 34). The order of the blocks is log 25's. -/
def Obligations.ProductionClearStartsAfresh : Prop :=
  ∀ (tag : Byte) (s : State), LinkFree s →
    let rest := s.rest.timer = .expired ∧ s.gov.reference = 0
    (s.line.condition = .run ∨ s.line.condition = .brk ∨ ¬rest →
      Refuses (.productionClear tag) .productionClear tag .notAtRest s) ∧
    (s.line.condition = .halt ∨ s.line.condition = .purged → rest → ∃ t, exec (.productionClear tag) s = .next t ∧
      t = answered .productionClear tag .ok [] (clearAll (begin s)) ∧
      t.enc.axis = 0 ∧ t.enc.selected = s.enc.selected ∧ t.enc.fallback = s.enc.fallback ∧
      t.web = { marks := [], nextEntry := 0, sensorDefect := none, sensorStuck := s.web.sensorStuck } ∧
      t.sched = { orders := [], queued := [], current := none, online := [], episode := none, openExtension := none } ∧
      (∀ i, (t.stands.get i).joint = none ∧ (t.stands.get i).late = false ∧
        (t.stands.get i).running = (s.stands.get i).running ∧ (t.stands.get i).standby = (s.stands.get i).standby ∧
        (t.stands.get i).refused = (s.stands.get i).refused ∧ (t.stands.get i).reloaded = (s.stands.get i).reloaded) ∧
      (∀ i,
        let old := s.stands.get i
        let new := t.stands.get i
        let u := (old.running.map RunningReel.usable).getD 0
        (old.state ≠ .armed → old.state ≠ .ready → new = { old with joint := none, late := false }) ∧
        (old.state = .armed ∨ old.state = .ready → new.plan = some { kind := .reserve, fire := u } ∧
          (new.state = .ready ∨ new.state = .armed ∨ new.state = .firing) ∧
          (new.state = .ready ↔ (s.cfg.stands.get i).armDistance < u))) ∧
      (∀ x, let r := t.stations.get x
        r.state = .free ∧ r.pattern = none ∧ r.late = none ∧ r.timer = none ∧ r.faultPending = false ∧
          r.lastArrival = none ∧ r.groups = (s.stations.get x).groups ∧ r.lastOutput = (s.stations.get x).lastOutput) ∧
      t.lanes = ⟨{ LaneRec.initial true s.cfg.idleLength with trim := s.lanes.u.trim },
                 { LaneRec.initial false s.cfg.idleLength with trim := s.lanes.l.trim }⟩ ∧
      t.delivery = ⟨DeliveryRec.initial, DeliveryRec.initial⟩ ∧ t.accounts = Accounts.zero ∧ t.remap = .none ∧
      (t.gov.grade = 0 ∧ t.gov.demand = s.gov.demand ∧ t.gov.temperature = s.gov.temperature ∧
        t.gov.tempTime = s.gov.tempTime ∧ t.gov.age = s.gov.age ∧ t.gov.hold = s.gov.hold ∧ t.gov.reference = 0 ∧
        (s.gov.grade ≠ 0 → ∀ u, Output.glueGap u (t.gov.issuedGlue.get u).gap ∈ t.issued ∧
          Output.preheatWrap u (t.gov.issuedGlue.get u).wrap ∈ t.issued)) ∧
      (CountersHold s → ∀ i,
        let old := s.bank.counters.get i
        let new := t.bank.counters.get i
        new = { old with value := new.value, overflow := new.overflow, lastSeen := new.lastSeen } ∧
          (old.enabled = false ∨ old.edge = false ∨ s.bank.frozen = true → new.value = old.value ∧ new.overflow = old.overflow)) ∧
      t.line = s.line ∧ t.cfg = s.cfg ∧ t.store = s.store ∧ t.rest = s.rest ∧ t.emergencyStop = s.emergencyStop)

/-! ## Accounts and counters -/

/-- ACCOUNTS_READ and ACCOUNTS_CLEAR (R163, section 12.4): 325 bytes with the result code. -/
def Obligations.AccountsReadAndClear : Prop :=
  ∀ (tag : Byte) (s : State), LinkFree s →
    let a := s.accounts
    let lane := fun l : LaneAccounts =>
      ([l.classes.brk, l.classes.joint, l.classes.defect, l.classes.transition, l.classes.unassigned, l.classes.surplus,
        l.classes.good].flatMap fun c => uns 6 c.sheets ++ uns 6 c.board) ++ uns 6 l.diverted
    let six := fun p : Six Nat => [p.s0, p.s1, p.s2, p.s3, p.s4, p.s5].flatMap (uns 6)
    (∃ data : List Byte, data.length = 324 ∧
      data = lane a.lanes.u ++ lane a.lanes.l ++ uns 6 a.overrun ++ uns 6 a.starvation ++ uns 6 a.heldDry ++ uns 6 a.merges
        ++ six a.targeted ++ six a.reserve ++ six a.absorbed ++ uns 6 a.lateJoints ++ uns 6 a.overshoots ∧
      exec (.accountsRead tag) s = .next (answered .accountsRead tag .ok data (begin s))) ∧
    exec (.accountsClear tag) s = .next (answered .accountsClear tag .ok [] ((begin s).setAccounts Accounts.zero))

/-- COUNTER_SETUP (R170): the three checks in order; the value and the overflow flag are kept, and last seen is set from the new
source, which for an event source is false by the model's choice (log 37). COUNTER_ENABLE, COUNTER_PRESET, COUNTER_UNFREEZE and
COUNTER_READ (R169, R171, R172), with the counter records of section 12.4, the overflow flags as they were before the clearing. -/
def Obligations.CounterRequests : Prop :=
  (∀ (tag : Byte) (i : Fin 8) (en src mode inv fr lf : Byte) (om ok : BitVec 16) (cs fam : Byte) (s : State), LinkFree s →
     let c := Instr.counterSetup tag (BitVec.ofNat 8 i) en src mode inv fr lf om ok cs fam
     let old := s.bank.counters.get i
     let ranged := en.toNat ≤ 1 ∧ mode.toNat ≤ 1 ∧ inv.toNat ≤ 1 ∧ fr.toNat ≤ 1 ∧ cs.toNat ≤ 127 ∧
       (src.toNat < 7 → mode = 0#8 ∧ inv = 0#8)
     (old.enabled = true → Refuses c .counterSetup tag .wrongState s) ∧
     (old.enabled = false → 11 < src.toNat ∨ 2 < lf.toNat ∨ 7 < fam.toNat ∨ ¬ranged →
       Refuses c .counterSetup tag .outOfRange s) ∧
     (∀ source lanes family, old.enabled = false → Source.ofCode src.toNat = some source →
       LaneFilter.ofCode lf.toNat = some lanes → Family.ofCode fam.toNat = some family → ranged →
       let new : Counter :=
         { value := old.value, overflow := old.overflow, enabled := en == 1#8, source := source, edge := mode == 1#8,
           invert := inv == 1#8, freeze := fr == 1#8, laneFilter := lanes, orderMatch := om, orderMask := ok, classSet := cs,
           family := family, lastSeen := false }
       exec c s = .next (answered .counterSetup tag .ok [] ((begin s).setBank { s.bank with
         counters := s.bank.counters.set i { new with lastSeen := tested s i new } })))) ∧
  (∀ (tag n en clear : Byte) (i : Fin 8) (v : BitVec 40) (s : State), LinkFree s →
     let k := BitVec.ofNat 8 i
     let old := s.bank.counters.get i
     (en.toNat ≤ 1 → exec (.counterEnable tag k en) s = .next (answered .counterEnable tag .ok []
       ((begin s).setBank { s.bank with counters := s.bank.counters.set i { old with enabled := en == 1#8 } }))) ∧
     (1 < en.toNat ∨ 7 < n.toNat → Refuses (.counterEnable tag (if 1 < en.toNat then k else n) en) .counterEnable tag
       .outOfRange s) ∧
     exec (.counterPreset tag k v) s = .next (answered .counterPreset tag .ok []
       ((begin s).setBank { s.bank with counters := s.bank.counters.set i { old with value := v.toNat } })) ∧
     (7 < n.toNat → Refuses (.counterPreset tag n v) .counterPreset tag .outOfRange s ∧
       ∀ src mode inv fr lf om ok cs fam,
         Refuses (.counterSetup tag n en src mode inv fr lf om ok cs fam) .counterSetup tag .outOfRange s) ∧
     exec (.counterUnfreeze tag) s = .next (answered .counterUnfreeze tag .ok []
       ((begin s).setBank { s.bank with frozen := false })) ∧
     (1 < clear.toNat → Refuses (.counterRead tag clear) .counterRead tag .outOfRange s) ∧
     (clear.toNat ≤ 1 →
       let bit := fun (k : Nat) (b : Bool) => if b then 2 ^ k else 0
       let record := fun (j : Fin 8) =>
         let c := s.bank.counters.get j
         uns 5 c.value ++ uns 1 (bit 0 c.overflow + bit 1 c.enabled + bit 2 c.invert + bit 3 c.freeze + bit 4 c.edge)
           ++ uns 1 c.source.code ++ uns 1 c.laneFilter.code ++ uns 2 c.orderMatch.toNat ++ uns 2 c.orderMask.toNat
           ++ uns 1 c.classSet.toNat ++ uns 1 c.family.code ++ uns 2 (s.cfg.band.get j)
       let data := flag s.bank.frozen ++ ([0, 1, 2, 3, 4, 5, 6, 7] : List (Fin 8)).flatMap record
       data.length = 129 ∧ exec (.counterRead tag clear) s = .next (answered .counterRead tag .ok data
         (if clear = 1#8 then (begin s).setBank { s.bank with
            counters := s.bank.counters.mapIdx fun _ c => { c with overflow := false } } else begin s))))

/-- COUNTER_MILLISECOND (R166, R168, R169): the time base counts, and unless the bank is frozen each enabled LEVEL counter
whose condition holds rises by 1, wraps at 2^40 with its overflow flag, and freezes the bank where it is set to. The command is the
model's millisecond of the time base (log 2). -/
def Obligations.MillisecondRaisesLevelCounters : Prop :=
  ∀ s : State, ∃ t, exec .counterMillisecond s = .next t ∧ t.now = s.now + 1 ∧
    (s.bank.frozen = true → t.bank = s.bank) ∧
    (s.bank.frozen = false → ∀ i,
      let c := s.bank.counters.get i
      let inc := if c.enabled = true ∧ c.edge = false ∧ tested s i c = true then 1 else 0
      t.bank.counters.get i =
        { c with value := (c.value + inc) % 2 ^ 40, overflow := c.overflow || decide (2 ^ 40 ≤ c.value + inc) }) ∧
    (s.bank.frozen = false → CountersHold s → (t.bank.frozen = true ↔ ∃ i,
      let c := s.bank.counters.get i
      c.freeze = true ∧ c.enabled = true ∧ c.edge = false ∧ tested s i c = true ∧ 2 ^ 40 ≤ c.value + 1)) ∧
    t.gov = s.gov ∧ t.web = s.web ∧ t.sched = s.sched ∧ t.stands = s.stands ∧ t.stations = s.stations ∧
    t.lanes = s.lanes ∧ t.delivery = s.delivery ∧ t.line = s.line ∧ t.accounts = s.accounts ∧ t.enc = s.enc

/-! ## Settings store -/

/-- SETTINGS_WRITE (R185, R186): the four checks in order, and an accepted write of every listed item at once. How a refusal
carries its position is log 17's, and that an item listed twice fails at the later of its positions is the model's choice
(log 40). -/
def Obligations.SettingsWriteChecksAndReplaces : Prop :=
  ∀ (tag : Byte) (es : List (BitVec 16 × BitVec 48)) (s : State), LinkFree s → es.length ≤ 127 →
    let c := Instr.settingsWrite tag es
    let entries := es.map fun e => (e.1.toNat, e.2.toNat)
    let items := itemsOf entries
    let restricted := items.any (fun e => e.1.isRestricted) = true
    let mayWrite := (s.line.condition = .halt ∨ s.line.condition = .purged) ∧
      (s.rest.timer = .expired ∧ s.gov.reference = 0) ∧ s.web.marks = []
    (s.store.writing.isSome = true → Refuses c .settingsWrite tag .busy s) ∧
    (s.store.writing = none →
      (∀ pos, firstBad [] 1 entries = some pos →
        exec c s = .next (answered .settingsWrite tag .outOfRange (uns 1 pos) (begin s))) ∧
      (firstBad [] 1 entries = none →
        (restricted → ¬mayWrite → Refuses c .settingsWrite tag .wrongState s) ∧
        ((restricted → mayWrite) →
          (validSettings (written s.cfg items) (plannedLengths s) = false → ∃ data,
            exec c s = .next (answered .settingsWrite tag .outOfRange data (begin s))) ∧
          (validSettings (written s.cfg items) (plannedLengths s) = true → ∃ t, exec c s = .next t ∧
            t = answered .settingsWrite tag .ok [] (takeWrite items (begin s)) ∧ t.cfg = written s.cfg items ∧
            t.web = s.web ∧ t.sched = s.sched ∧ t.stations = s.stations ∧ t.delivery = s.delivery ∧ t.line = s.line ∧
            t.accounts = s.accounts ∧ t.store = s.store ∧ t.enc.axis = s.enc.axis))))

/-- SETTINGS_COMMIT, IMAGE_WRITE_SUCCESS and IMAGE_WRITE_FAILURE (R187). A completion with no write in progress is ignored (log
24). -/
def Obligations.ImageWriteBeginsAndEnds : Prop :=
  ∀ (tag : Byte) (s : State),
    (LinkFree s → s.store.writing.isSome = true → Refuses (.settingsCommit tag) .settingsCommit tag .busy s) ∧
    (LinkFree s → s.store.writing = none → exec (.settingsCommit tag) s = .next (answered .settingsCommit tag .ok []
      ((begin s).setStore { s.store with
        writing := some (.commit, { cfg := s.cfg, hard := hardMappings s }), imageValid := false, image := none }))) ∧
    (∀ cause m, s.store.writing = some (cause, m) → exec .imageWriteSuccess s = .next (settle
      ((begin s).setStore { writing := none, imageValid := true, image := some { content := m, crc := crc32 m.bytes },
                            configured := s.store.configured || decide (cause = .commit) }))) ∧
    (∀ cause m, s.store.writing = some (cause, m) → exec .imageWriteFailure s = .next (settle
      (notice 0xD1#8 (uns 1 cause.code) ((begin s).setStore { s.store with writing := none })))) ∧
    (s.store.writing = none → Ignored .imageWriteSuccess s ∧ Ignored .imageWriteFailure s)

/-! ## Invariants that every step keeps -/

/-- The web map keeps its bound and its order, a sensor defect stays below 50,000, the counts stay in range. -/
def Obligations.StepKeepsMap : Prop := ∀ s t : State, MapHolds s → step s = .next t → MapHolds t

/-- The order and setup tables keep their bounds, the orders their order of id. -/
def Obligations.StepKeepsTables : Prop := ∀ s t : State, TablesHold s → step s = .next t → TablesHold t

/-- Every stand keeps plan, timer and standby to its splice state; none is in FIRING with a pending joint. -/
def Obligations.StepKeepsStands : Prop :=
  ∀ s t : State, (∀ i, StandHolds (s.stands.get i)) → step s = .next t → ∀ i, StandHolds (t.stands.get i)

/-- Every stacker keeps its timer, bundle, fork and waiting flag to its state; the trim correction always lies within -250 to +250.
That no cause stays in STACKING after a change done with the waiting flag set and an empty fork is the model's choice (log 31). -/
def Obligations.StepKeepsStackersAndTrim : Prop :=
  (∀ s t : State, (∀ lane, StackerHolds (s.delivery.get lane)) → step s = .next t → ∀ lane, StackerHolds (t.delivery.get lane)) ∧
  (∀ s t : State, (∀ lane, TrimHolds (s.lanes.get lane)) → step s = .next t → ∀ lane, TrimHolds (t.lanes.get lane))

/-- The reference never exceeds DEMAND nor LINE_MAX, and is 0 under the emergency hold. -/
def Obligations.StepKeepsReference : Prop := ∀ s t : State, ReferenceHolds s → step s = .next t → ReferenceHolds t

/-- The link keeps its bounds, and a free transmitter never leaves a frame waiting. The counter values stay below 2^40. -/
def Obligations.StepKeepsLinkAndCounters : Prop :=
  (∀ s t : State, LinkHolds s → step s = .next t → LinkHolds t) ∧
  (∀ s t : State, CountersHold s → step s = .next t → CountersHold t)

/-- The active settings are valid at every moment. -/
def Obligations.StepKeepsSettingsValid : Prop := ∀ s t : State, SettingsHold s → step s = .next t → SettingsHold t

/-- Every one of these invariants holds at reset. -/
def Obligations.InvariantsHoldAtReset : Prop :=
  let s := State.reset
  MapHolds s ∧ TablesHold s ∧ (∀ i, StandHolds (s.stands.get i)) ∧ (∀ lane, StackerHolds (s.delivery.get lane)) ∧
    (∀ lane, TrimHolds (s.lanes.get lane)) ∧ ReferenceHolds s ∧ LinkHolds s ∧ CountersHold s ∧ SettingsHold s
end

