-- ==== Sys2Proof/Laws/State.lean ====
section
/-! SUPPORT. What each setter of the state leaves and what it writes: one equation for each field, true by rfl. -/

namespace Sys2Proof.Machine

@[simp] theorem State.setNow_fields (s : State) (v : Nat) :
    (s.setNow v).now = v ∧ (s.setNow v).cfg = s.cfg ∧ (s.setNow v).enc = s.enc ∧ (s.setNow v).web = s.web ∧
    (s.setNow v).sched = s.sched ∧ (s.setNow v).stands = s.stands ∧ (s.setNow v).stations = s.stations ∧
    (s.setNow v).remap = s.remap ∧ (s.setNow v).lanes = s.lanes ∧ (s.setNow v).delivery = s.delivery ∧
    (s.setNow v).gov = s.gov ∧ (s.setNow v).line = s.line ∧ (s.setNow v).rest = s.rest ∧
    (s.setNow v).emergencyStop = s.emergencyStop ∧ (s.setNow v).accounts = s.accounts ∧ (s.setNow v).bank = s.bank ∧
    (s.setNow v).link = s.link ∧ (s.setNow v).notices = s.notices ∧ (s.setNow v).store = s.store ∧
    (s.setNow v).issued = s.issued ∧ (s.setNow v).evalDue = s.evalDue ∧ (s.setNow v).pending = s.pending := by
  and_intros <;> rfl

@[simp] theorem State.setCfg_fields (s : State) (v : Settings) :
    (s.setCfg v).now = s.now ∧ (s.setCfg v).cfg = v ∧ (s.setCfg v).enc = s.enc ∧ (s.setCfg v).web = s.web ∧
    (s.setCfg v).sched = s.sched ∧ (s.setCfg v).stands = s.stands ∧ (s.setCfg v).stations = s.stations ∧
    (s.setCfg v).remap = s.remap ∧ (s.setCfg v).lanes = s.lanes ∧ (s.setCfg v).delivery = s.delivery ∧
    (s.setCfg v).gov = s.gov ∧ (s.setCfg v).line = s.line ∧ (s.setCfg v).rest = s.rest ∧
    (s.setCfg v).emergencyStop = s.emergencyStop ∧ (s.setCfg v).accounts = s.accounts ∧ (s.setCfg v).bank = s.bank ∧
    (s.setCfg v).link = s.link ∧ (s.setCfg v).notices = s.notices ∧ (s.setCfg v).store = s.store ∧
    (s.setCfg v).issued = s.issued ∧ (s.setCfg v).evalDue = s.evalDue ∧ (s.setCfg v).pending = s.pending := by
  and_intros <;> rfl

@[simp] theorem State.setEnc_fields (s : State) (v : Encoders) :
    (s.setEnc v).now = s.now ∧ (s.setEnc v).cfg = s.cfg ∧ (s.setEnc v).enc = v ∧ (s.setEnc v).web = s.web ∧
    (s.setEnc v).sched = s.sched ∧ (s.setEnc v).stands = s.stands ∧ (s.setEnc v).stations = s.stations ∧
    (s.setEnc v).remap = s.remap ∧ (s.setEnc v).lanes = s.lanes ∧ (s.setEnc v).delivery = s.delivery ∧
    (s.setEnc v).gov = s.gov ∧ (s.setEnc v).line = s.line ∧ (s.setEnc v).rest = s.rest ∧
    (s.setEnc v).emergencyStop = s.emergencyStop ∧ (s.setEnc v).accounts = s.accounts ∧ (s.setEnc v).bank = s.bank ∧
    (s.setEnc v).link = s.link ∧ (s.setEnc v).notices = s.notices ∧ (s.setEnc v).store = s.store ∧
    (s.setEnc v).issued = s.issued ∧ (s.setEnc v).evalDue = s.evalDue ∧ (s.setEnc v).pending = s.pending := by
  and_intros <;> rfl

@[simp] theorem State.setWeb_fields (s : State) (v : WebMap) :
    (s.setWeb v).now = s.now ∧ (s.setWeb v).cfg = s.cfg ∧ (s.setWeb v).enc = s.enc ∧ (s.setWeb v).web = v ∧
    (s.setWeb v).sched = s.sched ∧ (s.setWeb v).stands = s.stands ∧ (s.setWeb v).stations = s.stations ∧
    (s.setWeb v).remap = s.remap ∧ (s.setWeb v).lanes = s.lanes ∧ (s.setWeb v).delivery = s.delivery ∧
    (s.setWeb v).gov = s.gov ∧ (s.setWeb v).line = s.line ∧ (s.setWeb v).rest = s.rest ∧
    (s.setWeb v).emergencyStop = s.emergencyStop ∧ (s.setWeb v).accounts = s.accounts ∧ (s.setWeb v).bank = s.bank ∧
    (s.setWeb v).link = s.link ∧ (s.setWeb v).notices = s.notices ∧ (s.setWeb v).store = s.store ∧
    (s.setWeb v).issued = s.issued ∧ (s.setWeb v).evalDue = s.evalDue ∧ (s.setWeb v).pending = s.pending := by
  and_intros <;> rfl

@[simp] theorem State.setSched_fields (s : State) (v : Schedule) :
    (s.setSched v).now = s.now ∧ (s.setSched v).cfg = s.cfg ∧ (s.setSched v).enc = s.enc ∧ (s.setSched v).web = s.web ∧
    (s.setSched v).sched = v ∧ (s.setSched v).stands = s.stands ∧ (s.setSched v).stations = s.stations ∧
    (s.setSched v).remap = s.remap ∧ (s.setSched v).lanes = s.lanes ∧ (s.setSched v).delivery = s.delivery ∧
    (s.setSched v).gov = s.gov ∧ (s.setSched v).line = s.line ∧ (s.setSched v).rest = s.rest ∧
    (s.setSched v).emergencyStop = s.emergencyStop ∧ (s.setSched v).accounts = s.accounts ∧ (s.setSched v).bank = s.bank ∧
    (s.setSched v).link = s.link ∧ (s.setSched v).notices = s.notices ∧ (s.setSched v).store = s.store ∧
    (s.setSched v).issued = s.issued ∧ (s.setSched v).evalDue = s.evalDue ∧ (s.setSched v).pending = s.pending := by
  and_intros <;> rfl

@[simp] theorem State.setStands_fields (s : State) (v : Six Stand) :
    (s.setStands v).now = s.now ∧ (s.setStands v).cfg = s.cfg ∧ (s.setStands v).enc = s.enc ∧ (s.setStands v).web = s.web ∧
    (s.setStands v).sched = s.sched ∧ (s.setStands v).stands = v ∧ (s.setStands v).stations = s.stations ∧
    (s.setStands v).remap = s.remap ∧ (s.setStands v).lanes = s.lanes ∧ (s.setStands v).delivery = s.delivery ∧
    (s.setStands v).gov = s.gov ∧ (s.setStands v).line = s.line ∧ (s.setStands v).rest = s.rest ∧
    (s.setStands v).emergencyStop = s.emergencyStop ∧ (s.setStands v).accounts = s.accounts ∧
    (s.setStands v).bank = s.bank ∧ (s.setStands v).link = s.link ∧ (s.setStands v).notices = s.notices ∧
    (s.setStands v).store = s.store ∧ (s.setStands v).issued = s.issued ∧ (s.setStands v).evalDue = s.evalDue ∧
    (s.setStands v).pending = s.pending := by
  and_intros <;> rfl

@[simp] theorem State.setStations_fields (s : State) (v : PerStation StationRec) :
    (s.setStations v).now = s.now ∧ (s.setStations v).cfg = s.cfg ∧ (s.setStations v).enc = s.enc ∧
    (s.setStations v).web = s.web ∧ (s.setStations v).sched = s.sched ∧ (s.setStations v).stands = s.stands ∧
    (s.setStations v).stations = v ∧ (s.setStations v).remap = s.remap ∧ (s.setStations v).lanes = s.lanes ∧
    (s.setStations v).delivery = s.delivery ∧ (s.setStations v).gov = s.gov ∧ (s.setStations v).line = s.line ∧
    (s.setStations v).rest = s.rest ∧ (s.setStations v).emergencyStop = s.emergencyStop ∧
    (s.setStations v).accounts = s.accounts ∧ (s.setStations v).bank = s.bank ∧ (s.setStations v).link = s.link ∧
    (s.setStations v).notices = s.notices ∧ (s.setStations v).store = s.store ∧ (s.setStations v).issued = s.issued ∧
    (s.setStations v).evalDue = s.evalDue ∧ (s.setStations v).pending = s.pending := by
  and_intros <;> rfl

@[simp] theorem State.setRemap_fields (s : State) (v : Remap) :
    (s.setRemap v).now = s.now ∧ (s.setRemap v).cfg = s.cfg ∧ (s.setRemap v).enc = s.enc ∧ (s.setRemap v).web = s.web ∧
    (s.setRemap v).sched = s.sched ∧ (s.setRemap v).stands = s.stands ∧ (s.setRemap v).stations = s.stations ∧
    (s.setRemap v).remap = v ∧ (s.setRemap v).lanes = s.lanes ∧ (s.setRemap v).delivery = s.delivery ∧
    (s.setRemap v).gov = s.gov ∧ (s.setRemap v).line = s.line ∧ (s.setRemap v).rest = s.rest ∧
    (s.setRemap v).emergencyStop = s.emergencyStop ∧ (s.setRemap v).accounts = s.accounts ∧ (s.setRemap v).bank = s.bank ∧
    (s.setRemap v).link = s.link ∧ (s.setRemap v).notices = s.notices ∧ (s.setRemap v).store = s.store ∧
    (s.setRemap v).issued = s.issued ∧ (s.setRemap v).evalDue = s.evalDue ∧ (s.setRemap v).pending = s.pending := by
  and_intros <;> rfl

@[simp] theorem State.setLanes_fields (s : State) (v : PerLane LaneRec) :
    (s.setLanes v).now = s.now ∧ (s.setLanes v).cfg = s.cfg ∧ (s.setLanes v).enc = s.enc ∧ (s.setLanes v).web = s.web ∧
    (s.setLanes v).sched = s.sched ∧ (s.setLanes v).stands = s.stands ∧ (s.setLanes v).stations = s.stations ∧
    (s.setLanes v).remap = s.remap ∧ (s.setLanes v).lanes = v ∧ (s.setLanes v).delivery = s.delivery ∧
    (s.setLanes v).gov = s.gov ∧ (s.setLanes v).line = s.line ∧ (s.setLanes v).rest = s.rest ∧
    (s.setLanes v).emergencyStop = s.emergencyStop ∧ (s.setLanes v).accounts = s.accounts ∧ (s.setLanes v).bank = s.bank ∧
    (s.setLanes v).link = s.link ∧ (s.setLanes v).notices = s.notices ∧ (s.setLanes v).store = s.store ∧
    (s.setLanes v).issued = s.issued ∧ (s.setLanes v).evalDue = s.evalDue ∧ (s.setLanes v).pending = s.pending := by
  and_intros <;> rfl

@[simp] theorem State.setDelivery_fields (s : State) (v : PerLane DeliveryRec) :
    (s.setDelivery v).now = s.now ∧ (s.setDelivery v).cfg = s.cfg ∧ (s.setDelivery v).enc = s.enc ∧
    (s.setDelivery v).web = s.web ∧ (s.setDelivery v).sched = s.sched ∧ (s.setDelivery v).stands = s.stands ∧
    (s.setDelivery v).stations = s.stations ∧ (s.setDelivery v).remap = s.remap ∧ (s.setDelivery v).lanes = s.lanes ∧
    (s.setDelivery v).delivery = v ∧ (s.setDelivery v).gov = s.gov ∧ (s.setDelivery v).line = s.line ∧
    (s.setDelivery v).rest = s.rest ∧ (s.setDelivery v).emergencyStop = s.emergencyStop ∧
    (s.setDelivery v).accounts = s.accounts ∧ (s.setDelivery v).bank = s.bank ∧ (s.setDelivery v).link = s.link ∧
    (s.setDelivery v).notices = s.notices ∧ (s.setDelivery v).store = s.store ∧ (s.setDelivery v).issued = s.issued ∧
    (s.setDelivery v).evalDue = s.evalDue ∧ (s.setDelivery v).pending = s.pending := by
  and_intros <;> rfl

@[simp] theorem State.setGov_fields (s : State) (v : Governor) :
    (s.setGov v).now = s.now ∧ (s.setGov v).cfg = s.cfg ∧ (s.setGov v).enc = s.enc ∧ (s.setGov v).web = s.web ∧
    (s.setGov v).sched = s.sched ∧ (s.setGov v).stands = s.stands ∧ (s.setGov v).stations = s.stations ∧
    (s.setGov v).remap = s.remap ∧ (s.setGov v).lanes = s.lanes ∧ (s.setGov v).delivery = s.delivery ∧
    (s.setGov v).gov = v ∧ (s.setGov v).line = s.line ∧ (s.setGov v).rest = s.rest ∧
    (s.setGov v).emergencyStop = s.emergencyStop ∧ (s.setGov v).accounts = s.accounts ∧ (s.setGov v).bank = s.bank ∧
    (s.setGov v).link = s.link ∧ (s.setGov v).notices = s.notices ∧ (s.setGov v).store = s.store ∧
    (s.setGov v).issued = s.issued ∧ (s.setGov v).evalDue = s.evalDue ∧ (s.setGov v).pending = s.pending := by
  and_intros <;> rfl

@[simp] theorem State.setLine_fields (s : State) (v : LineCond) :
    (s.setLine v).now = s.now ∧ (s.setLine v).cfg = s.cfg ∧ (s.setLine v).enc = s.enc ∧ (s.setLine v).web = s.web ∧
    (s.setLine v).sched = s.sched ∧ (s.setLine v).stands = s.stands ∧ (s.setLine v).stations = s.stations ∧
    (s.setLine v).remap = s.remap ∧ (s.setLine v).lanes = s.lanes ∧ (s.setLine v).delivery = s.delivery ∧
    (s.setLine v).gov = s.gov ∧ (s.setLine v).line = v ∧ (s.setLine v).rest = s.rest ∧
    (s.setLine v).emergencyStop = s.emergencyStop ∧ (s.setLine v).accounts = s.accounts ∧ (s.setLine v).bank = s.bank ∧
    (s.setLine v).link = s.link ∧ (s.setLine v).notices = s.notices ∧ (s.setLine v).store = s.store ∧
    (s.setLine v).issued = s.issued ∧ (s.setLine v).evalDue = s.evalDue ∧ (s.setLine v).pending = s.pending := by
  and_intros <;> rfl

@[simp] theorem State.setRest_fields (s : State) (v : RestDetector) :
    (s.setRest v).now = s.now ∧ (s.setRest v).cfg = s.cfg ∧ (s.setRest v).enc = s.enc ∧ (s.setRest v).web = s.web ∧
    (s.setRest v).sched = s.sched ∧ (s.setRest v).stands = s.stands ∧ (s.setRest v).stations = s.stations ∧
    (s.setRest v).remap = s.remap ∧ (s.setRest v).lanes = s.lanes ∧ (s.setRest v).delivery = s.delivery ∧
    (s.setRest v).gov = s.gov ∧ (s.setRest v).line = s.line ∧ (s.setRest v).rest = v ∧
    (s.setRest v).emergencyStop = s.emergencyStop ∧ (s.setRest v).accounts = s.accounts ∧ (s.setRest v).bank = s.bank ∧
    (s.setRest v).link = s.link ∧ (s.setRest v).notices = s.notices ∧ (s.setRest v).store = s.store ∧
    (s.setRest v).issued = s.issued ∧ (s.setRest v).evalDue = s.evalDue ∧ (s.setRest v).pending = s.pending := by
  and_intros <;> rfl

@[simp] theorem State.setEmergencyStop_fields (s : State) (v : Bool) :
    (s.setEmergencyStop v).now = s.now ∧ (s.setEmergencyStop v).cfg = s.cfg ∧ (s.setEmergencyStop v).enc = s.enc ∧
    (s.setEmergencyStop v).web = s.web ∧ (s.setEmergencyStop v).sched = s.sched ∧
    (s.setEmergencyStop v).stands = s.stands ∧ (s.setEmergencyStop v).stations = s.stations ∧
    (s.setEmergencyStop v).remap = s.remap ∧ (s.setEmergencyStop v).lanes = s.lanes ∧
    (s.setEmergencyStop v).delivery = s.delivery ∧ (s.setEmergencyStop v).gov = s.gov ∧
    (s.setEmergencyStop v).line = s.line ∧ (s.setEmergencyStop v).rest = s.rest ∧
    (s.setEmergencyStop v).emergencyStop = v ∧ (s.setEmergencyStop v).accounts = s.accounts ∧
    (s.setEmergencyStop v).bank = s.bank ∧ (s.setEmergencyStop v).link = s.link ∧
    (s.setEmergencyStop v).notices = s.notices ∧ (s.setEmergencyStop v).store = s.store ∧
    (s.setEmergencyStop v).issued = s.issued ∧ (s.setEmergencyStop v).evalDue = s.evalDue ∧
    (s.setEmergencyStop v).pending = s.pending := by
  and_intros <;> rfl

@[simp] theorem State.setAccounts_fields (s : State) (v : Accounts) :
    (s.setAccounts v).now = s.now ∧ (s.setAccounts v).cfg = s.cfg ∧ (s.setAccounts v).enc = s.enc ∧
    (s.setAccounts v).web = s.web ∧ (s.setAccounts v).sched = s.sched ∧ (s.setAccounts v).stands = s.stands ∧
    (s.setAccounts v).stations = s.stations ∧ (s.setAccounts v).remap = s.remap ∧ (s.setAccounts v).lanes = s.lanes ∧
    (s.setAccounts v).delivery = s.delivery ∧ (s.setAccounts v).gov = s.gov ∧ (s.setAccounts v).line = s.line ∧
    (s.setAccounts v).rest = s.rest ∧ (s.setAccounts v).emergencyStop = s.emergencyStop ∧ (s.setAccounts v).accounts = v ∧
    (s.setAccounts v).bank = s.bank ∧ (s.setAccounts v).link = s.link ∧ (s.setAccounts v).notices = s.notices ∧
    (s.setAccounts v).store = s.store ∧ (s.setAccounts v).issued = s.issued ∧ (s.setAccounts v).evalDue = s.evalDue ∧
    (s.setAccounts v).pending = s.pending := by
  and_intros <;> rfl

@[simp] theorem State.setBank_fields (s : State) (v : Bank) :
    (s.setBank v).now = s.now ∧ (s.setBank v).cfg = s.cfg ∧ (s.setBank v).enc = s.enc ∧ (s.setBank v).web = s.web ∧
    (s.setBank v).sched = s.sched ∧ (s.setBank v).stands = s.stands ∧ (s.setBank v).stations = s.stations ∧
    (s.setBank v).remap = s.remap ∧ (s.setBank v).lanes = s.lanes ∧ (s.setBank v).delivery = s.delivery ∧
    (s.setBank v).gov = s.gov ∧ (s.setBank v).line = s.line ∧ (s.setBank v).rest = s.rest ∧
    (s.setBank v).emergencyStop = s.emergencyStop ∧ (s.setBank v).accounts = s.accounts ∧ (s.setBank v).bank = v ∧
    (s.setBank v).link = s.link ∧ (s.setBank v).notices = s.notices ∧ (s.setBank v).store = s.store ∧
    (s.setBank v).issued = s.issued ∧ (s.setBank v).evalDue = s.evalDue ∧ (s.setBank v).pending = s.pending := by
  and_intros <;> rfl

@[simp] theorem State.setLink_fields (s : State) (v : Link) :
    (s.setLink v).now = s.now ∧ (s.setLink v).cfg = s.cfg ∧ (s.setLink v).enc = s.enc ∧ (s.setLink v).web = s.web ∧
    (s.setLink v).sched = s.sched ∧ (s.setLink v).stands = s.stands ∧ (s.setLink v).stations = s.stations ∧
    (s.setLink v).remap = s.remap ∧ (s.setLink v).lanes = s.lanes ∧ (s.setLink v).delivery = s.delivery ∧
    (s.setLink v).gov = s.gov ∧ (s.setLink v).line = s.line ∧ (s.setLink v).rest = s.rest ∧
    (s.setLink v).emergencyStop = s.emergencyStop ∧ (s.setLink v).accounts = s.accounts ∧ (s.setLink v).bank = s.bank ∧
    (s.setLink v).link = v ∧ (s.setLink v).notices = s.notices ∧ (s.setLink v).store = s.store ∧
    (s.setLink v).issued = s.issued ∧ (s.setLink v).evalDue = s.evalDue ∧ (s.setLink v).pending = s.pending := by
  and_intros <;> rfl

@[simp] theorem State.setNotices_fields (s : State) (v : Notices) :
    (s.setNotices v).now = s.now ∧ (s.setNotices v).cfg = s.cfg ∧ (s.setNotices v).enc = s.enc ∧
    (s.setNotices v).web = s.web ∧ (s.setNotices v).sched = s.sched ∧ (s.setNotices v).stands = s.stands ∧
    (s.setNotices v).stations = s.stations ∧ (s.setNotices v).remap = s.remap ∧ (s.setNotices v).lanes = s.lanes ∧
    (s.setNotices v).delivery = s.delivery ∧ (s.setNotices v).gov = s.gov ∧ (s.setNotices v).line = s.line ∧
    (s.setNotices v).rest = s.rest ∧ (s.setNotices v).emergencyStop = s.emergencyStop ∧
    (s.setNotices v).accounts = s.accounts ∧ (s.setNotices v).bank = s.bank ∧ (s.setNotices v).link = s.link ∧
    (s.setNotices v).notices = v ∧ (s.setNotices v).store = s.store ∧ (s.setNotices v).issued = s.issued ∧
    (s.setNotices v).evalDue = s.evalDue ∧ (s.setNotices v).pending = s.pending := by
  and_intros <;> rfl

@[simp] theorem State.setStore_fields (s : State) (v : Store) :
    (s.setStore v).now = s.now ∧ (s.setStore v).cfg = s.cfg ∧ (s.setStore v).enc = s.enc ∧ (s.setStore v).web = s.web ∧
    (s.setStore v).sched = s.sched ∧ (s.setStore v).stands = s.stands ∧ (s.setStore v).stations = s.stations ∧
    (s.setStore v).remap = s.remap ∧ (s.setStore v).lanes = s.lanes ∧ (s.setStore v).delivery = s.delivery ∧
    (s.setStore v).gov = s.gov ∧ (s.setStore v).line = s.line ∧ (s.setStore v).rest = s.rest ∧
    (s.setStore v).emergencyStop = s.emergencyStop ∧ (s.setStore v).accounts = s.accounts ∧ (s.setStore v).bank = s.bank ∧
    (s.setStore v).link = s.link ∧ (s.setStore v).notices = s.notices ∧ (s.setStore v).store = v ∧
    (s.setStore v).issued = s.issued ∧ (s.setStore v).evalDue = s.evalDue ∧ (s.setStore v).pending = s.pending := by
  and_intros <;> rfl

@[simp] theorem State.setIssued_fields (s : State) (v : List Output) :
    (s.setIssued v).now = s.now ∧ (s.setIssued v).cfg = s.cfg ∧ (s.setIssued v).enc = s.enc ∧ (s.setIssued v).web = s.web ∧
    (s.setIssued v).sched = s.sched ∧ (s.setIssued v).stands = s.stands ∧ (s.setIssued v).stations = s.stations ∧
    (s.setIssued v).remap = s.remap ∧ (s.setIssued v).lanes = s.lanes ∧ (s.setIssued v).delivery = s.delivery ∧
    (s.setIssued v).gov = s.gov ∧ (s.setIssued v).line = s.line ∧ (s.setIssued v).rest = s.rest ∧
    (s.setIssued v).emergencyStop = s.emergencyStop ∧ (s.setIssued v).accounts = s.accounts ∧
    (s.setIssued v).bank = s.bank ∧ (s.setIssued v).link = s.link ∧ (s.setIssued v).notices = s.notices ∧
    (s.setIssued v).store = s.store ∧ (s.setIssued v).issued = v ∧ (s.setIssued v).evalDue = s.evalDue ∧
    (s.setIssued v).pending = s.pending := by
  and_intros <;> rfl

@[simp] theorem State.setEvalDue_fields (s : State) (v : Bool) :
    (s.setEvalDue v).now = s.now ∧ (s.setEvalDue v).cfg = s.cfg ∧ (s.setEvalDue v).enc = s.enc ∧
    (s.setEvalDue v).web = s.web ∧ (s.setEvalDue v).sched = s.sched ∧ (s.setEvalDue v).stands = s.stands ∧
    (s.setEvalDue v).stations = s.stations ∧ (s.setEvalDue v).remap = s.remap ∧ (s.setEvalDue v).lanes = s.lanes ∧
    (s.setEvalDue v).delivery = s.delivery ∧ (s.setEvalDue v).gov = s.gov ∧ (s.setEvalDue v).line = s.line ∧
    (s.setEvalDue v).rest = s.rest ∧ (s.setEvalDue v).emergencyStop = s.emergencyStop ∧
    (s.setEvalDue v).accounts = s.accounts ∧ (s.setEvalDue v).bank = s.bank ∧ (s.setEvalDue v).link = s.link ∧
    (s.setEvalDue v).notices = s.notices ∧ (s.setEvalDue v).store = s.store ∧ (s.setEvalDue v).issued = s.issued ∧
    (s.setEvalDue v).evalDue = v ∧ (s.setEvalDue v).pending = s.pending := by
  and_intros <;> rfl

end Sys2Proof.Machine
end

