-- ==== Sys2Proof/Laws/Frame.lean ====
section
/-! SUPPORT. The frame of every operation on the state: one equation for each field it cannot touch. Provers cite these and never
unfold an operation to see that it leaves a block alone. -/

namespace Sys2Proof.Machine

/-- A fold keeps what every step of it keeps. -/
theorem foldl_keeps {α β : Type} (p : State → β) (f : State → α → State) (h : ∀ s a, p (f s a) = p s) :
    ∀ (l : List α) (s : State), p (l.foldl f s) = p s
  | [], _ => rfl
  | a :: l, s => (foldl_keeps p f h l (f s a)).trans (h s a)

@[simp] theorem emit_frame (o : Output) (s : State) :
    (emit o s).now = s.now ∧ (emit o s).cfg = s.cfg ∧ (emit o s).enc = s.enc ∧ (emit o s).web = s.web ∧
    (emit o s).sched = s.sched ∧ (emit o s).stands = s.stands ∧ (emit o s).stations = s.stations ∧
    (emit o s).remap = s.remap ∧ (emit o s).lanes = s.lanes ∧ (emit o s).delivery = s.delivery ∧ (emit o s).gov = s.gov ∧
    (emit o s).line = s.line ∧ (emit o s).rest = s.rest ∧ (emit o s).emergencyStop = s.emergencyStop ∧
    (emit o s).accounts = s.accounts ∧ (emit o s).bank = s.bank ∧ (emit o s).link = s.link ∧
    (emit o s).notices = s.notices ∧ (emit o s).store = s.store ∧ (emit o s).evalDue = s.evalDue ∧
    (emit o s).pending = s.pending := by
  simp [emit]

@[simp] theorem needEvaluation_frame (s : State) :
    (needEvaluation s).now = s.now ∧ (needEvaluation s).cfg = s.cfg ∧ (needEvaluation s).enc = s.enc ∧
    (needEvaluation s).web = s.web ∧ (needEvaluation s).sched = s.sched ∧ (needEvaluation s).stands = s.stands ∧
    (needEvaluation s).stations = s.stations ∧ (needEvaluation s).remap = s.remap ∧ (needEvaluation s).lanes = s.lanes ∧
    (needEvaluation s).delivery = s.delivery ∧ (needEvaluation s).gov = s.gov ∧ (needEvaluation s).line = s.line ∧
    (needEvaluation s).rest = s.rest ∧ (needEvaluation s).emergencyStop = s.emergencyStop ∧
    (needEvaluation s).accounts = s.accounts ∧ (needEvaluation s).bank = s.bank ∧ (needEvaluation s).link = s.link ∧
    (needEvaluation s).notices = s.notices ∧ (needEvaluation s).store = s.store ∧ (needEvaluation s).issued = s.issued ∧
    (needEvaluation s).pending = s.pending := by
  simp [needEvaluation]

@[simp] theorem notice_frame (kind : Byte) (contents : List Byte) (s : State) :
    (notice kind contents s).now = s.now ∧ (notice kind contents s).cfg = s.cfg ∧ (notice kind contents s).enc = s.enc ∧
    (notice kind contents s).web = s.web ∧ (notice kind contents s).sched = s.sched ∧
    (notice kind contents s).stands = s.stands ∧ (notice kind contents s).stations = s.stations ∧
    (notice kind contents s).remap = s.remap ∧ (notice kind contents s).lanes = s.lanes ∧
    (notice kind contents s).delivery = s.delivery ∧ (notice kind contents s).gov = s.gov ∧
    (notice kind contents s).line = s.line ∧ (notice kind contents s).rest = s.rest ∧
    (notice kind contents s).emergencyStop = s.emergencyStop ∧ (notice kind contents s).accounts = s.accounts ∧
    (notice kind contents s).bank = s.bank ∧ (notice kind contents s).link = s.link ∧
    (notice kind contents s).store = s.store ∧ (notice kind contents s).issued = s.issued ∧
    (notice kind contents s).evalDue = s.evalDue ∧ (notice kind contents s).pending = s.pending := by
  simp [notice]

@[simp] theorem reachTime_frame (due : Nat) (s : State) :
    (reachTime due s).cfg = s.cfg ∧ (reachTime due s).enc = s.enc ∧ (reachTime due s).web = s.web ∧
    (reachTime due s).sched = s.sched ∧ (reachTime due s).stands = s.stands ∧ (reachTime due s).stations = s.stations ∧
    (reachTime due s).remap = s.remap ∧ (reachTime due s).lanes = s.lanes ∧ (reachTime due s).delivery = s.delivery ∧
    (reachTime due s).gov = s.gov ∧ (reachTime due s).line = s.line ∧ (reachTime due s).rest = s.rest ∧
    (reachTime due s).emergencyStop = s.emergencyStop ∧ (reachTime due s).accounts = s.accounts ∧
    (reachTime due s).bank = s.bank ∧ (reachTime due s).link = s.link ∧ (reachTime due s).notices = s.notices ∧
    (reachTime due s).store = s.store ∧ (reachTime due s).issued = s.issued ∧ (reachTime due s).evalDue = s.evalDue ∧
    (reachTime due s).pending = s.pending := by
  simp [reachTime]

@[simp] theorem updateOrder_frame (o : Nat) (f : OrderRec → OrderRec) (s : State) :
    (updateOrder o f s).now = s.now ∧ (updateOrder o f s).cfg = s.cfg ∧ (updateOrder o f s).enc = s.enc ∧
    (updateOrder o f s).web = s.web ∧ (updateOrder o f s).stands = s.stands ∧ (updateOrder o f s).stations = s.stations ∧
    (updateOrder o f s).remap = s.remap ∧ (updateOrder o f s).lanes = s.lanes ∧ (updateOrder o f s).delivery = s.delivery ∧
    (updateOrder o f s).gov = s.gov ∧ (updateOrder o f s).line = s.line ∧ (updateOrder o f s).rest = s.rest ∧
    (updateOrder o f s).emergencyStop = s.emergencyStop ∧ (updateOrder o f s).accounts = s.accounts ∧
    (updateOrder o f s).bank = s.bank ∧ (updateOrder o f s).link = s.link ∧ (updateOrder o f s).notices = s.notices ∧
    (updateOrder o f s).store = s.store ∧ (updateOrder o f s).issued = s.issued ∧ (updateOrder o f s).evalDue = s.evalDue ∧
    (updateOrder o f s).pending = s.pending := by
  simp [updateOrder]

@[simp] theorem updateSetup_frame (id : Nat) (f : Setup → Setup) (s : State) :
    (updateSetup id f s).now = s.now ∧ (updateSetup id f s).cfg = s.cfg ∧ (updateSetup id f s).enc = s.enc ∧
    (updateSetup id f s).web = s.web ∧ (updateSetup id f s).stands = s.stands ∧
    (updateSetup id f s).stations = s.stations ∧ (updateSetup id f s).remap = s.remap ∧
    (updateSetup id f s).lanes = s.lanes ∧ (updateSetup id f s).delivery = s.delivery ∧ (updateSetup id f s).gov = s.gov ∧
    (updateSetup id f s).line = s.line ∧ (updateSetup id f s).rest = s.rest ∧
    (updateSetup id f s).emergencyStop = s.emergencyStop ∧ (updateSetup id f s).accounts = s.accounts ∧
    (updateSetup id f s).bank = s.bank ∧ (updateSetup id f s).link = s.link ∧ (updateSetup id f s).notices = s.notices ∧
    (updateSetup id f s).store = s.store ∧ (updateSetup id f s).issued = s.issued ∧
    (updateSetup id f s).evalDue = s.evalDue ∧ (updateSetup id f s).pending = s.pending := by
  simp [updateSetup]

@[simp] theorem handOff_frame (inc : Fin 8 → Counter → Nat) (s : State) :
    (handOff inc s).now = s.now ∧ (handOff inc s).cfg = s.cfg ∧ (handOff inc s).enc = s.enc ∧ (handOff inc s).web = s.web ∧
    (handOff inc s).sched = s.sched ∧ (handOff inc s).stands = s.stands ∧ (handOff inc s).stations = s.stations ∧
    (handOff inc s).remap = s.remap ∧ (handOff inc s).lanes = s.lanes ∧ (handOff inc s).delivery = s.delivery ∧
    (handOff inc s).gov = s.gov ∧ (handOff inc s).line = s.line ∧ (handOff inc s).rest = s.rest ∧
    (handOff inc s).emergencyStop = s.emergencyStop ∧ (handOff inc s).accounts = s.accounts ∧
    (handOff inc s).link = s.link ∧ (handOff inc s).store = s.store ∧ (handOff inc s).issued = s.issued ∧
    (handOff inc s).evalDue = s.evalDue ∧ (handOff inc s).pending = s.pending := by
  simp only [handOff]
  (repeat' split) <;> simp

@[simp] theorem countEvent_frame (src : Source) (s : State) :
    (countEvent src s).now = s.now ∧ (countEvent src s).cfg = s.cfg ∧ (countEvent src s).enc = s.enc ∧
    (countEvent src s).web = s.web ∧ (countEvent src s).sched = s.sched ∧ (countEvent src s).stands = s.stands ∧
    (countEvent src s).stations = s.stations ∧ (countEvent src s).remap = s.remap ∧ (countEvent src s).lanes = s.lanes ∧
    (countEvent src s).delivery = s.delivery ∧ (countEvent src s).gov = s.gov ∧ (countEvent src s).line = s.line ∧
    (countEvent src s).rest = s.rest ∧ (countEvent src s).emergencyStop = s.emergencyStop ∧
    (countEvent src s).accounts = s.accounts ∧ (countEvent src s).link = s.link ∧ (countEvent src s).store = s.store ∧
    (countEvent src s).issued = s.issued ∧ (countEvent src s).evalDue = s.evalDue ∧
    (countEvent src s).pending = s.pending := by
  simp [countEvent]

@[simp] theorem countCut_frame (lane : Lane) (order : Option Nat) (cls : SheetClass) (outs : Nat) (length : Nat)
    (s : State) :
    (countCut lane order cls outs length s).now = s.now ∧ (countCut lane order cls outs length s).cfg = s.cfg ∧
    (countCut lane order cls outs length s).enc = s.enc ∧ (countCut lane order cls outs length s).web = s.web ∧
    (countCut lane order cls outs length s).sched = s.sched ∧ (countCut lane order cls outs length s).stands = s.stands ∧
    (countCut lane order cls outs length s).stations = s.stations ∧
    (countCut lane order cls outs length s).remap = s.remap ∧ (countCut lane order cls outs length s).lanes = s.lanes ∧
    (countCut lane order cls outs length s).delivery = s.delivery ∧ (countCut lane order cls outs length s).gov = s.gov ∧
    (countCut lane order cls outs length s).line = s.line ∧ (countCut lane order cls outs length s).rest = s.rest ∧
    (countCut lane order cls outs length s).emergencyStop = s.emergencyStop ∧
    (countCut lane order cls outs length s).accounts = s.accounts ∧ (countCut lane order cls outs length s).link = s.link ∧
    (countCut lane order cls outs length s).store = s.store ∧ (countCut lane order cls outs length s).issued = s.issued ∧
    (countCut lane order cls outs length s).evalDue = s.evalDue ∧
    (countCut lane order cls outs length s).pending = s.pending := by
  simp [countCut]

@[simp] theorem countDiverted_frame (lane : Lane) (order : Option Nat) (sheets : Nat) (s : State) :
    (countDiverted lane order sheets s).now = s.now ∧ (countDiverted lane order sheets s).cfg = s.cfg ∧
    (countDiverted lane order sheets s).enc = s.enc ∧ (countDiverted lane order sheets s).web = s.web ∧
    (countDiverted lane order sheets s).sched = s.sched ∧ (countDiverted lane order sheets s).stands = s.stands ∧
    (countDiverted lane order sheets s).stations = s.stations ∧ (countDiverted lane order sheets s).remap = s.remap ∧
    (countDiverted lane order sheets s).lanes = s.lanes ∧ (countDiverted lane order sheets s).delivery = s.delivery ∧
    (countDiverted lane order sheets s).gov = s.gov ∧ (countDiverted lane order sheets s).line = s.line ∧
    (countDiverted lane order sheets s).rest = s.rest ∧
    (countDiverted lane order sheets s).emergencyStop = s.emergencyStop ∧
    (countDiverted lane order sheets s).accounts = s.accounts ∧ (countDiverted lane order sheets s).link = s.link ∧
    (countDiverted lane order sheets s).store = s.store ∧ (countDiverted lane order sheets s).issued = s.issued ∧
    (countDiverted lane order sheets s).evalDue = s.evalDue ∧ (countDiverted lane order sheets s).pending = s.pending := by
  simp [countDiverted]

@[simp] theorem conditionsChanged_frame (s : State) :
    (conditionsChanged s).now = s.now ∧ (conditionsChanged s).cfg = s.cfg ∧ (conditionsChanged s).enc = s.enc ∧
    (conditionsChanged s).web = s.web ∧ (conditionsChanged s).sched = s.sched ∧ (conditionsChanged s).stands = s.stands ∧
    (conditionsChanged s).stations = s.stations ∧ (conditionsChanged s).remap = s.remap ∧
    (conditionsChanged s).lanes = s.lanes ∧ (conditionsChanged s).delivery = s.delivery ∧
    (conditionsChanged s).gov = s.gov ∧ (conditionsChanged s).line = s.line ∧ (conditionsChanged s).rest = s.rest ∧
    (conditionsChanged s).emergencyStop = s.emergencyStop ∧ (conditionsChanged s).accounts = s.accounts ∧
    (conditionsChanged s).link = s.link ∧ (conditionsChanged s).store = s.store ∧ (conditionsChanged s).issued = s.issued ∧
    (conditionsChanged s).evalDue = s.evalDue ∧ (conditionsChanged s).pending = s.pending := by
  simp [conditionsChanged]

@[simp] theorem countMillisecond_frame (s : State) :
    (countMillisecond s).now = s.now ∧ (countMillisecond s).cfg = s.cfg ∧ (countMillisecond s).enc = s.enc ∧
    (countMillisecond s).web = s.web ∧ (countMillisecond s).sched = s.sched ∧ (countMillisecond s).stands = s.stands ∧
    (countMillisecond s).stations = s.stations ∧ (countMillisecond s).remap = s.remap ∧
    (countMillisecond s).lanes = s.lanes ∧ (countMillisecond s).delivery = s.delivery ∧ (countMillisecond s).gov = s.gov ∧
    (countMillisecond s).line = s.line ∧ (countMillisecond s).rest = s.rest ∧
    (countMillisecond s).emergencyStop = s.emergencyStop ∧ (countMillisecond s).accounts = s.accounts ∧
    (countMillisecond s).link = s.link ∧ (countMillisecond s).store = s.store ∧ (countMillisecond s).issued = s.issued ∧
    (countMillisecond s).evalDue = s.evalDue ∧ (countMillisecond s).pending = s.pending := by
  simp [countMillisecond]

@[simp] theorem setStand_frame (i : Fin 6) (st : Stand) (s : State) :
    (setStand i st s).now = s.now ∧ (setStand i st s).cfg = s.cfg ∧ (setStand i st s).enc = s.enc ∧
    (setStand i st s).web = s.web ∧ (setStand i st s).sched = s.sched ∧ (setStand i st s).stations = s.stations ∧
    (setStand i st s).remap = s.remap ∧ (setStand i st s).lanes = s.lanes ∧ (setStand i st s).delivery = s.delivery ∧
    (setStand i st s).gov = s.gov ∧ (setStand i st s).line = s.line ∧ (setStand i st s).rest = s.rest ∧
    (setStand i st s).emergencyStop = s.emergencyStop ∧ (setStand i st s).accounts = s.accounts ∧
    (setStand i st s).link = s.link ∧ (setStand i st s).store = s.store ∧ (setStand i st s).issued = s.issued ∧
    (setStand i st s).pending = s.pending := by
  simp only [setStand]
  (repeat' split) <;> simp

@[simp] theorem setStation_frame (st : Station) (r : StationRec) (s : State) :
    (setStation st r s).now = s.now ∧ (setStation st r s).cfg = s.cfg ∧ (setStation st r s).enc = s.enc ∧
    (setStation st r s).web = s.web ∧ (setStation st r s).sched = s.sched ∧ (setStation st r s).stands = s.stands ∧
    (setStation st r s).remap = s.remap ∧ (setStation st r s).lanes = s.lanes ∧ (setStation st r s).delivery = s.delivery ∧
    (setStation st r s).gov = s.gov ∧ (setStation st r s).line = s.line ∧ (setStation st r s).rest = s.rest ∧
    (setStation st r s).emergencyStop = s.emergencyStop ∧ (setStation st r s).accounts = s.accounts ∧
    (setStation st r s).bank = s.bank ∧ (setStation st r s).link = s.link ∧ (setStation st r s).notices = s.notices ∧
    (setStation st r s).store = s.store ∧ (setStation st r s).issued = s.issued ∧
    (setStation st r s).pending = s.pending := by
  simp [setStation]

@[simp] theorem setLane_frame (lane : Lane) (r : LaneRec) (s : State) :
    (setLane lane r s).now = s.now ∧ (setLane lane r s).cfg = s.cfg ∧ (setLane lane r s).enc = s.enc ∧
    (setLane lane r s).web = s.web ∧ (setLane lane r s).sched = s.sched ∧ (setLane lane r s).stands = s.stands ∧
    (setLane lane r s).stations = s.stations ∧ (setLane lane r s).remap = s.remap ∧
    (setLane lane r s).delivery = s.delivery ∧ (setLane lane r s).gov = s.gov ∧ (setLane lane r s).line = s.line ∧
    (setLane lane r s).rest = s.rest ∧ (setLane lane r s).emergencyStop = s.emergencyStop ∧
    (setLane lane r s).accounts = s.accounts ∧ (setLane lane r s).bank = s.bank ∧ (setLane lane r s).link = s.link ∧
    (setLane lane r s).notices = s.notices ∧ (setLane lane r s).store = s.store ∧ (setLane lane r s).issued = s.issued ∧
    (setLane lane r s).pending = s.pending := by
  simp [setLane]

@[simp] theorem setDelivery_frame (lane : Lane) (r : DeliveryRec) (s : State) :
    (setDelivery lane r s).now = s.now ∧ (setDelivery lane r s).cfg = s.cfg ∧ (setDelivery lane r s).enc = s.enc ∧
    (setDelivery lane r s).web = s.web ∧ (setDelivery lane r s).sched = s.sched ∧
    (setDelivery lane r s).stands = s.stands ∧ (setDelivery lane r s).stations = s.stations ∧
    (setDelivery lane r s).remap = s.remap ∧ (setDelivery lane r s).lanes = s.lanes ∧ (setDelivery lane r s).gov = s.gov ∧
    (setDelivery lane r s).line = s.line ∧ (setDelivery lane r s).rest = s.rest ∧
    (setDelivery lane r s).emergencyStop = s.emergencyStop ∧ (setDelivery lane r s).accounts = s.accounts ∧
    (setDelivery lane r s).link = s.link ∧ (setDelivery lane r s).store = s.store ∧
    (setDelivery lane r s).issued = s.issued ∧ (setDelivery lane r s).pending = s.pending := by
  simp only [setDelivery]
  (repeat' split) <;> simp

@[simp] theorem setCondition_frame (c : Condition) (s : State) :
    (setCondition c s).now = s.now ∧ (setCondition c s).cfg = s.cfg ∧ (setCondition c s).enc = s.enc ∧
    (setCondition c s).web = s.web ∧ (setCondition c s).sched = s.sched ∧ (setCondition c s).stands = s.stands ∧
    (setCondition c s).stations = s.stations ∧ (setCondition c s).remap = s.remap ∧ (setCondition c s).lanes = s.lanes ∧
    (setCondition c s).delivery = s.delivery ∧ (setCondition c s).gov = s.gov ∧ (setCondition c s).rest = s.rest ∧
    (setCondition c s).emergencyStop = s.emergencyStop ∧ (setCondition c s).accounts = s.accounts ∧
    (setCondition c s).link = s.link ∧ (setCondition c s).store = s.store ∧ (setCondition c s).issued = s.issued ∧
    (setCondition c s).pending = s.pending := by
  simp only [setCondition]
  (repeat' split) <;> simp

@[simp] theorem startChange_frame (lane : Lane) (cause : ChangeCause) (s : State) :
    (startChange lane cause s).now = s.now ∧ (startChange lane cause s).cfg = s.cfg ∧
    (startChange lane cause s).enc = s.enc ∧ (startChange lane cause s).web = s.web ∧
    (startChange lane cause s).sched = s.sched ∧ (startChange lane cause s).stands = s.stands ∧
    (startChange lane cause s).stations = s.stations ∧ (startChange lane cause s).remap = s.remap ∧
    (startChange lane cause s).lanes = s.lanes ∧ (startChange lane cause s).gov = s.gov ∧
    (startChange lane cause s).line = s.line ∧ (startChange lane cause s).rest = s.rest ∧
    (startChange lane cause s).emergencyStop = s.emergencyStop ∧ (startChange lane cause s).accounts = s.accounts ∧
    (startChange lane cause s).link = s.link ∧ (startChange lane cause s).store = s.store ∧
    (startChange lane cause s).pending = s.pending := by
  simp [startChange]

@[simp] theorem closingChange_frame (o : Nat) (lane : Lane) (s : State) :
    (closingChange o lane s).now = s.now ∧ (closingChange o lane s).cfg = s.cfg ∧ (closingChange o lane s).enc = s.enc ∧
    (closingChange o lane s).web = s.web ∧ (closingChange o lane s).sched = s.sched ∧
    (closingChange o lane s).stands = s.stands ∧ (closingChange o lane s).stations = s.stations ∧
    (closingChange o lane s).remap = s.remap ∧ (closingChange o lane s).lanes = s.lanes ∧
    (closingChange o lane s).gov = s.gov ∧ (closingChange o lane s).line = s.line ∧
    (closingChange o lane s).rest = s.rest ∧ (closingChange o lane s).emergencyStop = s.emergencyStop ∧
    (closingChange o lane s).accounts = s.accounts ∧ (closingChange o lane s).link = s.link ∧
    (closingChange o lane s).store = s.store ∧ (closingChange o lane s).pending = s.pending := by
  simp only [closingChange]
  (repeat' split) <;> simp

@[simp] theorem closeOrder_frame (r : OrderRec) (s : State) :
    (closeOrder r s).now = s.now ∧ (closeOrder r s).cfg = s.cfg ∧ (closeOrder r s).enc = s.enc ∧
    (closeOrder r s).web = s.web ∧ (closeOrder r s).stands = s.stands ∧ (closeOrder r s).stations = s.stations ∧
    (closeOrder r s).remap = s.remap ∧ (closeOrder r s).lanes = s.lanes ∧ (closeOrder r s).gov = s.gov ∧
    (closeOrder r s).line = s.line ∧ (closeOrder r s).rest = s.rest ∧ (closeOrder r s).emergencyStop = s.emergencyStop ∧
    (closeOrder r s).accounts = s.accounts ∧ (closeOrder r s).link = s.link ∧ (closeOrder r s).store = s.store ∧
    (closeOrder r s).pending = s.pending := by
  simp [closeOrder]

@[simp] theorem closureTest_frame (o : Nat) (s : State) :
    (closureTest o s).now = s.now ∧ (closureTest o s).cfg = s.cfg ∧ (closureTest o s).enc = s.enc ∧
    (closureTest o s).web = s.web ∧ (closureTest o s).stands = s.stands ∧ (closureTest o s).stations = s.stations ∧
    (closureTest o s).remap = s.remap ∧ (closureTest o s).lanes = s.lanes ∧ (closureTest o s).gov = s.gov ∧
    (closureTest o s).line = s.line ∧ (closureTest o s).rest = s.rest ∧ (closureTest o s).emergencyStop = s.emergencyStop ∧
    (closureTest o s).accounts = s.accounts ∧ (closureTest o s).link = s.link ∧ (closureTest o s).store = s.store ∧
    (closureTest o s).pending = s.pending := by
  simp only [closureTest]
  (repeat' split) <;> simp

@[simp] theorem closureTests_frame (os : List Nat) (s : State) :
    (closureTests os s).now = s.now ∧ (closureTests os s).cfg = s.cfg ∧ (closureTests os s).enc = s.enc ∧
    (closureTests os s).web = s.web ∧ (closureTests os s).stands = s.stands ∧ (closureTests os s).stations = s.stations ∧
    (closureTests os s).remap = s.remap ∧ (closureTests os s).lanes = s.lanes ∧ (closureTests os s).gov = s.gov ∧
    (closureTests os s).line = s.line ∧ (closureTests os s).rest = s.rest ∧
    (closureTests os s).emergencyStop = s.emergencyStop ∧ (closureTests os s).accounts = s.accounts ∧
    (closureTests os s).link = s.link ∧ (closureTests os s).store = s.store ∧ (closureTests os s).pending = s.pending := by
  have k := fun {β : Type} (p : State → β) (h : ∀ s a, p (closureTest a s) = p s) =>
    foldl_keeps p (fun s a => closureTest a s) h os s
  exact ⟨k State.now (by simp), k State.cfg (by simp), k State.enc (by simp), k State.web (by simp),
    k State.stands (by simp), k State.stations (by simp), k State.remap (by simp), k State.lanes (by simp),
    k State.gov (by simp), k State.line (by simp), k State.rest (by simp), k State.emergencyStop (by simp),
    k State.accounts (by simp), k State.link (by simp), k State.store (by simp), k State.pending (by simp)⟩

@[simp] theorem feedOrder_frame (o : Nat) (s : State) :
    (feedOrder o s).now = s.now ∧ (feedOrder o s).cfg = s.cfg ∧ (feedOrder o s).enc = s.enc ∧ (feedOrder o s).web = s.web ∧
    (feedOrder o s).stands = s.stands ∧ (feedOrder o s).stations = s.stations ∧ (feedOrder o s).remap = s.remap ∧
    (feedOrder o s).lanes = s.lanes ∧ (feedOrder o s).gov = s.gov ∧ (feedOrder o s).line = s.line ∧
    (feedOrder o s).rest = s.rest ∧ (feedOrder o s).emergencyStop = s.emergencyStop ∧
    (feedOrder o s).accounts = s.accounts ∧ (feedOrder o s).link = s.link ∧ (feedOrder o s).store = s.store ∧
    (feedOrder o s).pending = s.pending := by
  simp only [feedOrder]
  (repeat' split) <;> simp

@[simp] theorem feedOrders_frame (os : List Nat) (s : State) :
    (feedOrders os s).now = s.now ∧ (feedOrders os s).cfg = s.cfg ∧ (feedOrders os s).enc = s.enc ∧
    (feedOrders os s).web = s.web ∧ (feedOrders os s).stands = s.stands ∧ (feedOrders os s).stations = s.stations ∧
    (feedOrders os s).remap = s.remap ∧ (feedOrders os s).lanes = s.lanes ∧ (feedOrders os s).gov = s.gov ∧
    (feedOrders os s).line = s.line ∧ (feedOrders os s).rest = s.rest ∧ (feedOrders os s).emergencyStop = s.emergencyStop ∧
    (feedOrders os s).accounts = s.accounts ∧ (feedOrders os s).link = s.link ∧ (feedOrders os s).store = s.store ∧
    (feedOrders os s).pending = s.pending := by
  have k := fun {β : Type} (p : State → β) (h : ∀ s a, p (feedOrder a s) = p s) =>
    foldl_keeps p (fun s a => feedOrder a s) h os s
  exact ⟨k State.now (by simp), k State.cfg (by simp), k State.enc (by simp), k State.web (by simp),
    k State.stands (by simp), k State.stations (by simp), k State.remap (by simp), k State.lanes (by simp),
    k State.gov (by simp), k State.line (by simp), k State.rest (by simp), k State.emergencyStop (by simp),
    k State.accounts (by simp), k State.link (by simp), k State.store (by simp), k State.pending (by simp)⟩

@[simp] theorem firingTest_frame (i : Fin 6) (s : State) :
    (firingTest i s).now = s.now ∧ (firingTest i s).cfg = s.cfg ∧ (firingTest i s).enc = s.enc ∧
    (firingTest i s).web = s.web ∧ (firingTest i s).sched = s.sched ∧ (firingTest i s).stations = s.stations ∧
    (firingTest i s).remap = s.remap ∧ (firingTest i s).lanes = s.lanes ∧ (firingTest i s).delivery = s.delivery ∧
    (firingTest i s).gov = s.gov ∧ (firingTest i s).line = s.line ∧ (firingTest i s).rest = s.rest ∧
    (firingTest i s).emergencyStop = s.emergencyStop ∧ (firingTest i s).accounts = s.accounts ∧
    (firingTest i s).link = s.link ∧ (firingTest i s).store = s.store ∧ (firingTest i s).pending = s.pending := by
  simp only [firingTest]
  (repeat' split) <;> simp

@[simp] theorem armingTest_frame (i : Fin 6) (s : State) :
    (armingTest i s).now = s.now ∧ (armingTest i s).cfg = s.cfg ∧ (armingTest i s).enc = s.enc ∧
    (armingTest i s).web = s.web ∧ (armingTest i s).sched = s.sched ∧ (armingTest i s).stations = s.stations ∧
    (armingTest i s).remap = s.remap ∧ (armingTest i s).lanes = s.lanes ∧ (armingTest i s).delivery = s.delivery ∧
    (armingTest i s).gov = s.gov ∧ (armingTest i s).line = s.line ∧ (armingTest i s).rest = s.rest ∧
    (armingTest i s).emergencyStop = s.emergencyStop ∧ (armingTest i s).accounts = s.accounts ∧
    (armingTest i s).link = s.link ∧ (armingTest i s).store = s.store ∧ (armingTest i s).pending = s.pending := by
  simp only [armingTest]
  (repeat' split) <;> simp

@[simp] theorem planStand_frame (i : Fin 6) (s : State) :
    (planStand i s).now = s.now ∧ (planStand i s).cfg = s.cfg ∧ (planStand i s).enc = s.enc ∧ (planStand i s).web = s.web ∧
    (planStand i s).sched = s.sched ∧ (planStand i s).stations = s.stations ∧ (planStand i s).remap = s.remap ∧
    (planStand i s).lanes = s.lanes ∧ (planStand i s).delivery = s.delivery ∧ (planStand i s).gov = s.gov ∧
    (planStand i s).line = s.line ∧ (planStand i s).rest = s.rest ∧ (planStand i s).emergencyStop = s.emergencyStop ∧
    (planStand i s).accounts = s.accounts ∧ (planStand i s).link = s.link ∧ (planStand i s).store = s.store ∧
    (planStand i s).pending = s.pending := by
  simp only [planStand]
  (repeat' split) <;> simp

@[simp] theorem replanAll_frame (s : State) :
    (replanAll s).now = s.now ∧ (replanAll s).cfg = s.cfg ∧ (replanAll s).enc = s.enc ∧ (replanAll s).web = s.web ∧
    (replanAll s).sched = s.sched ∧ (replanAll s).stations = s.stations ∧ (replanAll s).remap = s.remap ∧
    (replanAll s).lanes = s.lanes ∧ (replanAll s).delivery = s.delivery ∧ (replanAll s).gov = s.gov ∧
    (replanAll s).line = s.line ∧ (replanAll s).rest = s.rest ∧ (replanAll s).emergencyStop = s.emergencyStop ∧
    (replanAll s).accounts = s.accounts ∧ (replanAll s).link = s.link ∧ (replanAll s).store = s.store ∧
    (replanAll s).pending = s.pending := by
  have k := fun {β : Type} (p : State → β) (h : ∀ s a, p (planStand a s) = p s) =>
    foldl_keeps p (fun s a => planStand a s) h slots s
  exact ⟨k State.now (by simp), k State.cfg (by simp), k State.enc (by simp), k State.web (by simp),
    k State.sched (by simp), k State.stations (by simp), k State.remap (by simp), k State.lanes (by simp),
    k State.delivery (by simp), k State.gov (by simp), k State.line (by simp), k State.rest (by simp),
    k State.emergencyStop (by simp), k State.accounts (by simp), k State.link (by simp), k State.store (by simp),
    k State.pending (by simp)⟩

@[simp] theorem lowTest_frame (i : Fin 6) (s : State) :
    (lowTest i s).now = s.now ∧ (lowTest i s).cfg = s.cfg ∧ (lowTest i s).enc = s.enc ∧ (lowTest i s).web = s.web ∧
    (lowTest i s).sched = s.sched ∧ (lowTest i s).stations = s.stations ∧ (lowTest i s).remap = s.remap ∧
    (lowTest i s).lanes = s.lanes ∧ (lowTest i s).delivery = s.delivery ∧ (lowTest i s).gov = s.gov ∧
    (lowTest i s).line = s.line ∧ (lowTest i s).rest = s.rest ∧ (lowTest i s).emergencyStop = s.emergencyStop ∧
    (lowTest i s).accounts = s.accounts ∧ (lowTest i s).link = s.link ∧ (lowTest i s).store = s.store ∧
    (lowTest i s).issued = s.issued ∧ (lowTest i s).pending = s.pending := by
  simp only [lowTest]
  (repeat' split) <;> simp

@[simp] theorem placeMark_frame (m : Mark) (s : State) :
    (placeMark m s).now = s.now ∧ (placeMark m s).cfg = s.cfg ∧ (placeMark m s).enc = s.enc ∧
    (placeMark m s).sched = s.sched ∧ (placeMark m s).stands = s.stands ∧ (placeMark m s).stations = s.stations ∧
    (placeMark m s).remap = s.remap ∧ (placeMark m s).lanes = s.lanes ∧ (placeMark m s).delivery = s.delivery ∧
    (placeMark m s).gov = s.gov ∧ (placeMark m s).line = s.line ∧ (placeMark m s).rest = s.rest ∧
    (placeMark m s).emergencyStop = s.emergencyStop ∧ (placeMark m s).accounts = s.accounts ∧
    (placeMark m s).bank = s.bank ∧ (placeMark m s).link = s.link ∧ (placeMark m s).notices = s.notices ∧
    (placeMark m s).store = s.store ∧ (placeMark m s).issued = s.issued ∧ (placeMark m s).evalDue = s.evalDue ∧
    (placeMark m s).pending = s.pending := by
  simp [placeMark]

@[simp] theorem enterRunChange_frame (pos : Nat) (trail : Nat) (setup : Nat) (s : State) :
    (enterRunChange pos trail setup s).now = s.now ∧ (enterRunChange pos trail setup s).cfg = s.cfg ∧
    (enterRunChange pos trail setup s).enc = s.enc ∧ (enterRunChange pos trail setup s).sched = s.sched ∧
    (enterRunChange pos trail setup s).stands = s.stands ∧ (enterRunChange pos trail setup s).stations = s.stations ∧
    (enterRunChange pos trail setup s).remap = s.remap ∧ (enterRunChange pos trail setup s).lanes = s.lanes ∧
    (enterRunChange pos trail setup s).delivery = s.delivery ∧ (enterRunChange pos trail setup s).gov = s.gov ∧
    (enterRunChange pos trail setup s).rest = s.rest ∧ (enterRunChange pos trail setup s).emergencyStop = s.emergencyStop ∧
    (enterRunChange pos trail setup s).accounts = s.accounts ∧ (enterRunChange pos trail setup s).bank = s.bank ∧
    (enterRunChange pos trail setup s).link = s.link ∧ (enterRunChange pos trail setup s).notices = s.notices ∧
    (enterRunChange pos trail setup s).store = s.store ∧ (enterRunChange pos trail setup s).issued = s.issued ∧
    (enterRunChange pos trail setup s).pending = s.pending := by
  simp only [enterRunChange]
  (repeat' split) <;> simp

@[simp] theorem raisePlanned_frame (k : Nat) (s : State) :
    (raisePlanned k s).now = s.now ∧ (raisePlanned k s).cfg = s.cfg ∧ (raisePlanned k s).enc = s.enc ∧
    (raisePlanned k s).web = s.web ∧ (raisePlanned k s).stations = s.stations ∧ (raisePlanned k s).remap = s.remap ∧
    (raisePlanned k s).lanes = s.lanes ∧ (raisePlanned k s).delivery = s.delivery ∧ (raisePlanned k s).gov = s.gov ∧
    (raisePlanned k s).line = s.line ∧ (raisePlanned k s).rest = s.rest ∧
    (raisePlanned k s).emergencyStop = s.emergencyStop ∧ (raisePlanned k s).accounts = s.accounts ∧
    (raisePlanned k s).link = s.link ∧ (raisePlanned k s).store = s.store ∧ (raisePlanned k s).pending = s.pending := by
  simp only [raisePlanned]
  (repeat' split) <;> simp

@[simp] theorem noteExtension_frame (m : Mark) (q : Bool) (s : State) :
    (noteExtension m q s).now = s.now ∧ (noteExtension m q s).cfg = s.cfg ∧ (noteExtension m q s).enc = s.enc ∧
    (noteExtension m q s).web = s.web ∧ (noteExtension m q s).stands = s.stands ∧
    (noteExtension m q s).stations = s.stations ∧ (noteExtension m q s).remap = s.remap ∧
    (noteExtension m q s).lanes = s.lanes ∧ (noteExtension m q s).delivery = s.delivery ∧
    (noteExtension m q s).gov = s.gov ∧ (noteExtension m q s).line = s.line ∧ (noteExtension m q s).rest = s.rest ∧
    (noteExtension m q s).emergencyStop = s.emergencyStop ∧ (noteExtension m q s).accounts = s.accounts ∧
    (noteExtension m q s).bank = s.bank ∧ (noteExtension m q s).link = s.link ∧ (noteExtension m q s).notices = s.notices ∧
    (noteExtension m q s).store = s.store ∧ (noteExtension m q s).issued = s.issued ∧
    (noteExtension m q s).evalDue = s.evalDue ∧ (noteExtension m q s).pending = s.pending := by
  simp only [noteExtension]
  (repeat' split) <;> simp

@[simp] theorem enterReject_frame (m : Mark) (s : State) :
    (enterReject m s).now = s.now ∧ (enterReject m s).cfg = s.cfg ∧ (enterReject m s).enc = s.enc ∧
    (enterReject m s).stations = s.stations ∧ (enterReject m s).remap = s.remap ∧ (enterReject m s).lanes = s.lanes ∧
    (enterReject m s).delivery = s.delivery ∧ (enterReject m s).gov = s.gov ∧ (enterReject m s).line = s.line ∧
    (enterReject m s).rest = s.rest ∧ (enterReject m s).emergencyStop = s.emergencyStop ∧ (enterReject m s).link = s.link ∧
    (enterReject m s).store = s.store ∧ (enterReject m s).pending = s.pending := by
  simp only [enterReject]
  (repeat' split) <;> simp

@[simp] theorem takeFinalLength_frame (len : Nat) (s : State) :
    (takeFinalLength len s).now = s.now ∧ (takeFinalLength len s).cfg = s.cfg ∧ (takeFinalLength len s).enc = s.enc ∧
    (takeFinalLength len s).web = s.web ∧ (takeFinalLength len s).stations = s.stations ∧
    (takeFinalLength len s).remap = s.remap ∧ (takeFinalLength len s).lanes = s.lanes ∧
    (takeFinalLength len s).delivery = s.delivery ∧ (takeFinalLength len s).gov = s.gov ∧
    (takeFinalLength len s).line = s.line ∧ (takeFinalLength len s).rest = s.rest ∧
    (takeFinalLength len s).emergencyStop = s.emergencyStop ∧ (takeFinalLength len s).accounts = s.accounts ∧
    (takeFinalLength len s).link = s.link ∧ (takeFinalLength len s).store = s.store ∧
    (takeFinalLength len s).pending = s.pending := by
  simp only [takeFinalLength]
  (repeat' split) <;> simp

@[simp] theorem closeSensorDefect_frame (s : State) :
    (closeSensorDefect s).now = s.now ∧ (closeSensorDefect s).cfg = s.cfg ∧ (closeSensorDefect s).enc = s.enc ∧
    (closeSensorDefect s).stations = s.stations ∧ (closeSensorDefect s).remap = s.remap ∧
    (closeSensorDefect s).lanes = s.lanes ∧ (closeSensorDefect s).delivery = s.delivery ∧
    (closeSensorDefect s).gov = s.gov ∧ (closeSensorDefect s).line = s.line ∧ (closeSensorDefect s).rest = s.rest ∧
    (closeSensorDefect s).emergencyStop = s.emergencyStop ∧ (closeSensorDefect s).accounts = s.accounts ∧
    (closeSensorDefect s).link = s.link ∧ (closeSensorDefect s).store = s.store ∧
    (closeSensorDefect s).pending = s.pending := by
  simp only [closeSensorDefect]
  (repeat' split) <;> simp

@[simp] theorem breakNotice_frame (c : BreakCause) (changed : Bool) (e : Option Entered) (s : State) :
    (breakNotice c changed e s).now = s.now ∧ (breakNotice c changed e s).cfg = s.cfg ∧
    (breakNotice c changed e s).enc = s.enc ∧ (breakNotice c changed e s).web = s.web ∧
    (breakNotice c changed e s).sched = s.sched ∧ (breakNotice c changed e s).stands = s.stands ∧
    (breakNotice c changed e s).stations = s.stations ∧ (breakNotice c changed e s).remap = s.remap ∧
    (breakNotice c changed e s).lanes = s.lanes ∧ (breakNotice c changed e s).delivery = s.delivery ∧
    (breakNotice c changed e s).gov = s.gov ∧ (breakNotice c changed e s).line = s.line ∧
    (breakNotice c changed e s).rest = s.rest ∧ (breakNotice c changed e s).emergencyStop = s.emergencyStop ∧
    (breakNotice c changed e s).accounts = s.accounts ∧ (breakNotice c changed e s).bank = s.bank ∧
    (breakNotice c changed e s).link = s.link ∧ (breakNotice c changed e s).store = s.store ∧
    (breakNotice c changed e s).issued = s.issued ∧ (breakNotice c changed e s).evalDue = s.evalDue ∧
    (breakNotice c changed e s).pending = s.pending := by
  simp [breakNotice]

@[simp] theorem breakCause_frame (c : BreakCause) (s : State) :
    (breakCause c s).now = s.now ∧ (breakCause c s).cfg = s.cfg ∧ (breakCause c s).enc = s.enc ∧
    (breakCause c s).stations = s.stations ∧ (breakCause c s).remap = s.remap ∧ (breakCause c s).lanes = s.lanes ∧
    (breakCause c s).delivery = s.delivery ∧ (breakCause c s).gov = s.gov ∧ (breakCause c s).rest = s.rest ∧
    (breakCause c s).emergencyStop = s.emergencyStop ∧ (breakCause c s).link = s.link ∧ (breakCause c s).store = s.store ∧
    (breakCause c s).pending = s.pending := by
  simp only [breakCause]
  (repeat' split) <;> simp

@[simp] theorem recheckHeld_frame (s : State) :
    (recheckHeld s).now = s.now ∧ (recheckHeld s).cfg = s.cfg ∧ (recheckHeld s).enc = s.enc ∧ (recheckHeld s).web = s.web ∧
    (recheckHeld s).stations = s.stations ∧ (recheckHeld s).remap = s.remap ∧ (recheckHeld s).lanes = s.lanes ∧
    (recheckHeld s).delivery = s.delivery ∧ (recheckHeld s).gov = s.gov ∧ (recheckHeld s).line = s.line ∧
    (recheckHeld s).rest = s.rest ∧ (recheckHeld s).emergencyStop = s.emergencyStop ∧
    (recheckHeld s).accounts = s.accounts ∧ (recheckHeld s).link = s.link ∧ (recheckHeld s).store = s.store ∧
    (recheckHeld s).pending = s.pending := by
  simp only [recheckHeld]
  (repeat' split) <;> simp

@[simp] theorem positionOutput_frame (st : Station) (t : Setup) (r : StationRec) (s : State) :
    (positionOutput st t r s).now = s.now ∧ (positionOutput st t r s).cfg = s.cfg ∧ (positionOutput st t r s).enc = s.enc ∧
    (positionOutput st t r s).web = s.web ∧ (positionOutput st t r s).sched = s.sched ∧
    (positionOutput st t r s).stands = s.stands ∧ (positionOutput st t r s).remap = s.remap ∧
    (positionOutput st t r s).lanes = s.lanes ∧ (positionOutput st t r s).delivery = s.delivery ∧
    (positionOutput st t r s).gov = s.gov ∧ (positionOutput st t r s).line = s.line ∧
    (positionOutput st t r s).rest = s.rest ∧ (positionOutput st t r s).emergencyStop = s.emergencyStop ∧
    (positionOutput st t r s).accounts = s.accounts ∧ (positionOutput st t r s).bank = s.bank ∧
    (positionOutput st t r s).link = s.link ∧ (positionOutput st t r s).notices = s.notices ∧
    (positionOutput st t r s).store = s.store ∧ (positionOutput st t r s).pending = s.pending := by
  simp [positionOutput]

@[simp] theorem growRunMark_frame (id : Nat) (k : Nat) (s : State) :
    (growRunMark id k s).now = s.now ∧ (growRunMark id k s).cfg = s.cfg ∧ (growRunMark id k s).enc = s.enc ∧
    (growRunMark id k s).sched = s.sched ∧ (growRunMark id k s).stands = s.stands ∧
    (growRunMark id k s).stations = s.stations ∧ (growRunMark id k s).remap = s.remap ∧
    (growRunMark id k s).lanes = s.lanes ∧ (growRunMark id k s).delivery = s.delivery ∧ (growRunMark id k s).gov = s.gov ∧
    (growRunMark id k s).line = s.line ∧ (growRunMark id k s).rest = s.rest ∧
    (growRunMark id k s).emergencyStop = s.emergencyStop ∧ (growRunMark id k s).accounts = s.accounts ∧
    (growRunMark id k s).bank = s.bank ∧ (growRunMark id k s).link = s.link ∧ (growRunMark id k s).notices = s.notices ∧
    (growRunMark id k s).store = s.store ∧ (growRunMark id k s).issued = s.issued ∧
    (growRunMark id k s).evalDue = s.evalDue ∧ (growRunMark id k s).pending = s.pending := by
  simp [growRunMark]

@[simp] theorem beginLate_frame (st : Station) (id : Nat) (s : State) :
    (beginLate st id s).now = s.now ∧ (beginLate st id s).cfg = s.cfg ∧ (beginLate st id s).enc = s.enc ∧
    (beginLate st id s).sched = s.sched ∧ (beginLate st id s).stands = s.stands ∧ (beginLate st id s).remap = s.remap ∧
    (beginLate st id s).lanes = s.lanes ∧ (beginLate st id s).delivery = s.delivery ∧ (beginLate st id s).gov = s.gov ∧
    (beginLate st id s).line = s.line ∧ (beginLate st id s).rest = s.rest ∧
    (beginLate st id s).emergencyStop = s.emergencyStop ∧ (beginLate st id s).accounts = s.accounts ∧
    (beginLate st id s).bank = s.bank ∧ (beginLate st id s).link = s.link ∧ (beginLate st id s).notices = s.notices ∧
    (beginLate st id s).store = s.store ∧ (beginLate st id s).issued = s.issued ∧
    (beginLate st id s).pending = s.pending := by
  simp only [beginLate]
  (repeat' split) <;> simp

@[simp] theorem lateAdvance_frame (n : Nat) (st : Station) (s : State) :
    (lateAdvance n st s).now = s.now ∧ (lateAdvance n st s).cfg = s.cfg ∧ (lateAdvance n st s).enc = s.enc ∧
    (lateAdvance n st s).sched = s.sched ∧ (lateAdvance n st s).stands = s.stands ∧ (lateAdvance n st s).remap = s.remap ∧
    (lateAdvance n st s).lanes = s.lanes ∧ (lateAdvance n st s).delivery = s.delivery ∧ (lateAdvance n st s).gov = s.gov ∧
    (lateAdvance n st s).line = s.line ∧ (lateAdvance n st s).rest = s.rest ∧
    (lateAdvance n st s).emergencyStop = s.emergencyStop ∧ (lateAdvance n st s).accounts = s.accounts ∧
    (lateAdvance n st s).bank = s.bank ∧ (lateAdvance n st s).link = s.link ∧ (lateAdvance n st s).notices = s.notices ∧
    (lateAdvance n st s).store = s.store ∧ (lateAdvance n st s).issued = s.issued ∧
    (lateAdvance n st s).pending = s.pending := by
  simp only [lateAdvance]
  (repeat' split) <;> simp

@[simp] theorem loadAttempt_frame (st : Station) (s : State) :
    (loadAttempt st s).now = s.now ∧ (loadAttempt st s).cfg = s.cfg ∧ (loadAttempt st s).enc = s.enc ∧
    (loadAttempt st s).sched = s.sched ∧ (loadAttempt st s).stands = s.stands ∧ (loadAttempt st s).remap = s.remap ∧
    (loadAttempt st s).lanes = s.lanes ∧ (loadAttempt st s).delivery = s.delivery ∧ (loadAttempt st s).gov = s.gov ∧
    (loadAttempt st s).line = s.line ∧ (loadAttempt st s).rest = s.rest ∧
    (loadAttempt st s).emergencyStop = s.emergencyStop ∧ (loadAttempt st s).accounts = s.accounts ∧
    (loadAttempt st s).bank = s.bank ∧ (loadAttempt st s).link = s.link ∧ (loadAttempt st s).notices = s.notices ∧
    (loadAttempt st s).store = s.store ∧ (loadAttempt st s).pending = s.pending := by
  simp only [loadAttempt]
  (repeat' split) <;> simp

@[simp] theorem loadAttempts_frame (st : Station) (s : State) :
    (loadAttempts st s).now = s.now ∧ (loadAttempts st s).cfg = s.cfg ∧ (loadAttempts st s).enc = s.enc ∧
    (loadAttempts st s).sched = s.sched ∧ (loadAttempts st s).stands = s.stands ∧ (loadAttempts st s).remap = s.remap ∧
    (loadAttempts st s).lanes = s.lanes ∧ (loadAttempts st s).delivery = s.delivery ∧ (loadAttempts st s).gov = s.gov ∧
    (loadAttempts st s).line = s.line ∧ (loadAttempts st s).rest = s.rest ∧
    (loadAttempts st s).emergencyStop = s.emergencyStop ∧ (loadAttempts st s).accounts = s.accounts ∧
    (loadAttempts st s).bank = s.bank ∧ (loadAttempts st s).link = s.link ∧ (loadAttempts st s).notices = s.notices ∧
    (loadAttempts st s).store = s.store ∧ (loadAttempts st s).pending = s.pending := by
  simp [loadAttempts]

@[simp] theorem engageStation_frame (st : Station) (s : State) :
    (engageStation st s).now = s.now ∧ (engageStation st s).cfg = s.cfg ∧ (engageStation st s).enc = s.enc ∧
    (engageStation st s).web = s.web ∧ (engageStation st s).sched = s.sched ∧ (engageStation st s).stands = s.stands ∧
    (engageStation st s).remap = s.remap ∧ (engageStation st s).lanes = s.lanes ∧
    (engageStation st s).delivery = s.delivery ∧ (engageStation st s).gov = s.gov ∧ (engageStation st s).line = s.line ∧
    (engageStation st s).rest = s.rest ∧ (engageStation st s).emergencyStop = s.emergencyStop ∧
    (engageStation st s).accounts = s.accounts ∧ (engageStation st s).bank = s.bank ∧ (engageStation st s).link = s.link ∧
    (engageStation st s).notices = s.notices ∧ (engageStation st s).store = s.store ∧
    (engageStation st s).pending = s.pending := by
  simp [engageStation]

@[simp] theorem retractStation_frame (st : Station) (next : StationState) (pattern : Option Nat) (s : State) :
    (retractStation st next pattern s).now = s.now ∧ (retractStation st next pattern s).cfg = s.cfg ∧
    (retractStation st next pattern s).enc = s.enc ∧ (retractStation st next pattern s).web = s.web ∧
    (retractStation st next pattern s).sched = s.sched ∧ (retractStation st next pattern s).stands = s.stands ∧
    (retractStation st next pattern s).remap = s.remap ∧ (retractStation st next pattern s).lanes = s.lanes ∧
    (retractStation st next pattern s).delivery = s.delivery ∧ (retractStation st next pattern s).gov = s.gov ∧
    (retractStation st next pattern s).line = s.line ∧ (retractStation st next pattern s).rest = s.rest ∧
    (retractStation st next pattern s).emergencyStop = s.emergencyStop ∧
    (retractStation st next pattern s).accounts = s.accounts ∧ (retractStation st next pattern s).bank = s.bank ∧
    (retractStation st next pattern s).link = s.link ∧ (retractStation st next pattern s).notices = s.notices ∧
    (retractStation st next pattern s).store = s.store ∧ (retractStation st next pattern s).pending = s.pending := by
  simp only [retractStation]
  (repeat' split) <;> simp

@[simp] theorem abandonPattern_frame (st : Station) (s : State) :
    (abandonPattern st s).now = s.now ∧ (abandonPattern st s).cfg = s.cfg ∧ (abandonPattern st s).enc = s.enc ∧
    (abandonPattern st s).web = s.web ∧ (abandonPattern st s).sched = s.sched ∧ (abandonPattern st s).stands = s.stands ∧
    (abandonPattern st s).remap = s.remap ∧ (abandonPattern st s).lanes = s.lanes ∧
    (abandonPattern st s).delivery = s.delivery ∧ (abandonPattern st s).gov = s.gov ∧ (abandonPattern st s).line = s.line ∧
    (abandonPattern st s).rest = s.rest ∧ (abandonPattern st s).emergencyStop = s.emergencyStop ∧
    (abandonPattern st s).accounts = s.accounts ∧ (abandonPattern st s).bank = s.bank ∧
    (abandonPattern st s).link = s.link ∧ (abandonPattern st s).notices = s.notices ∧
    (abandonPattern st s).store = s.store ∧ (abandonPattern st s).pending = s.pending := by
  simp [abandonPattern]

@[simp] theorem inPosition_frame (st : Station) (s : State) :
    (inPosition st s).now = s.now ∧ (inPosition st s).cfg = s.cfg ∧ (inPosition st s).enc = s.enc ∧
    (inPosition st s).web = s.web ∧ (inPosition st s).sched = s.sched ∧ (inPosition st s).stands = s.stands ∧
    (inPosition st s).remap = s.remap ∧ (inPosition st s).lanes = s.lanes ∧ (inPosition st s).delivery = s.delivery ∧
    (inPosition st s).gov = s.gov ∧ (inPosition st s).line = s.line ∧ (inPosition st s).rest = s.rest ∧
    (inPosition st s).emergencyStop = s.emergencyStop ∧ (inPosition st s).accounts = s.accounts ∧
    (inPosition st s).bank = s.bank ∧ (inPosition st s).link = s.link ∧ (inPosition st s).notices = s.notices ∧
    (inPosition st s).store = s.store ∧ (inPosition st s).pending = s.pending := by
  simp only [inPosition]
  (repeat' split) <;> simp

@[simp] theorem stationFaultNotice_frame (st : Station) (reason : Nat) (deferred : Bool) (s : State) :
    (stationFaultNotice st reason deferred s).now = s.now ∧ (stationFaultNotice st reason deferred s).cfg = s.cfg ∧
    (stationFaultNotice st reason deferred s).enc = s.enc ∧ (stationFaultNotice st reason deferred s).web = s.web ∧
    (stationFaultNotice st reason deferred s).sched = s.sched ∧
    (stationFaultNotice st reason deferred s).stands = s.stands ∧
    (stationFaultNotice st reason deferred s).stations = s.stations ∧
    (stationFaultNotice st reason deferred s).remap = s.remap ∧ (stationFaultNotice st reason deferred s).lanes = s.lanes ∧
    (stationFaultNotice st reason deferred s).delivery = s.delivery ∧
    (stationFaultNotice st reason deferred s).gov = s.gov ∧ (stationFaultNotice st reason deferred s).line = s.line ∧
    (stationFaultNotice st reason deferred s).rest = s.rest ∧
    (stationFaultNotice st reason deferred s).emergencyStop = s.emergencyStop ∧
    (stationFaultNotice st reason deferred s).accounts = s.accounts ∧
    (stationFaultNotice st reason deferred s).bank = s.bank ∧ (stationFaultNotice st reason deferred s).link = s.link ∧
    (stationFaultNotice st reason deferred s).store = s.store ∧
    (stationFaultNotice st reason deferred s).issued = s.issued ∧
    (stationFaultNotice st reason deferred s).evalDue = s.evalDue ∧
    (stationFaultNotice st reason deferred s).pending = s.pending := by
  simp [stationFaultNotice]

@[simp] theorem positioningTimeout_frame (st : Station) (s : State) :
    (positioningTimeout st s).cfg = s.cfg ∧ (positioningTimeout st s).enc = s.enc ∧ (positioningTimeout st s).web = s.web ∧
    (positioningTimeout st s).sched = s.sched ∧ (positioningTimeout st s).stands = s.stands ∧
    (positioningTimeout st s).remap = s.remap ∧ (positioningTimeout st s).lanes = s.lanes ∧
    (positioningTimeout st s).delivery = s.delivery ∧ (positioningTimeout st s).gov = s.gov ∧
    (positioningTimeout st s).line = s.line ∧ (positioningTimeout st s).rest = s.rest ∧
    (positioningTimeout st s).emergencyStop = s.emergencyStop ∧ (positioningTimeout st s).accounts = s.accounts ∧
    (positioningTimeout st s).bank = s.bank ∧ (positioningTimeout st s).link = s.link ∧
    (positioningTimeout st s).store = s.store ∧ (positioningTimeout st s).issued = s.issued ∧
    (positioningTimeout st s).pending = s.pending := by
  simp only [positioningTimeout]
  (repeat' split) <;> simp

@[simp] theorem positionFault_frame (st : Station) (s : State) :
    (positionFault st s).now = s.now ∧ (positionFault st s).cfg = s.cfg ∧ (positionFault st s).enc = s.enc ∧
    (positionFault st s).web = s.web ∧ (positionFault st s).sched = s.sched ∧ (positionFault st s).stands = s.stands ∧
    (positionFault st s).remap = s.remap ∧ (positionFault st s).lanes = s.lanes ∧
    (positionFault st s).delivery = s.delivery ∧ (positionFault st s).gov = s.gov ∧ (positionFault st s).line = s.line ∧
    (positionFault st s).rest = s.rest ∧ (positionFault st s).emergencyStop = s.emergencyStop ∧
    (positionFault st s).accounts = s.accounts ∧ (positionFault st s).bank = s.bank ∧ (positionFault st s).link = s.link ∧
    (positionFault st s).store = s.store ∧ (positionFault st s).issued = s.issued ∧
    (positionFault st s).pending = s.pending := by
  simp only [positionFault]
  (repeat' split) <;> simp

@[simp] theorem recordArrival_frame (st : Station) (id : Nat) (o : ArrivalOutcome) (s : State) :
    (recordArrival st id o s).now = s.now ∧ (recordArrival st id o s).cfg = s.cfg ∧ (recordArrival st id o s).enc = s.enc ∧
    (recordArrival st id o s).web = s.web ∧ (recordArrival st id o s).sched = s.sched ∧
    (recordArrival st id o s).stands = s.stands ∧ (recordArrival st id o s).remap = s.remap ∧
    (recordArrival st id o s).lanes = s.lanes ∧ (recordArrival st id o s).delivery = s.delivery ∧
    (recordArrival st id o s).gov = s.gov ∧ (recordArrival st id o s).line = s.line ∧
    (recordArrival st id o s).rest = s.rest ∧ (recordArrival st id o s).emergencyStop = s.emergencyStop ∧
    (recordArrival st id o s).accounts = s.accounts ∧ (recordArrival st id o s).bank = s.bank ∧
    (recordArrival st id o s).link = s.link ∧ (recordArrival st id o s).notices = s.notices ∧
    (recordArrival st id o s).store = s.store ∧ (recordArrival st id o s).issued = s.issued ∧
    (recordArrival st id o s).pending = s.pending := by
  simp [recordArrival]

@[simp] theorem stationArrival_frame (st : Station) (id : Nat) (s : State) :
    (stationArrival st id s).now = s.now ∧ (stationArrival st id s).cfg = s.cfg ∧ (stationArrival st id s).enc = s.enc ∧
    (stationArrival st id s).sched = s.sched ∧ (stationArrival st id s).stands = s.stands ∧
    (stationArrival st id s).remap = s.remap ∧ (stationArrival st id s).lanes = s.lanes ∧
    (stationArrival st id s).delivery = s.delivery ∧ (stationArrival st id s).gov = s.gov ∧
    (stationArrival st id s).line = s.line ∧ (stationArrival st id s).rest = s.rest ∧
    (stationArrival st id s).emergencyStop = s.emergencyStop ∧ (stationArrival st id s).accounts = s.accounts ∧
    (stationArrival st id s).bank = s.bank ∧ (stationArrival st id s).link = s.link ∧
    (stationArrival st id s).notices = s.notices ∧ (stationArrival st id s).store = s.store ∧
    (stationArrival st id s).pending = s.pending := by
  simp only [stationArrival]
  (repeat' split) <;> simp

@[simp] theorem stationsTakeQueue_frame (s : State) :
    (stationsTakeQueue s).now = s.now ∧ (stationsTakeQueue s).cfg = s.cfg ∧ (stationsTakeQueue s).enc = s.enc ∧
    (stationsTakeQueue s).sched = s.sched ∧ (stationsTakeQueue s).stands = s.stands ∧
    (stationsTakeQueue s).remap = s.remap ∧ (stationsTakeQueue s).lanes = s.lanes ∧
    (stationsTakeQueue s).delivery = s.delivery ∧ (stationsTakeQueue s).gov = s.gov ∧ (stationsTakeQueue s).line = s.line ∧
    (stationsTakeQueue s).rest = s.rest ∧ (stationsTakeQueue s).emergencyStop = s.emergencyStop ∧
    (stationsTakeQueue s).accounts = s.accounts ∧ (stationsTakeQueue s).bank = s.bank ∧
    (stationsTakeQueue s).link = s.link ∧ (stationsTakeQueue s).notices = s.notices ∧
    (stationsTakeQueue s).store = s.store ∧ (stationsTakeQueue s).pending = s.pending := by
  simp [stationsTakeQueue]

@[simp] theorem giveUpWithdrawn_frame (id : Nat) (st : Station) (s : State) :
    (giveUpWithdrawn id st s).now = s.now ∧ (giveUpWithdrawn id st s).cfg = s.cfg ∧ (giveUpWithdrawn id st s).enc = s.enc ∧
    (giveUpWithdrawn id st s).sched = s.sched ∧ (giveUpWithdrawn id st s).stands = s.stands ∧
    (giveUpWithdrawn id st s).remap = s.remap ∧ (giveUpWithdrawn id st s).lanes = s.lanes ∧
    (giveUpWithdrawn id st s).delivery = s.delivery ∧ (giveUpWithdrawn id st s).gov = s.gov ∧
    (giveUpWithdrawn id st s).line = s.line ∧ (giveUpWithdrawn id st s).rest = s.rest ∧
    (giveUpWithdrawn id st s).emergencyStop = s.emergencyStop ∧ (giveUpWithdrawn id st s).accounts = s.accounts ∧
    (giveUpWithdrawn id st s).bank = s.bank ∧ (giveUpWithdrawn id st s).link = s.link ∧
    (giveUpWithdrawn id st s).notices = s.notices ∧ (giveUpWithdrawn id st s).store = s.store ∧
    (giveUpWithdrawn id st s).pending = s.pending := by
  simp only [giveUpWithdrawn]
  (repeat' split) <;> simp

@[simp] theorem giveUpRetired_frame (id : Nat) (st : Station) (s : State) :
    (giveUpRetired id st s).now = s.now ∧ (giveUpRetired id st s).cfg = s.cfg ∧ (giveUpRetired id st s).enc = s.enc ∧
    (giveUpRetired id st s).sched = s.sched ∧ (giveUpRetired id st s).stands = s.stands ∧
    (giveUpRetired id st s).remap = s.remap ∧ (giveUpRetired id st s).lanes = s.lanes ∧
    (giveUpRetired id st s).delivery = s.delivery ∧ (giveUpRetired id st s).gov = s.gov ∧
    (giveUpRetired id st s).line = s.line ∧ (giveUpRetired id st s).rest = s.rest ∧
    (giveUpRetired id st s).emergencyStop = s.emergencyStop ∧ (giveUpRetired id st s).accounts = s.accounts ∧
    (giveUpRetired id st s).bank = s.bank ∧ (giveUpRetired id st s).link = s.link ∧
    (giveUpRetired id st s).notices = s.notices ∧ (giveUpRetired id st s).store = s.store ∧
    (giveUpRetired id st s).pending = s.pending := by
  simp only [giveUpRetired]
  (repeat' split) <;> simp

@[simp] theorem purgeStation_frame (st : Station) (s : State) :
    (purgeStation st s).now = s.now ∧ (purgeStation st s).cfg = s.cfg ∧ (purgeStation st s).enc = s.enc ∧
    (purgeStation st s).web = s.web ∧ (purgeStation st s).sched = s.sched ∧ (purgeStation st s).stands = s.stands ∧
    (purgeStation st s).remap = s.remap ∧ (purgeStation st s).lanes = s.lanes ∧ (purgeStation st s).delivery = s.delivery ∧
    (purgeStation st s).gov = s.gov ∧ (purgeStation st s).line = s.line ∧ (purgeStation st s).rest = s.rest ∧
    (purgeStation st s).emergencyStop = s.emergencyStop ∧ (purgeStation st s).accounts = s.accounts ∧
    (purgeStation st s).bank = s.bank ∧ (purgeStation st s).link = s.link ∧ (purgeStation st s).notices = s.notices ∧
    (purgeStation st s).store = s.store ∧ (purgeStation st s).pending = s.pending := by
  simp only [purgeStation]
  (repeat' split) <;> simp

@[simp] theorem purgeStations_frame (s : State) :
    (purgeStations s).now = s.now ∧ (purgeStations s).cfg = s.cfg ∧ (purgeStations s).enc = s.enc ∧
    (purgeStations s).sched = s.sched ∧ (purgeStations s).stands = s.stands ∧ (purgeStations s).remap = s.remap ∧
    (purgeStations s).lanes = s.lanes ∧ (purgeStations s).delivery = s.delivery ∧ (purgeStations s).gov = s.gov ∧
    (purgeStations s).line = s.line ∧ (purgeStations s).rest = s.rest ∧ (purgeStations s).emergencyStop = s.emergencyStop ∧
    (purgeStations s).accounts = s.accounts ∧ (purgeStations s).bank = s.bank ∧ (purgeStations s).link = s.link ∧
    (purgeStations s).notices = s.notices ∧ (purgeStations s).store = s.store ∧ (purgeStations s).pending = s.pending := by
  simp [purgeStations]

@[simp] theorem clearStation_frame (st : Station) (s : State) :
    (clearStation st s).now = s.now ∧ (clearStation st s).cfg = s.cfg ∧ (clearStation st s).enc = s.enc ∧
    (clearStation st s).web = s.web ∧ (clearStation st s).sched = s.sched ∧ (clearStation st s).stands = s.stands ∧
    (clearStation st s).remap = s.remap ∧ (clearStation st s).lanes = s.lanes ∧ (clearStation st s).delivery = s.delivery ∧
    (clearStation st s).gov = s.gov ∧ (clearStation st s).line = s.line ∧ (clearStation st s).rest = s.rest ∧
    (clearStation st s).emergencyStop = s.emergencyStop ∧ (clearStation st s).accounts = s.accounts ∧
    (clearStation st s).bank = s.bank ∧ (clearStation st s).link = s.link ∧ (clearStation st s).notices = s.notices ∧
    (clearStation st s).store = s.store ∧ (clearStation st s).pending = s.pending := by
  simp only [clearStation]
  (repeat' split) <;> simp

@[simp] theorem headsChanged_frame (st : Station) (old : PerGroup HeadSet) (s : State) :
    (headsChanged st old s).now = s.now ∧ (headsChanged st old s).cfg = s.cfg ∧ (headsChanged st old s).enc = s.enc ∧
    (headsChanged st old s).web = s.web ∧ (headsChanged st old s).remap = s.remap ∧
    (headsChanged st old s).lanes = s.lanes ∧ (headsChanged st old s).delivery = s.delivery ∧
    (headsChanged st old s).gov = s.gov ∧ (headsChanged st old s).line = s.line ∧ (headsChanged st old s).rest = s.rest ∧
    (headsChanged st old s).emergencyStop = s.emergencyStop ∧ (headsChanged st old s).accounts = s.accounts ∧
    (headsChanged st old s).link = s.link ∧ (headsChanged st old s).store = s.store ∧
    (headsChanged st old s).pending = s.pending := by
  simp only [headsChanged]
  (repeat' split) <;> simp

@[simp] theorem updateHeads_frame (st : Station) (g : HeadGroup) (f : HeadSet → HeadSet) (s : State) :
    (updateHeads st g f s).now = s.now ∧ (updateHeads st g f s).cfg = s.cfg ∧ (updateHeads st g f s).enc = s.enc ∧
    (updateHeads st g f s).web = s.web ∧ (updateHeads st g f s).remap = s.remap ∧ (updateHeads st g f s).lanes = s.lanes ∧
    (updateHeads st g f s).delivery = s.delivery ∧ (updateHeads st g f s).gov = s.gov ∧
    (updateHeads st g f s).line = s.line ∧ (updateHeads st g f s).rest = s.rest ∧
    (updateHeads st g f s).emergencyStop = s.emergencyStop ∧ (updateHeads st g f s).accounts = s.accounts ∧
    (updateHeads st g f s).link = s.link ∧ (updateHeads st g f s).store = s.store ∧
    (updateHeads st g f s).pending = s.pending := by
  simp [updateHeads]

@[simp] theorem headFault_frame (h : HeadName) (s : State) :
    (headFault h s).now = s.now ∧ (headFault h s).cfg = s.cfg ∧ (headFault h s).enc = s.enc ∧ (headFault h s).web = s.web ∧
    (headFault h s).remap = s.remap ∧ (headFault h s).lanes = s.lanes ∧ (headFault h s).delivery = s.delivery ∧
    (headFault h s).gov = s.gov ∧ (headFault h s).line = s.line ∧ (headFault h s).rest = s.rest ∧
    (headFault h s).emergencyStop = s.emergencyStop ∧ (headFault h s).accounts = s.accounts ∧
    (headFault h s).link = s.link ∧ (headFault h s).store = s.store ∧ (headFault h s).pending = s.pending := by
  simp only [headFault]
  (repeat' split) <;> simp

@[simp] theorem headRetire_frame (st : Nat) (g : Nat) (head : Nat) (s : State) :
    (headRetire st g head s).1.now = s.now ∧ (headRetire st g head s).1.cfg = s.cfg ∧
    (headRetire st g head s).1.enc = s.enc ∧ (headRetire st g head s).1.web = s.web ∧
    (headRetire st g head s).1.remap = s.remap ∧ (headRetire st g head s).1.lanes = s.lanes ∧
    (headRetire st g head s).1.delivery = s.delivery ∧ (headRetire st g head s).1.gov = s.gov ∧
    (headRetire st g head s).1.line = s.line ∧ (headRetire st g head s).1.rest = s.rest ∧
    (headRetire st g head s).1.emergencyStop = s.emergencyStop ∧ (headRetire st g head s).1.accounts = s.accounts ∧
    (headRetire st g head s).1.link = s.link ∧ (headRetire st g head s).1.store = s.store ∧
    (headRetire st g head s).1.pending = s.pending := by
  simp only [headRetire]
  (repeat' split) <;> simp

@[simp] theorem headRestore_frame (st : Nat) (g : Nat) (head : Nat) (s : State) :
    (headRestore st g head s).1.now = s.now ∧ (headRestore st g head s).1.cfg = s.cfg ∧
    (headRestore st g head s).1.enc = s.enc ∧ (headRestore st g head s).1.web = s.web ∧
    (headRestore st g head s).1.remap = s.remap ∧ (headRestore st g head s).1.lanes = s.lanes ∧
    (headRestore st g head s).1.delivery = s.delivery ∧ (headRestore st g head s).1.gov = s.gov ∧
    (headRestore st g head s).1.line = s.line ∧ (headRestore st g head s).1.rest = s.rest ∧
    (headRestore st g head s).1.emergencyStop = s.emergencyStop ∧ (headRestore st g head s).1.accounts = s.accounts ∧
    (headRestore st g head s).1.link = s.link ∧ (headRestore st g head s).1.store = s.store ∧
    (headRestore st g head s).1.pending = s.pending := by
  simp only [headRestore]
  (repeat' split) <;> simp

@[simp] theorem softRemap_frame (st : Nat) (g : Nat) (head : Nat) (s : State) :
    (softRemap st g head s).1.now = s.now ∧ (softRemap st g head s).1.cfg = s.cfg ∧ (softRemap st g head s).1.enc = s.enc ∧
    (softRemap st g head s).1.web = s.web ∧ (softRemap st g head s).1.remap = s.remap ∧
    (softRemap st g head s).1.lanes = s.lanes ∧ (softRemap st g head s).1.delivery = s.delivery ∧
    (softRemap st g head s).1.gov = s.gov ∧ (softRemap st g head s).1.line = s.line ∧
    (softRemap st g head s).1.rest = s.rest ∧ (softRemap st g head s).1.emergencyStop = s.emergencyStop ∧
    (softRemap st g head s).1.accounts = s.accounts ∧ (softRemap st g head s).1.link = s.link ∧
    (softRemap st g head s).1.store = s.store ∧ (softRemap st g head s).1.pending = s.pending := by
  simp only [softRemap]
  (repeat' split) <;> simp

@[simp] theorem remapPrepare_frame (st : Nat) (g : Nat) (head : Nat) (s : State) :
    (remapPrepare st g head s).1.now = s.now ∧ (remapPrepare st g head s).1.cfg = s.cfg ∧
    (remapPrepare st g head s).1.enc = s.enc ∧ (remapPrepare st g head s).1.web = s.web ∧
    (remapPrepare st g head s).1.sched = s.sched ∧ (remapPrepare st g head s).1.stands = s.stands ∧
    (remapPrepare st g head s).1.stations = s.stations ∧ (remapPrepare st g head s).1.lanes = s.lanes ∧
    (remapPrepare st g head s).1.delivery = s.delivery ∧ (remapPrepare st g head s).1.gov = s.gov ∧
    (remapPrepare st g head s).1.line = s.line ∧ (remapPrepare st g head s).1.rest = s.rest ∧
    (remapPrepare st g head s).1.emergencyStop = s.emergencyStop ∧ (remapPrepare st g head s).1.accounts = s.accounts ∧
    (remapPrepare st g head s).1.bank = s.bank ∧ (remapPrepare st g head s).1.link = s.link ∧
    (remapPrepare st g head s).1.notices = s.notices ∧ (remapPrepare st g head s).1.store = s.store ∧
    (remapPrepare st g head s).1.issued = s.issued ∧ (remapPrepare st g head s).1.evalDue = s.evalDue ∧
    (remapPrepare st g head s).1.pending = s.pending := by
  simp only [remapPrepare]
  (repeat' split) <;> simp

@[simp] theorem remapConfirm_frame (st : Nat) (g : Nat) (head : Nat) (s : State) :
    (remapConfirm st g head s).1.now = s.now ∧ (remapConfirm st g head s).1.cfg = s.cfg ∧
    (remapConfirm st g head s).1.enc = s.enc ∧ (remapConfirm st g head s).1.web = s.web ∧
    (remapConfirm st g head s).1.sched = s.sched ∧ (remapConfirm st g head s).1.stands = s.stands ∧
    (remapConfirm st g head s).1.stations = s.stations ∧ (remapConfirm st g head s).1.lanes = s.lanes ∧
    (remapConfirm st g head s).1.delivery = s.delivery ∧ (remapConfirm st g head s).1.gov = s.gov ∧
    (remapConfirm st g head s).1.line = s.line ∧ (remapConfirm st g head s).1.rest = s.rest ∧
    (remapConfirm st g head s).1.emergencyStop = s.emergencyStop ∧ (remapConfirm st g head s).1.accounts = s.accounts ∧
    (remapConfirm st g head s).1.bank = s.bank ∧ (remapConfirm st g head s).1.link = s.link ∧
    (remapConfirm st g head s).1.notices = s.notices ∧ (remapConfirm st g head s).1.store = s.store ∧
    (remapConfirm st g head s).1.issued = s.issued ∧ (remapConfirm st g head s).1.evalDue = s.evalDue ∧
    (remapConfirm st g head s).1.pending = s.pending := by
  simp only [remapConfirm]
  (repeat' split) <;> simp

@[simp] theorem beginWrite_frame (cause : WriteCause) (s : State) :
    (beginWrite cause s).now = s.now ∧ (beginWrite cause s).cfg = s.cfg ∧ (beginWrite cause s).enc = s.enc ∧
    (beginWrite cause s).web = s.web ∧ (beginWrite cause s).sched = s.sched ∧ (beginWrite cause s).stands = s.stands ∧
    (beginWrite cause s).stations = s.stations ∧ (beginWrite cause s).remap = s.remap ∧
    (beginWrite cause s).lanes = s.lanes ∧ (beginWrite cause s).delivery = s.delivery ∧ (beginWrite cause s).gov = s.gov ∧
    (beginWrite cause s).line = s.line ∧ (beginWrite cause s).rest = s.rest ∧
    (beginWrite cause s).emergencyStop = s.emergencyStop ∧ (beginWrite cause s).accounts = s.accounts ∧
    (beginWrite cause s).bank = s.bank ∧ (beginWrite cause s).link = s.link ∧ (beginWrite cause s).notices = s.notices ∧
    (beginWrite cause s).issued = s.issued ∧ (beginWrite cause s).evalDue = s.evalDue ∧
    (beginWrite cause s).pending = s.pending := by
  simp [beginWrite]

@[simp] theorem hardRemap_frame (st : Nat) (g : Nat) (head : Nat) (s : State) :
    (hardRemap st g head s).1.now = s.now ∧ (hardRemap st g head s).1.cfg = s.cfg ∧ (hardRemap st g head s).1.enc = s.enc ∧
    (hardRemap st g head s).1.web = s.web ∧ (hardRemap st g head s).1.lanes = s.lanes ∧
    (hardRemap st g head s).1.delivery = s.delivery ∧ (hardRemap st g head s).1.gov = s.gov ∧
    (hardRemap st g head s).1.line = s.line ∧ (hardRemap st g head s).1.rest = s.rest ∧
    (hardRemap st g head s).1.emergencyStop = s.emergencyStop ∧ (hardRemap st g head s).1.accounts = s.accounts ∧
    (hardRemap st g head s).1.link = s.link ∧ (hardRemap st g head s).1.pending = s.pending := by
  simp only [hardRemap]
  (repeat' split) <;> simp

@[simp] theorem stationReset_frame (st : Nat) (s : State) :
    (stationReset st s).1.now = s.now ∧ (stationReset st s).1.cfg = s.cfg ∧ (stationReset st s).1.enc = s.enc ∧
    (stationReset st s).1.sched = s.sched ∧ (stationReset st s).1.stands = s.stands ∧
    (stationReset st s).1.remap = s.remap ∧ (stationReset st s).1.lanes = s.lanes ∧
    (stationReset st s).1.delivery = s.delivery ∧ (stationReset st s).1.gov = s.gov ∧ (stationReset st s).1.line = s.line ∧
    (stationReset st s).1.rest = s.rest ∧ (stationReset st s).1.emergencyStop = s.emergencyStop ∧
    (stationReset st s).1.accounts = s.accounts ∧ (stationReset st s).1.bank = s.bank ∧
    (stationReset st s).1.link = s.link ∧ (stationReset st s).1.notices = s.notices ∧
    (stationReset st s).1.store = s.store ∧ (stationReset st s).1.pending = s.pending := by
  simp only [stationReset]
  (repeat' split) <;> simp

@[simp] theorem stationQuery_frame (st : Nat) (s : State) :
    (stationQuery st s).1.now = s.now ∧ (stationQuery st s).1.cfg = s.cfg ∧ (stationQuery st s).1.enc = s.enc ∧
    (stationQuery st s).1.web = s.web ∧ (stationQuery st s).1.sched = s.sched ∧ (stationQuery st s).1.stands = s.stands ∧
    (stationQuery st s).1.stations = s.stations ∧ (stationQuery st s).1.remap = s.remap ∧
    (stationQuery st s).1.lanes = s.lanes ∧ (stationQuery st s).1.delivery = s.delivery ∧
    (stationQuery st s).1.gov = s.gov ∧ (stationQuery st s).1.line = s.line ∧ (stationQuery st s).1.rest = s.rest ∧
    (stationQuery st s).1.emergencyStop = s.emergencyStop ∧ (stationQuery st s).1.accounts = s.accounts ∧
    (stationQuery st s).1.bank = s.bank ∧ (stationQuery st s).1.link = s.link ∧ (stationQuery st s).1.notices = s.notices ∧
    (stationQuery st s).1.store = s.store ∧ (stationQuery st s).1.issued = s.issued ∧
    (stationQuery st s).1.evalDue = s.evalDue ∧ (stationQuery st s).1.pending = s.pending := by
  simp only [stationQuery]
  (repeat' split) <;> simp

@[simp] theorem orderAdd_frame (id : Nat) (cut : Nat) (outs : Nat) (wanted : Nat) (overrun : Nat) (underrun : Nat)
    (bundle : Nat) (s : State) :
    (orderAdd id cut outs wanted overrun underrun bundle s).1.now = s.now ∧
    (orderAdd id cut outs wanted overrun underrun bundle s).1.cfg = s.cfg ∧
    (orderAdd id cut outs wanted overrun underrun bundle s).1.enc = s.enc ∧
    (orderAdd id cut outs wanted overrun underrun bundle s).1.web = s.web ∧
    (orderAdd id cut outs wanted overrun underrun bundle s).1.stands = s.stands ∧
    (orderAdd id cut outs wanted overrun underrun bundle s).1.stations = s.stations ∧
    (orderAdd id cut outs wanted overrun underrun bundle s).1.remap = s.remap ∧
    (orderAdd id cut outs wanted overrun underrun bundle s).1.lanes = s.lanes ∧
    (orderAdd id cut outs wanted overrun underrun bundle s).1.delivery = s.delivery ∧
    (orderAdd id cut outs wanted overrun underrun bundle s).1.gov = s.gov ∧
    (orderAdd id cut outs wanted overrun underrun bundle s).1.line = s.line ∧
    (orderAdd id cut outs wanted overrun underrun bundle s).1.rest = s.rest ∧
    (orderAdd id cut outs wanted overrun underrun bundle s).1.emergencyStop = s.emergencyStop ∧
    (orderAdd id cut outs wanted overrun underrun bundle s).1.accounts = s.accounts ∧
    (orderAdd id cut outs wanted overrun underrun bundle s).1.bank = s.bank ∧
    (orderAdd id cut outs wanted overrun underrun bundle s).1.link = s.link ∧
    (orderAdd id cut outs wanted overrun underrun bundle s).1.notices = s.notices ∧
    (orderAdd id cut outs wanted overrun underrun bundle s).1.store = s.store ∧
    (orderAdd id cut outs wanted overrun underrun bundle s).1.issued = s.issued ∧
    (orderAdd id cut outs wanted overrun underrun bundle s).1.evalDue = s.evalDue ∧
    (orderAdd id cut outs wanted overrun underrun bundle s).1.pending = s.pending := by
  simp only [orderAdd]
  (repeat' split) <;> simp

@[simp] theorem orderAmend_frame (id : Nat) (wanted : Nat) (overrun : Nat) (underrun : Nat) (s : State) :
    (orderAmend id wanted overrun underrun s).1.now = s.now ∧ (orderAmend id wanted overrun underrun s).1.cfg = s.cfg ∧
    (orderAmend id wanted overrun underrun s).1.enc = s.enc ∧ (orderAmend id wanted overrun underrun s).1.web = s.web ∧
    (orderAmend id wanted overrun underrun s).1.stands = s.stands ∧
    (orderAmend id wanted overrun underrun s).1.stations = s.stations ∧
    (orderAmend id wanted overrun underrun s).1.remap = s.remap ∧
    (orderAmend id wanted overrun underrun s).1.lanes = s.lanes ∧
    (orderAmend id wanted overrun underrun s).1.delivery = s.delivery ∧
    (orderAmend id wanted overrun underrun s).1.gov = s.gov ∧ (orderAmend id wanted overrun underrun s).1.line = s.line ∧
    (orderAmend id wanted overrun underrun s).1.rest = s.rest ∧
    (orderAmend id wanted overrun underrun s).1.emergencyStop = s.emergencyStop ∧
    (orderAmend id wanted overrun underrun s).1.accounts = s.accounts ∧
    (orderAmend id wanted overrun underrun s).1.bank = s.bank ∧ (orderAmend id wanted overrun underrun s).1.link = s.link ∧
    (orderAmend id wanted overrun underrun s).1.notices = s.notices ∧
    (orderAmend id wanted overrun underrun s).1.store = s.store ∧
    (orderAmend id wanted overrun underrun s).1.issued = s.issued ∧
    (orderAmend id wanted overrun underrun s).1.evalDue = s.evalDue ∧
    (orderAmend id wanted overrun underrun s).1.pending = s.pending := by
  simp only [orderAmend]
  (repeat' split) <;> simp

@[simp] theorem orderCancel_frame (id : Nat) (s : State) :
    (orderCancel id s).1.now = s.now ∧ (orderCancel id s).1.cfg = s.cfg ∧ (orderCancel id s).1.enc = s.enc ∧
    (orderCancel id s).1.web = s.web ∧ (orderCancel id s).1.stands = s.stands ∧
    (orderCancel id s).1.stations = s.stations ∧ (orderCancel id s).1.remap = s.remap ∧
    (orderCancel id s).1.lanes = s.lanes ∧ (orderCancel id s).1.gov = s.gov ∧ (orderCancel id s).1.line = s.line ∧
    (orderCancel id s).1.rest = s.rest ∧ (orderCancel id s).1.emergencyStop = s.emergencyStop ∧
    (orderCancel id s).1.accounts = s.accounts ∧ (orderCancel id s).1.link = s.link ∧
    (orderCancel id s).1.store = s.store ∧ (orderCancel id s).1.pending = s.pending := by
  simp only [orderCancel]
  (repeat' split) <;> simp

@[simp] theorem orderRelease_frame (id : Nat) (s : State) :
    (orderRelease id s).1.now = s.now ∧ (orderRelease id s).1.cfg = s.cfg ∧ (orderRelease id s).1.enc = s.enc ∧
    (orderRelease id s).1.web = s.web ∧ (orderRelease id s).1.stands = s.stands ∧
    (orderRelease id s).1.stations = s.stations ∧ (orderRelease id s).1.remap = s.remap ∧
    (orderRelease id s).1.lanes = s.lanes ∧ (orderRelease id s).1.delivery = s.delivery ∧
    (orderRelease id s).1.gov = s.gov ∧ (orderRelease id s).1.line = s.line ∧ (orderRelease id s).1.rest = s.rest ∧
    (orderRelease id s).1.emergencyStop = s.emergencyStop ∧ (orderRelease id s).1.accounts = s.accounts ∧
    (orderRelease id s).1.bank = s.bank ∧ (orderRelease id s).1.link = s.link ∧ (orderRelease id s).1.notices = s.notices ∧
    (orderRelease id s).1.store = s.store ∧ (orderRelease id s).1.issued = s.issued ∧
    (orderRelease id s).1.evalDue = s.evalDue ∧ (orderRelease id s).1.pending = s.pending := by
  simp only [orderRelease]
  (repeat' split) <;> simp

@[simp] theorem orderQuery_frame (id : Nat) (s : State) :
    (orderQuery id s).1.now = s.now ∧ (orderQuery id s).1.cfg = s.cfg ∧ (orderQuery id s).1.enc = s.enc ∧
    (orderQuery id s).1.web = s.web ∧ (orderQuery id s).1.sched = s.sched ∧ (orderQuery id s).1.stands = s.stands ∧
    (orderQuery id s).1.stations = s.stations ∧ (orderQuery id s).1.remap = s.remap ∧ (orderQuery id s).1.lanes = s.lanes ∧
    (orderQuery id s).1.delivery = s.delivery ∧ (orderQuery id s).1.gov = s.gov ∧ (orderQuery id s).1.line = s.line ∧
    (orderQuery id s).1.rest = s.rest ∧ (orderQuery id s).1.emergencyStop = s.emergencyStop ∧
    (orderQuery id s).1.accounts = s.accounts ∧ (orderQuery id s).1.bank = s.bank ∧ (orderQuery id s).1.link = s.link ∧
    (orderQuery id s).1.notices = s.notices ∧ (orderQuery id s).1.store = s.store ∧ (orderQuery id s).1.issued = s.issued ∧
    (orderQuery id s).1.evalDue = s.evalDue ∧ (orderQuery id s).1.pending = s.pending := by
  simp only [orderQuery]
  (repeat' split) <;> simp

@[simp] theorem activate_frame (was : OrderState) (os : List Nat) (s : State) :
    (activate was os s).now = s.now ∧ (activate was os s).cfg = s.cfg ∧ (activate was os s).enc = s.enc ∧
    (activate was os s).web = s.web ∧ (activate was os s).stands = s.stands ∧ (activate was os s).stations = s.stations ∧
    (activate was os s).remap = s.remap ∧ (activate was os s).lanes = s.lanes ∧ (activate was os s).delivery = s.delivery ∧
    (activate was os s).gov = s.gov ∧ (activate was os s).line = s.line ∧ (activate was os s).rest = s.rest ∧
    (activate was os s).emergencyStop = s.emergencyStop ∧ (activate was os s).accounts = s.accounts ∧
    (activate was os s).bank = s.bank ∧ (activate was os s).link = s.link ∧ (activate was os s).notices = s.notices ∧
    (activate was os s).store = s.store ∧ (activate was os s).issued = s.issued ∧ (activate was os s).evalDue = s.evalDue ∧
    (activate was os s).pending = s.pending := by
  simp [activate]

@[simp] theorem setupQueue_frame (id : Nat) (orderU : Nat) (targetU : Nat) (presentL : Nat) (orderL : Nat)
    (targetL : Nat) (deckle : Nat) (boundary : Nat) (grade : Nat) (waste : Nat) (slits : List Nat) (scores : List Nat) (s : State) :
    (setupQueue id orderU targetU presentL orderL targetL deckle boundary grade waste slits scores s).1.now = s.now ∧
    (setupQueue id orderU targetU presentL orderL targetL deckle boundary grade waste slits scores s).1.cfg = s.cfg ∧
    (setupQueue id orderU targetU presentL orderL targetL deckle boundary grade waste slits scores s).1.enc = s.enc ∧
    (setupQueue id orderU targetU presentL orderL targetL deckle boundary grade waste slits scores s).1.remap = s.remap ∧
    (setupQueue id orderU targetU presentL orderL targetL deckle boundary grade waste slits scores s).1.lanes = s.lanes ∧
    (setupQueue id orderU targetU presentL orderL targetL deckle boundary grade waste slits scores s).1.delivery = s.delivery ∧
    (setupQueue id orderU targetU presentL orderL targetL deckle boundary grade waste slits scores s).1.gov = s.gov ∧
    (setupQueue id orderU targetU presentL orderL targetL deckle boundary grade waste slits scores s).1.line = s.line ∧
    (setupQueue id orderU targetU presentL orderL targetL deckle boundary grade waste slits scores s).1.rest = s.rest ∧
    (setupQueue id orderU targetU presentL orderL targetL deckle boundary grade waste slits scores s).1.emergencyStop = s.emergencyStop ∧
    (setupQueue id orderU targetU presentL orderL targetL deckle boundary grade waste slits scores s).1.accounts = s.accounts ∧
    (setupQueue id orderU targetU presentL orderL targetL deckle boundary grade waste slits scores s).1.link = s.link ∧
    (setupQueue id orderU targetU presentL orderL targetL deckle boundary grade waste slits scores s).1.store = s.store ∧
    (setupQueue id orderU targetU presentL orderL targetL deckle boundary grade waste slits scores s).1.pending = s.pending := by
  simp only [setupQueue]
  (repeat' split) <;> simp

@[simp] theorem setupWithdraw_frame (id : Nat) (s : State) :
    (setupWithdraw id s).1.now = s.now ∧ (setupWithdraw id s).1.cfg = s.cfg ∧ (setupWithdraw id s).1.enc = s.enc ∧
    (setupWithdraw id s).1.remap = s.remap ∧ (setupWithdraw id s).1.lanes = s.lanes ∧ (setupWithdraw id s).1.gov = s.gov ∧
    (setupWithdraw id s).1.line = s.line ∧ (setupWithdraw id s).1.rest = s.rest ∧
    (setupWithdraw id s).1.emergencyStop = s.emergencyStop ∧ (setupWithdraw id s).1.accounts = s.accounts ∧
    (setupWithdraw id s).1.link = s.link ∧ (setupWithdraw id s).1.store = s.store ∧
    (setupWithdraw id s).1.pending = s.pending := by
  simp only [setupWithdraw]
  (repeat' split) <;> simp

@[simp] theorem setupQuery_frame (id : Nat) (s : State) :
    (setupQuery id s).1.now = s.now ∧ (setupQuery id s).1.cfg = s.cfg ∧ (setupQuery id s).1.enc = s.enc ∧
    (setupQuery id s).1.web = s.web ∧ (setupQuery id s).1.sched = s.sched ∧ (setupQuery id s).1.stands = s.stands ∧
    (setupQuery id s).1.stations = s.stations ∧ (setupQuery id s).1.remap = s.remap ∧ (setupQuery id s).1.lanes = s.lanes ∧
    (setupQuery id s).1.delivery = s.delivery ∧ (setupQuery id s).1.gov = s.gov ∧ (setupQuery id s).1.line = s.line ∧
    (setupQuery id s).1.rest = s.rest ∧ (setupQuery id s).1.emergencyStop = s.emergencyStop ∧
    (setupQuery id s).1.accounts = s.accounts ∧ (setupQuery id s).1.bank = s.bank ∧ (setupQuery id s).1.link = s.link ∧
    (setupQuery id s).1.notices = s.notices ∧ (setupQuery id s).1.store = s.store ∧ (setupQuery id s).1.issued = s.issued ∧
    (setupQuery id s).1.evalDue = s.evalDue ∧ (setupQuery id s).1.pending = s.pending := by
  simp only [setupQuery]
  (repeat' split) <;> simp

@[simp] theorem scheduleRead_frame (s : State) :
    (scheduleRead s).1.now = s.now ∧ (scheduleRead s).1.cfg = s.cfg ∧ (scheduleRead s).1.enc = s.enc ∧
    (scheduleRead s).1.web = s.web ∧ (scheduleRead s).1.sched = s.sched ∧ (scheduleRead s).1.stands = s.stands ∧
    (scheduleRead s).1.stations = s.stations ∧ (scheduleRead s).1.remap = s.remap ∧ (scheduleRead s).1.lanes = s.lanes ∧
    (scheduleRead s).1.delivery = s.delivery ∧ (scheduleRead s).1.gov = s.gov ∧ (scheduleRead s).1.line = s.line ∧
    (scheduleRead s).1.rest = s.rest ∧ (scheduleRead s).1.emergencyStop = s.emergencyStop ∧
    (scheduleRead s).1.accounts = s.accounts ∧ (scheduleRead s).1.bank = s.bank ∧ (scheduleRead s).1.link = s.link ∧
    (scheduleRead s).1.notices = s.notices ∧ (scheduleRead s).1.store = s.store ∧ (scheduleRead s).1.issued = s.issued ∧
    (scheduleRead s).1.evalDue = s.evalDue ∧ (scheduleRead s).1.pending = s.pending := by
  simp [scheduleRead]

@[simp] theorem countOverrun_frame (k : Nat) (s : State) :
    (countOverrun k s).now = s.now ∧ (countOverrun k s).cfg = s.cfg ∧ (countOverrun k s).enc = s.enc ∧
    (countOverrun k s).web = s.web ∧ (countOverrun k s).sched = s.sched ∧ (countOverrun k s).stands = s.stands ∧
    (countOverrun k s).stations = s.stations ∧ (countOverrun k s).remap = s.remap ∧ (countOverrun k s).lanes = s.lanes ∧
    (countOverrun k s).delivery = s.delivery ∧ (countOverrun k s).gov = s.gov ∧ (countOverrun k s).line = s.line ∧
    (countOverrun k s).rest = s.rest ∧ (countOverrun k s).emergencyStop = s.emergencyStop ∧
    (countOverrun k s).bank = s.bank ∧ (countOverrun k s).link = s.link ∧ (countOverrun k s).notices = s.notices ∧
    (countOverrun k s).store = s.store ∧ (countOverrun k s).issued = s.issued ∧ (countOverrun k s).evalDue = s.evalDue ∧
    (countOverrun k s).pending = s.pending := by
  simp [countOverrun]

@[simp] theorem deferralNotice_frame (d : Deferral) (s : State) :
    (deferralNotice d s).now = s.now ∧ (deferralNotice d s).cfg = s.cfg ∧ (deferralNotice d s).enc = s.enc ∧
    (deferralNotice d s).web = s.web ∧ (deferralNotice d s).sched = s.sched ∧ (deferralNotice d s).stands = s.stands ∧
    (deferralNotice d s).stations = s.stations ∧ (deferralNotice d s).remap = s.remap ∧
    (deferralNotice d s).lanes = s.lanes ∧ (deferralNotice d s).delivery = s.delivery ∧ (deferralNotice d s).gov = s.gov ∧
    (deferralNotice d s).line = s.line ∧ (deferralNotice d s).rest = s.rest ∧
    (deferralNotice d s).emergencyStop = s.emergencyStop ∧ (deferralNotice d s).accounts = s.accounts ∧
    (deferralNotice d s).bank = s.bank ∧ (deferralNotice d s).link = s.link ∧ (deferralNotice d s).store = s.store ∧
    (deferralNotice d s).issued = s.issued ∧ (deferralNotice d s).evalDue = s.evalDue ∧
    (deferralNotice d s).pending = s.pending := by
  simp only [deferralNotice]
  (repeat' split) <;> simp

@[simp] theorem beginEpisode_frame (d : Deferral) (s : State) :
    (beginEpisode d s).now = s.now ∧ (beginEpisode d s).cfg = s.cfg ∧ (beginEpisode d s).enc = s.enc ∧
    (beginEpisode d s).web = s.web ∧ (beginEpisode d s).stands = s.stands ∧ (beginEpisode d s).stations = s.stations ∧
    (beginEpisode d s).remap = s.remap ∧ (beginEpisode d s).lanes = s.lanes ∧ (beginEpisode d s).delivery = s.delivery ∧
    (beginEpisode d s).gov = s.gov ∧ (beginEpisode d s).line = s.line ∧ (beginEpisode d s).rest = s.rest ∧
    (beginEpisode d s).emergencyStop = s.emergencyStop ∧ (beginEpisode d s).link = s.link ∧
    (beginEpisode d s).store = s.store ∧ (beginEpisode d s).issued = s.issued ∧ (beginEpisode d s).evalDue = s.evalDue ∧
    (beginEpisode d s).pending = s.pending := by
  simp only [beginEpisode]
  (repeat' split) <;> simp

@[simp] theorem deferStart_frame (n : Nat) (d : Deferral) (s : State) :
    (deferStart n d s).now = s.now ∧ (deferStart n d s).cfg = s.cfg ∧ (deferStart n d s).enc = s.enc ∧
    (deferStart n d s).web = s.web ∧ (deferStart n d s).stands = s.stands ∧ (deferStart n d s).stations = s.stations ∧
    (deferStart n d s).remap = s.remap ∧ (deferStart n d s).lanes = s.lanes ∧ (deferStart n d s).delivery = s.delivery ∧
    (deferStart n d s).gov = s.gov ∧ (deferStart n d s).line = s.line ∧ (deferStart n d s).rest = s.rest ∧
    (deferStart n d s).emergencyStop = s.emergencyStop ∧ (deferStart n d s).link = s.link ∧
    (deferStart n d s).store = s.store ∧ (deferStart n d s).issued = s.issued ∧ (deferStart n d s).evalDue = s.evalDue ∧
    (deferStart n d s).pending = s.pending := by
  simp only [deferStart]
  (repeat' split) <;> simp

@[simp] theorem startedNotice_frame (t : Setup) (former : Option Nat) (overshoot : Nat) (s : State) :
    (startedNotice t former overshoot s).now = s.now ∧ (startedNotice t former overshoot s).cfg = s.cfg ∧
    (startedNotice t former overshoot s).enc = s.enc ∧ (startedNotice t former overshoot s).web = s.web ∧
    (startedNotice t former overshoot s).sched = s.sched ∧ (startedNotice t former overshoot s).stands = s.stands ∧
    (startedNotice t former overshoot s).stations = s.stations ∧ (startedNotice t former overshoot s).remap = s.remap ∧
    (startedNotice t former overshoot s).lanes = s.lanes ∧ (startedNotice t former overshoot s).delivery = s.delivery ∧
    (startedNotice t former overshoot s).gov = s.gov ∧ (startedNotice t former overshoot s).line = s.line ∧
    (startedNotice t former overshoot s).rest = s.rest ∧
    (startedNotice t former overshoot s).emergencyStop = s.emergencyStop ∧
    (startedNotice t former overshoot s).accounts = s.accounts ∧ (startedNotice t former overshoot s).bank = s.bank ∧
    (startedNotice t former overshoot s).link = s.link ∧ (startedNotice t former overshoot s).store = s.store ∧
    (startedNotice t former overshoot s).issued = s.issued ∧ (startedNotice t former overshoot s).evalDue = s.evalDue ∧
    (startedNotice t former overshoot s).pending = s.pending := by
  simp [startedNotice]

@[simp] theorem startSetup_frame (n : Nat) (head : Setup) (rest : List Setup) (s : State) :
    (startSetup n head rest s).now = s.now ∧ (startSetup n head rest s).cfg = s.cfg ∧
    (startSetup n head rest s).enc = s.enc ∧ (startSetup n head rest s).remap = s.remap ∧
    (startSetup n head rest s).lanes = s.lanes ∧ (startSetup n head rest s).gov = s.gov ∧
    (startSetup n head rest s).rest = s.rest ∧ (startSetup n head rest s).emergencyStop = s.emergencyStop ∧
    (startSetup n head rest s).link = s.link ∧ (startSetup n head rest s).store = s.store ∧
    (startSetup n head rest s).pending = s.pending := by
  simp only [startSetup]
  (repeat' split) <;> simp

@[simp] theorem startAttempt_frame (n : Nat) (s : State) :
    (startAttempt n s).now = s.now ∧ (startAttempt n s).cfg = s.cfg ∧ (startAttempt n s).enc = s.enc ∧
    (startAttempt n s).remap = s.remap ∧ (startAttempt n s).lanes = s.lanes ∧ (startAttempt n s).gov = s.gov ∧
    (startAttempt n s).rest = s.rest ∧ (startAttempt n s).emergencyStop = s.emergencyStop ∧
    (startAttempt n s).link = s.link ∧ (startAttempt n s).store = s.store ∧ (startAttempt n s).pending = s.pending := by
  simp only [startAttempt]
  (repeat' split) <;> simp

@[simp] theorem restartMark_frame (s : State) :
    (restartMark s).now = s.now ∧ (restartMark s).cfg = s.cfg ∧ (restartMark s).enc = s.enc ∧
    (restartMark s).stands = s.stands ∧ (restartMark s).stations = s.stations ∧ (restartMark s).remap = s.remap ∧
    (restartMark s).lanes = s.lanes ∧ (restartMark s).delivery = s.delivery ∧ (restartMark s).gov = s.gov ∧
    (restartMark s).rest = s.rest ∧ (restartMark s).emergencyStop = s.emergencyStop ∧
    (restartMark s).accounts = s.accounts ∧ (restartMark s).bank = s.bank ∧ (restartMark s).link = s.link ∧
    (restartMark s).notices = s.notices ∧ (restartMark s).store = s.store ∧ (restartMark s).issued = s.issued ∧
    (restartMark s).pending = s.pending := by
  simp only [restartMark]
  (repeat' split) <;> simp

@[simp] theorem retireRecord_frame (t : Setup) (s : State) :
    (retireRecord t s).now = s.now ∧ (retireRecord t s).cfg = s.cfg ∧ (retireRecord t s).enc = s.enc ∧
    (retireRecord t s).web = s.web ∧ (retireRecord t s).stands = s.stands ∧ (retireRecord t s).stations = s.stations ∧
    (retireRecord t s).remap = s.remap ∧ (retireRecord t s).lanes = s.lanes ∧ (retireRecord t s).gov = s.gov ∧
    (retireRecord t s).line = s.line ∧ (retireRecord t s).rest = s.rest ∧
    (retireRecord t s).emergencyStop = s.emergencyStop ∧ (retireRecord t s).accounts = s.accounts ∧
    (retireRecord t s).link = s.link ∧ (retireRecord t s).store = s.store ∧ (retireRecord t s).pending = s.pending := by
  simp [retireRecord]

@[simp] theorem retireSetup_frame (t : Setup) (s : State) :
    (retireSetup t s).now = s.now ∧ (retireSetup t s).cfg = s.cfg ∧ (retireSetup t s).enc = s.enc ∧
    (retireSetup t s).stands = s.stands ∧ (retireSetup t s).remap = s.remap ∧ (retireSetup t s).lanes = s.lanes ∧
    (retireSetup t s).gov = s.gov ∧ (retireSetup t s).line = s.line ∧ (retireSetup t s).rest = s.rest ∧
    (retireSetup t s).emergencyStop = s.emergencyStop ∧ (retireSetup t s).accounts = s.accounts ∧
    (retireSetup t s).link = s.link ∧ (retireSetup t s).store = s.store ∧ (retireSetup t s).pending = s.pending := by
  simp [retireSetup]

@[simp] theorem retireAll_frame (s : State) :
    (retireAll s).now = s.now ∧ (retireAll s).cfg = s.cfg ∧ (retireAll s).enc = s.enc ∧ (retireAll s).stands = s.stands ∧
    (retireAll s).remap = s.remap ∧ (retireAll s).lanes = s.lanes ∧ (retireAll s).gov = s.gov ∧
    (retireAll s).line = s.line ∧ (retireAll s).rest = s.rest ∧ (retireAll s).emergencyStop = s.emergencyStop ∧
    (retireAll s).accounts = s.accounts ∧ (retireAll s).link = s.link ∧ (retireAll s).store = s.store ∧
    (retireAll s).pending = s.pending := by
  have k := fun {β : Type} (p : State → β) (h : ∀ s a, p (retireSetup a s) = p s) =>
    foldl_keeps p (fun s a => retireSetup a s) h (dueForRetirement s s.sched.online) s
  exact ⟨k State.now (by simp), k State.cfg (by simp), k State.enc (by simp), k State.stands (by simp),
    k State.remap (by simp), k State.lanes (by simp), k State.gov (by simp), k State.line (by simp),
    k State.rest (by simp), k State.emergencyStop (by simp), k State.accounts (by simp), k State.link (by simp),
    k State.store (by simp), k State.pending (by simp)⟩

@[simp] theorem carryForward_frame (o : Nat) (outs : Nat) (uncovered : Bool) (s : State) :
    (carryForward o outs uncovered s).now = s.now ∧ (carryForward o outs uncovered s).cfg = s.cfg ∧
    (carryForward o outs uncovered s).enc = s.enc ∧ (carryForward o outs uncovered s).web = s.web ∧
    (carryForward o outs uncovered s).stations = s.stations ∧ (carryForward o outs uncovered s).remap = s.remap ∧
    (carryForward o outs uncovered s).lanes = s.lanes ∧ (carryForward o outs uncovered s).delivery = s.delivery ∧
    (carryForward o outs uncovered s).gov = s.gov ∧ (carryForward o outs uncovered s).line = s.line ∧
    (carryForward o outs uncovered s).rest = s.rest ∧ (carryForward o outs uncovered s).emergencyStop = s.emergencyStop ∧
    (carryForward o outs uncovered s).accounts = s.accounts ∧ (carryForward o outs uncovered s).link = s.link ∧
    (carryForward o outs uncovered s).store = s.store ∧ (carryForward o outs uncovered s).pending = s.pending := by
  simp only [carryForward]
  (repeat' split) <;> simp

@[simp] theorem retireOnline_frame (s : State) :
    (retireOnline s).now = s.now ∧ (retireOnline s).cfg = s.cfg ∧ (retireOnline s).enc = s.enc ∧
    (retireOnline s).web = s.web ∧ (retireOnline s).stands = s.stands ∧ (retireOnline s).stations = s.stations ∧
    (retireOnline s).remap = s.remap ∧ (retireOnline s).lanes = s.lanes ∧ (retireOnline s).gov = s.gov ∧
    (retireOnline s).line = s.line ∧ (retireOnline s).rest = s.rest ∧ (retireOnline s).emergencyStop = s.emergencyStop ∧
    (retireOnline s).accounts = s.accounts ∧ (retireOnline s).link = s.link ∧ (retireOnline s).store = s.store ∧
    (retireOnline s).pending = s.pending := by
  have k := fun {β : Type} (p : State → β) (h : ∀ s a, p (retireRecord a s) = p s) =>
    foldl_keeps p (fun s a => retireRecord a s) h s.sched.online s
  exact ⟨k State.now (by simp), k State.cfg (by simp), k State.enc (by simp), k State.web (by simp),
    k State.stands (by simp), k State.stations (by simp), k State.remap (by simp), k State.lanes (by simp),
    k State.gov (by simp), k State.line (by simp), k State.rest (by simp), k State.emergencyStop (by simp),
    k State.accounts (by simp), k State.link (by simp), k State.store (by simp), k State.pending (by simp)⟩

@[simp] theorem purgeSchedule_frame (s : State) :
    (purgeSchedule s).now = s.now ∧ (purgeSchedule s).cfg = s.cfg ∧ (purgeSchedule s).enc = s.enc ∧
    (purgeSchedule s).web = s.web ∧ (purgeSchedule s).stands = s.stands ∧ (purgeSchedule s).stations = s.stations ∧ (purgeSchedule s).remap = s.remap ∧
    (purgeSchedule s).lanes = s.lanes ∧ (purgeSchedule s).gov = s.gov ∧ (purgeSchedule s).line = s.line ∧
    (purgeSchedule s).rest = s.rest ∧ (purgeSchedule s).emergencyStop = s.emergencyStop ∧
    (purgeSchedule s).accounts = s.accounts ∧ (purgeSchedule s).link = s.link ∧ (purgeSchedule s).store = s.store ∧
    (purgeSchedule s).pending = s.pending := by
  simp [purgeSchedule]

@[simp] theorem replanRestated_frame (s : State) :
    (replanRestated s).now = s.now ∧ (replanRestated s).cfg = s.cfg ∧ (replanRestated s).enc = s.enc ∧
    (replanRestated s).web = s.web ∧ (replanRestated s).sched = s.sched ∧ (replanRestated s).stations = s.stations ∧
    (replanRestated s).remap = s.remap ∧ (replanRestated s).lanes = s.lanes ∧ (replanRestated s).delivery = s.delivery ∧
    (replanRestated s).gov = s.gov ∧ (replanRestated s).line = s.line ∧ (replanRestated s).rest = s.rest ∧
    (replanRestated s).emergencyStop = s.emergencyStop ∧ (replanRestated s).accounts = s.accounts ∧ (replanRestated s).link = s.link ∧
    (replanRestated s).store = s.store ∧ (replanRestated s).pending = s.pending := by
  simp only [replanRestated]
  split <;> simp

@[simp] theorem clearSchedule_frame (s : State) :
    (clearSchedule s).now = s.now ∧ (clearSchedule s).cfg = s.cfg ∧ (clearSchedule s).enc = s.enc ∧
    (clearSchedule s).web = s.web ∧ (clearSchedule s).stands = s.stands ∧ (clearSchedule s).stations = s.stations ∧ (clearSchedule s).remap = s.remap ∧
    (clearSchedule s).lanes = s.lanes ∧ (clearSchedule s).delivery = s.delivery ∧ (clearSchedule s).gov = s.gov ∧
    (clearSchedule s).line = s.line ∧ (clearSchedule s).rest = s.rest ∧ (clearSchedule s).emergencyStop = s.emergencyStop ∧
    (clearSchedule s).accounts = s.accounts ∧ (clearSchedule s).link = s.link ∧ (clearSchedule s).store = s.store ∧
    (clearSchedule s).pending = s.pending := by
  simp [clearSchedule]

@[simp] theorem enqueueCut_frame (lane : Lane) (c : CutRec) (s : State) :
    (enqueueCut lane c s).now = s.now ∧ (enqueueCut lane c s).cfg = s.cfg ∧ (enqueueCut lane c s).enc = s.enc ∧
    (enqueueCut lane c s).web = s.web ∧ (enqueueCut lane c s).sched = s.sched ∧ (enqueueCut lane c s).stands = s.stands ∧
    (enqueueCut lane c s).stations = s.stations ∧ (enqueueCut lane c s).remap = s.remap ∧
    (enqueueCut lane c s).lanes = s.lanes ∧ (enqueueCut lane c s).gov = s.gov ∧ (enqueueCut lane c s).line = s.line ∧
    (enqueueCut lane c s).rest = s.rest ∧ (enqueueCut lane c s).emergencyStop = s.emergencyStop ∧
    (enqueueCut lane c s).accounts = s.accounts ∧ (enqueueCut lane c s).link = s.link ∧
    (enqueueCut lane c s).store = s.store ∧ (enqueueCut lane c s).issued = s.issued ∧
    (enqueueCut lane c s).pending = s.pending := by
  simp [enqueueCut]

@[simp] theorem setGate_frame (lane : Lane) (g : Disposition) (s : State) :
    (setGate lane g s).now = s.now ∧ (setGate lane g s).cfg = s.cfg ∧ (setGate lane g s).enc = s.enc ∧
    (setGate lane g s).web = s.web ∧ (setGate lane g s).sched = s.sched ∧ (setGate lane g s).stands = s.stands ∧
    (setGate lane g s).stations = s.stations ∧ (setGate lane g s).remap = s.remap ∧ (setGate lane g s).lanes = s.lanes ∧
    (setGate lane g s).gov = s.gov ∧ (setGate lane g s).line = s.line ∧ (setGate lane g s).rest = s.rest ∧
    (setGate lane g s).emergencyStop = s.emergencyStop ∧ (setGate lane g s).accounts = s.accounts ∧
    (setGate lane g s).link = s.link ∧ (setGate lane g s).store = s.store ∧ (setGate lane g s).pending = s.pending := by
  simp only [setGate]
  (repeat' split) <;> simp

@[simp] theorem layCut_frame (lane : Lane) (o : Nat) (outs : Nat) (s : State) :
    (layCut lane o outs s).now = s.now ∧ (layCut lane o outs s).cfg = s.cfg ∧ (layCut lane o outs s).enc = s.enc ∧
    (layCut lane o outs s).web = s.web ∧ (layCut lane o outs s).stands = s.stands ∧
    (layCut lane o outs s).stations = s.stations ∧ (layCut lane o outs s).remap = s.remap ∧
    (layCut lane o outs s).lanes = s.lanes ∧ (layCut lane o outs s).gov = s.gov ∧ (layCut lane o outs s).line = s.line ∧
    (layCut lane o outs s).rest = s.rest ∧ (layCut lane o outs s).emergencyStop = s.emergencyStop ∧
    (layCut lane o outs s).accounts = s.accounts ∧ (layCut lane o outs s).link = s.link ∧
    (layCut lane o outs s).store = s.store ∧ (layCut lane o outs s).pending = s.pending := by
  simp [layCut]

@[simp] theorem divertGood_frame (lane : Lane) (o : Nat) (outs : Nat) (s : State) :
    (divertGood lane o outs s).now = s.now ∧ (divertGood lane o outs s).cfg = s.cfg ∧
    (divertGood lane o outs s).enc = s.enc ∧ (divertGood lane o outs s).web = s.web ∧
    (divertGood lane o outs s).stands = s.stands ∧ (divertGood lane o outs s).stations = s.stations ∧
    (divertGood lane o outs s).remap = s.remap ∧ (divertGood lane o outs s).lanes = s.lanes ∧
    (divertGood lane o outs s).gov = s.gov ∧ (divertGood lane o outs s).line = s.line ∧
    (divertGood lane o outs s).rest = s.rest ∧ (divertGood lane o outs s).emergencyStop = s.emergencyStop ∧
    (divertGood lane o outs s).link = s.link ∧ (divertGood lane o outs s).store = s.store ∧
    (divertGood lane o outs s).pending = s.pending := by
  simp [divertGood]

@[simp] theorem offerFork_frame (lane : Lane) (o : Nat) (outs : Nat) (s : State) :
    (offerFork lane o outs s).now = s.now ∧ (offerFork lane o outs s).cfg = s.cfg ∧ (offerFork lane o outs s).enc = s.enc ∧
    (offerFork lane o outs s).web = s.web ∧ (offerFork lane o outs s).stands = s.stands ∧
    (offerFork lane o outs s).stations = s.stations ∧ (offerFork lane o outs s).remap = s.remap ∧
    (offerFork lane o outs s).lanes = s.lanes ∧ (offerFork lane o outs s).gov = s.gov ∧
    (offerFork lane o outs s).line = s.line ∧ (offerFork lane o outs s).rest = s.rest ∧
    (offerFork lane o outs s).emergencyStop = s.emergencyStop ∧ (offerFork lane o outs s).link = s.link ∧
    (offerFork lane o outs s).store = s.store ∧ (offerFork lane o outs s).pending = s.pending := by
  simp only [offerFork]
  (repeat' split) <;> simp

@[simp] theorem offerBundle_frame (lane : Lane) (o : Nat) (outs : Nat) (s : State) :
    (offerBundle lane o outs s).now = s.now ∧ (offerBundle lane o outs s).cfg = s.cfg ∧
    (offerBundle lane o outs s).enc = s.enc ∧ (offerBundle lane o outs s).web = s.web ∧
    (offerBundle lane o outs s).stands = s.stands ∧ (offerBundle lane o outs s).stations = s.stations ∧
    (offerBundle lane o outs s).remap = s.remap ∧ (offerBundle lane o outs s).lanes = s.lanes ∧
    (offerBundle lane o outs s).gov = s.gov ∧ (offerBundle lane o outs s).line = s.line ∧
    (offerBundle lane o outs s).rest = s.rest ∧ (offerBundle lane o outs s).emergencyStop = s.emergencyStop ∧
    (offerBundle lane o outs s).link = s.link ∧ (offerBundle lane o outs s).store = s.store ∧
    (offerBundle lane o outs s).pending = s.pending := by
  simp only [offerBundle]
  (repeat' split) <;> simp

@[simp] theorem deliverCut_frame (lane : Lane) (b : Batch) (s : State) :
    (deliverCut lane b s).now = s.now ∧ (deliverCut lane b s).cfg = s.cfg ∧ (deliverCut lane b s).enc = s.enc ∧
    (deliverCut lane b s).web = s.web ∧ (deliverCut lane b s).stands = s.stands ∧
    (deliverCut lane b s).stations = s.stations ∧ (deliverCut lane b s).remap = s.remap ∧
    (deliverCut lane b s).lanes = s.lanes ∧ (deliverCut lane b s).gov = s.gov ∧ (deliverCut lane b s).line = s.line ∧
    (deliverCut lane b s).rest = s.rest ∧ (deliverCut lane b s).emergencyStop = s.emergencyStop ∧
    (deliverCut lane b s).link = s.link ∧ (deliverCut lane b s).store = s.store ∧
    (deliverCut lane b s).pending = s.pending := by
  simp only [deliverCut]
  (repeat' split) <;> simp

@[simp] theorem deliverFront_frame (lane : Lane) (b : Batch) (rest : List Batch) (s : State) :
    (deliverFront lane b rest s).now = s.now ∧ (deliverFront lane b rest s).cfg = s.cfg ∧
    (deliverFront lane b rest s).enc = s.enc ∧ (deliverFront lane b rest s).web = s.web ∧
    (deliverFront lane b rest s).stands = s.stands ∧ (deliverFront lane b rest s).stations = s.stations ∧
    (deliverFront lane b rest s).remap = s.remap ∧ (deliverFront lane b rest s).lanes = s.lanes ∧
    (deliverFront lane b rest s).gov = s.gov ∧ (deliverFront lane b rest s).line = s.line ∧
    (deliverFront lane b rest s).rest = s.rest ∧ (deliverFront lane b rest s).emergencyStop = s.emergencyStop ∧
    (deliverFront lane b rest s).link = s.link ∧ (deliverFront lane b rest s).store = s.store ∧
    (deliverFront lane b rest s).pending = s.pending := by
  simp only [deliverFront]
  (repeat' split) <;> simp

@[simp] theorem deliverReached_frame (lane : Lane) (k : Nat) (s : State) :
    (deliverReached lane k s).now = s.now ∧ (deliverReached lane k s).cfg = s.cfg ∧ (deliverReached lane k s).enc = s.enc ∧
    (deliverReached lane k s).web = s.web ∧ (deliverReached lane k s).stands = s.stands ∧
    (deliverReached lane k s).stations = s.stations ∧ (deliverReached lane k s).remap = s.remap ∧
    (deliverReached lane k s).lanes = s.lanes ∧ (deliverReached lane k s).gov = s.gov ∧
    (deliverReached lane k s).line = s.line ∧ (deliverReached lane k s).rest = s.rest ∧
    (deliverReached lane k s).emergencyStop = s.emergencyStop ∧ (deliverReached lane k s).link = s.link ∧
    (deliverReached lane k s).store = s.store ∧ (deliverReached lane k s).pending = s.pending := by
  induction k generalizing s with
  | zero => simp [deliverReached]
  | succ k ih =>
    simp only [deliverReached]
    (repeat' split) <;> simp [ih]

@[simp] theorem deliverLane_frame (lane : Lane) (s : State) :
    (deliverLane lane s).now = s.now ∧ (deliverLane lane s).cfg = s.cfg ∧ (deliverLane lane s).enc = s.enc ∧
    (deliverLane lane s).web = s.web ∧ (deliverLane lane s).stands = s.stands ∧
    (deliverLane lane s).stations = s.stations ∧ (deliverLane lane s).remap = s.remap ∧
    (deliverLane lane s).lanes = s.lanes ∧ (deliverLane lane s).gov = s.gov ∧ (deliverLane lane s).line = s.line ∧
    (deliverLane lane s).rest = s.rest ∧ (deliverLane lane s).emergencyStop = s.emergencyStop ∧
    (deliverLane lane s).link = s.link ∧ (deliverLane lane s).store = s.store ∧
    (deliverLane lane s).pending = s.pending := by
  simp [deliverLane]

@[simp] theorem changeDone_frame (lane : Lane) (s : State) :
    (changeDone lane s).now = s.now ∧ (changeDone lane s).cfg = s.cfg ∧ (changeDone lane s).enc = s.enc ∧
    (changeDone lane s).web = s.web ∧ (changeDone lane s).sched = s.sched ∧ (changeDone lane s).stands = s.stands ∧
    (changeDone lane s).stations = s.stations ∧ (changeDone lane s).remap = s.remap ∧ (changeDone lane s).lanes = s.lanes ∧
    (changeDone lane s).gov = s.gov ∧ (changeDone lane s).line = s.line ∧ (changeDone lane s).rest = s.rest ∧
    (changeDone lane s).emergencyStop = s.emergencyStop ∧ (changeDone lane s).accounts = s.accounts ∧
    (changeDone lane s).link = s.link ∧ (changeDone lane s).store = s.store ∧ (changeDone lane s).pending = s.pending := by
  simp only [changeDone]
  (repeat' split) <;> simp

@[simp] theorem changeTimeout_frame (lane : Lane) (s : State) :
    (changeTimeout lane s).cfg = s.cfg ∧ (changeTimeout lane s).enc = s.enc ∧ (changeTimeout lane s).web = s.web ∧
    (changeTimeout lane s).sched = s.sched ∧ (changeTimeout lane s).stands = s.stands ∧
    (changeTimeout lane s).stations = s.stations ∧ (changeTimeout lane s).remap = s.remap ∧
    (changeTimeout lane s).lanes = s.lanes ∧ (changeTimeout lane s).gov = s.gov ∧ (changeTimeout lane s).line = s.line ∧
    (changeTimeout lane s).rest = s.rest ∧ (changeTimeout lane s).emergencyStop = s.emergencyStop ∧
    (changeTimeout lane s).accounts = s.accounts ∧ (changeTimeout lane s).link = s.link ∧
    (changeTimeout lane s).store = s.store ∧ (changeTimeout lane s).issued = s.issued ∧
    (changeTimeout lane s).pending = s.pending := by
  simp only [changeTimeout]
  (repeat' split) <;> simp

@[simp] theorem stackEject_frame (lane : Nat) (s : State) :
    (stackEject lane s).1.now = s.now ∧ (stackEject lane s).1.cfg = s.cfg ∧ (stackEject lane s).1.enc = s.enc ∧
    (stackEject lane s).1.web = s.web ∧ (stackEject lane s).1.sched = s.sched ∧ (stackEject lane s).1.stands = s.stands ∧
    (stackEject lane s).1.stations = s.stations ∧ (stackEject lane s).1.remap = s.remap ∧
    (stackEject lane s).1.lanes = s.lanes ∧ (stackEject lane s).1.gov = s.gov ∧ (stackEject lane s).1.line = s.line ∧
    (stackEject lane s).1.rest = s.rest ∧ (stackEject lane s).1.emergencyStop = s.emergencyStop ∧
    (stackEject lane s).1.accounts = s.accounts ∧ (stackEject lane s).1.link = s.link ∧
    (stackEject lane s).1.store = s.store ∧ (stackEject lane s).1.pending = s.pending := by
  simp only [stackEject]
  (repeat' split) <;> simp

@[simp] theorem stackerReset_frame (lane : Nat) (s : State) :
    (stackerReset lane s).1.now = s.now ∧ (stackerReset lane s).1.cfg = s.cfg ∧ (stackerReset lane s).1.enc = s.enc ∧
    (stackerReset lane s).1.web = s.web ∧ (stackerReset lane s).1.sched = s.sched ∧
    (stackerReset lane s).1.stands = s.stands ∧ (stackerReset lane s).1.stations = s.stations ∧
    (stackerReset lane s).1.remap = s.remap ∧ (stackerReset lane s).1.lanes = s.lanes ∧
    (stackerReset lane s).1.gov = s.gov ∧ (stackerReset lane s).1.line = s.line ∧ (stackerReset lane s).1.rest = s.rest ∧
    (stackerReset lane s).1.emergencyStop = s.emergencyStop ∧ (stackerReset lane s).1.accounts = s.accounts ∧
    (stackerReset lane s).1.link = s.link ∧ (stackerReset lane s).1.store = s.store ∧
    (stackerReset lane s).1.issued = s.issued ∧ (stackerReset lane s).1.pending = s.pending := by
  simp only [stackerReset]
  (repeat' split) <;> simp

@[simp] theorem deliveryQuery_frame (lane : Nat) (s : State) :
    (deliveryQuery lane s).1.now = s.now ∧ (deliveryQuery lane s).1.cfg = s.cfg ∧ (deliveryQuery lane s).1.enc = s.enc ∧
    (deliveryQuery lane s).1.web = s.web ∧ (deliveryQuery lane s).1.sched = s.sched ∧
    (deliveryQuery lane s).1.stands = s.stands ∧ (deliveryQuery lane s).1.stations = s.stations ∧
    (deliveryQuery lane s).1.remap = s.remap ∧ (deliveryQuery lane s).1.lanes = s.lanes ∧
    (deliveryQuery lane s).1.delivery = s.delivery ∧ (deliveryQuery lane s).1.gov = s.gov ∧
    (deliveryQuery lane s).1.line = s.line ∧ (deliveryQuery lane s).1.rest = s.rest ∧
    (deliveryQuery lane s).1.emergencyStop = s.emergencyStop ∧ (deliveryQuery lane s).1.accounts = s.accounts ∧
    (deliveryQuery lane s).1.bank = s.bank ∧ (deliveryQuery lane s).1.link = s.link ∧
    (deliveryQuery lane s).1.notices = s.notices ∧ (deliveryQuery lane s).1.store = s.store ∧
    (deliveryQuery lane s).1.issued = s.issued ∧ (deliveryQuery lane s).1.evalDue = s.evalDue ∧
    (deliveryQuery lane s).1.pending = s.pending := by
  simp only [deliveryQuery]
  (repeat' split) <;> simp

@[simp] theorem clearDelivery_frame (lane : Lane) (s : State) :
    (clearDelivery lane s).now = s.now ∧ (clearDelivery lane s).cfg = s.cfg ∧ (clearDelivery lane s).enc = s.enc ∧
    (clearDelivery lane s).web = s.web ∧ (clearDelivery lane s).sched = s.sched ∧
    (clearDelivery lane s).stands = s.stands ∧ (clearDelivery lane s).stations = s.stations ∧
    (clearDelivery lane s).remap = s.remap ∧ (clearDelivery lane s).lanes = s.lanes ∧ (clearDelivery lane s).gov = s.gov ∧
    (clearDelivery lane s).line = s.line ∧ (clearDelivery lane s).rest = s.rest ∧
    (clearDelivery lane s).emergencyStop = s.emergencyStop ∧ (clearDelivery lane s).accounts = s.accounts ∧
    (clearDelivery lane s).link = s.link ∧ (clearDelivery lane s).store = s.store ∧
    (clearDelivery lane s).pending = s.pending := by
  simp [clearDelivery]

@[simp] theorem creditSetup_frame (lane : Lane) (outs : Nat) (s : State) :
    (creditSetup lane outs s).now = s.now ∧ (creditSetup lane outs s).cfg = s.cfg ∧ (creditSetup lane outs s).enc = s.enc ∧
    (creditSetup lane outs s).web = s.web ∧ (creditSetup lane outs s).stands = s.stands ∧
    (creditSetup lane outs s).stations = s.stations ∧ (creditSetup lane outs s).remap = s.remap ∧
    (creditSetup lane outs s).lanes = s.lanes ∧ (creditSetup lane outs s).delivery = s.delivery ∧
    (creditSetup lane outs s).gov = s.gov ∧ (creditSetup lane outs s).line = s.line ∧
    (creditSetup lane outs s).rest = s.rest ∧ (creditSetup lane outs s).emergencyStop = s.emergencyStop ∧
    (creditSetup lane outs s).accounts = s.accounts ∧ (creditSetup lane outs s).bank = s.bank ∧
    (creditSetup lane outs s).link = s.link ∧ (creditSetup lane outs s).notices = s.notices ∧
    (creditSetup lane outs s).store = s.store ∧ (creditSetup lane outs s).issued = s.issued ∧
    (creditSetup lane outs s).evalDue = s.evalDue ∧ (creditSetup lane outs s).pending = s.pending := by
  simp only [creditSetup]
  (repeat' split) <;> simp

@[simp] theorem handCut_frame (lane : Lane) (cls : SheetClass) (order : Option Nat) (length : Nat) (uncovered : Bool)
    (axis : Nat) (s : State) :
    (handCut lane cls order length uncovered axis s).now = s.now ∧
    (handCut lane cls order length uncovered axis s).cfg = s.cfg ∧
    (handCut lane cls order length uncovered axis s).enc = s.enc ∧
    (handCut lane cls order length uncovered axis s).web = s.web ∧
    (handCut lane cls order length uncovered axis s).stations = s.stations ∧
    (handCut lane cls order length uncovered axis s).remap = s.remap ∧
    (handCut lane cls order length uncovered axis s).lanes = s.lanes ∧
    (handCut lane cls order length uncovered axis s).gov = s.gov ∧
    (handCut lane cls order length uncovered axis s).line = s.line ∧
    (handCut lane cls order length uncovered axis s).rest = s.rest ∧
    (handCut lane cls order length uncovered axis s).emergencyStop = s.emergencyStop ∧
    (handCut lane cls order length uncovered axis s).link = s.link ∧
    (handCut lane cls order length uncovered axis s).store = s.store ∧
    (handCut lane cls order length uncovered axis s).pending = s.pending := by
  simp only [handCut]
  (repeat' split) <;> simp

@[simp] theorem takeShadow_frame (lane : Lane) (s : State) :
    (takeShadow lane s).now = s.now ∧ (takeShadow lane s).cfg = s.cfg ∧ (takeShadow lane s).enc = s.enc ∧
    (takeShadow lane s).web = s.web ∧ (takeShadow lane s).sched = s.sched ∧ (takeShadow lane s).stands = s.stands ∧
    (takeShadow lane s).stations = s.stations ∧ (takeShadow lane s).remap = s.remap ∧
    (takeShadow lane s).delivery = s.delivery ∧ (takeShadow lane s).gov = s.gov ∧ (takeShadow lane s).line = s.line ∧
    (takeShadow lane s).rest = s.rest ∧ (takeShadow lane s).emergencyStop = s.emergencyStop ∧
    (takeShadow lane s).accounts = s.accounts ∧ (takeShadow lane s).bank = s.bank ∧ (takeShadow lane s).link = s.link ∧
    (takeShadow lane s).notices = s.notices ∧ (takeShadow lane s).store = s.store ∧
    (takeShadow lane s).pending = s.pending := by
  simp only [takeShadow]
  (repeat' split) <;> simp

@[simp] theorem stretch_frame (lane : Lane) (report : List Crossing) (axis : Nat) (a : Nat) (b : Nat) (s : State) :
    (stretch lane report axis a b s).now = s.now ∧ (stretch lane report axis a b s).cfg = s.cfg ∧
    (stretch lane report axis a b s).enc = s.enc ∧ (stretch lane report axis a b s).web = s.web ∧
    (stretch lane report axis a b s).stations = s.stations ∧ (stretch lane report axis a b s).remap = s.remap ∧
    (stretch lane report axis a b s).gov = s.gov ∧ (stretch lane report axis a b s).line = s.line ∧
    (stretch lane report axis a b s).rest = s.rest ∧ (stretch lane report axis a b s).emergencyStop = s.emergencyStop ∧
    (stretch lane report axis a b s).link = s.link ∧ (stretch lane report axis a b s).store = s.store ∧
    (stretch lane report axis a b s).pending = s.pending := by
  simp only [stretch]
  (repeat' split) <;> simp

@[simp] theorem releaseOrder_frame (former : Option LaneJob) (s : State) :
    (releaseOrder former s).now = s.now ∧ (releaseOrder former s).cfg = s.cfg ∧ (releaseOrder former s).enc = s.enc ∧
    (releaseOrder former s).web = s.web ∧ (releaseOrder former s).stands = s.stands ∧
    (releaseOrder former s).stations = s.stations ∧ (releaseOrder former s).remap = s.remap ∧
    (releaseOrder former s).lanes = s.lanes ∧ (releaseOrder former s).gov = s.gov ∧ (releaseOrder former s).line = s.line ∧
    (releaseOrder former s).rest = s.rest ∧ (releaseOrder former s).emergencyStop = s.emergencyStop ∧
    (releaseOrder former s).accounts = s.accounts ∧ (releaseOrder former s).link = s.link ∧
    (releaseOrder former s).store = s.store ∧ (releaseOrder former s).pending = s.pending := by
  simp [releaseOrder]

@[simp] theorem cutPiece_frame (lane : Lane) (r : LaneRec) (axis : Nat) (s : State) :
    (cutPiece lane r axis s).now = s.now ∧ (cutPiece lane r axis s).cfg = s.cfg ∧ (cutPiece lane r axis s).enc = s.enc ∧
    (cutPiece lane r axis s).web = s.web ∧ (cutPiece lane r axis s).stations = s.stations ∧
    (cutPiece lane r axis s).remap = s.remap ∧ (cutPiece lane r axis s).lanes = s.lanes ∧
    (cutPiece lane r axis s).gov = s.gov ∧ (cutPiece lane r axis s).line = s.line ∧
    (cutPiece lane r axis s).rest = s.rest ∧ (cutPiece lane r axis s).emergencyStop = s.emergencyStop ∧
    (cutPiece lane r axis s).link = s.link ∧ (cutPiece lane r axis s).store = s.store ∧
    (cutPiece lane r axis s).pending = s.pending := by
  simp only [cutPiece]
  (repeat' split) <;> simp

@[simp] theorem knifeOvershoot_frame (lane : Lane) (s : State) :
    (knifeOvershoot lane s).now = s.now ∧ (knifeOvershoot lane s).cfg = s.cfg ∧ (knifeOvershoot lane s).enc = s.enc ∧
    (knifeOvershoot lane s).web = s.web ∧ (knifeOvershoot lane s).sched = s.sched ∧
    (knifeOvershoot lane s).stands = s.stands ∧ (knifeOvershoot lane s).stations = s.stations ∧
    (knifeOvershoot lane s).remap = s.remap ∧ (knifeOvershoot lane s).lanes = s.lanes ∧
    (knifeOvershoot lane s).delivery = s.delivery ∧ (knifeOvershoot lane s).gov = s.gov ∧
    (knifeOvershoot lane s).line = s.line ∧ (knifeOvershoot lane s).rest = s.rest ∧
    (knifeOvershoot lane s).emergencyStop = s.emergencyStop ∧ (knifeOvershoot lane s).bank = s.bank ∧
    (knifeOvershoot lane s).link = s.link ∧ (knifeOvershoot lane s).notices = s.notices ∧
    (knifeOvershoot lane s).store = s.store ∧ (knifeOvershoot lane s).issued = s.issued ∧
    (knifeOvershoot lane s).evalDue = s.evalDue ∧ (knifeOvershoot lane s).pending = s.pending := by
  simp only [knifeOvershoot]
  (repeat' split) <;> simp

@[simp] theorem changeOver_frame (lane : Lane) (id : Nat) (run : LaneRun) (axis : Nat) (s : State) :
    (changeOver lane id run axis s).now = s.now ∧ (changeOver lane id run axis s).cfg = s.cfg ∧
    (changeOver lane id run axis s).enc = s.enc ∧ (changeOver lane id run axis s).web = s.web ∧
    (changeOver lane id run axis s).stations = s.stations ∧ (changeOver lane id run axis s).remap = s.remap ∧
    (changeOver lane id run axis s).gov = s.gov ∧ (changeOver lane id run axis s).line = s.line ∧
    (changeOver lane id run axis s).rest = s.rest ∧ (changeOver lane id run axis s).emergencyStop = s.emergencyStop ∧
    (changeOver lane id run axis s).link = s.link ∧ (changeOver lane id run axis s).store = s.store ∧
    (changeOver lane id run axis s).pending = s.pending := by
  simp only [changeOver]
  (repeat' split) <;> simp

@[simp] theorem enableLane_frame (lane : Lane) (id : Nat) (run : LaneRun) (s : State) :
    (enableLane lane id run s).now = s.now ∧ (enableLane lane id run s).cfg = s.cfg ∧
    (enableLane lane id run s).enc = s.enc ∧ (enableLane lane id run s).web = s.web ∧
    (enableLane lane id run s).sched = s.sched ∧ (enableLane lane id run s).stands = s.stands ∧
    (enableLane lane id run s).stations = s.stations ∧ (enableLane lane id run s).remap = s.remap ∧
    (enableLane lane id run s).delivery = s.delivery ∧ (enableLane lane id run s).gov = s.gov ∧
    (enableLane lane id run s).line = s.line ∧ (enableLane lane id run s).rest = s.rest ∧
    (enableLane lane id run s).emergencyStop = s.emergencyStop ∧ (enableLane lane id run s).bank = s.bank ∧
    (enableLane lane id run s).link = s.link ∧ (enableLane lane id run s).notices = s.notices ∧
    (enableLane lane id run s).store = s.store ∧ (enableLane lane id run s).pending = s.pending := by
  simp [enableLane]

@[simp] theorem closeLane_frame (lane : Lane) (axis : Nat) (s : State) :
    (closeLane lane axis s).now = s.now ∧ (closeLane lane axis s).cfg = s.cfg ∧ (closeLane lane axis s).enc = s.enc ∧
    (closeLane lane axis s).web = s.web ∧ (closeLane lane axis s).stations = s.stations ∧
    (closeLane lane axis s).remap = s.remap ∧ (closeLane lane axis s).gov = s.gov ∧ (closeLane lane axis s).line = s.line ∧
    (closeLane lane axis s).rest = s.rest ∧ (closeLane lane axis s).emergencyStop = s.emergencyStop ∧
    (closeLane lane axis s).link = s.link ∧ (closeLane lane axis s).store = s.store ∧
    (closeLane lane axis s).pending = s.pending := by
  simp only [closeLane]
  (repeat' split) <;> simp

@[simp] theorem laneArrival_frame (lane : Lane) (id : Nat) (axis : Nat) (s : State) :
    (laneArrival lane id axis s).now = s.now ∧ (laneArrival lane id axis s).cfg = s.cfg ∧
    (laneArrival lane id axis s).enc = s.enc ∧ (laneArrival lane id axis s).web = s.web ∧
    (laneArrival lane id axis s).stations = s.stations ∧ (laneArrival lane id axis s).remap = s.remap ∧
    (laneArrival lane id axis s).gov = s.gov ∧ (laneArrival lane id axis s).line = s.line ∧
    (laneArrival lane id axis s).rest = s.rest ∧ (laneArrival lane id axis s).emergencyStop = s.emergencyStop ∧
    (laneArrival lane id axis s).link = s.link ∧ (laneArrival lane id axis s).store = s.store ∧
    (laneArrival lane id axis s).pending = s.pending := by
  simp only [laneArrival]
  (repeat' split) <;> simp

@[simp] theorem laneStretches_frame (lane : Lane) (report : List Crossing) (axis : Nat) (n : Nat) (a : Nat)
    (points : List (Nat × Nat)) (s : State) :
    (laneStretches lane report axis n a points s).now = s.now ∧ (laneStretches lane report axis n a points s).cfg = s.cfg ∧
    (laneStretches lane report axis n a points s).enc = s.enc ∧ (laneStretches lane report axis n a points s).web = s.web ∧
    (laneStretches lane report axis n a points s).stations = s.stations ∧
    (laneStretches lane report axis n a points s).remap = s.remap ∧
    (laneStretches lane report axis n a points s).gov = s.gov ∧
    (laneStretches lane report axis n a points s).line = s.line ∧
    (laneStretches lane report axis n a points s).rest = s.rest ∧
    (laneStretches lane report axis n a points s).emergencyStop = s.emergencyStop ∧
    (laneStretches lane report axis n a points s).link = s.link ∧
    (laneStretches lane report axis n a points s).store = s.store ∧
    (laneStretches lane report axis n a points s).pending = s.pending := by
  induction points generalizing a s with
  | nil => simp [laneStretches]
  | cons p ps ih => simp [laneStretches, ih]

@[simp] theorem laneAdvance_frame (lane : Lane) (report : List Crossing) (points : List (Nat × Nat)) (axis : Nat)
    (n : Nat) (s : State) :
    (laneAdvance lane report points axis n s).now = s.now ∧ (laneAdvance lane report points axis n s).cfg = s.cfg ∧
    (laneAdvance lane report points axis n s).enc = s.enc ∧ (laneAdvance lane report points axis n s).web = s.web ∧
    (laneAdvance lane report points axis n s).stations = s.stations ∧
    (laneAdvance lane report points axis n s).remap = s.remap ∧ (laneAdvance lane report points axis n s).gov = s.gov ∧
    (laneAdvance lane report points axis n s).line = s.line ∧ (laneAdvance lane report points axis n s).rest = s.rest ∧
    (laneAdvance lane report points axis n s).emergencyStop = s.emergencyStop ∧
    (laneAdvance lane report points axis n s).link = s.link ∧ (laneAdvance lane report points axis n s).store = s.store ∧
    (laneAdvance lane report points axis n s).pending = s.pending := by
  simp [laneAdvance]

@[simp] theorem trimEnter_frame (lane : Nat) (range : Nat) (s : State) :
    (trimEnter lane range s).1.now = s.now ∧ (trimEnter lane range s).1.cfg = s.cfg ∧
    (trimEnter lane range s).1.enc = s.enc ∧ (trimEnter lane range s).1.web = s.web ∧
    (trimEnter lane range s).1.sched = s.sched ∧ (trimEnter lane range s).1.stands = s.stands ∧
    (trimEnter lane range s).1.stations = s.stations ∧ (trimEnter lane range s).1.remap = s.remap ∧
    (trimEnter lane range s).1.delivery = s.delivery ∧ (trimEnter lane range s).1.gov = s.gov ∧
    (trimEnter lane range s).1.line = s.line ∧ (trimEnter lane range s).1.rest = s.rest ∧
    (trimEnter lane range s).1.emergencyStop = s.emergencyStop ∧ (trimEnter lane range s).1.accounts = s.accounts ∧
    (trimEnter lane range s).1.bank = s.bank ∧ (trimEnter lane range s).1.link = s.link ∧
    (trimEnter lane range s).1.notices = s.notices ∧ (trimEnter lane range s).1.store = s.store ∧
    (trimEnter lane range s).1.issued = s.issued ∧ (trimEnter lane range s).1.pending = s.pending := by
  simp only [trimEnter]
  (repeat' split) <;> simp

@[simp] theorem trimSet_frame (lane : Nat) (steps : Int) (s : State) :
    (trimSet lane steps s).1.now = s.now ∧ (trimSet lane steps s).1.cfg = s.cfg ∧ (trimSet lane steps s).1.enc = s.enc ∧
    (trimSet lane steps s).1.web = s.web ∧ (trimSet lane steps s).1.sched = s.sched ∧
    (trimSet lane steps s).1.stands = s.stands ∧ (trimSet lane steps s).1.stations = s.stations ∧
    (trimSet lane steps s).1.remap = s.remap ∧ (trimSet lane steps s).1.delivery = s.delivery ∧
    (trimSet lane steps s).1.gov = s.gov ∧ (trimSet lane steps s).1.line = s.line ∧
    (trimSet lane steps s).1.rest = s.rest ∧ (trimSet lane steps s).1.emergencyStop = s.emergencyStop ∧
    (trimSet lane steps s).1.accounts = s.accounts ∧ (trimSet lane steps s).1.bank = s.bank ∧
    (trimSet lane steps s).1.link = s.link ∧ (trimSet lane steps s).1.notices = s.notices ∧
    (trimSet lane steps s).1.store = s.store ∧ (trimSet lane steps s).1.issued = s.issued ∧
    (trimSet lane steps s).1.pending = s.pending := by
  simp only [trimSet]
  (repeat' split) <;> simp

@[simp] theorem trimExit_frame (lane : Nat) (s : State) :
    (trimExit lane s).1.now = s.now ∧ (trimExit lane s).1.cfg = s.cfg ∧ (trimExit lane s).1.enc = s.enc ∧
    (trimExit lane s).1.web = s.web ∧ (trimExit lane s).1.sched = s.sched ∧ (trimExit lane s).1.stands = s.stands ∧
    (trimExit lane s).1.stations = s.stations ∧ (trimExit lane s).1.remap = s.remap ∧
    (trimExit lane s).1.delivery = s.delivery ∧ (trimExit lane s).1.gov = s.gov ∧ (trimExit lane s).1.line = s.line ∧
    (trimExit lane s).1.rest = s.rest ∧ (trimExit lane s).1.emergencyStop = s.emergencyStop ∧
    (trimExit lane s).1.accounts = s.accounts ∧ (trimExit lane s).1.bank = s.bank ∧ (trimExit lane s).1.link = s.link ∧
    (trimExit lane s).1.notices = s.notices ∧ (trimExit lane s).1.store = s.store ∧ (trimExit lane s).1.issued = s.issued ∧
    (trimExit lane s).1.pending = s.pending := by
  simp only [trimExit]
  (repeat' split) <;> simp

@[simp] theorem knifeQuery_frame (lane : Nat) (s : State) :
    (knifeQuery lane s).1.now = s.now ∧ (knifeQuery lane s).1.cfg = s.cfg ∧ (knifeQuery lane s).1.enc = s.enc ∧
    (knifeQuery lane s).1.web = s.web ∧ (knifeQuery lane s).1.sched = s.sched ∧ (knifeQuery lane s).1.stands = s.stands ∧
    (knifeQuery lane s).1.stations = s.stations ∧ (knifeQuery lane s).1.remap = s.remap ∧
    (knifeQuery lane s).1.lanes = s.lanes ∧ (knifeQuery lane s).1.delivery = s.delivery ∧
    (knifeQuery lane s).1.gov = s.gov ∧ (knifeQuery lane s).1.line = s.line ∧ (knifeQuery lane s).1.rest = s.rest ∧
    (knifeQuery lane s).1.emergencyStop = s.emergencyStop ∧ (knifeQuery lane s).1.accounts = s.accounts ∧
    (knifeQuery lane s).1.bank = s.bank ∧ (knifeQuery lane s).1.link = s.link ∧ (knifeQuery lane s).1.notices = s.notices ∧
    (knifeQuery lane s).1.store = s.store ∧ (knifeQuery lane s).1.issued = s.issued ∧
    (knifeQuery lane s).1.evalDue = s.evalDue ∧ (knifeQuery lane s).1.pending = s.pending := by
  simp only [knifeQuery]
  (repeat' split) <;> simp

@[simp] theorem purgeLane_frame (lane : Lane) (s : State) :
    (purgeLane lane s).now = s.now ∧ (purgeLane lane s).cfg = s.cfg ∧ (purgeLane lane s).enc = s.enc ∧
    (purgeLane lane s).web = s.web ∧ (purgeLane lane s).stands = s.stands ∧ (purgeLane lane s).stations = s.stations ∧
    (purgeLane lane s).remap = s.remap ∧ (purgeLane lane s).gov = s.gov ∧ (purgeLane lane s).line = s.line ∧
    (purgeLane lane s).rest = s.rest ∧ (purgeLane lane s).emergencyStop = s.emergencyStop ∧
    (purgeLane lane s).accounts = s.accounts ∧ (purgeLane lane s).link = s.link ∧ (purgeLane lane s).store = s.store ∧
    (purgeLane lane s).pending = s.pending := by
  simp only [purgeLane]
  (repeat' split) <;> simp

@[simp] theorem clearLanes_frame (s : State) :
    (clearLanes s).now = s.now ∧ (clearLanes s).cfg = s.cfg ∧ (clearLanes s).enc = s.enc ∧ (clearLanes s).web = s.web ∧
    (clearLanes s).sched = s.sched ∧ (clearLanes s).stands = s.stands ∧ (clearLanes s).stations = s.stations ∧
    (clearLanes s).remap = s.remap ∧ (clearLanes s).delivery = s.delivery ∧ (clearLanes s).gov = s.gov ∧
    (clearLanes s).line = s.line ∧ (clearLanes s).rest = s.rest ∧ (clearLanes s).emergencyStop = s.emergencyStop ∧
    (clearLanes s).accounts = s.accounts ∧ (clearLanes s).bank = s.bank ∧ (clearLanes s).link = s.link ∧
    (clearLanes s).notices = s.notices ∧ (clearLanes s).store = s.store ∧ (clearLanes s).pending = s.pending := by
  simp [clearLanes]

@[simp] theorem takeLimits_frame (s : State) :
    (takeLimits s).now = s.now ∧ (takeLimits s).cfg = s.cfg ∧ (takeLimits s).enc = s.enc ∧ (takeLimits s).web = s.web ∧
    (takeLimits s).sched = s.sched ∧ (takeLimits s).stands = s.stands ∧ (takeLimits s).stations = s.stations ∧
    (takeLimits s).remap = s.remap ∧ (takeLimits s).lanes = s.lanes ∧ (takeLimits s).delivery = s.delivery ∧
    (takeLimits s).line = s.line ∧ (takeLimits s).rest = s.rest ∧ (takeLimits s).emergencyStop = s.emergencyStop ∧
    (takeLimits s).accounts = s.accounts ∧ (takeLimits s).link = s.link ∧ (takeLimits s).store = s.store ∧
    (takeLimits s).issued = s.issued ∧ (takeLimits s).evalDue = s.evalDue ∧ (takeLimits s).pending = s.pending := by
  simp only [takeLimits]
  (repeat' split) <;> simp

@[simp] theorem firingTests_frame (s : State) :
    (firingTests s).now = s.now ∧ (firingTests s).cfg = s.cfg ∧ (firingTests s).enc = s.enc ∧ (firingTests s).web = s.web ∧
    (firingTests s).sched = s.sched ∧ (firingTests s).stations = s.stations ∧ (firingTests s).remap = s.remap ∧
    (firingTests s).lanes = s.lanes ∧ (firingTests s).delivery = s.delivery ∧ (firingTests s).gov = s.gov ∧
    (firingTests s).line = s.line ∧ (firingTests s).rest = s.rest ∧ (firingTests s).emergencyStop = s.emergencyStop ∧
    (firingTests s).accounts = s.accounts ∧ (firingTests s).link = s.link ∧ (firingTests s).store = s.store ∧
    (firingTests s).pending = s.pending := by
  have k := fun {β : Type} (p : State → β) (h : ∀ s a, p (firingTest a s) = p s) =>
    foldl_keeps p (fun s a => firingTest a s) h slots s
  exact ⟨k State.now (by simp), k State.cfg (by simp), k State.enc (by simp), k State.web (by simp),
    k State.sched (by simp), k State.stations (by simp), k State.remap (by simp), k State.lanes (by simp),
    k State.delivery (by simp), k State.gov (by simp), k State.line (by simp), k State.rest (by simp),
    k State.emergencyStop (by simp), k State.accounts (by simp), k State.link (by simp), k State.store (by simp),
    k State.pending (by simp)⟩

@[simp] theorem takeReference_frame (s : State) :
    (takeReference s).now = s.now ∧ (takeReference s).cfg = s.cfg ∧ (takeReference s).enc = s.enc ∧
    (takeReference s).web = s.web ∧ (takeReference s).sched = s.sched ∧ (takeReference s).stations = s.stations ∧
    (takeReference s).remap = s.remap ∧ (takeReference s).lanes = s.lanes ∧ (takeReference s).delivery = s.delivery ∧
    (takeReference s).line = s.line ∧ (takeReference s).rest = s.rest ∧ (takeReference s).emergencyStop = s.emergencyStop ∧
    (takeReference s).accounts = s.accounts ∧ (takeReference s).link = s.link ∧ (takeReference s).store = s.store ∧
    (takeReference s).pending = s.pending := by
  simp only [takeReference]
  (repeat' split) <;> simp

@[simp] theorem takeRampTimer_frame (s : State) :
    (takeRampTimer s).now = s.now ∧ (takeRampTimer s).cfg = s.cfg ∧ (takeRampTimer s).enc = s.enc ∧
    (takeRampTimer s).web = s.web ∧ (takeRampTimer s).sched = s.sched ∧ (takeRampTimer s).stands = s.stands ∧
    (takeRampTimer s).stations = s.stations ∧ (takeRampTimer s).remap = s.remap ∧ (takeRampTimer s).lanes = s.lanes ∧
    (takeRampTimer s).delivery = s.delivery ∧ (takeRampTimer s).line = s.line ∧ (takeRampTimer s).rest = s.rest ∧
    (takeRampTimer s).emergencyStop = s.emergencyStop ∧ (takeRampTimer s).accounts = s.accounts ∧
    (takeRampTimer s).bank = s.bank ∧ (takeRampTimer s).link = s.link ∧ (takeRampTimer s).notices = s.notices ∧
    (takeRampTimer s).store = s.store ∧ (takeRampTimer s).issued = s.issued ∧ (takeRampTimer s).evalDue = s.evalDue ∧
    (takeRampTimer s).pending = s.pending := by
  simp only [takeRampTimer]
  (repeat' split) <;> simp

@[simp] theorem issueGlue_frame (changed : Bool) (unit : GlueUnit) (s : State) :
    (issueGlue changed unit s).now = s.now ∧ (issueGlue changed unit s).cfg = s.cfg ∧
    (issueGlue changed unit s).enc = s.enc ∧ (issueGlue changed unit s).web = s.web ∧
    (issueGlue changed unit s).sched = s.sched ∧ (issueGlue changed unit s).stands = s.stands ∧
    (issueGlue changed unit s).stations = s.stations ∧ (issueGlue changed unit s).remap = s.remap ∧
    (issueGlue changed unit s).lanes = s.lanes ∧ (issueGlue changed unit s).delivery = s.delivery ∧
    (issueGlue changed unit s).line = s.line ∧ (issueGlue changed unit s).rest = s.rest ∧
    (issueGlue changed unit s).emergencyStop = s.emergencyStop ∧ (issueGlue changed unit s).accounts = s.accounts ∧
    (issueGlue changed unit s).bank = s.bank ∧ (issueGlue changed unit s).link = s.link ∧
    (issueGlue changed unit s).notices = s.notices ∧ (issueGlue changed unit s).store = s.store ∧
    (issueGlue changed unit s).evalDue = s.evalDue ∧ (issueGlue changed unit s).pending = s.pending := by
  simp only [issueGlue]
  (repeat' split) <;> simp

@[simp] theorem takeGlue_frame (s : State) :
    (takeGlue s).now = s.now ∧ (takeGlue s).cfg = s.cfg ∧ (takeGlue s).enc = s.enc ∧ (takeGlue s).web = s.web ∧
    (takeGlue s).sched = s.sched ∧ (takeGlue s).stands = s.stands ∧ (takeGlue s).stations = s.stations ∧
    (takeGlue s).remap = s.remap ∧ (takeGlue s).lanes = s.lanes ∧ (takeGlue s).delivery = s.delivery ∧
    (takeGlue s).line = s.line ∧ (takeGlue s).rest = s.rest ∧ (takeGlue s).emergencyStop = s.emergencyStop ∧
    (takeGlue s).accounts = s.accounts ∧ (takeGlue s).bank = s.bank ∧ (takeGlue s).link = s.link ∧
    (takeGlue s).notices = s.notices ∧ (takeGlue s).store = s.store ∧ (takeGlue s).evalDue = s.evalDue ∧
    (takeGlue s).pending = s.pending := by
  simp [takeGlue]

@[simp] theorem evaluate_frame (s : State) :
    (evaluate s).now = s.now ∧ (evaluate s).cfg = s.cfg ∧ (evaluate s).enc = s.enc ∧ (evaluate s).web = s.web ∧
    (evaluate s).sched = s.sched ∧ (evaluate s).stations = s.stations ∧ (evaluate s).remap = s.remap ∧
    (evaluate s).lanes = s.lanes ∧ (evaluate s).delivery = s.delivery ∧ (evaluate s).line = s.line ∧
    (evaluate s).rest = s.rest ∧ (evaluate s).emergencyStop = s.emergencyStop ∧ (evaluate s).accounts = s.accounts ∧
    (evaluate s).link = s.link ∧ (evaluate s).store = s.store ∧ (evaluate s).pending = s.pending := by
  simp [evaluate]

@[simp] theorem rampExpiry_frame (s : State) :
    (rampExpiry s).cfg = s.cfg ∧ (rampExpiry s).enc = s.enc ∧ (rampExpiry s).web = s.web ∧ (rampExpiry s).sched = s.sched ∧
    (rampExpiry s).stands = s.stands ∧ (rampExpiry s).stations = s.stations ∧ (rampExpiry s).remap = s.remap ∧
    (rampExpiry s).lanes = s.lanes ∧ (rampExpiry s).delivery = s.delivery ∧ (rampExpiry s).line = s.line ∧
    (rampExpiry s).rest = s.rest ∧ (rampExpiry s).emergencyStop = s.emergencyStop ∧ (rampExpiry s).accounts = s.accounts ∧
    (rampExpiry s).bank = s.bank ∧ (rampExpiry s).link = s.link ∧ (rampExpiry s).notices = s.notices ∧
    (rampExpiry s).store = s.store ∧ (rampExpiry s).issued = s.issued ∧ (rampExpiry s).pending = s.pending := by
  simp only [rampExpiry]
  (repeat' split) <;> simp

@[simp] theorem estimateRunout_frame (st : Station) (s : State) :
    (estimateRunout st s).cfg = s.cfg ∧ (estimateRunout st s).enc = s.enc ∧ (estimateRunout st s).web = s.web ∧
    (estimateRunout st s).sched = s.sched ∧ (estimateRunout st s).stands = s.stands ∧
    (estimateRunout st s).stations = s.stations ∧ (estimateRunout st s).remap = s.remap ∧
    (estimateRunout st s).lanes = s.lanes ∧ (estimateRunout st s).delivery = s.delivery ∧
    (estimateRunout st s).gov = s.gov ∧ (estimateRunout st s).line = s.line ∧ (estimateRunout st s).rest = s.rest ∧
    (estimateRunout st s).emergencyStop = s.emergencyStop ∧ (estimateRunout st s).accounts = s.accounts ∧
    (estimateRunout st s).bank = s.bank ∧ (estimateRunout st s).link = s.link ∧ (estimateRunout st s).notices = s.notices ∧
    (estimateRunout st s).store = s.store ∧ (estimateRunout st s).issued = s.issued ∧
    (estimateRunout st s).pending = s.pending := by
  simp only [estimateRunout]
  (repeat' split) <;> simp

@[simp] theorem hotPlateReading_frame (tenthsC : Int) (s : State) :
    (hotPlateReading tenthsC s).now = s.now ∧ (hotPlateReading tenthsC s).cfg = s.cfg ∧
    (hotPlateReading tenthsC s).enc = s.enc ∧ (hotPlateReading tenthsC s).web = s.web ∧
    (hotPlateReading tenthsC s).sched = s.sched ∧ (hotPlateReading tenthsC s).stands = s.stands ∧
    (hotPlateReading tenthsC s).stations = s.stations ∧ (hotPlateReading tenthsC s).remap = s.remap ∧
    (hotPlateReading tenthsC s).lanes = s.lanes ∧ (hotPlateReading tenthsC s).delivery = s.delivery ∧
    (hotPlateReading tenthsC s).line = s.line ∧ (hotPlateReading tenthsC s).rest = s.rest ∧
    (hotPlateReading tenthsC s).emergencyStop = s.emergencyStop ∧ (hotPlateReading tenthsC s).accounts = s.accounts ∧
    (hotPlateReading tenthsC s).bank = s.bank ∧ (hotPlateReading tenthsC s).link = s.link ∧
    (hotPlateReading tenthsC s).notices = s.notices ∧ (hotPlateReading tenthsC s).store = s.store ∧
    (hotPlateReading tenthsC s).issued = s.issued ∧ (hotPlateReading tenthsC s).pending = s.pending := by
  simp only [hotPlateReading]
  (repeat' split) <;> simp

@[simp] theorem temperatureAging_frame (s : State) :
    (temperatureAging s).cfg = s.cfg ∧ (temperatureAging s).enc = s.enc ∧ (temperatureAging s).web = s.web ∧
    (temperatureAging s).sched = s.sched ∧ (temperatureAging s).stands = s.stands ∧
    (temperatureAging s).stations = s.stations ∧ (temperatureAging s).remap = s.remap ∧
    (temperatureAging s).lanes = s.lanes ∧ (temperatureAging s).delivery = s.delivery ∧
    (temperatureAging s).line = s.line ∧ (temperatureAging s).rest = s.rest ∧
    (temperatureAging s).emergencyStop = s.emergencyStop ∧ (temperatureAging s).accounts = s.accounts ∧
    (temperatureAging s).bank = s.bank ∧ (temperatureAging s).link = s.link ∧ (temperatureAging s).notices = s.notices ∧
    (temperatureAging s).store = s.store ∧ (temperatureAging s).issued = s.issued ∧
    (temperatureAging s).pending = s.pending := by
  simp only [temperatureAging]
  (repeat' split) <;> simp

@[simp] theorem temperatureStale_frame (s : State) :
    (temperatureStale s).cfg = s.cfg ∧ (temperatureStale s).enc = s.enc ∧ (temperatureStale s).web = s.web ∧
    (temperatureStale s).sched = s.sched ∧ (temperatureStale s).stands = s.stands ∧
    (temperatureStale s).stations = s.stations ∧ (temperatureStale s).remap = s.remap ∧
    (temperatureStale s).lanes = s.lanes ∧ (temperatureStale s).delivery = s.delivery ∧
    (temperatureStale s).line = s.line ∧ (temperatureStale s).rest = s.rest ∧
    (temperatureStale s).emergencyStop = s.emergencyStop ∧ (temperatureStale s).accounts = s.accounts ∧
    (temperatureStale s).bank = s.bank ∧ (temperatureStale s).link = s.link ∧ (temperatureStale s).notices = s.notices ∧
    (temperatureStale s).store = s.store ∧ (temperatureStale s).issued = s.issued ∧
    (temperatureStale s).pending = s.pending := by
  simp only [temperatureStale]
  (repeat' split) <;> simp

@[simp] theorem speedDemand_frame (speed : Nat) (s : State) :
    (speedDemand speed s).1.now = s.now ∧ (speedDemand speed s).1.cfg = s.cfg ∧ (speedDemand speed s).1.enc = s.enc ∧
    (speedDemand speed s).1.web = s.web ∧ (speedDemand speed s).1.sched = s.sched ∧
    (speedDemand speed s).1.stands = s.stands ∧ (speedDemand speed s).1.stations = s.stations ∧
    (speedDemand speed s).1.remap = s.remap ∧ (speedDemand speed s).1.lanes = s.lanes ∧
    (speedDemand speed s).1.delivery = s.delivery ∧ (speedDemand speed s).1.line = s.line ∧
    (speedDemand speed s).1.rest = s.rest ∧ (speedDemand speed s).1.emergencyStop = s.emergencyStop ∧
    (speedDemand speed s).1.accounts = s.accounts ∧ (speedDemand speed s).1.bank = s.bank ∧
    (speedDemand speed s).1.link = s.link ∧ (speedDemand speed s).1.notices = s.notices ∧
    (speedDemand speed s).1.store = s.store ∧ (speedDemand speed s).1.issued = s.issued ∧
    (speedDemand speed s).1.pending = s.pending := by
  simp [speedDemand]

@[simp] theorem governorQuery_frame (s : State) :
    (governorQuery s).1.now = s.now ∧ (governorQuery s).1.cfg = s.cfg ∧ (governorQuery s).1.enc = s.enc ∧
    (governorQuery s).1.web = s.web ∧ (governorQuery s).1.sched = s.sched ∧ (governorQuery s).1.stands = s.stands ∧
    (governorQuery s).1.stations = s.stations ∧ (governorQuery s).1.remap = s.remap ∧ (governorQuery s).1.lanes = s.lanes ∧
    (governorQuery s).1.delivery = s.delivery ∧ (governorQuery s).1.gov = s.gov ∧ (governorQuery s).1.line = s.line ∧
    (governorQuery s).1.rest = s.rest ∧ (governorQuery s).1.emergencyStop = s.emergencyStop ∧
    (governorQuery s).1.accounts = s.accounts ∧ (governorQuery s).1.bank = s.bank ∧ (governorQuery s).1.link = s.link ∧
    (governorQuery s).1.notices = s.notices ∧ (governorQuery s).1.store = s.store ∧ (governorQuery s).1.issued = s.issued ∧
    (governorQuery s).1.evalDue = s.evalDue ∧ (governorQuery s).1.pending = s.pending := by
  simp [governorQuery]

@[simp] theorem placeJoint_frame (i : Fin 6) (source : JointSource) (pos : Nat) (widen : Nat) (s : State) :
    (placeJoint i source pos widen s).now = s.now ∧ (placeJoint i source pos widen s).cfg = s.cfg ∧
    (placeJoint i source pos widen s).enc = s.enc ∧ (placeJoint i source pos widen s).stations = s.stations ∧
    (placeJoint i source pos widen s).remap = s.remap ∧ (placeJoint i source pos widen s).lanes = s.lanes ∧
    (placeJoint i source pos widen s).delivery = s.delivery ∧ (placeJoint i source pos widen s).gov = s.gov ∧
    (placeJoint i source pos widen s).line = s.line ∧ (placeJoint i source pos widen s).rest = s.rest ∧
    (placeJoint i source pos widen s).emergencyStop = s.emergencyStop ∧ (placeJoint i source pos widen s).link = s.link ∧
    (placeJoint i source pos widen s).store = s.store ∧ (placeJoint i source pos widen s).pending = s.pending := by
  simp only [placeJoint]
  (repeat' split) <;> simp

@[simp] theorem jointTest_frame (i : Fin 6) (s : State) :
    (jointTest i s).now = s.now ∧ (jointTest i s).cfg = s.cfg ∧ (jointTest i s).enc = s.enc ∧
    (jointTest i s).stations = s.stations ∧ (jointTest i s).remap = s.remap ∧ (jointTest i s).lanes = s.lanes ∧
    (jointTest i s).delivery = s.delivery ∧ (jointTest i s).gov = s.gov ∧ (jointTest i s).line = s.line ∧
    (jointTest i s).rest = s.rest ∧ (jointTest i s).emergencyStop = s.emergencyStop ∧ (jointTest i s).link = s.link ∧
    (jointTest i s).store = s.store ∧ (jointTest i s).pending = s.pending := by
  simp only [jointTest]
  (repeat' split) <;> simp

@[simp] theorem jointSensed_frame (i : Fin 6) (s : State) :
    (jointSensed i s).now = s.now ∧ (jointSensed i s).cfg = s.cfg ∧ (jointSensed i s).enc = s.enc ∧
    (jointSensed i s).stations = s.stations ∧ (jointSensed i s).remap = s.remap ∧ (jointSensed i s).lanes = s.lanes ∧
    (jointSensed i s).delivery = s.delivery ∧ (jointSensed i s).gov = s.gov ∧ (jointSensed i s).line = s.line ∧
    (jointSensed i s).rest = s.rest ∧ (jointSensed i s).emergencyStop = s.emergencyStop ∧ (jointSensed i s).link = s.link ∧
    (jointSensed i s).store = s.store ∧ (jointSensed i s).pending = s.pending := by
  simp only [jointSensed]
  (repeat' split) <;> simp

@[simp] theorem exhaustionTest_frame (i : Fin 6) (s : State) :
    (exhaustionTest i s).now = s.now ∧ (exhaustionTest i s).cfg = s.cfg ∧ (exhaustionTest i s).enc = s.enc ∧
    (exhaustionTest i s).stations = s.stations ∧ (exhaustionTest i s).remap = s.remap ∧
    (exhaustionTest i s).lanes = s.lanes ∧ (exhaustionTest i s).delivery = s.delivery ∧ (exhaustionTest i s).gov = s.gov ∧
    (exhaustionTest i s).rest = s.rest ∧ (exhaustionTest i s).emergencyStop = s.emergencyStop ∧
    (exhaustionTest i s).link = s.link ∧ (exhaustionTest i s).store = s.store ∧
    (exhaustionTest i s).pending = s.pending := by
  simp only [exhaustionTest]
  (repeat' split) <;> simp

@[simp] theorem webBreak_frame (i : Fin 6) (s : State) :
    (webBreak i s).now = s.now ∧ (webBreak i s).cfg = s.cfg ∧ (webBreak i s).enc = s.enc ∧
    (webBreak i s).stations = s.stations ∧ (webBreak i s).remap = s.remap ∧ (webBreak i s).lanes = s.lanes ∧
    (webBreak i s).delivery = s.delivery ∧ (webBreak i s).gov = s.gov ∧ (webBreak i s).rest = s.rest ∧
    (webBreak i s).emergencyStop = s.emergencyStop ∧ (webBreak i s).link = s.link ∧ (webBreak i s).store = s.store ∧
    (webBreak i s).pending = s.pending := by
  simp only [webBreak]
  (repeat' split) <;> simp

@[simp] theorem diameterReading_frame (i : Fin 6) (d : Nat) (s : State) :
    (diameterReading i d s).now = s.now ∧ (diameterReading i d s).cfg = s.cfg ∧ (diameterReading i d s).enc = s.enc ∧
    (diameterReading i d s).stations = s.stations ∧ (diameterReading i d s).remap = s.remap ∧
    (diameterReading i d s).lanes = s.lanes ∧ (diameterReading i d s).delivery = s.delivery ∧
    (diameterReading i d s).gov = s.gov ∧ (diameterReading i d s).rest = s.rest ∧
    (diameterReading i d s).emergencyStop = s.emergencyStop ∧ (diameterReading i d s).link = s.link ∧
    (diameterReading i d s).store = s.store ∧ (diameterReading i d s).pending = s.pending := by
  simp only [diameterReading]
  (repeat' split) <;> simp

@[simp] theorem standbyPrepared_frame (i : Fin 6) (s : State) :
    (standbyPrepared i s).now = s.now ∧ (standbyPrepared i s).cfg = s.cfg ∧ (standbyPrepared i s).enc = s.enc ∧
    (standbyPrepared i s).web = s.web ∧ (standbyPrepared i s).sched = s.sched ∧
    (standbyPrepared i s).stations = s.stations ∧ (standbyPrepared i s).remap = s.remap ∧
    (standbyPrepared i s).lanes = s.lanes ∧ (standbyPrepared i s).delivery = s.delivery ∧
    (standbyPrepared i s).gov = s.gov ∧ (standbyPrepared i s).line = s.line ∧ (standbyPrepared i s).rest = s.rest ∧
    (standbyPrepared i s).emergencyStop = s.emergencyStop ∧ (standbyPrepared i s).accounts = s.accounts ∧
    (standbyPrepared i s).link = s.link ∧ (standbyPrepared i s).store = s.store ∧
    (standbyPrepared i s).pending = s.pending := by
  simp only [standbyPrepared]
  (repeat' split) <;> simp

@[simp] theorem countSplice_frame (i : Fin 6) (k : PlanKind) (s : State) :
    (countSplice i k s).now = s.now ∧ (countSplice i k s).cfg = s.cfg ∧ (countSplice i k s).enc = s.enc ∧
    (countSplice i k s).web = s.web ∧ (countSplice i k s).sched = s.sched ∧ (countSplice i k s).stands = s.stands ∧
    (countSplice i k s).stations = s.stations ∧ (countSplice i k s).remap = s.remap ∧ (countSplice i k s).lanes = s.lanes ∧
    (countSplice i k s).delivery = s.delivery ∧ (countSplice i k s).gov = s.gov ∧ (countSplice i k s).line = s.line ∧
    (countSplice i k s).rest = s.rest ∧ (countSplice i k s).emergencyStop = s.emergencyStop ∧
    (countSplice i k s).bank = s.bank ∧ (countSplice i k s).link = s.link ∧ (countSplice i k s).notices = s.notices ∧
    (countSplice i k s).store = s.store ∧ (countSplice i k s).issued = s.issued ∧ (countSplice i k s).evalDue = s.evalDue ∧
    (countSplice i k s).pending = s.pending := by
  simp only [countSplice]
  (repeat' split) <;> simp

@[simp] theorem spliceConfirmed_frame (i : Fin 6) (s : State) :
    (spliceConfirmed i s).now = s.now ∧ (spliceConfirmed i s).cfg = s.cfg ∧ (spliceConfirmed i s).enc = s.enc ∧
    (spliceConfirmed i s).web = s.web ∧ (spliceConfirmed i s).sched = s.sched ∧
    (spliceConfirmed i s).stations = s.stations ∧ (spliceConfirmed i s).remap = s.remap ∧
    (spliceConfirmed i s).lanes = s.lanes ∧ (spliceConfirmed i s).delivery = s.delivery ∧
    (spliceConfirmed i s).gov = s.gov ∧ (spliceConfirmed i s).line = s.line ∧ (spliceConfirmed i s).rest = s.rest ∧
    (spliceConfirmed i s).emergencyStop = s.emergencyStop ∧ (spliceConfirmed i s).link = s.link ∧
    (spliceConfirmed i s).store = s.store ∧ (spliceConfirmed i s).issued = s.issued ∧
    (spliceConfirmed i s).pending = s.pending := by
  simp only [spliceConfirmed]
  (repeat' split) <;> simp

@[simp] theorem spliceTimeout_frame (i : Fin 6) (s : State) :
    (spliceTimeout i s).cfg = s.cfg ∧ (spliceTimeout i s).enc = s.enc ∧ (spliceTimeout i s).web = s.web ∧
    (spliceTimeout i s).sched = s.sched ∧ (spliceTimeout i s).stations = s.stations ∧ (spliceTimeout i s).remap = s.remap ∧
    (spliceTimeout i s).lanes = s.lanes ∧ (spliceTimeout i s).delivery = s.delivery ∧ (spliceTimeout i s).gov = s.gov ∧
    (spliceTimeout i s).line = s.line ∧ (spliceTimeout i s).rest = s.rest ∧
    (spliceTimeout i s).emergencyStop = s.emergencyStop ∧ (spliceTimeout i s).accounts = s.accounts ∧
    (spliceTimeout i s).link = s.link ∧ (spliceTimeout i s).store = s.store ∧ (spliceTimeout i s).issued = s.issued ∧
    (spliceTimeout i s).pending = s.pending := by
  simp only [spliceTimeout]
  (repeat' split) <;> simp

@[simp] theorem reelLoad_frame (stand : Nat) (reelVariant : Nat) (reel : Nat) (diameter : Nat) (core : Nat)
    (caliper : Nat) (s : State) :
    (reelLoad stand reelVariant reel diameter core caliper s).1.now = s.now ∧
    (reelLoad stand reelVariant reel diameter core caliper s).1.cfg = s.cfg ∧
    (reelLoad stand reelVariant reel diameter core caliper s).1.enc = s.enc ∧
    (reelLoad stand reelVariant reel diameter core caliper s).1.web = s.web ∧
    (reelLoad stand reelVariant reel diameter core caliper s).1.sched = s.sched ∧
    (reelLoad stand reelVariant reel diameter core caliper s).1.stations = s.stations ∧
    (reelLoad stand reelVariant reel diameter core caliper s).1.remap = s.remap ∧
    (reelLoad stand reelVariant reel diameter core caliper s).1.lanes = s.lanes ∧
    (reelLoad stand reelVariant reel diameter core caliper s).1.delivery = s.delivery ∧
    (reelLoad stand reelVariant reel diameter core caliper s).1.gov = s.gov ∧
    (reelLoad stand reelVariant reel diameter core caliper s).1.line = s.line ∧
    (reelLoad stand reelVariant reel diameter core caliper s).1.rest = s.rest ∧
    (reelLoad stand reelVariant reel diameter core caliper s).1.emergencyStop = s.emergencyStop ∧
    (reelLoad stand reelVariant reel diameter core caliper s).1.accounts = s.accounts ∧
    (reelLoad stand reelVariant reel diameter core caliper s).1.link = s.link ∧
    (reelLoad stand reelVariant reel diameter core caliper s).1.store = s.store ∧
    (reelLoad stand reelVariant reel diameter core caliper s).1.issued = s.issued ∧
    (reelLoad stand reelVariant reel diameter core caliper s).1.pending = s.pending := by
  simp only [reelLoad]
  (repeat' split) <;> simp

@[simp] theorem reelUnload_frame (stand : Nat) (s : State) :
    (reelUnload stand s).1.now = s.now ∧ (reelUnload stand s).1.cfg = s.cfg ∧ (reelUnload stand s).1.enc = s.enc ∧
    (reelUnload stand s).1.web = s.web ∧ (reelUnload stand s).1.sched = s.sched ∧
    (reelUnload stand s).1.stations = s.stations ∧ (reelUnload stand s).1.remap = s.remap ∧
    (reelUnload stand s).1.lanes = s.lanes ∧ (reelUnload stand s).1.delivery = s.delivery ∧
    (reelUnload stand s).1.gov = s.gov ∧ (reelUnload stand s).1.line = s.line ∧ (reelUnload stand s).1.rest = s.rest ∧
    (reelUnload stand s).1.emergencyStop = s.emergencyStop ∧ (reelUnload stand s).1.accounts = s.accounts ∧
    (reelUnload stand s).1.link = s.link ∧ (reelUnload stand s).1.store = s.store ∧
    (reelUnload stand s).1.issued = s.issued ∧ (reelUnload stand s).1.pending = s.pending := by
  simp only [reelUnload]
  (repeat' split) <;> simp

@[simp] theorem spliceForce_frame (stand : Nat) (s : State) :
    (spliceForce stand s).1.now = s.now ∧ (spliceForce stand s).1.cfg = s.cfg ∧ (spliceForce stand s).1.enc = s.enc ∧
    (spliceForce stand s).1.web = s.web ∧ (spliceForce stand s).1.sched = s.sched ∧
    (spliceForce stand s).1.stations = s.stations ∧ (spliceForce stand s).1.remap = s.remap ∧
    (spliceForce stand s).1.lanes = s.lanes ∧ (spliceForce stand s).1.delivery = s.delivery ∧
    (spliceForce stand s).1.gov = s.gov ∧ (spliceForce stand s).1.line = s.line ∧ (spliceForce stand s).1.rest = s.rest ∧
    (spliceForce stand s).1.emergencyStop = s.emergencyStop ∧ (spliceForce stand s).1.accounts = s.accounts ∧
    (spliceForce stand s).1.link = s.link ∧ (spliceForce stand s).1.store = s.store ∧
    (spliceForce stand s).1.pending = s.pending := by
  simp only [spliceForce]
  (repeat' split) <;> simp

@[simp] theorem standReset_frame (stand : Nat) (s : State) :
    (standReset stand s).1.now = s.now ∧ (standReset stand s).1.cfg = s.cfg ∧ (standReset stand s).1.enc = s.enc ∧
    (standReset stand s).1.web = s.web ∧ (standReset stand s).1.sched = s.sched ∧
    (standReset stand s).1.stations = s.stations ∧ (standReset stand s).1.remap = s.remap ∧
    (standReset stand s).1.lanes = s.lanes ∧ (standReset stand s).1.delivery = s.delivery ∧
    (standReset stand s).1.gov = s.gov ∧ (standReset stand s).1.line = s.line ∧ (standReset stand s).1.rest = s.rest ∧
    (standReset stand s).1.emergencyStop = s.emergencyStop ∧ (standReset stand s).1.accounts = s.accounts ∧
    (standReset stand s).1.link = s.link ∧ (standReset stand s).1.store = s.store ∧
    (standReset stand s).1.issued = s.issued ∧ (standReset stand s).1.pending = s.pending := by
  simp only [standReset]
  (repeat' split) <;> simp

@[simp] theorem standQuery_frame (stand : Nat) (s : State) :
    (standQuery stand s).1.now = s.now ∧ (standQuery stand s).1.cfg = s.cfg ∧ (standQuery stand s).1.enc = s.enc ∧
    (standQuery stand s).1.web = s.web ∧ (standQuery stand s).1.sched = s.sched ∧
    (standQuery stand s).1.stands = s.stands ∧ (standQuery stand s).1.stations = s.stations ∧
    (standQuery stand s).1.remap = s.remap ∧ (standQuery stand s).1.lanes = s.lanes ∧
    (standQuery stand s).1.delivery = s.delivery ∧ (standQuery stand s).1.gov = s.gov ∧
    (standQuery stand s).1.line = s.line ∧ (standQuery stand s).1.rest = s.rest ∧
    (standQuery stand s).1.emergencyStop = s.emergencyStop ∧ (standQuery stand s).1.accounts = s.accounts ∧
    (standQuery stand s).1.bank = s.bank ∧ (standQuery stand s).1.link = s.link ∧
    (standQuery stand s).1.notices = s.notices ∧ (standQuery stand s).1.store = s.store ∧
    (standQuery stand s).1.issued = s.issued ∧ (standQuery stand s).1.evalDue = s.evalDue ∧
    (standQuery stand s).1.pending = s.pending := by
  simp only [standQuery]
  (repeat' split) <;> simp

@[simp] theorem unlockStand_frame (i : Fin 6) (s : State) :
    (unlockStand i s).now = s.now ∧ (unlockStand i s).cfg = s.cfg ∧ (unlockStand i s).enc = s.enc ∧
    (unlockStand i s).web = s.web ∧ (unlockStand i s).sched = s.sched ∧ (unlockStand i s).stations = s.stations ∧
    (unlockStand i s).remap = s.remap ∧ (unlockStand i s).lanes = s.lanes ∧ (unlockStand i s).delivery = s.delivery ∧
    (unlockStand i s).gov = s.gov ∧ (unlockStand i s).line = s.line ∧ (unlockStand i s).rest = s.rest ∧
    (unlockStand i s).emergencyStop = s.emergencyStop ∧ (unlockStand i s).accounts = s.accounts ∧
    (unlockStand i s).link = s.link ∧ (unlockStand i s).store = s.store ∧ (unlockStand i s).pending = s.pending := by
  simp only [unlockStand]
  (repeat' split) <;> simp

@[simp] theorem unlockStands_frame (s : State) :
    (unlockStands s).now = s.now ∧ (unlockStands s).cfg = s.cfg ∧ (unlockStands s).enc = s.enc ∧
    (unlockStands s).web = s.web ∧ (unlockStands s).sched = s.sched ∧ (unlockStands s).stations = s.stations ∧
    (unlockStands s).remap = s.remap ∧ (unlockStands s).lanes = s.lanes ∧ (unlockStands s).delivery = s.delivery ∧
    (unlockStands s).gov = s.gov ∧ (unlockStands s).line = s.line ∧ (unlockStands s).rest = s.rest ∧
    (unlockStands s).emergencyStop = s.emergencyStop ∧ (unlockStands s).accounts = s.accounts ∧
    (unlockStands s).link = s.link ∧ (unlockStands s).store = s.store ∧ (unlockStands s).pending = s.pending := by
  have k := fun {β : Type} (p : State → β) (h : ∀ s a, p (unlockStand a s) = p s) =>
    foldl_keeps p (fun s a => unlockStand a s) h slots s
  exact ⟨k State.now (by simp), k State.cfg (by simp), k State.enc (by simp), k State.web (by simp),
    k State.sched (by simp), k State.stations (by simp), k State.remap (by simp), k State.lanes (by simp),
    k State.delivery (by simp), k State.gov (by simp), k State.line (by simp), k State.rest (by simp),
    k State.emergencyStop (by simp), k State.accounts (by simp), k State.link (by simp), k State.store (by simp),
    k State.pending (by simp)⟩

@[simp] theorem restartRest_frame (s : State) :
    (restartRest s).now = s.now ∧ (restartRest s).cfg = s.cfg ∧ (restartRest s).enc = s.enc ∧ (restartRest s).web = s.web ∧
    (restartRest s).sched = s.sched ∧ (restartRest s).stands = s.stands ∧ (restartRest s).stations = s.stations ∧
    (restartRest s).remap = s.remap ∧ (restartRest s).lanes = s.lanes ∧ (restartRest s).delivery = s.delivery ∧
    (restartRest s).gov = s.gov ∧ (restartRest s).line = s.line ∧ (restartRest s).emergencyStop = s.emergencyStop ∧
    (restartRest s).accounts = s.accounts ∧ (restartRest s).bank = s.bank ∧ (restartRest s).link = s.link ∧
    (restartRest s).notices = s.notices ∧ (restartRest s).store = s.store ∧ (restartRest s).issued = s.issued ∧
    (restartRest s).evalDue = s.evalDue ∧ (restartRest s).pending = s.pending := by
  simp [restartRest]

@[simp] theorem advanceTracker_frame (n : Nat) (s : State) :
    (advanceTracker n s).now = s.now ∧ (advanceTracker n s).cfg = s.cfg ∧ (advanceTracker n s).sched = s.sched ∧
    (advanceTracker n s).stands = s.stands ∧ (advanceTracker n s).stations = s.stations ∧
    (advanceTracker n s).remap = s.remap ∧ (advanceTracker n s).lanes = s.lanes ∧
    (advanceTracker n s).delivery = s.delivery ∧ (advanceTracker n s).gov = s.gov ∧ (advanceTracker n s).line = s.line ∧
    (advanceTracker n s).rest = s.rest ∧ (advanceTracker n s).emergencyStop = s.emergencyStop ∧
    (advanceTracker n s).accounts = s.accounts ∧ (advanceTracker n s).bank = s.bank ∧ (advanceTracker n s).link = s.link ∧
    (advanceTracker n s).notices = s.notices ∧ (advanceTracker n s).store = s.store ∧
    (advanceTracker n s).issued = s.issued ∧ (advanceTracker n s).evalDue = s.evalDue ∧
    (advanceTracker n s).pending = s.pending := by
  simp [advanceTracker]

@[simp] theorem advanceProduced_frame (n : Nat) (s : State) :
    (advanceProduced n s).now = s.now ∧ (advanceProduced n s).cfg = s.cfg ∧ (advanceProduced n s).enc = s.enc ∧
    (advanceProduced n s).web = s.web ∧ (advanceProduced n s).stands = s.stands ∧
    (advanceProduced n s).stations = s.stations ∧ (advanceProduced n s).remap = s.remap ∧
    (advanceProduced n s).lanes = s.lanes ∧ (advanceProduced n s).delivery = s.delivery ∧
    (advanceProduced n s).gov = s.gov ∧ (advanceProduced n s).line = s.line ∧ (advanceProduced n s).rest = s.rest ∧
    (advanceProduced n s).emergencyStop = s.emergencyStop ∧ (advanceProduced n s).accounts = s.accounts ∧
    (advanceProduced n s).bank = s.bank ∧ (advanceProduced n s).link = s.link ∧ (advanceProduced n s).notices = s.notices ∧
    (advanceProduced n s).store = s.store ∧ (advanceProduced n s).issued = s.issued ∧
    (advanceProduced n s).evalDue = s.evalDue ∧ (advanceProduced n s).pending = s.pending := by
  simp [advanceProduced]

@[simp] theorem advanceStands_frame (n : Nat) (s : State) :
    (advanceStands n s).now = s.now ∧ (advanceStands n s).cfg = s.cfg ∧ (advanceStands n s).enc = s.enc ∧
    (advanceStands n s).web = s.web ∧ (advanceStands n s).sched = s.sched ∧ (advanceStands n s).stations = s.stations ∧
    (advanceStands n s).remap = s.remap ∧ (advanceStands n s).lanes = s.lanes ∧ (advanceStands n s).delivery = s.delivery ∧
    (advanceStands n s).gov = s.gov ∧ (advanceStands n s).line = s.line ∧ (advanceStands n s).rest = s.rest ∧
    (advanceStands n s).emergencyStop = s.emergencyStop ∧ (advanceStands n s).bank = s.bank ∧
    (advanceStands n s).link = s.link ∧ (advanceStands n s).notices = s.notices ∧ (advanceStands n s).store = s.store ∧
    (advanceStands n s).issued = s.issued ∧ (advanceStands n s).evalDue = s.evalDue ∧
    (advanceStands n s).pending = s.pending := by
  simp [advanceStands]

@[simp] theorem passKnife_frame (m : Mark) (s : State) :
    (passKnife m s).now = s.now ∧ (passKnife m s).cfg = s.cfg ∧ (passKnife m s).enc = s.enc ∧ (passKnife m s).web = s.web ∧
    (passKnife m s).stands = s.stands ∧ (passKnife m s).stations = s.stations ∧ (passKnife m s).remap = s.remap ∧
    (passKnife m s).lanes = s.lanes ∧ (passKnife m s).delivery = s.delivery ∧ (passKnife m s).gov = s.gov ∧
    (passKnife m s).line = s.line ∧ (passKnife m s).rest = s.rest ∧ (passKnife m s).emergencyStop = s.emergencyStop ∧
    (passKnife m s).accounts = s.accounts ∧ (passKnife m s).bank = s.bank ∧ (passKnife m s).link = s.link ∧
    (passKnife m s).notices = s.notices ∧ (passKnife m s).store = s.store ∧ (passKnife m s).issued = s.issued ∧
    (passKnife m s).evalDue = s.evalDue ∧ (passKnife m s).pending = s.pending := by
  simp only [passKnife]
  (repeat' split) <;> simp

@[simp] theorem passKnifeAll_frame (gone : List Mark) (s : State) :
    (passKnifeAll gone s).now = s.now ∧ (passKnifeAll gone s).cfg = s.cfg ∧ (passKnifeAll gone s).enc = s.enc ∧
    (passKnifeAll gone s).web = s.web ∧ (passKnifeAll gone s).stands = s.stands ∧
    (passKnifeAll gone s).stations = s.stations ∧ (passKnifeAll gone s).remap = s.remap ∧
    (passKnifeAll gone s).lanes = s.lanes ∧ (passKnifeAll gone s).delivery = s.delivery ∧
    (passKnifeAll gone s).gov = s.gov ∧ (passKnifeAll gone s).line = s.line ∧ (passKnifeAll gone s).rest = s.rest ∧
    (passKnifeAll gone s).emergencyStop = s.emergencyStop ∧ (passKnifeAll gone s).accounts = s.accounts ∧
    (passKnifeAll gone s).bank = s.bank ∧ (passKnifeAll gone s).link = s.link ∧ (passKnifeAll gone s).notices = s.notices ∧
    (passKnifeAll gone s).store = s.store ∧ (passKnifeAll gone s).issued = s.issued ∧
    (passKnifeAll gone s).evalDue = s.evalDue ∧ (passKnifeAll gone s).pending = s.pending := by
  have k := fun {β : Type} (p : State → β) (h : ∀ s a, p (passKnife a s) = p s) =>
    foldl_keeps p (fun s a => passKnife a s) h gone s
  exact ⟨k State.now (by simp), k State.cfg (by simp), k State.enc (by simp), k State.web (by simp),
    k State.stands (by simp), k State.stations (by simp), k State.remap (by simp), k State.lanes (by simp),
    k State.delivery (by simp), k State.gov (by simp), k State.line (by simp), k State.rest (by simp),
    k State.emergencyStop (by simp), k State.accounts (by simp), k State.bank (by simp), k State.link (by simp),
    k State.notices (by simp), k State.store (by simp), k State.issued (by simp), k State.evalDue (by simp),
    k State.pending (by simp)⟩

@[simp] theorem removeMarks_frame (s : State) :
    (removeMarks s).now = s.now ∧ (removeMarks s).cfg = s.cfg ∧ (removeMarks s).enc = s.enc ∧
    (removeMarks s).stands = s.stands ∧ (removeMarks s).stations = s.stations ∧ (removeMarks s).remap = s.remap ∧
    (removeMarks s).lanes = s.lanes ∧ (removeMarks s).delivery = s.delivery ∧ (removeMarks s).gov = s.gov ∧
    (removeMarks s).line = s.line ∧ (removeMarks s).rest = s.rest ∧ (removeMarks s).emergencyStop = s.emergencyStop ∧
    (removeMarks s).accounts = s.accounts ∧ (removeMarks s).bank = s.bank ∧ (removeMarks s).link = s.link ∧
    (removeMarks s).notices = s.notices ∧ (removeMarks s).store = s.store ∧ (removeMarks s).issued = s.issued ∧
    (removeMarks s).evalDue = s.evalDue ∧ (removeMarks s).pending = s.pending := by
  simp [removeMarks]

@[simp] theorem setStuck_frame (b : Bool) (s : State) :
    (setStuck b s).web = { s.web with sensorStuck := b } ∧ (setStuck b s).now = s.now ∧ (setStuck b s).cfg = s.cfg ∧
    (setStuck b s).enc = s.enc ∧ (setStuck b s).sched = s.sched ∧ (setStuck b s).stands = s.stands ∧
    (setStuck b s).stations = s.stations ∧ (setStuck b s).remap = s.remap ∧ (setStuck b s).lanes = s.lanes ∧
    (setStuck b s).delivery = s.delivery ∧ (setStuck b s).gov = s.gov ∧ (setStuck b s).line = s.line ∧
    (setStuck b s).rest = s.rest ∧ (setStuck b s).emergencyStop = s.emergencyStop ∧ (setStuck b s).accounts = s.accounts ∧
    (setStuck b s).bank = s.bank ∧ (setStuck b s).link = s.link ∧ (setStuck b s).notices = s.notices ∧
    (setStuck b s).store = s.store ∧ (setStuck b s).issued = s.issued ∧ (setStuck b s).evalDue = s.evalDue ∧
    (setStuck b s).pending = s.pending := by
  simp [setStuck]

@[simp] theorem defectLimitTest_frame (s : State) :
    (defectLimitTest s).now = s.now ∧ (defectLimitTest s).cfg = s.cfg ∧ (defectLimitTest s).enc = s.enc ∧
    (defectLimitTest s).stations = s.stations ∧ (defectLimitTest s).remap = s.remap ∧ (defectLimitTest s).lanes = s.lanes ∧
    (defectLimitTest s).delivery = s.delivery ∧ (defectLimitTest s).gov = s.gov ∧ (defectLimitTest s).line = s.line ∧
    (defectLimitTest s).rest = s.rest ∧ (defectLimitTest s).emergencyStop = s.emergencyStop ∧
    (defectLimitTest s).accounts = s.accounts ∧ (defectLimitTest s).link = s.link ∧ (defectLimitTest s).store = s.store ∧
    (defectLimitTest s).pending = s.pending := by
  simp only [defectLimitTest]
  (repeat' split) <;> simp

@[simp] theorem stationArrivals_frame (st : Station) (ids : List Nat) (s : State) :
    (stationArrivals st ids s).now = s.now ∧ (stationArrivals st ids s).cfg = s.cfg ∧
    (stationArrivals st ids s).enc = s.enc ∧ (stationArrivals st ids s).sched = s.sched ∧
    (stationArrivals st ids s).stands = s.stands ∧ (stationArrivals st ids s).remap = s.remap ∧
    (stationArrivals st ids s).lanes = s.lanes ∧ (stationArrivals st ids s).delivery = s.delivery ∧
    (stationArrivals st ids s).gov = s.gov ∧ (stationArrivals st ids s).line = s.line ∧
    (stationArrivals st ids s).rest = s.rest ∧ (stationArrivals st ids s).emergencyStop = s.emergencyStop ∧
    (stationArrivals st ids s).accounts = s.accounts ∧ (stationArrivals st ids s).bank = s.bank ∧
    (stationArrivals st ids s).link = s.link ∧ (stationArrivals st ids s).notices = s.notices ∧
    (stationArrivals st ids s).store = s.store ∧ (stationArrivals st ids s).pending = s.pending := by
  have k := fun {β : Type} (p : State → β) (h : ∀ s a, p (stationArrival st a s) = p s) =>
    foldl_keeps p (fun s a => stationArrival st a s) h ids s
  exact ⟨k State.now (by simp), k State.cfg (by simp), k State.enc (by simp), k State.sched (by simp),
    k State.stands (by simp), k State.remap (by simp), k State.lanes (by simp), k State.delivery (by simp),
    k State.gov (by simp), k State.line (by simp), k State.rest (by simp), k State.emergencyStop (by simp),
    k State.accounts (by simp), k State.bank (by simp), k State.link (by simp), k State.notices (by simp),
    k State.store (by simp), k State.pending (by simp)⟩

@[simp] theorem standTests_frame (i : Fin 6) (s : State) :
    (standTests i s).now = s.now ∧ (standTests i s).cfg = s.cfg ∧ (standTests i s).enc = s.enc ∧
    (standTests i s).stations = s.stations ∧ (standTests i s).remap = s.remap ∧ (standTests i s).lanes = s.lanes ∧
    (standTests i s).delivery = s.delivery ∧ (standTests i s).gov = s.gov ∧ (standTests i s).rest = s.rest ∧
    (standTests i s).emergencyStop = s.emergencyStop ∧ (standTests i s).link = s.link ∧ (standTests i s).store = s.store ∧
    (standTests i s).pending = s.pending := by
  simp [standTests]

@[simp] theorem allStandTests_frame (s : State) :
    (allStandTests s).now = s.now ∧ (allStandTests s).cfg = s.cfg ∧ (allStandTests s).enc = s.enc ∧
    (allStandTests s).stations = s.stations ∧ (allStandTests s).remap = s.remap ∧ (allStandTests s).lanes = s.lanes ∧
    (allStandTests s).delivery = s.delivery ∧ (allStandTests s).gov = s.gov ∧ (allStandTests s).rest = s.rest ∧
    (allStandTests s).emergencyStop = s.emergencyStop ∧ (allStandTests s).link = s.link ∧
    (allStandTests s).store = s.store ∧ (allStandTests s).pending = s.pending := by
  have k := fun {β : Type} (p : State → β) (h : ∀ s a, p (standTests a s) = p s) =>
    foldl_keeps p (fun s a => standTests a s) h slots s
  exact ⟨k State.now (by simp), k State.cfg (by simp), k State.enc (by simp), k State.stations (by simp),
    k State.remap (by simp), k State.lanes (by simp), k State.delivery (by simp), k State.gov (by simp),
    k State.rest (by simp), k State.emergencyStop (by simp), k State.link (by simp), k State.store (by simp),
    k State.pending (by simp)⟩

@[simp] theorem boardAdvance_frame (n : Nat) (s : State) :
    (boardAdvance n s).now = s.now ∧ (boardAdvance n s).cfg = s.cfg ∧ (boardAdvance n s).remap = s.remap ∧
    (boardAdvance n s).emergencyStop = s.emergencyStop ∧ (boardAdvance n s).link = s.link ∧
    (boardAdvance n s).store = s.store ∧ (boardAdvance n s).pending = s.pending := by
  simp [boardAdvance]

@[simp] theorem fullAdvances_frame (k : Nat) (s : State) :
    (fullAdvances k s).now = s.now ∧ (fullAdvances k s).cfg = s.cfg ∧ (fullAdvances k s).remap = s.remap ∧
    (fullAdvances k s).emergencyStop = s.emergencyStop ∧ (fullAdvances k s).link = s.link ∧
    (fullAdvances k s).store = s.store ∧ (fullAdvances k s).pending = s.pending := by
  induction k generalizing s with
  | zero => simp [fullAdvances]
  | succ k ih => simp [fullAdvances, ih]

@[simp] theorem deliverTravel_frame (k : Nat) (s : State) :
    (deliverTravel k s).now = s.now ∧ (deliverTravel k s).cfg = s.cfg ∧ (deliverTravel k s).remap = s.remap ∧
    (deliverTravel k s).emergencyStop = s.emergencyStop ∧ (deliverTravel k s).link = s.link ∧
    (deliverTravel k s).store = s.store ∧ (deliverTravel k s).pending = s.pending := by
  simp only [deliverTravel]
  (repeat' split) <;> simp

@[simp] theorem restartSilence_frame (s : State) :
    (restartSilence s).now = s.now ∧ (restartSilence s).cfg = s.cfg ∧ (restartSilence s).web = s.web ∧
    (restartSilence s).sched = s.sched ∧ (restartSilence s).stands = s.stands ∧ (restartSilence s).stations = s.stations ∧
    (restartSilence s).remap = s.remap ∧ (restartSilence s).lanes = s.lanes ∧ (restartSilence s).delivery = s.delivery ∧
    (restartSilence s).gov = s.gov ∧ (restartSilence s).line = s.line ∧ (restartSilence s).rest = s.rest ∧
    (restartSilence s).emergencyStop = s.emergencyStop ∧ (restartSilence s).accounts = s.accounts ∧
    (restartSilence s).bank = s.bank ∧ (restartSilence s).link = s.link ∧ (restartSilence s).notices = s.notices ∧
    (restartSilence s).store = s.store ∧ (restartSilence s).issued = s.issued ∧ (restartSilence s).evalDue = s.evalDue ∧
    (restartSilence s).pending = s.pending := by
  simp [restartSilence]

@[simp] theorem restartSilenceUnlessFallen_frame (s : State) :
    (restartSilenceUnlessFallen s).now = s.now ∧ (restartSilenceUnlessFallen s).cfg = s.cfg ∧
    (restartSilenceUnlessFallen s).web = s.web ∧ (restartSilenceUnlessFallen s).sched = s.sched ∧
    (restartSilenceUnlessFallen s).stands = s.stands ∧ (restartSilenceUnlessFallen s).stations = s.stations ∧
    (restartSilenceUnlessFallen s).remap = s.remap ∧ (restartSilenceUnlessFallen s).lanes = s.lanes ∧
    (restartSilenceUnlessFallen s).delivery = s.delivery ∧ (restartSilenceUnlessFallen s).gov = s.gov ∧
    (restartSilenceUnlessFallen s).line = s.line ∧ (restartSilenceUnlessFallen s).rest = s.rest ∧
    (restartSilenceUnlessFallen s).emergencyStop = s.emergencyStop ∧ (restartSilenceUnlessFallen s).accounts = s.accounts ∧
    (restartSilenceUnlessFallen s).bank = s.bank ∧ (restartSilenceUnlessFallen s).link = s.link ∧
    (restartSilenceUnlessFallen s).notices = s.notices ∧ (restartSilenceUnlessFallen s).store = s.store ∧
    (restartSilenceUnlessFallen s).issued = s.issued ∧ (restartSilenceUnlessFallen s).evalDue = s.evalDue ∧
    (restartSilenceUnlessFallen s).pending = s.pending := by
  simp only [restartSilenceUnlessFallen]
  (repeat' split) <;> simp

@[simp] theorem fallBack_frame (s : State) :
    (fallBack s).now = s.now ∧ (fallBack s).cfg = s.cfg ∧ (fallBack s).remap = s.remap ∧
    (fallBack s).emergencyStop = s.emergencyStop ∧ (fallBack s).link = s.link ∧ (fallBack s).store = s.store ∧
    (fallBack s).pending = s.pending := by
  simp [fallBack]

@[simp] theorem fallbackTest_frame (s : State) :
    (fallbackTest s).now = s.now ∧ (fallbackTest s).cfg = s.cfg ∧ (fallbackTest s).remap = s.remap ∧
    (fallbackTest s).emergencyStop = s.emergencyStop ∧ (fallbackTest s).link = s.link ∧ (fallbackTest s).store = s.store ∧
    (fallbackTest s).pending = s.pending := by
  simp only [fallbackTest]
  (repeat' split) <;> simp

@[simp] theorem encoderReport_frame (e : Encoder) (k : Nat) (s : State) :
    (encoderReport e k s).now = s.now ∧ (encoderReport e k s).cfg = s.cfg ∧ (encoderReport e k s).remap = s.remap ∧
    (encoderReport e k s).emergencyStop = s.emergencyStop ∧ (encoderReport e k s).link = s.link ∧
    (encoderReport e k s).store = s.store ∧ (encoderReport e k s).pending = s.pending := by
  simp only [encoderReport]
  (repeat' split) <;> simp

@[simp] theorem silenceExpiry_frame (s : State) :
    (silenceExpiry s).cfg = s.cfg ∧ (silenceExpiry s).remap = s.remap ∧ (silenceExpiry s).emergencyStop = s.emergencyStop ∧
    (silenceExpiry s).link = s.link ∧ (silenceExpiry s).store = s.store ∧ (silenceExpiry s).pending = s.pending := by
  simp only [silenceExpiry]
  (repeat' split) <;> simp

@[simp] theorem defectBegins_frame (s : State) :
    (defectBegins s).now = s.now ∧ (defectBegins s).cfg = s.cfg ∧ (defectBegins s).enc = s.enc ∧
    (defectBegins s).stations = s.stations ∧ (defectBegins s).remap = s.remap ∧ (defectBegins s).lanes = s.lanes ∧
    (defectBegins s).delivery = s.delivery ∧ (defectBegins s).gov = s.gov ∧ (defectBegins s).line = s.line ∧
    (defectBegins s).rest = s.rest ∧ (defectBegins s).emergencyStop = s.emergencyStop ∧ (defectBegins s).link = s.link ∧
    (defectBegins s).store = s.store ∧ (defectBegins s).pending = s.pending := by
  simp only [defectBegins]
  (repeat' split) <;> simp

@[simp] theorem defectEnds_frame (s : State) :
    (defectEnds s).now = s.now ∧ (defectEnds s).cfg = s.cfg ∧ (defectEnds s).enc = s.enc ∧
    (defectEnds s).stations = s.stations ∧ (defectEnds s).remap = s.remap ∧ (defectEnds s).lanes = s.lanes ∧
    (defectEnds s).delivery = s.delivery ∧ (defectEnds s).gov = s.gov ∧ (defectEnds s).line = s.line ∧
    (defectEnds s).rest = s.rest ∧ (defectEnds s).emergencyStop = s.emergencyStop ∧ (defectEnds s).accounts = s.accounts ∧
    (defectEnds s).link = s.link ∧ (defectEnds s).store = s.store ∧ (defectEnds s).pending = s.pending := by
  simp only [defectEnds]
  (repeat' split) <;> simp

@[simp] theorem defectReport_frame (pos : Nat) (lead : Nat) (trail : Nat) (s : State) :
    (defectReport pos lead trail s).1.now = s.now ∧ (defectReport pos lead trail s).1.cfg = s.cfg ∧
    (defectReport pos lead trail s).1.enc = s.enc ∧ (defectReport pos lead trail s).1.stations = s.stations ∧
    (defectReport pos lead trail s).1.remap = s.remap ∧ (defectReport pos lead trail s).1.lanes = s.lanes ∧
    (defectReport pos lead trail s).1.delivery = s.delivery ∧ (defectReport pos lead trail s).1.gov = s.gov ∧
    (defectReport pos lead trail s).1.line = s.line ∧ (defectReport pos lead trail s).1.rest = s.rest ∧
    (defectReport pos lead trail s).1.emergencyStop = s.emergencyStop ∧ (defectReport pos lead trail s).1.link = s.link ∧
    (defectReport pos lead trail s).1.store = s.store ∧ (defectReport pos lead trail s).1.pending = s.pending := by
  simp only [defectReport]
  (repeat' split) <;> simp

@[simp] theorem mapRead_frame (start : Nat) (s : State) :
    (mapRead start s).1.now = s.now ∧ (mapRead start s).1.cfg = s.cfg ∧ (mapRead start s).1.enc = s.enc ∧
    (mapRead start s).1.web = s.web ∧ (mapRead start s).1.sched = s.sched ∧ (mapRead start s).1.stands = s.stands ∧
    (mapRead start s).1.stations = s.stations ∧ (mapRead start s).1.remap = s.remap ∧ (mapRead start s).1.lanes = s.lanes ∧
    (mapRead start s).1.delivery = s.delivery ∧ (mapRead start s).1.gov = s.gov ∧ (mapRead start s).1.line = s.line ∧
    (mapRead start s).1.rest = s.rest ∧ (mapRead start s).1.emergencyStop = s.emergencyStop ∧
    (mapRead start s).1.accounts = s.accounts ∧ (mapRead start s).1.bank = s.bank ∧ (mapRead start s).1.link = s.link ∧
    (mapRead start s).1.notices = s.notices ∧ (mapRead start s).1.store = s.store ∧ (mapRead start s).1.issued = s.issued ∧
    (mapRead start s).1.evalDue = s.evalDue ∧ (mapRead start s).1.pending = s.pending := by
  simp only [mapRead]
  (repeat' split) <;> simp

@[simp] theorem purgeTracker_frame (s : State) :
    (purgeTracker s).now = s.now ∧ (purgeTracker s).cfg = s.cfg ∧ (purgeTracker s).sched = s.sched ∧
    (purgeTracker s).stands = s.stands ∧ (purgeTracker s).stations = s.stations ∧ (purgeTracker s).remap = s.remap ∧
    (purgeTracker s).lanes = s.lanes ∧ (purgeTracker s).delivery = s.delivery ∧ (purgeTracker s).gov = s.gov ∧
    (purgeTracker s).line = s.line ∧ (purgeTracker s).rest = s.rest ∧ (purgeTracker s).emergencyStop = s.emergencyStop ∧
    (purgeTracker s).accounts = s.accounts ∧ (purgeTracker s).bank = s.bank ∧ (purgeTracker s).link = s.link ∧
    (purgeTracker s).notices = s.notices ∧ (purgeTracker s).store = s.store ∧ (purgeTracker s).issued = s.issued ∧
    (purgeTracker s).pending = s.pending := by
  simp [purgeTracker]

@[simp] theorem clearTracker_frame (s : State) :
    (clearTracker s).now = s.now ∧ (clearTracker s).cfg = s.cfg ∧ (clearTracker s).sched = s.sched ∧
    (clearTracker s).stands = s.stands ∧ (clearTracker s).stations = s.stations ∧ (clearTracker s).remap = s.remap ∧
    (clearTracker s).lanes = s.lanes ∧ (clearTracker s).delivery = s.delivery ∧ (clearTracker s).gov = s.gov ∧
    (clearTracker s).line = s.line ∧ (clearTracker s).rest = s.rest ∧ (clearTracker s).emergencyStop = s.emergencyStop ∧
    (clearTracker s).accounts = s.accounts ∧ (clearTracker s).bank = s.bank ∧ (clearTracker s).link = s.link ∧
    (clearTracker s).notices = s.notices ∧ (clearTracker s).store = s.store ∧ (clearTracker s).issued = s.issued ∧
    (clearTracker s).pending = s.pending := by
  simp [clearTracker]

@[simp] theorem emergencyStopActive_frame (s : State) :
    (emergencyStopActive s).now = s.now ∧ (emergencyStopActive s).cfg = s.cfg ∧ (emergencyStopActive s).enc = s.enc ∧
    (emergencyStopActive s).web = s.web ∧ (emergencyStopActive s).sched = s.sched ∧
    (emergencyStopActive s).stands = s.stands ∧ (emergencyStopActive s).stations = s.stations ∧
    (emergencyStopActive s).remap = s.remap ∧ (emergencyStopActive s).lanes = s.lanes ∧
    (emergencyStopActive s).delivery = s.delivery ∧ (emergencyStopActive s).rest = s.rest ∧
    (emergencyStopActive s).accounts = s.accounts ∧ (emergencyStopActive s).link = s.link ∧
    (emergencyStopActive s).store = s.store ∧ (emergencyStopActive s).issued = s.issued ∧
    (emergencyStopActive s).pending = s.pending := by
  simp only [emergencyStopActive]
  (repeat' split) <;> simp

@[simp] theorem emergencyStopReleased_frame (s : State) :
    (emergencyStopReleased s).now = s.now ∧ (emergencyStopReleased s).cfg = s.cfg ∧ (emergencyStopReleased s).enc = s.enc ∧
    (emergencyStopReleased s).web = s.web ∧ (emergencyStopReleased s).sched = s.sched ∧
    (emergencyStopReleased s).stands = s.stands ∧ (emergencyStopReleased s).stations = s.stations ∧
    (emergencyStopReleased s).remap = s.remap ∧ (emergencyStopReleased s).lanes = s.lanes ∧
    (emergencyStopReleased s).delivery = s.delivery ∧ (emergencyStopReleased s).line = s.line ∧
    (emergencyStopReleased s).rest = s.rest ∧ (emergencyStopReleased s).accounts = s.accounts ∧
    (emergencyStopReleased s).bank = s.bank ∧ (emergencyStopReleased s).link = s.link ∧
    (emergencyStopReleased s).notices = s.notices ∧ (emergencyStopReleased s).store = s.store ∧
    (emergencyStopReleased s).issued = s.issued ∧ (emergencyStopReleased s).pending = s.pending := by
  simp only [emergencyStopReleased]
  (repeat' split) <;> simp

@[simp] theorem boardBreak_frame (s : State) :
    (boardBreak s).now = s.now ∧ (boardBreak s).cfg = s.cfg ∧ (boardBreak s).enc = s.enc ∧
    (boardBreak s).stations = s.stations ∧ (boardBreak s).remap = s.remap ∧ (boardBreak s).lanes = s.lanes ∧
    (boardBreak s).delivery = s.delivery ∧ (boardBreak s).gov = s.gov ∧ (boardBreak s).rest = s.rest ∧
    (boardBreak s).emergencyStop = s.emergencyStop ∧ (boardBreak s).link = s.link ∧ (boardBreak s).store = s.store ∧
    (boardBreak s).pending = s.pending := by
  simp [boardBreak]

@[simp] theorem restExpiry_frame (s : State) :
    (restExpiry s).cfg = s.cfg ∧ (restExpiry s).enc = s.enc ∧ (restExpiry s).web = s.web ∧ (restExpiry s).sched = s.sched ∧
    (restExpiry s).stands = s.stands ∧ (restExpiry s).stations = s.stations ∧ (restExpiry s).remap = s.remap ∧
    (restExpiry s).lanes = s.lanes ∧ (restExpiry s).delivery = s.delivery ∧ (restExpiry s).gov = s.gov ∧
    (restExpiry s).line = s.line ∧ (restExpiry s).emergencyStop = s.emergencyStop ∧ (restExpiry s).accounts = s.accounts ∧
    (restExpiry s).bank = s.bank ∧ (restExpiry s).link = s.link ∧ (restExpiry s).notices = s.notices ∧
    (restExpiry s).store = s.store ∧ (restExpiry s).issued = s.issued ∧ (restExpiry s).evalDue = s.evalDue ∧
    (restExpiry s).pending = s.pending := by
  simp only [restExpiry]
  (repeat' split) <;> simp

@[simp] theorem lineStop_frame (s : State) :
    (lineStop s).1.now = s.now ∧ (lineStop s).1.cfg = s.cfg ∧ (lineStop s).1.enc = s.enc ∧ (lineStop s).1.web = s.web ∧
    (lineStop s).1.sched = s.sched ∧ (lineStop s).1.stands = s.stands ∧ (lineStop s).1.stations = s.stations ∧
    (lineStop s).1.remap = s.remap ∧ (lineStop s).1.lanes = s.lanes ∧ (lineStop s).1.delivery = s.delivery ∧
    (lineStop s).1.gov = s.gov ∧ (lineStop s).1.rest = s.rest ∧ (lineStop s).1.emergencyStop = s.emergencyStop ∧
    (lineStop s).1.accounts = s.accounts ∧ (lineStop s).1.link = s.link ∧ (lineStop s).1.store = s.store ∧
    (lineStop s).1.issued = s.issued ∧ (lineStop s).1.pending = s.pending := by
  simp only [lineStop]
  (repeat' split) <;> simp

@[simp] theorem lineRestart_frame (s : State) :
    (lineRestart s).1.now = s.now ∧ (lineRestart s).1.cfg = s.cfg ∧ (lineRestart s).1.enc = s.enc ∧
    (lineRestart s).1.web = s.web ∧ (lineRestart s).1.sched = s.sched ∧ (lineRestart s).1.stands = s.stands ∧
    (lineRestart s).1.stations = s.stations ∧ (lineRestart s).1.remap = s.remap ∧ (lineRestart s).1.lanes = s.lanes ∧
    (lineRestart s).1.delivery = s.delivery ∧ (lineRestart s).1.gov = s.gov ∧ (lineRestart s).1.rest = s.rest ∧
    (lineRestart s).1.emergencyStop = s.emergencyStop ∧ (lineRestart s).1.accounts = s.accounts ∧
    (lineRestart s).1.link = s.link ∧ (lineRestart s).1.store = s.store ∧ (lineRestart s).1.issued = s.issued ∧
    (lineRestart s).1.pending = s.pending := by
  simp only [lineRestart]
  (repeat' split) <;> simp

@[simp] theorem purgeAll_frame (s : State) :
    (purgeAll s).now = s.now ∧ (purgeAll s).cfg = s.cfg ∧ (purgeAll s).remap = s.remap ∧ (purgeAll s).gov = s.gov ∧
    (purgeAll s).rest = s.rest ∧ (purgeAll s).emergencyStop = s.emergencyStop ∧ (purgeAll s).accounts = s.accounts ∧
    (purgeAll s).link = s.link ∧ (purgeAll s).store = s.store ∧ (purgeAll s).pending = s.pending := by
  simp [purgeAll]

@[simp] theorem purge_frame (s : State) :
    (purge s).1.now = s.now ∧ (purge s).1.cfg = s.cfg ∧ (purge s).1.remap = s.remap ∧ (purge s).1.gov = s.gov ∧
    (purge s).1.rest = s.rest ∧ (purge s).1.emergencyStop = s.emergencyStop ∧ (purge s).1.accounts = s.accounts ∧
    (purge s).1.link = s.link ∧ (purge s).1.store = s.store ∧ (purge s).1.pending = s.pending := by
  simp only [purge]
  (repeat' split) <;> simp

@[simp] theorem lineQuery_frame (s : State) :
    (lineQuery s).1.now = s.now ∧ (lineQuery s).1.cfg = s.cfg ∧ (lineQuery s).1.enc = s.enc ∧ (lineQuery s).1.web = s.web ∧
    (lineQuery s).1.sched = s.sched ∧ (lineQuery s).1.stands = s.stands ∧ (lineQuery s).1.stations = s.stations ∧
    (lineQuery s).1.remap = s.remap ∧ (lineQuery s).1.lanes = s.lanes ∧ (lineQuery s).1.delivery = s.delivery ∧
    (lineQuery s).1.gov = s.gov ∧ (lineQuery s).1.line = s.line ∧ (lineQuery s).1.rest = s.rest ∧
    (lineQuery s).1.emergencyStop = s.emergencyStop ∧ (lineQuery s).1.accounts = s.accounts ∧
    (lineQuery s).1.bank = s.bank ∧ (lineQuery s).1.link = s.link ∧ (lineQuery s).1.notices = s.notices ∧
    (lineQuery s).1.store = s.store ∧ (lineQuery s).1.issued = s.issued ∧ (lineQuery s).1.evalDue = s.evalDue ∧
    (lineQuery s).1.pending = s.pending := by
  simp [lineQuery]

@[simp] theorem clearAll_frame (s : State) :
    (clearAll s).now = s.now ∧ (clearAll s).cfg = s.cfg ∧ (clearAll s).gov = s.gov ∧ (clearAll s).line = s.line ∧
    (clearAll s).rest = s.rest ∧ (clearAll s).emergencyStop = s.emergencyStop ∧ (clearAll s).link = s.link ∧
    (clearAll s).store = s.store ∧ (clearAll s).pending = s.pending := by
  simp [clearAll]

@[simp] theorem productionClear_frame (s : State) :
    (productionClear s).1.now = s.now ∧ (productionClear s).1.cfg = s.cfg ∧ (productionClear s).1.gov = s.gov ∧
    (productionClear s).1.line = s.line ∧ (productionClear s).1.rest = s.rest ∧
    (productionClear s).1.emergencyStop = s.emergencyStop ∧ (productionClear s).1.link = s.link ∧
    (productionClear s).1.store = s.store ∧ (productionClear s).1.pending = s.pending := by
  simp only [productionClear]
  (repeat' split) <;> simp

@[simp] theorem accountsRead_frame (s : State) :
    (accountsRead s).1.now = s.now ∧ (accountsRead s).1.cfg = s.cfg ∧ (accountsRead s).1.enc = s.enc ∧
    (accountsRead s).1.web = s.web ∧ (accountsRead s).1.sched = s.sched ∧ (accountsRead s).1.stands = s.stands ∧
    (accountsRead s).1.stations = s.stations ∧ (accountsRead s).1.remap = s.remap ∧ (accountsRead s).1.lanes = s.lanes ∧
    (accountsRead s).1.delivery = s.delivery ∧ (accountsRead s).1.gov = s.gov ∧ (accountsRead s).1.line = s.line ∧
    (accountsRead s).1.rest = s.rest ∧ (accountsRead s).1.emergencyStop = s.emergencyStop ∧
    (accountsRead s).1.accounts = s.accounts ∧ (accountsRead s).1.bank = s.bank ∧ (accountsRead s).1.link = s.link ∧
    (accountsRead s).1.notices = s.notices ∧ (accountsRead s).1.store = s.store ∧ (accountsRead s).1.issued = s.issued ∧
    (accountsRead s).1.evalDue = s.evalDue ∧ (accountsRead s).1.pending = s.pending := by
  simp [accountsRead]

@[simp] theorem accountsClear_frame (s : State) :
    (accountsClear s).1.now = s.now ∧ (accountsClear s).1.cfg = s.cfg ∧ (accountsClear s).1.enc = s.enc ∧
    (accountsClear s).1.web = s.web ∧ (accountsClear s).1.sched = s.sched ∧ (accountsClear s).1.stands = s.stands ∧
    (accountsClear s).1.stations = s.stations ∧ (accountsClear s).1.remap = s.remap ∧ (accountsClear s).1.lanes = s.lanes ∧
    (accountsClear s).1.delivery = s.delivery ∧ (accountsClear s).1.gov = s.gov ∧ (accountsClear s).1.line = s.line ∧
    (accountsClear s).1.rest = s.rest ∧ (accountsClear s).1.emergencyStop = s.emergencyStop ∧
    (accountsClear s).1.bank = s.bank ∧ (accountsClear s).1.link = s.link ∧ (accountsClear s).1.notices = s.notices ∧
    (accountsClear s).1.store = s.store ∧ (accountsClear s).1.issued = s.issued ∧ (accountsClear s).1.evalDue = s.evalDue ∧
    (accountsClear s).1.pending = s.pending := by
  simp [accountsClear]

@[simp] theorem updateCounter_frame (i : Fin 8) (f : Counter → Counter) (s : State) :
    (updateCounter i f s).now = s.now ∧ (updateCounter i f s).cfg = s.cfg ∧ (updateCounter i f s).enc = s.enc ∧
    (updateCounter i f s).web = s.web ∧ (updateCounter i f s).sched = s.sched ∧ (updateCounter i f s).stands = s.stands ∧
    (updateCounter i f s).stations = s.stations ∧ (updateCounter i f s).remap = s.remap ∧
    (updateCounter i f s).lanes = s.lanes ∧ (updateCounter i f s).delivery = s.delivery ∧
    (updateCounter i f s).gov = s.gov ∧ (updateCounter i f s).line = s.line ∧ (updateCounter i f s).rest = s.rest ∧
    (updateCounter i f s).emergencyStop = s.emergencyStop ∧ (updateCounter i f s).accounts = s.accounts ∧
    (updateCounter i f s).link = s.link ∧ (updateCounter i f s).notices = s.notices ∧
    (updateCounter i f s).store = s.store ∧ (updateCounter i f s).issued = s.issued ∧
    (updateCounter i f s).evalDue = s.evalDue ∧ (updateCounter i f s).pending = s.pending := by
  simp [updateCounter]

@[simp] theorem counterSetup_frame (counter : Nat) (enable : Nat) (source : Nat) (mode : Nat) (invert : Nat)
    (freeze : Nat) (laneFilter : Nat) (orderMatch : Nat) (orderMask : Nat) (classSet : Nat) (family : Nat) (s : State) :

    (counterSetup counter enable source mode invert freeze laneFilter orderMatch orderMask classSet family s).1.now = s.now ∧
    (counterSetup counter enable source mode invert freeze laneFilter orderMatch orderMask classSet family s).1.cfg = s.cfg ∧
    (counterSetup counter enable source mode invert freeze laneFilter orderMatch orderMask classSet family s).1.enc = s.enc ∧
    (counterSetup counter enable source mode invert freeze laneFilter orderMatch orderMask classSet family s).1.web = s.web ∧
    (counterSetup counter enable source mode invert freeze laneFilter orderMatch orderMask classSet family s).1.sched = s.sched ∧
    (counterSetup counter enable source mode invert freeze laneFilter orderMatch orderMask classSet family s).1.stands = s.stands ∧
    (counterSetup counter enable source mode invert freeze laneFilter orderMatch orderMask classSet family s).1.stations = s.stations ∧
    (counterSetup counter enable source mode invert freeze laneFilter orderMatch orderMask classSet family s).1.remap = s.remap ∧
    (counterSetup counter enable source mode invert freeze laneFilter orderMatch orderMask classSet family s).1.lanes = s.lanes ∧
    (counterSetup counter enable source mode invert freeze laneFilter orderMatch orderMask classSet family s).1.delivery = s.delivery ∧
    (counterSetup counter enable source mode invert freeze laneFilter orderMatch orderMask classSet family s).1.gov = s.gov ∧
    (counterSetup counter enable source mode invert freeze laneFilter orderMatch orderMask classSet family s).1.line = s.line ∧
    (counterSetup counter enable source mode invert freeze laneFilter orderMatch orderMask classSet family s).1.rest = s.rest ∧
    (counterSetup counter enable source mode invert freeze laneFilter orderMatch orderMask classSet family s).1.emergencyStop = s.emergencyStop ∧
    (counterSetup counter enable source mode invert freeze laneFilter orderMatch orderMask classSet family s).1.accounts = s.accounts ∧
    (counterSetup counter enable source mode invert freeze laneFilter orderMatch orderMask classSet family s).1.link = s.link ∧
    (counterSetup counter enable source mode invert freeze laneFilter orderMatch orderMask classSet family s).1.notices = s.notices ∧
    (counterSetup counter enable source mode invert freeze laneFilter orderMatch orderMask classSet family s).1.store = s.store ∧
    (counterSetup counter enable source mode invert freeze laneFilter orderMatch orderMask classSet family s).1.issued = s.issued ∧
    (counterSetup counter enable source mode invert freeze laneFilter orderMatch orderMask classSet family s).1.evalDue = s.evalDue ∧
    (counterSetup counter enable source mode invert freeze laneFilter orderMatch orderMask classSet family s).1.pending = s.pending := by
  simp only [counterSetup]
  (repeat' split) <;> simp

@[simp] theorem counterEnable_frame (counter : Nat) (enable : Nat) (s : State) :
    (counterEnable counter enable s).1.now = s.now ∧ (counterEnable counter enable s).1.cfg = s.cfg ∧
    (counterEnable counter enable s).1.enc = s.enc ∧ (counterEnable counter enable s).1.web = s.web ∧
    (counterEnable counter enable s).1.sched = s.sched ∧ (counterEnable counter enable s).1.stands = s.stands ∧
    (counterEnable counter enable s).1.stations = s.stations ∧ (counterEnable counter enable s).1.remap = s.remap ∧
    (counterEnable counter enable s).1.lanes = s.lanes ∧ (counterEnable counter enable s).1.delivery = s.delivery ∧
    (counterEnable counter enable s).1.gov = s.gov ∧ (counterEnable counter enable s).1.line = s.line ∧
    (counterEnable counter enable s).1.rest = s.rest ∧ (counterEnable counter enable s).1.emergencyStop = s.emergencyStop ∧
    (counterEnable counter enable s).1.accounts = s.accounts ∧ (counterEnable counter enable s).1.link = s.link ∧
    (counterEnable counter enable s).1.notices = s.notices ∧ (counterEnable counter enable s).1.store = s.store ∧
    (counterEnable counter enable s).1.issued = s.issued ∧ (counterEnable counter enable s).1.evalDue = s.evalDue ∧
    (counterEnable counter enable s).1.pending = s.pending := by
  simp only [counterEnable]
  (repeat' split) <;> simp

@[simp] theorem counterPreset_frame (counter : Nat) (value : Nat) (s : State) :
    (counterPreset counter value s).1.now = s.now ∧ (counterPreset counter value s).1.cfg = s.cfg ∧
    (counterPreset counter value s).1.enc = s.enc ∧ (counterPreset counter value s).1.web = s.web ∧
    (counterPreset counter value s).1.sched = s.sched ∧ (counterPreset counter value s).1.stands = s.stands ∧
    (counterPreset counter value s).1.stations = s.stations ∧ (counterPreset counter value s).1.remap = s.remap ∧
    (counterPreset counter value s).1.lanes = s.lanes ∧ (counterPreset counter value s).1.delivery = s.delivery ∧
    (counterPreset counter value s).1.gov = s.gov ∧ (counterPreset counter value s).1.line = s.line ∧
    (counterPreset counter value s).1.rest = s.rest ∧ (counterPreset counter value s).1.emergencyStop = s.emergencyStop ∧
    (counterPreset counter value s).1.accounts = s.accounts ∧ (counterPreset counter value s).1.link = s.link ∧
    (counterPreset counter value s).1.notices = s.notices ∧ (counterPreset counter value s).1.store = s.store ∧
    (counterPreset counter value s).1.issued = s.issued ∧ (counterPreset counter value s).1.evalDue = s.evalDue ∧
    (counterPreset counter value s).1.pending = s.pending := by
  simp only [counterPreset]
  (repeat' split) <;> simp

@[simp] theorem counterUnfreeze_frame (s : State) :
    (counterUnfreeze s).1.now = s.now ∧ (counterUnfreeze s).1.cfg = s.cfg ∧ (counterUnfreeze s).1.enc = s.enc ∧
    (counterUnfreeze s).1.web = s.web ∧ (counterUnfreeze s).1.sched = s.sched ∧ (counterUnfreeze s).1.stands = s.stands ∧
    (counterUnfreeze s).1.stations = s.stations ∧ (counterUnfreeze s).1.remap = s.remap ∧
    (counterUnfreeze s).1.lanes = s.lanes ∧ (counterUnfreeze s).1.delivery = s.delivery ∧
    (counterUnfreeze s).1.gov = s.gov ∧ (counterUnfreeze s).1.line = s.line ∧ (counterUnfreeze s).1.rest = s.rest ∧
    (counterUnfreeze s).1.emergencyStop = s.emergencyStop ∧ (counterUnfreeze s).1.accounts = s.accounts ∧
    (counterUnfreeze s).1.link = s.link ∧ (counterUnfreeze s).1.notices = s.notices ∧
    (counterUnfreeze s).1.store = s.store ∧ (counterUnfreeze s).1.issued = s.issued ∧
    (counterUnfreeze s).1.evalDue = s.evalDue ∧ (counterUnfreeze s).1.pending = s.pending := by
  simp [counterUnfreeze]

@[simp] theorem counterRead_frame (clear : Nat) (s : State) :
    (counterRead clear s).1.now = s.now ∧ (counterRead clear s).1.cfg = s.cfg ∧ (counterRead clear s).1.enc = s.enc ∧
    (counterRead clear s).1.web = s.web ∧ (counterRead clear s).1.sched = s.sched ∧
    (counterRead clear s).1.stands = s.stands ∧ (counterRead clear s).1.stations = s.stations ∧
    (counterRead clear s).1.remap = s.remap ∧ (counterRead clear s).1.lanes = s.lanes ∧
    (counterRead clear s).1.delivery = s.delivery ∧ (counterRead clear s).1.gov = s.gov ∧
    (counterRead clear s).1.line = s.line ∧ (counterRead clear s).1.rest = s.rest ∧
    (counterRead clear s).1.emergencyStop = s.emergencyStop ∧ (counterRead clear s).1.accounts = s.accounts ∧
    (counterRead clear s).1.link = s.link ∧ (counterRead clear s).1.notices = s.notices ∧
    (counterRead clear s).1.store = s.store ∧ (counterRead clear s).1.issued = s.issued ∧
    (counterRead clear s).1.evalDue = s.evalDue ∧ (counterRead clear s).1.pending = s.pending := by
  simp only [counterRead]
  (repeat' split) <;> simp

@[simp] theorem millisecond_frame (s : State) :
    (millisecond s).cfg = s.cfg ∧ (millisecond s).enc = s.enc ∧ (millisecond s).web = s.web ∧
    (millisecond s).sched = s.sched ∧ (millisecond s).stands = s.stands ∧ (millisecond s).stations = s.stations ∧
    (millisecond s).remap = s.remap ∧ (millisecond s).lanes = s.lanes ∧ (millisecond s).delivery = s.delivery ∧
    (millisecond s).gov = s.gov ∧ (millisecond s).line = s.line ∧ (millisecond s).rest = s.rest ∧
    (millisecond s).emergencyStop = s.emergencyStop ∧ (millisecond s).accounts = s.accounts ∧
    (millisecond s).link = s.link ∧ (millisecond s).store = s.store ∧ (millisecond s).issued = s.issued ∧
    (millisecond s).evalDue = s.evalDue ∧ (millisecond s).pending = s.pending := by
  simp [millisecond]

@[simp] theorem standWritten_frame (old : Settings) (i : Fin 6) (s : State) :
    (standWritten old i s).now = s.now ∧ (standWritten old i s).cfg = s.cfg ∧ (standWritten old i s).enc = s.enc ∧
    (standWritten old i s).web = s.web ∧ (standWritten old i s).sched = s.sched ∧
    (standWritten old i s).stations = s.stations ∧ (standWritten old i s).remap = s.remap ∧
    (standWritten old i s).lanes = s.lanes ∧ (standWritten old i s).delivery = s.delivery ∧
    (standWritten old i s).gov = s.gov ∧ (standWritten old i s).line = s.line ∧ (standWritten old i s).rest = s.rest ∧
    (standWritten old i s).emergencyStop = s.emergencyStop ∧ (standWritten old i s).accounts = s.accounts ∧
    (standWritten old i s).link = s.link ∧ (standWritten old i s).store = s.store ∧
    (standWritten old i s).issued = s.issued ∧ (standWritten old i s).pending = s.pending := by
  simp only [standWritten]
  (repeat' split) <;> simp

@[simp] theorem standsWritten_frame (old : Settings) (s : State) :
    (standsWritten old s).now = s.now ∧ (standsWritten old s).cfg = s.cfg ∧ (standsWritten old s).enc = s.enc ∧
    (standsWritten old s).web = s.web ∧ (standsWritten old s).sched = s.sched ∧
    (standsWritten old s).stations = s.stations ∧ (standsWritten old s).remap = s.remap ∧
    (standsWritten old s).lanes = s.lanes ∧ (standsWritten old s).delivery = s.delivery ∧
    (standsWritten old s).gov = s.gov ∧ (standsWritten old s).line = s.line ∧ (standsWritten old s).rest = s.rest ∧
    (standsWritten old s).emergencyStop = s.emergencyStop ∧ (standsWritten old s).accounts = s.accounts ∧
    (standsWritten old s).link = s.link ∧ (standsWritten old s).store = s.store ∧ (standsWritten old s).issued = s.issued ∧
    (standsWritten old s).pending = s.pending := by
  have k := fun {β : Type} (p : State → β) (h : ∀ s a, p (standWritten old a s) = p s) =>
    foldl_keeps p (fun s a => standWritten old a s) h slots s
  exact ⟨k State.now (by simp), k State.cfg (by simp), k State.enc (by simp), k State.web (by simp),
    k State.sched (by simp), k State.stations (by simp), k State.remap (by simp), k State.lanes (by simp),
    k State.delivery (by simp), k State.gov (by simp), k State.line (by simp), k State.rest (by simp),
    k State.emergencyStop (by simp), k State.accounts (by simp), k State.link (by simp), k State.store (by simp),
    k State.issued (by simp), k State.pending (by simp)⟩

@[simp] theorem encoderWritten_frame (s : State) :
    (encoderWritten s).now = s.now ∧ (encoderWritten s).cfg = s.cfg ∧ (encoderWritten s).web = s.web ∧
    (encoderWritten s).sched = s.sched ∧ (encoderWritten s).stands = s.stands ∧ (encoderWritten s).stations = s.stations ∧
    (encoderWritten s).remap = s.remap ∧ (encoderWritten s).lanes = s.lanes ∧ (encoderWritten s).delivery = s.delivery ∧
    (encoderWritten s).gov = s.gov ∧ (encoderWritten s).line = s.line ∧ (encoderWritten s).rest = s.rest ∧
    (encoderWritten s).emergencyStop = s.emergencyStop ∧ (encoderWritten s).accounts = s.accounts ∧
    (encoderWritten s).bank = s.bank ∧ (encoderWritten s).link = s.link ∧ (encoderWritten s).notices = s.notices ∧
    (encoderWritten s).store = s.store ∧ (encoderWritten s).issued = s.issued ∧ (encoderWritten s).evalDue = s.evalDue ∧
    (encoderWritten s).pending = s.pending := by
  simp [encoderWritten]

@[simp] theorem idleWritten_frame (lane : Lane) (s : State) :
    (idleWritten lane s).now = s.now ∧ (idleWritten lane s).cfg = s.cfg ∧ (idleWritten lane s).enc = s.enc ∧
    (idleWritten lane s).web = s.web ∧ (idleWritten lane s).sched = s.sched ∧ (idleWritten lane s).stands = s.stands ∧
    (idleWritten lane s).stations = s.stations ∧ (idleWritten lane s).remap = s.remap ∧
    (idleWritten lane s).delivery = s.delivery ∧ (idleWritten lane s).gov = s.gov ∧ (idleWritten lane s).line = s.line ∧
    (idleWritten lane s).rest = s.rest ∧ (idleWritten lane s).emergencyStop = s.emergencyStop ∧
    (idleWritten lane s).accounts = s.accounts ∧ (idleWritten lane s).bank = s.bank ∧ (idleWritten lane s).link = s.link ∧
    (idleWritten lane s).notices = s.notices ∧ (idleWritten lane s).store = s.store ∧
    (idleWritten lane s).issued = s.issued ∧ (idleWritten lane s).pending = s.pending := by
  simp only [idleWritten]
  (repeat' split) <;> simp

@[simp] theorem takeWrite_frame (items : List (Item × Nat)) (s : State) :
    (takeWrite items s).now = s.now ∧ (takeWrite items s).web = s.web ∧ (takeWrite items s).sched = s.sched ∧
    (takeWrite items s).stations = s.stations ∧ (takeWrite items s).remap = s.remap ∧
    (takeWrite items s).delivery = s.delivery ∧ (takeWrite items s).gov = s.gov ∧ (takeWrite items s).line = s.line ∧
    (takeWrite items s).rest = s.rest ∧ (takeWrite items s).emergencyStop = s.emergencyStop ∧
    (takeWrite items s).accounts = s.accounts ∧ (takeWrite items s).link = s.link ∧ (takeWrite items s).store = s.store ∧
    (takeWrite items s).issued = s.issued ∧ (takeWrite items s).pending = s.pending := by
  simp only [takeWrite]
  (repeat' split) <;> simp

@[simp] theorem settingsWrite_frame (entries : List (Nat × Nat)) (s : State) :
    (settingsWrite entries s).1.now = s.now ∧ (settingsWrite entries s).1.web = s.web ∧
    (settingsWrite entries s).1.sched = s.sched ∧ (settingsWrite entries s).1.stations = s.stations ∧
    (settingsWrite entries s).1.remap = s.remap ∧ (settingsWrite entries s).1.delivery = s.delivery ∧
    (settingsWrite entries s).1.gov = s.gov ∧ (settingsWrite entries s).1.line = s.line ∧
    (settingsWrite entries s).1.rest = s.rest ∧ (settingsWrite entries s).1.emergencyStop = s.emergencyStop ∧
    (settingsWrite entries s).1.accounts = s.accounts ∧ (settingsWrite entries s).1.link = s.link ∧
    (settingsWrite entries s).1.store = s.store ∧ (settingsWrite entries s).1.issued = s.issued ∧
    (settingsWrite entries s).1.pending = s.pending := by
  simp only [settingsWrite]
  (repeat' split) <;> simp

@[simp] theorem settingsCommit_frame (s : State) :
    (settingsCommit s).1.now = s.now ∧ (settingsCommit s).1.cfg = s.cfg ∧ (settingsCommit s).1.enc = s.enc ∧
    (settingsCommit s).1.web = s.web ∧ (settingsCommit s).1.sched = s.sched ∧ (settingsCommit s).1.stands = s.stands ∧
    (settingsCommit s).1.stations = s.stations ∧ (settingsCommit s).1.remap = s.remap ∧
    (settingsCommit s).1.lanes = s.lanes ∧ (settingsCommit s).1.delivery = s.delivery ∧ (settingsCommit s).1.gov = s.gov ∧
    (settingsCommit s).1.line = s.line ∧ (settingsCommit s).1.rest = s.rest ∧
    (settingsCommit s).1.emergencyStop = s.emergencyStop ∧ (settingsCommit s).1.accounts = s.accounts ∧
    (settingsCommit s).1.bank = s.bank ∧ (settingsCommit s).1.link = s.link ∧ (settingsCommit s).1.notices = s.notices ∧
    (settingsCommit s).1.issued = s.issued ∧ (settingsCommit s).1.evalDue = s.evalDue ∧
    (settingsCommit s).1.pending = s.pending := by
  simp only [settingsCommit]
  (repeat' split) <;> simp

@[simp] theorem imageWriteSuccess_frame (s : State) :
    (imageWriteSuccess s).now = s.now ∧ (imageWriteSuccess s).cfg = s.cfg ∧ (imageWriteSuccess s).enc = s.enc ∧
    (imageWriteSuccess s).web = s.web ∧ (imageWriteSuccess s).sched = s.sched ∧ (imageWriteSuccess s).stands = s.stands ∧
    (imageWriteSuccess s).stations = s.stations ∧ (imageWriteSuccess s).remap = s.remap ∧
    (imageWriteSuccess s).lanes = s.lanes ∧ (imageWriteSuccess s).delivery = s.delivery ∧
    (imageWriteSuccess s).gov = s.gov ∧ (imageWriteSuccess s).line = s.line ∧ (imageWriteSuccess s).rest = s.rest ∧
    (imageWriteSuccess s).emergencyStop = s.emergencyStop ∧ (imageWriteSuccess s).accounts = s.accounts ∧
    (imageWriteSuccess s).bank = s.bank ∧ (imageWriteSuccess s).link = s.link ∧ (imageWriteSuccess s).notices = s.notices ∧
    (imageWriteSuccess s).issued = s.issued ∧ (imageWriteSuccess s).evalDue = s.evalDue ∧
    (imageWriteSuccess s).pending = s.pending := by
  simp only [imageWriteSuccess]
  (repeat' split) <;> simp

@[simp] theorem imageWriteFailure_frame (s : State) :
    (imageWriteFailure s).now = s.now ∧ (imageWriteFailure s).cfg = s.cfg ∧ (imageWriteFailure s).enc = s.enc ∧
    (imageWriteFailure s).web = s.web ∧ (imageWriteFailure s).sched = s.sched ∧ (imageWriteFailure s).stands = s.stands ∧
    (imageWriteFailure s).stations = s.stations ∧ (imageWriteFailure s).remap = s.remap ∧
    (imageWriteFailure s).lanes = s.lanes ∧ (imageWriteFailure s).delivery = s.delivery ∧
    (imageWriteFailure s).gov = s.gov ∧ (imageWriteFailure s).line = s.line ∧ (imageWriteFailure s).rest = s.rest ∧
    (imageWriteFailure s).emergencyStop = s.emergencyStop ∧ (imageWriteFailure s).accounts = s.accounts ∧
    (imageWriteFailure s).bank = s.bank ∧ (imageWriteFailure s).link = s.link ∧ (imageWriteFailure s).issued = s.issued ∧
    (imageWriteFailure s).evalDue = s.evalDue ∧ (imageWriteFailure s).pending = s.pending := by
  simp only [imageWriteFailure]
  (repeat' split) <;> simp

@[simp] theorem statusRequest_frame (s : State) :
    (statusRequest s).1.now = s.now ∧ (statusRequest s).1.cfg = s.cfg ∧ (statusRequest s).1.enc = s.enc ∧
    (statusRequest s).1.web = s.web ∧ (statusRequest s).1.sched = s.sched ∧ (statusRequest s).1.stands = s.stands ∧
    (statusRequest s).1.stations = s.stations ∧ (statusRequest s).1.remap = s.remap ∧ (statusRequest s).1.lanes = s.lanes ∧
    (statusRequest s).1.delivery = s.delivery ∧ (statusRequest s).1.gov = s.gov ∧ (statusRequest s).1.line = s.line ∧
    (statusRequest s).1.rest = s.rest ∧ (statusRequest s).1.emergencyStop = s.emergencyStop ∧
    (statusRequest s).1.accounts = s.accounts ∧ (statusRequest s).1.bank = s.bank ∧ (statusRequest s).1.link = s.link ∧
    (statusRequest s).1.store = s.store ∧ (statusRequest s).1.issued = s.issued ∧ (statusRequest s).1.evalDue = s.evalDue ∧
    (statusRequest s).1.pending = s.pending := by
  simp [statusRequest]

@[simp] theorem perform_frame (r : Request) (v : List Nat) (s : State) :
    (perform r v s).1.now = s.now ∧ (perform r v s).1.rest = s.rest ∧ (perform r v s).1.emergencyStop = s.emergencyStop ∧
    (perform r v s).1.link = s.link ∧ (perform r v s).1.pending = s.pending := by
  simp only [perform]
  (repeat' split) <;> simp

@[simp] theorem breakSequence_frame (r : Request) (s : State) :
    (breakSequence r s).now = s.now ∧ (breakSequence r s).cfg = s.cfg ∧ (breakSequence r s).enc = s.enc ∧
    (breakSequence r s).web = s.web ∧ (breakSequence r s).sched = s.sched ∧ (breakSequence r s).stands = s.stands ∧
    (breakSequence r s).stations = s.stations ∧ (breakSequence r s).lanes = s.lanes ∧
    (breakSequence r s).delivery = s.delivery ∧ (breakSequence r s).gov = s.gov ∧ (breakSequence r s).line = s.line ∧
    (breakSequence r s).rest = s.rest ∧ (breakSequence r s).emergencyStop = s.emergencyStop ∧
    (breakSequence r s).accounts = s.accounts ∧ (breakSequence r s).bank = s.bank ∧ (breakSequence r s).link = s.link ∧
    (breakSequence r s).notices = s.notices ∧ (breakSequence r s).store = s.store ∧ (breakSequence r s).issued = s.issued ∧
    (breakSequence r s).evalDue = s.evalDue ∧ (breakSequence r s).pending = s.pending := by
  simp only [breakSequence]
  (repeat' split) <;> simp

@[simp] theorem answerFrame_frame (q : Frame) (s : State) :
    (answerFrame q s).1.now = s.now ∧ (answerFrame q s).1.rest = s.rest ∧
    (answerFrame q s).1.emergencyStop = s.emergencyStop ∧ (answerFrame q s).1.link = s.link ∧
    (answerFrame q s).1.pending = s.pending := by
  simp only [answerFrame]
  (repeat' split) <;> simp

@[simp] theorem takeFrame_frame (q : Frame) (s : State) :
    (takeFrame q s).now = s.now ∧ (takeFrame q s).rest = s.rest ∧ (takeFrame q s).emergencyStop = s.emergencyStop ∧
    (takeFrame q s).pending = s.pending := by
  simp [takeFrame]

@[simp] theorem takeOldest_frame (s : State) :
    (takeOldest s).now = s.now ∧ (takeOldest s).rest = s.rest ∧ (takeOldest s).emergencyStop = s.emergencyStop ∧
    (takeOldest s).pending = s.pending := by
  simp only [takeOldest]
  (repeat' split) <;> simp

@[simp] theorem arrive_frame (q : Frame) (s : State) :
    (arrive q s).now = s.now ∧ (arrive q s).rest = s.rest ∧ (arrive q s).emergencyStop = s.emergencyStop ∧
    (arrive q s).pending = s.pending := by
  simp only [arrive]
  (repeat' split) <;> simp

@[simp] theorem setRx_frame (r : Receiver) (s : State) :
    (setRx r s).now = s.now ∧ (setRx r s).cfg = s.cfg ∧ (setRx r s).enc = s.enc ∧ (setRx r s).web = s.web ∧
    (setRx r s).sched = s.sched ∧ (setRx r s).stands = s.stands ∧ (setRx r s).stations = s.stations ∧
    (setRx r s).remap = s.remap ∧ (setRx r s).lanes = s.lanes ∧ (setRx r s).delivery = s.delivery ∧
    (setRx r s).gov = s.gov ∧ (setRx r s).line = s.line ∧ (setRx r s).rest = s.rest ∧
    (setRx r s).emergencyStop = s.emergencyStop ∧ (setRx r s).accounts = s.accounts ∧ (setRx r s).bank = s.bank ∧
    (setRx r s).notices = s.notices ∧ (setRx r s).store = s.store ∧ (setRx r s).issued = s.issued ∧
    (setRx r s).evalDue = s.evalDue ∧ (setRx r s).pending = s.pending := by
  simp [setRx]

@[simp] theorem checkFrame_frame (taken : List Byte) (len : Nat) (s : State) :
    (checkFrame taken len s).now = s.now ∧ (checkFrame taken len s).rest = s.rest ∧
    (checkFrame taken len s).emergencyStop = s.emergencyStop ∧ (checkFrame taken len s).pending = s.pending := by
  simp only [checkFrame]
  (repeat' split) <;> simp

@[simp] theorem rxByte_frame (b : Byte) (s : State) :
    (rxByte b s).now = s.now ∧ (rxByte b s).rest = s.rest ∧ (rxByte b s).emergencyStop = s.emergencyStop ∧
    (rxByte b s).pending = s.pending := by
  simp only [rxByte]
  (repeat' split) <;> simp

@[simp] theorem rxBytes_frame (bs : List Byte) (s : State) :
    (rxBytes bs s).now = s.now ∧ (rxBytes bs s).rest = s.rest ∧ (rxBytes bs s).emergencyStop = s.emergencyStop ∧
    (rxBytes bs s).pending = s.pending := by
  have k := fun {β : Type} (p : State → β) (h : ∀ s a, p (rxByte a s) = p s) =>
    foldl_keeps p (fun s a => rxByte a s) h bs s
  exact ⟨k State.now (by simp), k State.rest (by simp), k State.emergencyStop (by simp), k State.pending (by simp)⟩

@[simp] theorem gapTimeout_frame (s : State) :
    (gapTimeout s).cfg = s.cfg ∧ (gapTimeout s).enc = s.enc ∧ (gapTimeout s).web = s.web ∧ (gapTimeout s).sched = s.sched ∧
    (gapTimeout s).stands = s.stands ∧ (gapTimeout s).stations = s.stations ∧ (gapTimeout s).remap = s.remap ∧
    (gapTimeout s).lanes = s.lanes ∧ (gapTimeout s).delivery = s.delivery ∧ (gapTimeout s).gov = s.gov ∧
    (gapTimeout s).line = s.line ∧ (gapTimeout s).rest = s.rest ∧ (gapTimeout s).emergencyStop = s.emergencyStop ∧
    (gapTimeout s).accounts = s.accounts ∧ (gapTimeout s).store = s.store ∧ (gapTimeout s).issued = s.issued ∧
    (gapTimeout s).evalDue = s.evalDue ∧ (gapTimeout s).pending = s.pending := by
  simp only [gapTimeout]
  (repeat' split) <;> simp

@[simp] theorem sendReply_frame (s : State) :
    (sendReply s).now = s.now ∧ (sendReply s).cfg = s.cfg ∧ (sendReply s).enc = s.enc ∧ (sendReply s).web = s.web ∧
    (sendReply s).sched = s.sched ∧ (sendReply s).stands = s.stands ∧ (sendReply s).stations = s.stations ∧
    (sendReply s).remap = s.remap ∧ (sendReply s).lanes = s.lanes ∧ (sendReply s).delivery = s.delivery ∧
    (sendReply s).gov = s.gov ∧ (sendReply s).line = s.line ∧ (sendReply s).rest = s.rest ∧
    (sendReply s).emergencyStop = s.emergencyStop ∧ (sendReply s).accounts = s.accounts ∧ (sendReply s).bank = s.bank ∧
    (sendReply s).notices = s.notices ∧ (sendReply s).store = s.store ∧ (sendReply s).issued = s.issued ∧
    (sendReply s).evalDue = s.evalDue ∧ (sendReply s).pending = s.pending := by
  simp [sendReply]

@[simp] theorem sendNotice_frame (n : Frame) (rest : List Frame) (s : State) :
    (sendNotice n rest s).now = s.now ∧ (sendNotice n rest s).cfg = s.cfg ∧ (sendNotice n rest s).enc = s.enc ∧
    (sendNotice n rest s).web = s.web ∧ (sendNotice n rest s).sched = s.sched ∧ (sendNotice n rest s).stands = s.stands ∧
    (sendNotice n rest s).stations = s.stations ∧ (sendNotice n rest s).remap = s.remap ∧
    (sendNotice n rest s).lanes = s.lanes ∧ (sendNotice n rest s).delivery = s.delivery ∧
    (sendNotice n rest s).gov = s.gov ∧ (sendNotice n rest s).line = s.line ∧ (sendNotice n rest s).rest = s.rest ∧
    (sendNotice n rest s).emergencyStop = s.emergencyStop ∧ (sendNotice n rest s).accounts = s.accounts ∧
    (sendNotice n rest s).bank = s.bank ∧ (sendNotice n rest s).store = s.store ∧ (sendNotice n rest s).issued = s.issued ∧
    (sendNotice n rest s).evalDue = s.evalDue ∧ (sendNotice n rest s).pending = s.pending := by
  simp [sendNotice]

@[simp] theorem arbitrate_frame (s : State) :
    (arbitrate s).now = s.now ∧ (arbitrate s).cfg = s.cfg ∧ (arbitrate s).enc = s.enc ∧ (arbitrate s).web = s.web ∧
    (arbitrate s).sched = s.sched ∧ (arbitrate s).stands = s.stands ∧ (arbitrate s).stations = s.stations ∧
    (arbitrate s).remap = s.remap ∧ (arbitrate s).lanes = s.lanes ∧ (arbitrate s).delivery = s.delivery ∧
    (arbitrate s).gov = s.gov ∧ (arbitrate s).line = s.line ∧ (arbitrate s).rest = s.rest ∧
    (arbitrate s).emergencyStop = s.emergencyStop ∧ (arbitrate s).accounts = s.accounts ∧ (arbitrate s).bank = s.bank ∧
    (arbitrate s).store = s.store ∧ (arbitrate s).issued = s.issued ∧ (arbitrate s).evalDue = s.evalDue ∧
    (arbitrate s).pending = s.pending := by
  simp only [arbitrate]
  (repeat' split) <;> simp

@[simp] theorem transmitComplete_frame (s : State) :
    (transmitComplete s).now = s.now ∧ (transmitComplete s).rest = s.rest ∧
    (transmitComplete s).emergencyStop = s.emergencyStop ∧ (transmitComplete s).pending = s.pending := by
  simp only [transmitComplete]
  (repeat' split) <;> simp

@[simp] theorem begin_frame (s : State) :
    (begin s).now = s.now ∧ (begin s).cfg = s.cfg ∧ (begin s).enc = s.enc ∧ (begin s).web = s.web ∧
    (begin s).sched = s.sched ∧ (begin s).stands = s.stands ∧ (begin s).stations = s.stations ∧ (begin s).remap = s.remap ∧
    (begin s).lanes = s.lanes ∧ (begin s).delivery = s.delivery ∧ (begin s).gov = s.gov ∧ (begin s).line = s.line ∧
    (begin s).rest = s.rest ∧ (begin s).emergencyStop = s.emergencyStop ∧ (begin s).accounts = s.accounts ∧
    (begin s).bank = s.bank ∧ (begin s).link = s.link ∧ (begin s).notices = s.notices ∧ (begin s).store = s.store ∧
    (begin s).pending = s.pending := by
  simp [begin]

@[simp] theorem settle_frame (s : State) :
    (settle s).now = s.now ∧ (settle s).cfg = s.cfg ∧ (settle s).enc = s.enc ∧ (settle s).web = s.web ∧
    (settle s).sched = s.sched ∧ (settle s).stations = s.stations ∧ (settle s).remap = s.remap ∧
    (settle s).lanes = s.lanes ∧ (settle s).delivery = s.delivery ∧ (settle s).line = s.line ∧ (settle s).rest = s.rest ∧
    (settle s).emergencyStop = s.emergencyStop ∧ (settle s).accounts = s.accounts ∧ (settle s).store = s.store ∧
    (settle s).pending = s.pending := by
  simp only [settle]
  (repeat' split) <;> simp

@[simp] theorem powerOnOutputs_frame (s : State) :
    (powerOnOutputs s).now = s.now ∧ (powerOnOutputs s).cfg = s.cfg ∧ (powerOnOutputs s).enc = s.enc ∧
    (powerOnOutputs s).web = s.web ∧ (powerOnOutputs s).sched = s.sched ∧ (powerOnOutputs s).stands = s.stands ∧
    (powerOnOutputs s).stations = s.stations ∧ (powerOnOutputs s).remap = s.remap ∧ (powerOnOutputs s).lanes = s.lanes ∧
    (powerOnOutputs s).delivery = s.delivery ∧ (powerOnOutputs s).line = s.line ∧ (powerOnOutputs s).rest = s.rest ∧
    (powerOnOutputs s).emergencyStop = s.emergencyStop ∧ (powerOnOutputs s).accounts = s.accounts ∧
    (powerOnOutputs s).bank = s.bank ∧ (powerOnOutputs s).link = s.link ∧ (powerOnOutputs s).notices = s.notices ∧
    (powerOnOutputs s).store = s.store ∧ (powerOnOutputs s).evalDue = s.evalDue ∧
    (powerOnOutputs s).pending = s.pending := by
  simp [powerOnOutputs]

@[simp] theorem startUpNotice_frame (s : State) :
    (startUpNotice s).now = s.now ∧ (startUpNotice s).cfg = s.cfg ∧ (startUpNotice s).enc = s.enc ∧
    (startUpNotice s).web = s.web ∧ (startUpNotice s).sched = s.sched ∧ (startUpNotice s).stands = s.stands ∧
    (startUpNotice s).stations = s.stations ∧ (startUpNotice s).remap = s.remap ∧ (startUpNotice s).lanes = s.lanes ∧
    (startUpNotice s).delivery = s.delivery ∧ (startUpNotice s).gov = s.gov ∧ (startUpNotice s).line = s.line ∧
    (startUpNotice s).rest = s.rest ∧ (startUpNotice s).emergencyStop = s.emergencyStop ∧
    (startUpNotice s).accounts = s.accounts ∧ (startUpNotice s).bank = s.bank ∧ (startUpNotice s).link = s.link ∧
    (startUpNotice s).store = s.store ∧ (startUpNotice s).issued = s.issued ∧ (startUpNotice s).evalDue = s.evalDue ∧
    (startUpNotice s).pending = s.pending := by
  simp only [startUpNotice]
  (repeat' split) <;> simp

end Sys2Proof.Machine
end

