-- ==== Sys2Proof/Laws/Link.lean ====
section
/-! SUPPORT. The codec of numbers and fields, the request kinds, and what a request command does on a link that is free: one
lemma that every request's own law cites. -/

namespace Sys2Proof.Machine

/-! ## Numbers and fields -/

@[simp] theorem length_le (n v : Nat) : (le n v).length = n := by
  induction n generalizing v with
  | zero => rfl
  | succ n ih => simp [le, ih]

@[simp] theorem fromLE_le (n v : Nat) : fromLE (le n v) = v % 256 ^ n := by
  induction n generalizing v with
  | zero => simp [le, fromLE, Nat.mod_one]
  | succ n ih =>
    have b : (BitVec.ofNat 8 v).toNat = v % 256 := BitVec.toNat_ofNat v 8
    rw [le, fromLE, ih, b, Nat.pow_succ', Nat.mod_mul]

/-- Every value fits its field. -/
abbrev Fit (fs : List (Nat × Nat)) : Prop := ∀ f ∈ fs, f.2 < 256 ^ f.1

theorem length_encodeFields (fs : List (Nat × Nat)) : (encodeFields fs).length = (fs.map Prod.fst).sum := by
  induction fs with
  | nil => rfl
  | cons f fs ih => simp [encodeFields, ih]

/-- Decoding reads back the fields that were written, whatever follows them. -/
theorem decodeFields_append (fs : List (Nat × Nat)) (h : Fit fs) (rest : List Byte) :
    decodeFields (fs.map Prod.fst) (encodeFields fs ++ rest) = fs.map Prod.snd := by
  induction fs with
  | nil => rfl
  | cons f fs ih =>
    have hf : f.2 % 256 ^ f.1 = f.2 := Nat.mod_eq_of_lt (h f (by simp))
    have hfs : Fit fs := fun g hg => h g (by simp [hg])
    simp only [List.map_cons, encodeFields, decodeFields, List.append_assoc]
    rw [List.take_left' (length_le _ _), List.drop_left' (length_le _ _), fromLE_le, hf, ih hfs]

theorem decodeFields_encodeFields (fs : List (Nat × Nat)) (h : Fit fs) :
    decodeFields (fs.map Prod.fst) (encodeFields fs) = fs.map Prod.snd := by
  simpa using decodeFields_append fs h []

theorem encodeFields_append (fs gs : List (Nat × Nat)) : encodeFields (fs ++ gs) = encodeFields fs ++ encodeFields gs := by
  induction fs with
  | nil => rfl
  | cons f fs ih => simp [encodeFields, ih]

/-! ## Request kinds -/

theorem Request.code_lt (r : Request) : r.code < 48 := by cases r <;> decide

@[simp] theorem Request.ofCode_code (r : Request) : Request.ofCode r.code = some r := by cases r <;> rfl

@[simp] theorem Request.toNat_code (r : Request) : (BitVec.ofNat 8 r.code).toNat = r.code := by
  have := r.code_lt
  simp [BitVec.toNat_ofNat]
  omega

theorem Request.reply_kind (r : Request) : BitVec.ofNat 8 r.code + 0x80#8 = BitVec.ofNat 8 (r.code + 0x80) := by
  cases r <;> rfl

/-! ## A request on a free link -/

/-- The fields of a request stand in the sizes its kind has. -/
structure Fields (r : Request) (fs : List (Nat × Nat)) : Prop where
  fit : Fit fs
  widths : r.header ++ r.lists ((fs.map Prod.snd).take r.header.length) = fs.map Prod.fst

theorem Fields.widths_eq {r : Request} {fs : List (Nat × Nat)} (h : Fields r fs) :
    r.widths (encodeFields fs) = fs.map Prod.fst := by
  have e : r.header = (fs.take r.header.length).map Prod.fst := by
    have := congrArg (List.take r.header.length) h.widths
    simpa [List.map_take] using this
  have d : decodeFields r.header (encodeFields fs) = (fs.map Prod.snd).take r.header.length := by
    have f : Fit (fs.take r.header.length) := fun g hg => h.fit g (List.mem_of_mem_take hg)
    have := decodeFields_append (fs.take r.header.length) f (encodeFields (fs.drop r.header.length))
    rw [← encodeFields_append, List.take_append_drop, ← e] at this
    simpa [List.map_take] using this
  rw [Request.widths, d, h.widths]

theorem Fields.lengthFits {r : Request} {fs : List (Nat × Nat)} (h : Fields r fs) : r.lengthFits (encodeFields fs) = true := by
  have w := h.widths_eq
  have l : (encodeFields fs).length = (r.widths (encodeFields fs)).sum := by rw [w, length_encodeFields]
  have s : r.header.sum ≤ (encodeFields fs).length := by
    rw [l, Request.widths, List.sum_append]
    omega
  rw [Request.lengthFits, decide_eq_true s, l]
  simp

/-- A taken request whose payload fits is its owner's to answer (R179). -/
theorem takeFrame_request (r : Request) (tag : Byte) (fs : List (Nat × Nat)) (s : State) (h : Fields r fs) :
    settle (takeFrame (requestFrame r tag fs) s) = answer r tag (perform r (fs.map Prod.snd) s) := by
  have w := h.widths_eq
  have d := decodeFields_encodeFields fs h.fit
  have k : (requestFrame r tag fs).kind.toNat = r.code := r.toNat_code
  have p : (requestFrame r tag fs).payload = encodeFields fs := rfl
  simp only [takeFrame, answerFrame, k, p, Request.ofCode_code, h.lengthFits, if_true, w, d]
  simp only [requestFrame, answer, answered, Request.reply_kind, Answer.payload]

/-- An arriving frame is taken at once by a free link (R179). -/
theorem arrive_free (q : Frame) (s : State) (h : LinkFree s) : arrive q s = takeFrame q s := by
  have e : (s.setLink { s.link with rxQueue := s.link.rxQueue ++ [q] }).setLink { s.link with rxQueue := [] } = s := by
    have : ({ s.link with rxQueue := [] } : Link) = s.link := by rw [← h.2]
    rw [this]
    rfl
  rw [arrive, if_pos (by simp [h.2, Config.rxEntries])]
  simp only [takeOldest, State.setLink_fields, h.1, h.2, List.nil_append]
  simpa [h.1, h.2] using congrArg (takeFrame q) e

/-- The start of an event changes no block (R136): it only empties the outputs and the evaluation that is due. -/
@[simp] theorem begin_fields (s : State) :
    (begin s).now = s.now ∧ (begin s).cfg = s.cfg ∧ (begin s).enc = s.enc ∧ (begin s).web = s.web ∧
    (begin s).sched = s.sched ∧ (begin s).stands = s.stands ∧ (begin s).stations = s.stations ∧
    (begin s).remap = s.remap ∧ (begin s).lanes = s.lanes ∧ (begin s).delivery = s.delivery ∧ (begin s).gov = s.gov ∧
    (begin s).line = s.line ∧ (begin s).rest = s.rest ∧ (begin s).emergencyStop = s.emergencyStop ∧
    (begin s).accounts = s.accounts ∧ (begin s).bank = s.bank ∧ (begin s).link = s.link ∧
    (begin s).notices = s.notices ∧ (begin s).store = s.store ∧ (begin s).issued = [] ∧ (begin s).evalDue = false ∧
    (begin s).pending = s.pending := by
  and_intros <;> rfl

@[simp] theorem findOrder_begin (s : State) (o : Nat) : findOrder (begin s) o = findOrder s o := rfl
@[simp] theorem namedAhead_begin (s : State) (o : Nat) : namedAhead (begin s) o = namedAhead s o := rfl
@[simp] theorem findSetup_begin (s : State) (id : Nat) : findSetup (begin s) id = findSetup s id := rfl
@[simp] theorem setupOrder_begin (s : State) : setupOrder (begin s) = setupOrder s := rfl

/-- No evaluation is due after an event (R136). -/
@[simp] theorem settle_evalDue (s : State) : (settle s).evalDue = false := by
  simp only [settle]
  split <;> rename_i h
  · simp [evaluate]
  · simpa using h

/-- A request command on a free link (R179, R180). -/
theorem request_free (r : Request) (tag : Byte) (fs : List (Nat × Nat)) (s : State) (h : LinkFree s) (f : Fields r fs) :
    request r tag fs s = .next (answer r tag (perform r (fs.map Prod.snd) (begin s))) := by
  have h' : LinkFree (begin s) := h
  simp only [request, run, event, arrive_free _ _ h', takeFrame_request r tag fs _ f]

end Sys2Proof.Machine
end

