-- ==== Sys2Proof/Laws/Ops.lean ====
section
/-! SUPPORT. What the shared operations write: reading back a family of values, the setters with their hand-offs, a notice, the
firing test, and the evaluation. Provers cite these and never unfold the operations. -/

namespace Sys2Proof

/-! ## Families of values -/

variable {α β : Type}

@[simp] theorem Six.get_set_self (p : Six α) (i : Fin 6) (v : α) : (p.set i v).get i = v := by
  fin_cases i <;> rfl

theorem Six.get_set_ne (p : Six α) (i j : Fin 6) (v : α) (h : j ≠ i) : (p.set i v).get j = p.get j := by
  fin_cases i <;> fin_cases j <;> first | rfl | exact absurd rfl h

@[simp] theorem Six.set_get (p : Six α) (i : Fin 6) : p.set i (p.get i) = p := by
  fin_cases i <;> rfl

@[simp] theorem Six.set_set (p : Six α) (i : Fin 6) (v w : α) : (p.set i v).set i w = p.set i w := by
  fin_cases i <;> rfl

@[simp] theorem Six.get_replicate (v : α) (i : Fin 6) : (Six.replicate v).get i = v := by
  fin_cases i <;> rfl

@[simp] theorem Eight.get_set_self (p : Eight α) (i : Fin 8) (v : α) : (p.set i v).get i = v := by
  fin_cases i <;> rfl

theorem Eight.get_set_ne (p : Eight α) (i j : Fin 8) (v : α) (h : j ≠ i) : (p.set i v).get j = p.get j := by
  fin_cases i <;> fin_cases j <;> first | rfl | exact absurd rfl h

@[simp] theorem Eight.get_replicate (v : α) (i : Fin 8) : (Eight.replicate v).get i = v := by
  fin_cases i <;> rfl

@[simp] theorem Eight.get_mapIdx (f : Fin 8 → α → β) (p : Eight α) (i : Fin 8) : (p.mapIdx f).get i = f i (p.get i) := by
  fin_cases i <;> rfl

@[simp] theorem PerLane.get_set_self (p : PerLane α) (i : Lane) (v : α) : (p.set i v).get i = v := by
  cases i <;> rfl

theorem PerLane.get_set_ne (p : PerLane α) (i j : Lane) (v : α) (h : j ≠ i) : (p.set i v).get j = p.get j := by
  cases i <;> cases j <;> first | rfl | exact absurd rfl h

@[simp] theorem PerLane.set_get (p : PerLane α) (i : Lane) : p.set i (p.get i) = p := by
  cases i <;> rfl

@[simp] theorem PerLane.set_set (p : PerLane α) (i : Lane) (v w : α) : (p.set i v).set i w = p.set i w := by
  cases i <;> rfl

@[simp] theorem PerStation.get_set_self (p : PerStation α) (i : Station) (v : α) : (p.set i v).get i = v := by
  cases i <;> rfl

theorem PerStation.get_set_ne (p : PerStation α) (i j : Station) (v : α) (h : j ≠ i) : (p.set i v).get j = p.get j := by
  cases i <;> cases j <;> first | rfl | exact absurd rfl h

@[simp] theorem PerStation.set_set (p : PerStation α) (i : Station) (v w : α) : (p.set i v).set i w = p.set i w := by
  cases i <;> rfl

@[simp] theorem PerGroup.get_set_self (p : PerGroup α) (i : HeadGroup) (v : α) : (p.set i v).get i = v := by
  cases i <;> rfl

theorem PerGroup.get_set_ne (p : PerGroup α) (i j : HeadGroup) (v : α) (h : j ≠ i) : (p.set i v).get j = p.get j := by
  cases i <;> cases j <;> first | rfl | exact absurd rfl h

@[simp] theorem PerClass.get_set_self (p : PerClass α) (i : SheetClass) (v : α) : (p.set i v).get i = v := by
  cases i <;> rfl

namespace Machine

/-! ## Setters with their hand-offs -/

@[simp] theorem setStand_stands (i : Fin 6) (st : Stand) (s : State) : (setStand i st s).stands = s.stands.set i st := by
  simp only [setStand]
  split <;> simp

@[simp] theorem setStation_stations (x : Station) (r : StationRec) (s : State) :
    (setStation x r s).stations = s.stations.set x r := by
  simp [setStation]

@[simp] theorem setLane_lanes (lane : Lane) (r : LaneRec) (s : State) : (setLane lane r s).lanes = s.lanes.set lane r := by
  simp [setLane]

@[simp] theorem setDelivery_delivery (lane : Lane) (r : DeliveryRec) (s : State) :
    (setDelivery lane r s).delivery = s.delivery.set lane r := by
  simp only [setDelivery]
  split <;> simp

@[simp] theorem setCondition_line (c : Condition) (s : State) : (setCondition c s).line = { s.line with condition := c } := by
  simp only [setCondition]
  split
  · rename_i h
    rw [← eq_of_beq h]
  · simp

@[simp] theorem needEvaluation_evalDue (s : State) : (needEvaluation s).evalDue = true := rfl

@[simp] theorem emit_issued (o : Output) (s : State) : (emit o s).issued = s.issued ++ [o] := rfl

/-! ## Notices -/

theorem notice_notices (kind : Byte) (contents : List Byte) (s : State) :
    (notice kind contents s).notices = s.notices.add kind contents := rfl

/-- The queue of notices keeps its bound and its numbers their byte, whatever a block raises (R181, R192). -/
theorem Notices.add_bounds (k : Notices) (kind : Byte) (contents : List Byte) (h : k.queue.length ≤ 32) :
    (k.add kind contents).queue.length ≤ 32 ∧ (k.add kind contents).number < 256 := by
  simp only [Notices.add]
  split
  · rename_i q
    simp only [List.length_append, List.length_cons, List.length_nil]
    simp only [Config.noticeEntries] at q
    omega
  · dsimp only
    omega

/-! ## The firing test -/

/-- The firing test leaves the part alone or fires the stand (R59). -/
theorem firingTest_cases (i : Fin 6) (s : State) : firingTest i s = s ∨
    ((s.stands.get i).state = .armed ∧ (s.stands.get i).joint = none ∧ (s.stands.get i).fireDistance = 0 ∧
      firingTest i s = setStand i
        { s.stands.get i with state := .firing, timer := some (s.now + (s.cfg.stands.get i).spliceTimeout) }
        (emit (.spliceFire i) s)) := by
  simp only [firingTest]
  split
  · rename_i p h1 h2
    split
    · rename_i h
      exact Or.inr ⟨h1, h.2.2, by simp [Stand.fireDistance, h2, h.1], rfl⟩
    · exact Or.inl rfl
  · exact Or.inl rfl

/-! ## Planning -/

/-- The firing test of one stand leaves every other stand alone. -/
theorem firingTest_other (i j : Fin 6) (s : State) (h : j ≠ i) : (firingTest i s).stands.get j = s.stands.get j := by
  rcases firingTest_cases i s with e | ⟨_, _, _, e⟩ <;> rw [e]
  simp [Six.get_set_ne _ _ _ _ h]

/-- The firing test keeps the stand's plan, and its state but that an ARMED stand may become FIRING (R59). -/
theorem firingTest_self (i : Fin 6) (s : State) : ((firingTest i s).stands.get i).plan = (s.stands.get i).plan ∧
    (((firingTest i s).stands.get i).state = (s.stands.get i).state ∨
      ((s.stands.get i).state = .armed ∧ ((firingTest i s).stands.get i).state = .firing)) := by
  rcases firingTest_cases i s with e | ⟨a, _, _, e⟩
  · rw [e]
    exact ⟨rfl, Or.inl rfl⟩
  · rw [e]
    simp [a]

/-- Planning one stand leaves every other stand alone (R56). -/
theorem planStand_other (i j : Fin 6) (s : State) (h : j ≠ i) : (planStand i s).stands.get j = s.stands.get j := by
  simp only [planStand]
  split
  · simp only [armingTest]
    split
    · split
      · rw [firingTest_other _ _ _ h]
        simp [Six.get_set_ne _ _ _ _ h]
      · simp [Six.get_set_ne _ _ _ _ h]
    · simp [Six.get_set_ne _ _ _ _ h]
  · rfl

/-- A stand that is not READY does not plan (R56). -/
theorem planStand_of_not_ready (i : Fin 6) (s : State) (h : (s.stands.get i).state ≠ .ready) : planStand i s = s := by
  simp only [planStand]

/-- A READY stand takes the plan of R57, and stays READY exactly while F lies above its arm distance (R56, R58). -/
theorem planStand_of_ready (i : Fin 6) (s : State) (h : (s.stands.get i).state = .ready) :
    ((planStand i s).stands.get i).plan = some (computePlan s i) ∧
    (((planStand i s).stands.get i).state = .ready ∨ ((planStand i s).stands.get i).state = .armed ∨
      ((planStand i s).stands.get i).state = .firing) ∧
    (((planStand i s).stands.get i).state = .ready ↔ (s.cfg.stands.get i).armDistance < (computePlan s i).fire) := by
  have e : planStand i s = armingTest i (setStand i { s.stands.get i with plan := some (computePlan s i) } s) := by
    simp only [planStand, h]
  have g : ∀ u : State, u.cfg = s.cfg → (u.stands.get i).state = .ready → (u.stands.get i).plan = some (computePlan s i) →
      ((armingTest i u).stands.get i).plan = some (computePlan s i) ∧
      (((armingTest i u).stands.get i).state = .ready ∨ ((armingTest i u).stands.get i).state = .armed ∨
        ((armingTest i u).stands.get i).state = .firing) ∧
      (((armingTest i u).stands.get i).state = .ready ↔ (s.cfg.stands.get i).armDistance < (computePlan s i).fire) := by
    intro u c r p
    simp only [armingTest, r, p, c]
    split
    · rename_i q
      obtain ⟨a, b⟩ := firingTest_self i (setStand i { u.stands.get i with state := .armed } u)
      simp only [setStand_stands, Six.get_set_self] at a b
      simp only [← p] at a b ⊢
      rcases b with b | ⟨_, b⟩ <;> rw [a, b] <;> simp <;> omega
    · rename_i q
      rw [r, p]
      simp
      omega
  rw [e]
  exact g _ (by simp) (by simp [h]) (by simp)

/-! ## The evaluation -/

/-- The limiters, the ceiling and the binding limiter of an evaluation (R126, R135). -/
theorem evaluate_limits (s : State) :
    (evaluate s).gov.limits = computeLimits s ∧ (evaluate s).gov.ceiling = (computeLimits s).binding.2.2 ∧
    (evaluate s).gov.bindFamily = (computeLimits s).binding.1 ∧
    (evaluate s).gov.bindMember = (computeLimits s).binding.2.1 := by
  have g : ∀ c u t, (issueGlue c u t).gov.limits = t.gov.limits ∧ (issueGlue c u t).gov.ceiling = t.gov.ceiling ∧
      (issueGlue c u t).gov.bindFamily = t.gov.bindFamily ∧ (issueGlue c u t).gov.bindMember = t.gov.bindMember := by
    intro c u t
    simp only [issueGlue]
    split <;> split <;> simp
  have r : ∀ t, (takeReference t).gov.limits = t.gov.limits ∧ (takeReference t).gov.ceiling = t.gov.ceiling ∧
      (takeReference t).gov.bindFamily = t.gov.bindFamily ∧ (takeReference t).gov.bindMember = t.gov.bindMember := by
    intro t
    simp only [takeReference]
    split <;> simp
  have k : ∀ t, (takeLimits t).gov.limits = computeLimits t ∧
      (takeLimits t).gov.ceiling = (computeLimits t).binding.2.2 ∧
      (takeLimits t).gov.bindFamily = (computeLimits t).binding.1 ∧
      (takeLimits t).gov.bindMember = (computeLimits t).binding.2.1 := by
    intro t
    simp only [takeLimits]
    split <;> simp
  simp only [evaluate, takeGlue, State.setEvalDue_fields, g, State.setGov_fields, takeRampTimer, r, k, and_self]

/-- The reference and the segment of an evaluation, and what the governor keeps of its other fields (R136 to R140). -/
theorem evaluate_reference (s : State) :
    (evaluate s).gov.reference = (movedReference (takeLimits s)).1 ∧
    (evaluate s).gov.segment = (movedReference (takeLimits s)).2 ∧ (evaluate s).gov.demand = s.gov.demand ∧
    (evaluate s).gov.hold = s.gov.hold ∧ (evaluate s).gov.temperature = s.gov.temperature ∧
    (evaluate s).gov.tempTime = s.gov.tempTime ∧ (evaluate s).gov.age = s.gov.age := by
  have g : ∀ c u t, (issueGlue c u t).gov.reference = t.gov.reference ∧ (issueGlue c u t).gov.segment = t.gov.segment ∧
      (issueGlue c u t).gov.demand = t.gov.demand ∧ (issueGlue c u t).gov.hold = t.gov.hold ∧
      (issueGlue c u t).gov.temperature = t.gov.temperature ∧ (issueGlue c u t).gov.tempTime = t.gov.tempTime ∧
      (issueGlue c u t).gov.age = t.gov.age := by
    intro c u t
    simp only [issueGlue]
    split <;> split <;> simp
  have r : ∀ t, (takeReference t).gov.reference = (movedReference t).1 ∧
      (takeReference t).gov.segment = (movedReference t).2 ∧ (takeReference t).gov.demand = t.gov.demand ∧
      (takeReference t).gov.hold = t.gov.hold ∧ (takeReference t).gov.temperature = t.gov.temperature ∧
      (takeReference t).gov.tempTime = t.gov.tempTime ∧ (takeReference t).gov.age = t.gov.age := by
    intro t
    simp only [takeReference]
    split <;> simp
  have k : ∀ t, (takeLimits t).gov.demand = t.gov.demand ∧ (takeLimits t).gov.hold = t.gov.hold ∧
      (takeLimits t).gov.temperature = t.gov.temperature ∧ (takeLimits t).gov.tempTime = t.gov.tempTime ∧
      (takeLimits t).gov.age = t.gov.age := by
    intro t
    simp only [takeLimits]
    split <;> simp
  simp only [evaluate, takeGlue, State.setEvalDue_fields, g, State.setGov_fields, takeRampTimer, r, k, and_self]

/-- The limits leave what the reference is moved by but the ceiling (R135). -/
theorem takeLimits_inputs (s : State) :
    (takeLimits s).gov.reference = s.gov.reference ∧ (takeLimits s).gov.segment = s.gov.segment ∧
    (takeLimits s).gov.demand = s.gov.demand ∧ (takeLimits s).gov.hold = s.gov.hold ∧
    (takeLimits s).gov.ceiling = (computeLimits s).binding.2.2 := by
  simp only [takeLimits]
  split <;> simp

/-! ## Marks, the gate, cuts -/

/-- A merge changes the most upstream mark that a test picks, and no other (R16). -/
theorem updateLast_append {α : Type} (p : α → Bool) (f : α → α) (before : List α) (target : α) (after : List α)
    (h : p target = true) (rest : ∀ q ∈ after, p q = false) :
    updateLast p f (before ++ target :: after) = some (before ++ f target :: after) := by
  have none : ∀ l : List α, (∀ q ∈ l, p q = false) → updateLast p f l = Option.none := by
    intro l
    induction l with
    | nil => intro _; rfl
    | cons a l ih => intro h; simp [updateLast, ih (fun q m => h q (by simp [m])), h a]
  induction before with
  | nil => simp [updateLast, none after rest, h]
  | cons a l ih => simp [updateLast, ih]

/-- The gate takes the disposition (R112). -/
@[simp] theorem setGate_delivery (lane : Lane) (g : Disposition) (s : State) :
    (setGate lane g s).delivery = s.delivery.set lane { s.delivery.get lane with divert := g } := by
  simp only [setGate]
  split
  · rename_i h
    subst h
    cases lane <;> rfl
  · simp

/-- The lane takes its shadow length, where there is one, as its active length (R93). -/
@[simp] theorem takeShadow_lanes (lane : Lane) (s : State) : (takeShadow lane s).lanes = s.lanes.set lane
    { s.lanes.get lane with length := (s.lanes.get lane).shadow.getD (s.lanes.get lane).length, shadow := none } := by
  simp only [takeShadow]
  split
  · rename_i h
    simp [h]
  · rename_i h
    cases lane <;> simp only [PerLane.get] at h <;> simp [PerLane.get, PerLane.set] <;> simp [h] <;> rw [← h]

/-- A setup start leaves no open extension (R40). -/
theorem startSetup_openExtension (n : Nat) (head : Setup) (rest : List Setup) (s : State) :
    (startSetup n head rest s).sched.openExtension = none := by
  have ct : ∀ o s, (closureTest o s).sched.openExtension = s.sched.openExtension := by
    intro o s
    simp only [closureTest]
    split
    · split <;> simp [closeOrder, updateOrder]
    · rfl
  have fo : ∀ os s, (feedOrders os s).sched.openExtension = s.sched.openExtension := by
    intro os s
    refine foldl_keeps (fun s => s.sched.openExtension) _ (fun s o => ?_) os s
    simp only [feedOrder]
    split
    · split
      · rw [ct]
        simp [updateOrder]
      · rfl
    · rfl
  simp only [startSetup, stationsTakeQueue, loadAttempts]
  simp [fo, activate, startedNotice]
  split
  · split <;> simp
  · simp

/-! ## Notices only join the queue -/

/-- The notices that wait stay at the head of the queue, whatever else is raised (R181). -/
def KeepsNotices (f : State → State) : Prop := ∀ s, s.notices.queue <+: (f s).notices.queue

theorem Notices.add_keeps (k : Notices) (kind : Byte) (contents : List Byte) : k.queue <+: (k.add kind contents).queue := by
  simp only [Notices.add]
  split
  · exact List.prefix_append _ _
  · exact List.prefix_rfl

theorem KeepsNotices.comp {f g : State → State} (hf : KeepsNotices f) (hg : KeepsNotices g) : KeepsNotices fun s => f (g s) :=
  fun s => (hg s).trans (hf _)

theorem KeepsNotices.foldl {α : Type} (f : State → α → State) (h : ∀ a, KeepsNotices fun s => f s a) :
    ∀ l : List α, KeepsNotices fun s => l.foldl f s
  | [], _ => List.prefix_rfl
  | a :: l, s => (h a s).trans (KeepsNotices.foldl f h l (f s a))

theorem notice_keepsNotices (kind : Byte) (contents : List Byte) : KeepsNotices (notice kind contents) :=
  fun _ => Notices.add_keeps _ _ _

theorem handOff_keepsNotices (inc : Fin 8 → Counter → Nat) : KeepsNotices (handOff inc) := by
  intro s
  simp only [handOff]
  split
  · exact List.prefix_rfl
  · split
    · exact Notices.add_keeps _ _ _
    · simp

theorem conditionsChanged_keepsNotices : KeepsNotices conditionsChanged := fun s => by
  simp only [conditionsChanged, State.setBank_fields]
  exact handOff_keepsNotices _ s

theorem setStand_keepsNotices (i : Fin 6) (st : Stand) : KeepsNotices (setStand i st) := by
  intro s
  simp only [setStand]
  split
  · simp
  · refine List.IsPrefix.trans ?_ (conditionsChanged_keepsNotices _)
    simp

theorem setDelivery_keepsNotices (lane : Lane) (d : DeliveryRec) : KeepsNotices (setDelivery lane d) := by
  intro s
  simp only [setDelivery]
  split
  · simp
  · refine List.IsPrefix.trans ?_ (conditionsChanged_keepsNotices _)
    simp

theorem firingTest_keepsNotices (i : Fin 6) : KeepsNotices (firingTest i) := by
  intro s
  simp only [firingTest]
  split
  · split
    · refine List.IsPrefix.trans ?_ (setStand_keepsNotices _ _ _)
      simp
    · exact List.prefix_rfl
  · exact List.prefix_rfl

theorem armingTest_keepsNotices (i : Fin 6) : KeepsNotices (armingTest i) := by
  intro s
  simp only [armingTest]
  split
  · split
    · exact (firingTest_keepsNotices i).comp (setStand_keepsNotices i _) s
    · exact List.prefix_rfl
  · exact List.prefix_rfl

theorem planStand_keepsNotices (i : Fin 6) : KeepsNotices (planStand i) := by
  intro s
  simp only [planStand]
  split
  · exact (armingTest_keepsNotices i).comp (setStand_keepsNotices i _) s
  · exact List.prefix_rfl

theorem replanAll_keepsNotices : KeepsNotices replanAll := KeepsNotices.foldl _ planStand_keepsNotices slots

theorem closingChange_keepsNotices (o : Nat) (lane : Lane) : KeepsNotices (closingChange o lane) := by
  intro s
  simp only [closingChange, startChange]
  split
  · split
    · refine List.IsPrefix.trans ?_ (setDelivery_keepsNotices _ _ _)
      simp
    · exact List.prefix_rfl
  · split
    · exact setDelivery_keepsNotices _ _ _
    · exact List.prefix_rfl
  · exact List.prefix_rfl

theorem closeOrder_keepsNotices (r : OrderRec) : KeepsNotices (closeOrder r) := by
  intro s
  simp only [closeOrder]
  refine ((?_ : s.notices.queue <+: _).trans (closingChange_keepsNotices r.id .u _)).trans (closingChange_keepsNotices r.id .l _)
  refine List.IsPrefix.trans ?_ (notice_keepsNotices _ _ _)
  simp

theorem closureTest_keepsNotices (o : Nat) : KeepsNotices (closureTest o) := by
  intro s
  simp only [closureTest]
  split
  · split
    · exact closeOrder_keepsNotices _ _
    · exact List.prefix_rfl
  · exact List.prefix_rfl

theorem feedOrders_keepsNotices (os : List Nat) : KeepsNotices (feedOrders os) := by
  refine KeepsNotices.foldl _ (fun o s => ?_) os
  simp only [feedOrder]
  split
  · split
    · refine List.IsPrefix.trans ?_ (closureTest_keepsNotices _ _)
      simp
    · exact List.prefix_rfl
  · exact List.prefix_rfl

/-! ## A hand-off to the counter bank -/

/-- A hand-off reads no account. -/
theorem handOff_setAccounts (inc : Fin 8 → Counter → Nat) (s : State) (a : Accounts) :
    handOff inc (s.setAccounts a) = (handOff inc s).setAccounts a := by
  have e : (s.setAccounts a).bank = s.bank := rfl
  by_cases f : s.bank.frozen = true
  · simp only [handOff, f, e, if_true]
  · simp only [handOff, f, e, if_false, Bool.false_eq_true]
    split <;> rfl


/-- Every counter takes its increment, and the bank freezes where a counter set to freeze wraps (R168, R169). -/
theorem handOff_bank (inc : Fin 8 → Counter → Nat) (s : State) (h : s.bank.frozen = false) :
    (∀ i, (handOff inc s).bank.counters.get i = (s.bank.counters.get i).raise (inc i (s.bank.counters.get i))) ∧
    ((handOff inc s).bank.frozen = true ↔ ∃ i, (s.bank.counters.get i).freeze = true ∧
      Config.counterModulus ≤ (s.bank.counters.get i).value + inc i (s.bank.counters.get i)) := by
  have mem : ∀ i : Fin 8, i ∈ counterIds := by decide
  have cond : ((counterIds.filter fun i => decide (Config.counterModulus ≤ (s.bank.counters.get i).value
      + inc i (s.bank.counters.get i))).any fun i => (s.bank.counters.get i).freeze) = true ↔
      ∃ i, (s.bank.counters.get i).freeze = true ∧
        Config.counterModulus ≤ (s.bank.counters.get i).value + inc i (s.bank.counters.get i) := by
    simp only [List.any_filter, List.any_eq_true, Bool.and_eq_true, decide_eq_true_eq, mem, true_and, and_comm]
  simp only [handOff, h, Bool.false_eq_true, if_false]
  split
  · rename_i q
    refine ⟨fun i => by simp, ?_⟩
    simp only [notice_frame, State.setBank_fields, true_iff]
    exact cond.1 q
  · rename_i q
    refine ⟨fun i => by simp, ?_⟩
    simp only [State.setBank_fields, Bool.false_eq_true, false_iff]
    exact fun z => q (cond.2 z)

/-- A frozen bank adds nothing (R169). -/
theorem handOff_frozen (inc : Fin 8 → Counter → Nat) (s : State) (h : s.bank.frozen = true) : handOff inc s = s := by
  simp only [handOff, h, if_true]

/-! ## A board advance -/

/-- A board advance moves the axis count and restarts the rest timer (R1, R3, R156); its frame says what it leaves. -/
theorem boardAdvance_fields (n : Nat) (s : State) :
    (boardAdvance n s).enc = { s.enc with axis := (s.enc.axis + n) % 2 ^ 48 } ∧
    (boardAdvance n s).rest = { timer := .running (s.now + 1000), lastAdvance := some s.now } := by
  simp only [boardAdvance]
  constructor <;>
    simp [advanceTracker, restartRest, advanceStands, advanceProduced, Config.axisModulus, Config.restPeriod]

/-! ## The receiver -/

theorem rxBytes_append (a b : List Byte) (s : State) : rxBytes (a ++ b) s = rxBytes b (rxBytes a s) := by
  simp [rxBytes]

/-- Bytes that do not complete a frame of an admitted length are gathered (R176). -/
theorem rxBytes_assembling (more : List Byte) : ∀ (s : State) (lo hi : Byte) (pre : List Byte) (last : Nat),
    s.link.rx = .assembling (lo :: hi :: pre) last → pre.length + more.length + 2 < lo.toNat + 256 * hi.toNat + 6 →
    rxBytes more s = s.setLink
      { s.link with rx := .assembling (lo :: hi :: pre ++ more) (if more = [] then last else s.now) } := by
  induction more with
  | nil =>
    intro s lo hi pre last h _
    simp [rxBytes, ← h]
    rfl
  | cons b more ih =>
    intro s lo hi pre last h l
    have e : rxByte b s = s.setLink { s.link with rx := .assembling (lo :: hi :: pre ++ [b]) s.now } := by
      simp only [List.length_cons] at l
      simp [rxByte, h, setRx, fromLE]
      intro z
      omega
    have step : rxBytes (b :: more) s = rxBytes more (rxByte b s) := rfl
    rw [step, e, ih _ lo hi (pre ++ [b]) s.now (by simp) (by simp at *; omega)]
    simp
    rfl

/-- The last byte of a frame completes it (R176). -/
theorem rxByte_completes (b : Byte) (s : State) (lo hi : Byte) (pre : List Byte) (last : Nat)
    (h : s.link.rx = .assembling (lo :: hi :: pre) last) (l : pre.length + 3 = lo.toNat + 256 * hi.toNat + 6) :
    rxByte b s = checkFrame (lo :: hi :: pre ++ [b]) (lo.toNat + 256 * hi.toNat) s := by
  simp [rxByte, h, fromLE]
  intro z
  omega

/-! ## The end of an event -/

/-- The governor at the end of an event: evaluated where an input has changed (R136). -/
theorem settle_gov (s : State) : (settle s).gov = if s.evalDue then (evaluate s).gov else s.gov := by
  simp only [settle]
  split <;> simp

/-- What the answer to a request leaves as its owner left it (R179, R180). -/
@[simp] theorem answered_fields (r : Request) (tag : Byte) (code : Result) (data : List Byte) (t : State) :
    (answered r tag code data t).now = t.now ∧ (answered r tag code data t).cfg = t.cfg ∧
    (answered r tag code data t).enc = t.enc ∧ (answered r tag code data t).web = t.web ∧
    (answered r tag code data t).sched = t.sched ∧ (answered r tag code data t).stations = t.stations ∧
    (answered r tag code data t).lanes = t.lanes ∧ (answered r tag code data t).delivery = t.delivery ∧
    (answered r tag code data t).line = t.line ∧ (answered r tag code data t).rest = t.rest ∧
    (answered r tag code data t).emergencyStop = t.emergencyStop ∧ (answered r tag code data t).accounts = t.accounts ∧
    (answered r tag code data t).store = t.store ∧ (answered r tag code data t).pending = t.pending ∧
    (answered r tag code data t).remap = (if r.inSequence then t.remap else .none) := by
  simp only [answered, breakSequence, settle]
  split <;> split <;> simp

end Machine

end Sys2Proof
end

