-- ==== Sys2Proof/Laws/PerInstr.lean ====
section
/-! SUPPORT. Laws of the commands as syntax, one lemma for each constructor: the frame of a well-formed request fits on the line
(R175, R193). -/

namespace Sys2Proof.Laws.FrameFits

open Sys2Proof Sys2Proof.Machine

/-- The payload of the frame a well-formed command stands for has at most 1,020 bytes. -/
def Statement (c : Instr) : Prop := c.wellFormed = true → ∀ q, c.frame = some q → q.payload.length ≤ 1020

/-- A command with no frame. -/
theorem no_frame {c : Instr} (h : c.frame = none) : Statement c := by
  intro _ q e
  rw [h] at e
  cases e

/-- A command with a short payload. -/
theorem short_frame {c : Instr} {q : Frame} (h : c.frame = some q) (l : q.payload.length ≤ 1020) : Statement c := by
  intro _ p e
  rw [h] at e
  cases e
  exact l

theorem length_fields (fs : List (Nat × Nat)) : (fields fs).length = (fs.map Prod.fst).sum := by
  induction fs with
  | nil => rfl
  | cons f fs ih =>
    simp only [fields, List.flatMap_cons, List.length_append, length_le, List.map_cons, List.sum_cons] at ih ⊢
    rw [ih]

theorem sum_two (ps : List (BitVec 16)) : (fields (ps.map fun p => (2, p.toNat))).length = 2 * ps.length := by
  rw [length_fields]
  induction ps with
  | nil => rfl
  | cons p ps ih =>
    simp only [List.map_cons, List.sum_cons, List.length_cons] at ih ⊢
    omega

theorem sum_entries (es : List (BitVec 16 × BitVec 48)) :
    ((es.flatMap fun e => [(2, e.1.toNat), (6, e.2.toNat)]).map Prod.fst).sum = 8 * es.length := by
  induction es with
  | nil => rfl
  | cons e es ih =>
    simp only [List.flatMap_cons, List.map_append, List.map_cons, List.map_nil, List.sum_append, List.sum_cons, List.sum_nil,
      List.length_cons] at ih ⊢
    omega

theorem powerOn (strapHigh : Bool) (strapLow : Bool) (emergencyStop : Bool) : Statement (.powerOn strapHigh strapLow
    emergencyStop) := by
  exact no_frame rfl

theorem encoderReport (enc : Encoder) (tenths : Nat) : Statement (.encoderReport enc tenths) := by
  exact no_frame rfl

theorem silenceTimerExpiry : Statement .silenceTimerExpiry := by
  exact no_frame rfl

theorem defectBegins : Statement .defectBegins := by
  exact no_frame rfl

theorem defectEnds : Statement .defectEnds := by
  exact no_frame rfl

theorem diameterReading (stand : Fin 6) (mm : Nat) : Statement (.diameterReading stand mm) := by
  exact no_frame rfl

theorem standbyPrepared (stand : Fin 6) : Statement (.standbyPrepared stand) := by
  exact no_frame rfl

theorem spliceConfirmed (stand : Fin 6) : Statement (.spliceConfirmed stand) := by
  exact no_frame rfl

theorem spliceTimerExpiry (stand : Fin 6) : Statement (.spliceTimerExpiry stand) := by
  exact no_frame rfl

theorem webBreak (stand : Fin 6) : Statement (.webBreak stand) := by
  exact no_frame rfl

theorem jointSensed (stand : Fin 6) : Statement (.jointSensed stand) := by
  exact no_frame rfl

theorem inPosition (st : Station) : Statement (.inPosition st) := by
  exact no_frame rfl

theorem positioningTimerExpiry (st : Station) : Statement (.positioningTimerExpiry st) := by
  exact no_frame rfl

theorem positionFault (st : Station) : Statement (.positionFault st) := by
  exact no_frame rfl

theorem headFault (st : Station) (group : HeadGroup) (head : Nat) : Statement (.headFault st group head) := by
  exact no_frame rfl

theorem changeDone (lane : Lane) : Statement (.changeDone lane) := by
  exact no_frame rfl

theorem changeTimerExpiry (lane : Lane) : Statement (.changeTimerExpiry lane) := by
  exact no_frame rfl

theorem rampTimerExpiry : Statement .rampTimerExpiry := by
  exact no_frame rfl

theorem positioningEstimateRunout (st : Station) : Statement (.positioningEstimateRunout st) := by
  exact no_frame rfl

theorem hotPlateReading (tenthsC : Int) : Statement (.hotPlateReading tenthsC) := by
  exact no_frame rfl

theorem temperatureAging : Statement .temperatureAging := by
  exact no_frame rfl

theorem temperatureStale : Statement .temperatureStale := by
  exact no_frame rfl

theorem emergencyStopActive : Statement .emergencyStopActive := by
  exact no_frame rfl

theorem emergencyStopReleased : Statement .emergencyStopReleased := by
  exact no_frame rfl

theorem boardBreak : Statement .boardBreak := by
  exact no_frame rfl

theorem restTimerExpiry : Statement .restTimerExpiry := by
  exact no_frame rfl

theorem counterMillisecond : Statement .counterMillisecond := by
  exact no_frame rfl

theorem frameReceived (bytes : List Byte) : Statement (.frameReceived bytes) := by
  exact no_frame rfl

theorem gapTimeout : Statement .gapTimeout := by
  exact no_frame rfl

theorem unknownKind (kind : Byte) (tag : Byte) (payload : List Byte) : Statement (.unknownKind kind tag payload) := by
  intro h q e
  simp only [Instr.frame, Option.some.injEq] at e
  subst e
  simp only [Instr.wellFormed, Bool.and_eq_true, decide_eq_true_eq] at h
  simp only [Config.maxPayload] at h
  exact h.2

theorem transmitComplete : Statement .transmitComplete := by
  exact no_frame rfl

theorem imageWriteSuccess : Statement .imageWriteSuccess := by
  exact no_frame rfl

theorem imageWriteFailure : Statement .imageWriteFailure := by
  exact no_frame rfl

theorem status (tag : Byte) : Statement (.status tag) := by
  exact short_frame rfl (by simp)

theorem mapRead (tag : Byte) (start : Byte) : Statement (.mapRead tag start) := by
  exact short_frame rfl (by simp)

theorem defectReport (tag : Byte) (position : BitVec 32) (leading : BitVec 32) (trailing : BitVec 32) : Statement
    (.defectReport tag position leading trailing) := by
  exact short_frame rfl (by simp [length_fields])

theorem orderAdd (tag : Byte) (id : BitVec 16) (cut : BitVec 32) (outs : Byte) (wanted : BitVec 32) (overrun : BitVec 32)
    (underrun : BitVec 32) (bundle : BitVec 16) : Statement (.orderAdd tag id cut outs wanted overrun underrun bundle) := by
  exact short_frame rfl (by simp [length_fields])

theorem orderAmend (tag : Byte) (id : BitVec 16) (wanted : BitVec 32) (overrun : BitVec 32) (underrun : BitVec 32) :
    Statement (.orderAmend tag id wanted overrun underrun) := by
  exact short_frame rfl (by simp [length_fields])

theorem orderCancel (tag : Byte) (id : BitVec 16) : Statement (.orderCancel tag id) := by
  exact short_frame rfl (by simp [length_fields])

theorem orderRelease (tag : Byte) (id : BitVec 16) : Statement (.orderRelease tag id) := by
  exact short_frame rfl (by simp [length_fields])

theorem orderQuery (tag : Byte) (id : BitVec 16) : Statement (.orderQuery tag id) := by
  exact short_frame rfl (by simp [length_fields])

theorem setupQueue (tag : Byte) (id : Byte) (orderU : BitVec 16) (targetU : BitVec 32) (presentL : Byte) (orderL : BitVec
    16) (targetL : BitVec 32) (deckle : BitVec 16) (boundary : Byte) (grade : Byte) (waste : BitVec 16) (slits : List
    (BitVec 16)) (scores : List (BitVec 16)) : Statement (.setupQueue tag id orderU targetU presentL orderL targetL deckle
    boundary grade waste slits scores) := by
  intro h q e
  simp only [Instr.frame, Option.some.injEq] at e
  subst e
  simp only [Instr.wellFormed, Bool.and_eq_true, decide_eq_true_eq] at h
  simp only [Config.maxPayload] at h
  simp only [List.cons_append, List.length_cons, List.length_append, List.length_nil, sum_two]
  simp only [length_fields, List.map_cons, List.map_nil, List.sum_cons, List.sum_nil]
  omega

theorem setupWithdraw (tag : Byte) (id : Byte) : Statement (.setupWithdraw tag id) := by
  exact short_frame rfl (by simp)

theorem setupQuery (tag : Byte) (id : Byte) : Statement (.setupQuery tag id) := by
  exact short_frame rfl (by simp)

theorem scheduleRead (tag : Byte) : Statement (.scheduleRead tag) := by
  exact short_frame rfl (by simp)

theorem reelLoad (tag : Byte) (stand : Byte) (reelVariant : Byte) (reel : BitVec 32) (diameter : BitVec 16) (core : BitVec
    16) (caliper : BitVec 16) : Statement (.reelLoad tag stand reelVariant reel diameter core caliper) := by
  exact short_frame rfl (by simp [length_fields])

theorem reelUnload (tag : Byte) (stand : Byte) : Statement (.reelUnload tag stand) := by
  exact short_frame rfl (by simp)

theorem spliceForce (tag : Byte) (stand : Byte) : Statement (.spliceForce tag stand) := by
  exact short_frame rfl (by simp)

theorem standReset (tag : Byte) (stand : Byte) : Statement (.standReset tag stand) := by
  exact short_frame rfl (by simp)

theorem standQuery (tag : Byte) (stand : Byte) : Statement (.standQuery tag stand) := by
  exact short_frame rfl (by simp)

theorem stationReset (tag : Byte) (st : Byte) : Statement (.stationReset tag st) := by
  exact short_frame rfl (by simp)

theorem headRetire (tag : Byte) (st : Byte) (group : Byte) (head : Byte) : Statement (.headRetire tag st group head) := by
  exact short_frame rfl (by simp)

theorem headRestore (tag : Byte) (st : Byte) (group : Byte) (head : Byte) : Statement (.headRestore tag st group head) := by
  exact short_frame rfl (by simp)

theorem softRemap (tag : Byte) (st : Byte) (group : Byte) (head : Byte) : Statement (.softRemap tag st group head) := by
  exact short_frame rfl (by simp)

theorem remapPrepare (tag : Byte) (st : Byte) (group : Byte) (head : Byte) : Statement (.remapPrepare tag st group head) :=
    by
  exact short_frame rfl (by simp)

theorem remapConfirm (tag : Byte) (st : Byte) (group : Byte) (head : Byte) : Statement (.remapConfirm tag st group head) :=
    by
  exact short_frame rfl (by simp)

theorem hardRemap (tag : Byte) (st : Byte) (group : Byte) (head : Byte) : Statement (.hardRemap tag st group head) := by
  exact short_frame rfl (by simp)

theorem stationQuery (tag : Byte) (st : Byte) : Statement (.stationQuery tag st) := by
  exact short_frame rfl (by simp)

theorem trimEnter (tag : Byte) (lane : Byte) (range : Byte) : Statement (.trimEnter tag lane range) := by
  exact short_frame rfl (by simp)

theorem trimSet (tag : Byte) (lane : Byte) (steps : Byte) : Statement (.trimSet tag lane steps) := by
  exact short_frame rfl (by simp)

theorem trimExit (tag : Byte) (lane : Byte) : Statement (.trimExit tag lane) := by
  exact short_frame rfl (by simp)

theorem knifeQuery (tag : Byte) (lane : Byte) : Statement (.knifeQuery tag lane) := by
  exact short_frame rfl (by simp)

theorem stackEject (tag : Byte) (lane : Byte) : Statement (.stackEject tag lane) := by
  exact short_frame rfl (by simp)

theorem stackerReset (tag : Byte) (lane : Byte) : Statement (.stackerReset tag lane) := by
  exact short_frame rfl (by simp)

theorem deliveryQuery (tag : Byte) (lane : Byte) : Statement (.deliveryQuery tag lane) := by
  exact short_frame rfl (by simp)

theorem speedDemand (tag : Byte) (speed : BitVec 16) : Statement (.speedDemand tag speed) := by
  exact short_frame rfl (by simp [length_fields])

theorem governorQuery (tag : Byte) : Statement (.governorQuery tag) := by
  exact short_frame rfl (by simp)

theorem lineStop (tag : Byte) : Statement (.lineStop tag) := by
  exact short_frame rfl (by simp)

theorem lineRestart (tag : Byte) : Statement (.lineRestart tag) := by
  exact short_frame rfl (by simp)

theorem purge (tag : Byte) : Statement (.purge tag) := by
  exact short_frame rfl (by simp)

theorem lineQuery (tag : Byte) : Statement (.lineQuery tag) := by
  exact short_frame rfl (by simp)

theorem accountsRead (tag : Byte) : Statement (.accountsRead tag) := by
  exact short_frame rfl (by simp)

theorem accountsClear (tag : Byte) : Statement (.accountsClear tag) := by
  exact short_frame rfl (by simp)

theorem counterSetup (tag : Byte) (counter : Byte) (enable : Byte) (source : Byte) (mode : Byte) (invert : Byte) (freeze :
    Byte) (laneFilter : Byte) (orderMatch : BitVec 16) (orderMask : BitVec 16) (classSet : Byte) (family : Byte) : Statement
    (.counterSetup tag counter enable source mode invert freeze laneFilter orderMatch orderMask classSet family) := by
  exact short_frame rfl (by simp [length_fields])

theorem counterEnable (tag : Byte) (counter : Byte) (enable : Byte) : Statement (.counterEnable tag counter enable) := by
  exact short_frame rfl (by simp)

theorem counterPreset (tag : Byte) (counter : Byte) (value : BitVec 40) : Statement (.counterPreset tag counter value) := by
  exact short_frame rfl (by simp [length_fields])

theorem counterUnfreeze (tag : Byte) : Statement (.counterUnfreeze tag) := by
  exact short_frame rfl (by simp)

theorem counterRead (tag : Byte) (clear : Byte) : Statement (.counterRead tag clear) := by
  exact short_frame rfl (by simp)

theorem settingsWrite (tag : Byte) (entries : List (BitVec 16 × BitVec 48)) : Statement (.settingsWrite tag entries) := by
  intro h q e
  simp only [Instr.frame, Option.some.injEq] at e
  subst e
  simp only [Instr.wellFormed, decide_eq_true_eq] at h
  simp only [Config.maxPayload] at h
  rw [length_fields, List.map_cons, List.sum_cons, sum_entries]
  omega

theorem settingsCommit (tag : Byte) : Statement (.settingsCommit tag) := by
  exact short_frame rfl (by simp)

theorem productionClear (tag : Byte) : Statement (.productionClear tag) := by
  exact short_frame rfl (by simp)

theorem falseStart (lenLow : Byte) (lenHigh : Byte) : Statement (.falseStart lenLow lenHigh) := by
  exact no_frame rfl

end Sys2Proof.Laws.FrameFits
end

