-- ==== Sys2Proof/Laws/Requests.lean ====
section
/-! SUPPORT. What each request command does on a free link: its owner's operation on the state at the start of the event, and
the reply. One lemma for each request. -/

namespace Sys2Proof.Machine

open Sys2Proof

theorem toSigned_byte (b : Byte) : toSigned 1 b.toNat = b.toInt := by
  simp only [toSigned, BitVec.toInt]
  rfl

theorem exec_status (tag : Byte) (s : State) (h : LinkFree s) :
    exec (.status tag) s = .next (answer .status tag (statusRequest (begin s))) := by
  exact request_free .status tag _ s h ⟨by simp [Fit], rfl⟩

theorem exec_mapRead (tag : Byte) (start : Byte) (s : State) (h : LinkFree s) :
    exec (.mapRead tag start) s = .next (answer .mapRead tag (mapRead start.toNat (begin s))) := by
  exact request_free .mapRead tag _ s h ⟨by simp [Fit]; omega, rfl⟩

theorem exec_defectReport (tag : Byte) (position : BitVec 32) (leading : BitVec 32) (trailing : BitVec 32) (s : State)
    (h : LinkFree s) :
    exec (.defectReport tag position leading trailing) s
      = .next (answer .defectReport tag (defectReport position.toNat leading.toNat trailing.toNat (begin s))) := by
  exact request_free .defectReport tag _ s h ⟨by simp [Fit]; omega, rfl⟩

theorem exec_orderAdd (tag : Byte) (id : BitVec 16) (cut : BitVec 32) (outs : Byte) (wanted : BitVec 32) (overrun :
    BitVec 32) (underrun : BitVec 32) (bundle : BitVec 16) (s : State) (h : LinkFree s) :
    exec (.orderAdd tag id cut outs wanted overrun underrun bundle) s
      = .next (answer .orderAdd tag (orderAdd id.toNat cut.toNat outs.toNat wanted.toNat overrun.toNat underrun.toNat bundle.toNat (begin s))) := by
  exact request_free .orderAdd tag _ s h ⟨by simp [Fit]; omega, rfl⟩

theorem exec_orderAmend (tag : Byte) (id : BitVec 16) (wanted : BitVec 32) (overrun : BitVec 32) (underrun : BitVec 32)
    (s : State) (h : LinkFree s) :
    exec (.orderAmend tag id wanted overrun underrun) s
      = .next (answer .orderAmend tag (orderAmend id.toNat wanted.toNat overrun.toNat underrun.toNat (begin s))) := by
  exact request_free .orderAmend tag _ s h ⟨by simp [Fit]; omega, rfl⟩

theorem exec_orderCancel (tag : Byte) (id : BitVec 16) (s : State) (h : LinkFree s) :
    exec (.orderCancel tag id) s = .next (answer .orderCancel tag (orderCancel id.toNat (begin s))) := by
  exact request_free .orderCancel tag _ s h ⟨by simp [Fit]; omega, rfl⟩

theorem exec_orderRelease (tag : Byte) (id : BitVec 16) (s : State) (h : LinkFree s) :
    exec (.orderRelease tag id) s = .next (answer .orderRelease tag (orderRelease id.toNat (begin s))) := by
  exact request_free .orderRelease tag _ s h ⟨by simp [Fit]; omega, rfl⟩

theorem exec_orderQuery (tag : Byte) (id : BitVec 16) (s : State) (h : LinkFree s) :
    exec (.orderQuery tag id) s = .next (answer .orderQuery tag (orderQuery id.toNat (begin s))) := by
  exact request_free .orderQuery tag _ s h ⟨by simp [Fit]; omega, rfl⟩

theorem exec_setupQueue (tag : Byte) (id : Byte) (orderU : BitVec 16) (targetU : BitVec 32) (presentL : Byte) (orderL :
    BitVec 16) (targetL : BitVec 32) (deckle : BitVec 16) (boundary : Byte) (grade : Byte) (waste : BitVec 16) (slits :
    List (BitVec 16)) (scores : List (BitVec 16)) (s : State) (hs : slits.length < 256) (hc : scores.length < 256) (h :
    LinkFree s) :
    exec (.setupQueue tag id orderU targetU presentL orderL targetL deckle boundary grade waste slits scores) s
      = .next (answer .setupQueue tag (setupQueue id.toNat orderU.toNat targetU.toNat presentL.toNat orderL.toNat targetL.toNat deckle.toNat boundary.toNat grade.toNat waste.toNat (slits.map BitVec.toNat) (scores.map BitVec.toNat) (begin s))) := by
  have fit : Fields .setupQueue
      ([(1, id.toNat), (2, orderU.toNat), (4, targetU.toNat), (1, presentL.toNat), (2, orderL.toNat), (4, targetL.toNat),
        (2, deckle.toNat), (1, boundary.toNat), (1, grade.toNat), (2, waste.toNat), (1, slits.length), (1, scores.length)]
        ++ (slits ++ scores).map fun p => (2, p.toNat)) := by
    refine ⟨?_, ?_⟩
    · simp only [Fit, List.forall_mem_append, List.forall_mem_map]
      exact ⟨by simp; omega, fun p _ => by omega, fun p _ => by omega⟩
    · simp [Request.header, Request.lists, Function.comp_def, List.map_const']
  rw [show exec (.setupQueue tag id orderU targetU presentL orderL targetL deckle boundary grade waste slits scores) s
    = request .setupQueue tag _ s from rfl, request_free _ _ _ s h fit]
  simp [perform, Function.comp_def]

theorem exec_setupWithdraw (tag : Byte) (id : Byte) (s : State) (h : LinkFree s) :
    exec (.setupWithdraw tag id) s = .next (answer .setupWithdraw tag (setupWithdraw id.toNat (begin s))) := by
  exact request_free .setupWithdraw tag _ s h ⟨by simp [Fit]; omega, rfl⟩

theorem exec_setupQuery (tag : Byte) (id : Byte) (s : State) (h : LinkFree s) :
    exec (.setupQuery tag id) s = .next (answer .setupQuery tag (setupQuery id.toNat (begin s))) := by
  exact request_free .setupQuery tag _ s h ⟨by simp [Fit]; omega, rfl⟩

theorem exec_scheduleRead (tag : Byte) (s : State) (h : LinkFree s) :
    exec (.scheduleRead tag) s = .next (answer .scheduleRead tag (scheduleRead (begin s))) := by
  exact request_free .scheduleRead tag _ s h ⟨by simp [Fit], rfl⟩

theorem exec_reelLoad (tag : Byte) (stand : Byte) (reelVariant : Byte) (reel : BitVec 32) (diameter : BitVec 16) (core
    : BitVec 16) (caliper : BitVec 16) (s : State) (h : LinkFree s) :
    exec (.reelLoad tag stand reelVariant reel diameter core caliper) s
      = .next (answer .reelLoad tag (reelLoad stand.toNat reelVariant.toNat reel.toNat diameter.toNat core.toNat caliper.toNat (begin s))) := by
  exact request_free .reelLoad tag _ s h ⟨by simp [Fit]; omega, rfl⟩

theorem exec_reelUnload (tag : Byte) (stand : Byte) (s : State) (h : LinkFree s) :
    exec (.reelUnload tag stand) s = .next (answer .reelUnload tag (reelUnload stand.toNat (begin s))) := by
  exact request_free .reelUnload tag _ s h ⟨by simp [Fit]; omega, rfl⟩

theorem exec_spliceForce (tag : Byte) (stand : Byte) (s : State) (h : LinkFree s) :
    exec (.spliceForce tag stand) s = .next (answer .spliceForce tag (spliceForce stand.toNat (begin s))) := by
  exact request_free .spliceForce tag _ s h ⟨by simp [Fit]; omega, rfl⟩

theorem exec_standReset (tag : Byte) (stand : Byte) (s : State) (h : LinkFree s) :
    exec (.standReset tag stand) s = .next (answer .standReset tag (standReset stand.toNat (begin s))) := by
  exact request_free .standReset tag _ s h ⟨by simp [Fit]; omega, rfl⟩

theorem exec_standQuery (tag : Byte) (stand : Byte) (s : State) (h : LinkFree s) :
    exec (.standQuery tag stand) s = .next (answer .standQuery tag (standQuery stand.toNat (begin s))) := by
  exact request_free .standQuery tag _ s h ⟨by simp [Fit]; omega, rfl⟩

theorem exec_stationReset (tag : Byte) (st : Byte) (s : State) (h : LinkFree s) :
    exec (.stationReset tag st) s = .next (answer .stationReset tag (stationReset st.toNat (begin s))) := by
  exact request_free .stationReset tag _ s h ⟨by simp [Fit]; omega, rfl⟩

theorem exec_headRetire (tag : Byte) (st : Byte) (group : Byte) (head : Byte) (s : State) (h : LinkFree s) :
    exec (.headRetire tag st group head) s
      = .next (answer .headRetire tag (headRetire st.toNat group.toNat head.toNat (begin s))) := by
  exact request_free .headRetire tag _ s h ⟨by simp [Fit]; omega, rfl⟩

theorem exec_headRestore (tag : Byte) (st : Byte) (group : Byte) (head : Byte) (s : State) (h : LinkFree s) :
    exec (.headRestore tag st group head) s
      = .next (answer .headRestore tag (headRestore st.toNat group.toNat head.toNat (begin s))) := by
  exact request_free .headRestore tag _ s h ⟨by simp [Fit]; omega, rfl⟩

theorem exec_softRemap (tag : Byte) (st : Byte) (group : Byte) (head : Byte) (s : State) (h : LinkFree s) :
    exec (.softRemap tag st group head) s
      = .next (answer .softRemap tag (softRemap st.toNat group.toNat head.toNat (begin s))) := by
  exact request_free .softRemap tag _ s h ⟨by simp [Fit]; omega, rfl⟩

theorem exec_remapPrepare (tag : Byte) (st : Byte) (group : Byte) (head : Byte) (s : State) (h : LinkFree s) :
    exec (.remapPrepare tag st group head) s
      = .next (answer .remapPrepare tag (remapPrepare st.toNat group.toNat head.toNat (begin s))) := by
  exact request_free .remapPrepare tag _ s h ⟨by simp [Fit]; omega, rfl⟩

theorem exec_remapConfirm (tag : Byte) (st : Byte) (group : Byte) (head : Byte) (s : State) (h : LinkFree s) :
    exec (.remapConfirm tag st group head) s
      = .next (answer .remapConfirm tag (remapConfirm st.toNat group.toNat head.toNat (begin s))) := by
  exact request_free .remapConfirm tag _ s h ⟨by simp [Fit]; omega, rfl⟩

theorem exec_hardRemap (tag : Byte) (st : Byte) (group : Byte) (head : Byte) (s : State) (h : LinkFree s) :
    exec (.hardRemap tag st group head) s
      = .next (answer .hardRemap tag (hardRemap st.toNat group.toNat head.toNat (begin s))) := by
  exact request_free .hardRemap tag _ s h ⟨by simp [Fit]; omega, rfl⟩

theorem exec_stationQuery (tag : Byte) (st : Byte) (s : State) (h : LinkFree s) :
    exec (.stationQuery tag st) s = .next (answer .stationQuery tag (stationQuery st.toNat (begin s))) := by
  exact request_free .stationQuery tag _ s h ⟨by simp [Fit]; omega, rfl⟩

theorem exec_trimEnter (tag : Byte) (lane : Byte) (range : Byte) (s : State) (h : LinkFree s) :
    exec (.trimEnter tag lane range) s = .next (answer .trimEnter tag (trimEnter lane.toNat range.toNat (begin s))) := by
  exact request_free .trimEnter tag _ s h ⟨by simp [Fit]; omega, rfl⟩

theorem exec_trimSet (tag : Byte) (lane : Byte) (steps : Byte) (s : State) (h : LinkFree s) :
    exec (.trimSet tag lane steps) s = .next (answer .trimSet tag (trimSet lane.toNat steps.toInt (begin s))) := by
  rw [← toSigned_byte]
  exact request_free .trimSet tag _ s h ⟨by intro f hf; fin_cases hf <;> simp only [] <;> omega, rfl⟩

theorem exec_trimExit (tag : Byte) (lane : Byte) (s : State) (h : LinkFree s) :
    exec (.trimExit tag lane) s = .next (answer .trimExit tag (trimExit lane.toNat (begin s))) := by
  exact request_free .trimExit tag _ s h ⟨by simp [Fit]; omega, rfl⟩

theorem exec_knifeQuery (tag : Byte) (lane : Byte) (s : State) (h : LinkFree s) :
    exec (.knifeQuery tag lane) s = .next (answer .knifeQuery tag (knifeQuery lane.toNat (begin s))) := by
  exact request_free .knifeQuery tag _ s h ⟨by simp [Fit]; omega, rfl⟩

theorem exec_stackEject (tag : Byte) (lane : Byte) (s : State) (h : LinkFree s) :
    exec (.stackEject tag lane) s = .next (answer .stackEject tag (stackEject lane.toNat (begin s))) := by
  exact request_free .stackEject tag _ s h ⟨by simp [Fit]; omega, rfl⟩

theorem exec_stackerReset (tag : Byte) (lane : Byte) (s : State) (h : LinkFree s) :
    exec (.stackerReset tag lane) s = .next (answer .stackerReset tag (stackerReset lane.toNat (begin s))) := by
  exact request_free .stackerReset tag _ s h ⟨by simp [Fit]; omega, rfl⟩

theorem exec_deliveryQuery (tag : Byte) (lane : Byte) (s : State) (h : LinkFree s) :
    exec (.deliveryQuery tag lane) s = .next (answer .deliveryQuery tag (deliveryQuery lane.toNat (begin s))) := by
  exact request_free .deliveryQuery tag _ s h ⟨by simp [Fit]; omega, rfl⟩

theorem exec_speedDemand (tag : Byte) (speed : BitVec 16) (s : State) (h : LinkFree s) :
    exec (.speedDemand tag speed) s = .next (answer .speedDemand tag (speedDemand speed.toNat (begin s))) := by
  exact request_free .speedDemand tag _ s h ⟨by simp [Fit]; omega, rfl⟩

theorem exec_governorQuery (tag : Byte) (s : State) (h : LinkFree s) :
    exec (.governorQuery tag) s = .next (answer .governorQuery tag (governorQuery (begin s))) := by
  exact request_free .governorQuery tag _ s h ⟨by simp [Fit], rfl⟩

theorem exec_lineStop (tag : Byte) (s : State) (h : LinkFree s) :
    exec (.lineStop tag) s = .next (answer .lineStop tag (lineStop (begin s))) := by
  exact request_free .lineStop tag _ s h ⟨by simp [Fit], rfl⟩

theorem exec_lineRestart (tag : Byte) (s : State) (h : LinkFree s) :
    exec (.lineRestart tag) s = .next (answer .lineRestart tag (lineRestart (begin s))) := by
  exact request_free .lineRestart tag _ s h ⟨by simp [Fit], rfl⟩

theorem exec_purge (tag : Byte) (s : State) (h : LinkFree s) :
    exec (.purge tag) s = .next (answer .purge tag (purge (begin s))) := by
  exact request_free .purge tag _ s h ⟨by simp [Fit], rfl⟩

theorem exec_lineQuery (tag : Byte) (s : State) (h : LinkFree s) :
    exec (.lineQuery tag) s = .next (answer .lineQuery tag (lineQuery (begin s))) := by
  exact request_free .lineQuery tag _ s h ⟨by simp [Fit], rfl⟩

theorem exec_accountsRead (tag : Byte) (s : State) (h : LinkFree s) :
    exec (.accountsRead tag) s = .next (answer .accountsRead tag (accountsRead (begin s))) := by
  exact request_free .accountsRead tag _ s h ⟨by simp [Fit], rfl⟩

theorem exec_accountsClear (tag : Byte) (s : State) (h : LinkFree s) :
    exec (.accountsClear tag) s = .next (answer .accountsClear tag (accountsClear (begin s))) := by
  exact request_free .accountsClear tag _ s h ⟨by simp [Fit], rfl⟩

theorem exec_counterSetup (tag : Byte) (counter : Byte) (enable : Byte) (source : Byte) (mode : Byte) (invert : Byte)
    (freeze : Byte) (laneFilter : Byte) (orderMatch : BitVec 16) (orderMask : BitVec 16) (classSet : Byte) (family :
    Byte) (s : State) (h : LinkFree s) :
    exec (.counterSetup tag counter enable source mode invert freeze laneFilter orderMatch orderMask classSet family) s
      = .next (answer .counterSetup tag (counterSetup counter.toNat enable.toNat source.toNat mode.toNat invert.toNat freeze.toNat laneFilter.toNat orderMatch.toNat orderMask.toNat classSet.toNat family.toNat (begin s))) := by
  exact request_free .counterSetup tag _ s h ⟨by simp [Fit]; omega, rfl⟩

theorem exec_counterEnable (tag : Byte) (counter : Byte) (enable : Byte) (s : State) (h : LinkFree s) :
    exec (.counterEnable tag counter enable) s
      = .next (answer .counterEnable tag (counterEnable counter.toNat enable.toNat (begin s))) := by
  exact request_free .counterEnable tag _ s h ⟨by simp [Fit]; omega, rfl⟩

theorem exec_counterPreset (tag : Byte) (counter : Byte) (value : BitVec 40) (s : State) (h : LinkFree s) :
    exec (.counterPreset tag counter value) s
      = .next (answer .counterPreset tag (counterPreset counter.toNat value.toNat (begin s))) := by
  exact request_free .counterPreset tag _ s h ⟨by simp [Fit]; omega, rfl⟩

theorem exec_counterUnfreeze (tag : Byte) (s : State) (h : LinkFree s) :
    exec (.counterUnfreeze tag) s = .next (answer .counterUnfreeze tag (counterUnfreeze (begin s))) := by
  exact request_free .counterUnfreeze tag _ s h ⟨by simp [Fit], rfl⟩

theorem exec_counterRead (tag : Byte) (clear : Byte) (s : State) (h : LinkFree s) :
    exec (.counterRead tag clear) s = .next (answer .counterRead tag (counterRead clear.toNat (begin s))) := by
  exact request_free .counterRead tag _ s h ⟨by simp [Fit]; omega, rfl⟩

theorem exec_settingsWrite (tag : Byte) (entries : List (BitVec 16 × BitVec 48)) (s : State) (he : entries.length <
    256) (h : LinkFree s) :
    exec (.settingsWrite tag entries) s
      = .next (answer .settingsWrite tag (settingsWrite (entries.map fun e => (e.1.toNat, e.2.toNat)) (begin s))) := by
  have pair : ∀ es : List (BitVec 16 × BitVec 48),
      pairs ((es.flatMap fun e => [(2, e.1.toNat), (6, e.2.toNat)]).map Prod.snd) = es.map fun e => (e.1.toNat, e.2.toNat) := by
    intro es
    induction es with
    | nil => rfl
    | cons e es ih => simpa [pairs] using ih
  have size : ∀ es : List (BitVec 16 × BitVec 48),
      (es.flatMap fun e => [(2, e.1.toNat), (6, e.2.toNat)]).map Prod.fst = (List.replicate es.length [2, 6]).flatten := by
    intro es
    induction es with
    | nil => rfl
    | cons e es ih => simp [List.replicate_succ, ih]
  have fit : Fields .settingsWrite
      ((1, entries.length) :: entries.flatMap fun e => [(2, e.1.toNat), (6, e.2.toNat)]) := by
    refine ⟨?_, ?_⟩
    · intro f hf
      simp only [List.mem_cons, List.mem_flatMap] at hf
      rcases hf with rfl | ⟨e, _, rfl | rfl | hf⟩ <;> simp at * <;> omega
    · simp [Request.header, Request.lists, size]
  rw [show exec (.settingsWrite tag entries) s = request .settingsWrite tag _ s from rfl, request_free _ _ _ s h fit]
  simp [perform, pair]

theorem exec_settingsCommit (tag : Byte) (s : State) (h : LinkFree s) :
    exec (.settingsCommit tag) s = .next (answer .settingsCommit tag (settingsCommit (begin s))) := by
  exact request_free .settingsCommit tag _ s h ⟨by simp [Fit], rfl⟩

theorem exec_productionClear (tag : Byte) (s : State) (h : LinkFree s) :
    exec (.productionClear tag) s = .next (answer .productionClear tag (productionClear (begin s))) := by
  exact request_free .productionClear tag _ s h ⟨by simp [Fit], rfl⟩

end Sys2Proof.Machine
end

