-- ==== Sys2Proof/Tests/Slice0.lean ====
section
/-! SUPPORT. The model's own tests: ill-formed commands that the check refuses, the worked examples of the manual, and for every
statement a state and operands that meet the hypotheses of its clauses. -/

namespace Sys2Proof.Tests

set_option Elab.async false

open Sys2Proof Sys2Proof.Machine

/-! ## Helpers -/

/-- The state after a command. -/
def after (c : Instr) (s : State) : State :=
  match exec c s with
  | .next t => t
  | .fault _ | .refused _ => s

/-- The result code of the reply a command leaves in the buffer. -/
def code (c : Instr) (s : State) : Option Nat := (after c s).link.reply.bind fun f => f.payload.head?.map BitVec.toNat

/-- The kinds of the notices a command leaves in the queue, and of the one being sent. -/
def notices (c : Instr) (s : State) : List Nat :=
  let t := after c s
  (match t.link.tx with
   | .notice f => [f.kind.toNat]
   | .free | .reply => []) ++ t.notices.queue.map fun f => f.kind.toNat

/-- A configured part whose transmitter is busy, so that replies and notices stay where they are put. -/
def conf : State :=
  let s := State.reset
  s.setStore { s.store with configured := true }

/-- The same with nothing to send and the transmitter free. -/
def quiet : State := conf.setLink { conf.link with tx := .free }

/-- The same at rest. -/
def resting : State := conf.setRest { timer := .expired, lastAdvance := some 0 }

def inCondition (c : Condition) (s : State) : State := s.setLine { s.line with condition := c }

def order (id : Nat) (st : OrderState) (cancel : Bool) : OrderRec :=
  { id := id, cut := 12000, outs := 2, wanted := 1000, overrun := 50, underrun := 10, bundle := 100, cancel := cancel,
    state := st, good := 0, stacked := 0, joint := 0, defect := 0, brk := 0, transition := 0, surplus := 0, diverted := 0,
    outcome := none }

/-- A setup of order 1201 in lane U (R31, R33): 30,000 of waste and 200 cuts of 12,000. -/
def setup (id : Nat) (m : Option MarkState) : Setup :=
  { id := id, held := false, runU := { order := 1201, target := 400, credited := 0 }, runL := none, deckle := 2000,
    slits := [200, 6000, 12000], scores := [300, 400], boundary := none, grade := 3, waste := 30000, planned := 2430000,
    produced := 0, markState := m }

def withOrders (os : List OrderRec) (s : State) : State := s.setSched { s.sched with orders := os }
def withQueue (ts : List Setup) (s : State) : State := s.setSched { s.sched with queued := ts }
def withCurrent (t : Setup) (s : State) : State := s.setSched { s.sched with current := some t }
def withMarks (ms : List Mark) (s : State) : State := s.setWeb { s.web with marks := ms }
def withLane (r : LaneRec) (s : State) : State := s.setLanes { s.lanes with u := r }
def withDelivery (d : DeliveryRec) (s : State) : State := s.setDelivery { s.delivery with u := d }
def withStation (r : StationRec) (s : State) : State := s.setStations { s.stations with a := r }
def withGov (g : Governor) (s : State) : State := s.setGov g
def withCounter (c : Counter) (s : State) : State := s.setBank { s.bank with counters := s.bank.counters.set 0 c }

/-- Order 1201 known and setup 37 queued. -/
def scheduled : State := withQueue [setup 37 none] (withOrders [order 1201 .active false] conf)

/-- Setup 37 CURRENT, its order ACTIVE. -/
def current : State := withCurrent (setup 37 (some .pending)) (withOrders [order 1201 .active false] conf)

def mark (k : MarkKind) (pos : Nat) : Mark :=
  { entry := 7, kind := k, pos := pos, lead := 0, trail := 0, openSensor := false, openBreak := false, covered := false,
    merged := false }

/-- A present stand slot 0 with the items of the manual's worked example (section 3.6). -/
def standCfg (sensor : Bool) : StandCfg :=
  { StandCfg.default with isPresent := true, role := .dbLiner, jointSensor := sensor, jointLead := 2000, jointTrail := 3000 }

/-- A stand in a splice state, with what that state holds. -/
def stand (st : SpliceState) : Stand :=
  { Stand.initial with
    running := some { id := 5, loaded := 1200, core := 100, caliper := 200, last := 1200, usable := 400000 }
    standby := some { id := 6, diameter := 1300, core := 100, caliper := 200 }
    state := st
    plan := match st with
      | .ready | .armed | .firing => some { kind := .reserve, fire := 400000 }
      | .empty | .loaded | .fault | .broken | .exhausted => none
    timer := if st = .firing then some 500 else none }

def withStand (sensor : Bool) (st : Stand) (s : State) : State :=
  (s.setCfg { s.cfg with stands := s.cfg.stands.set 0 (standCfg sensor) }).setStands (s.stands.set 0 st)

def station (st : StationState) : StationRec :=
  { StationRec.initial 8000 freshHeads with
    state := st
    pattern := if st = .free then none else some 37
    timer := if st = .positioning then some 20000 else none
    lastOutput := if st = .free then none else some 0 }

/-- Slitter head 2 of station A retired. -/
def retired (m : Mapping) (st : StationState) : StationRec :=
  { station st with groups := freshHeads.set .s1 { retired := headBit 2, spareRetired := false, mapping := m } }

def lane (session : Option TrimRange) (trim : Int) : LaneRec :=
  { LaneRec.initial true 10000 with trim := trim, session := session }

def stacker (st : StackerState) : DeliveryRec :=
  { DeliveryRec.initial with
    stacker := st
    bundle := some { order := 1201, count := 40 }
    timer := if st = .changing then some 15000 else none
    cause := if st = .changing then some .size else none }

def counter (src : Source) (v : Nat) : Counter :=
  { Counter.initial with enabled := true, source := src, freeze := true, value := v }

/-! ## Ill-formed commands (WellFormed) -/

theorem test_illFormed_headFault : (Instr.headFault .a .s1 7).wellFormed = false ∧ (Instr.headFault .a .s1 6).wellFormed = true := by
  decide +kernel

theorem test_illFormed_frameReceived : (Instr.frameReceived [0xA5#8, 1, 0, 0, 0, 0, 0]).wellFormed = false ∧
    (Instr.frameReceived [0xA5#8, 0, 0, 0, 0, 0, 0]).wellFormed = true := by
  decide +kernel

theorem test_illFormed_unknownKind : (Instr.unknownKind 0x2F#8 0 []).wellFormed = false ∧
    (Instr.unknownKind 0x30#8 0 []).wellFormed = true := by
  decide +kernel

theorem test_illFormed_setupQueue :
    (Instr.setupQueue 1 1 1 1 0 0 0 1000 0 0 0 (List.replicate 256 1#16) []).wellFormed = false ∧
    (Instr.setupQueue 1 1 1 1 0 0 0 1000 0 0 0 (List.replicate 12 1#16) []).wellFormed = true := by
  decide +kernel

theorem test_illFormed_settingsWrite : (Instr.settingsWrite 1 (List.replicate 128 (0, 0))).wellFormed = false ∧
    (Instr.settingsWrite 1 (List.replicate 127 (0, 0))).wellFormed = true := by
  decide +kernel

theorem test_illFormed_falseStart : (Instr.falseStart 0xFC#8 0x03#8).wellFormed = false ∧
    (Instr.falseStart 0xFD#8 0x03#8).wellFormed = true := by
  decide +kernel

/-! ## The manual's worked examples -/

/-- Section 12.2.1: the CRC and the seven bytes of a STATUS frame. -/
theorem test_crcExample : crc16 [0x00#8, 0x00#8, 0x00#8, 0x01#8] = 0x94E1#16 ∧
    Frame.wire { kind := 0x00#8, tag := 0x01#8, payload := [] } = [0xA5#8, 0x00#8, 0x00#8, 0x00#8, 0x01#8, 0xE1#8, 0x94#8] := by
  decide +kernel

/-- Its reply has kind 80h, tag 01h and a payload that begins 00h. -/
theorem test_statusReply :
    ((after (.frameReceived [0xA5#8, 0x00#8, 0x00#8, 0x00#8, 0x01#8, 0xE1#8, 0x94#8]) quiet).link.reply.map fun f =>
      (f.kind, f.tag, f.payload.head?)) = some (0x80#8, 0x01#8, some 0x00#8) := by
  decide +kernel

/-- A frame with one bit wrong is discarded, counted, and not answered (R177). -/
theorem test_badCrc :
    let t := after (.frameReceived [0xA5#8, 0x00#8, 0x00#8, 0x00#8, 0x01#8, 0xE1#8, 0x95#8]) quiet
    t.link.crcCount = 1 ∧ t.link.reply = none ∧ t.link.rx = .hunting := by
  decide +kernel

/-- Figure 12-3: the payload lengths. -/
theorem test_payloadLengths :
    [Request.status, .mapRead, .orderCancel, .headRetire, .counterPreset, .defectReport, .reelLoad, .counterSetup,
      .orderAmend, .orderAdd].map (fun r => r.header.sum) = [0, 1, 2, 3, 6, 12, 12, 13, 14, 21] ∧
    Request.setupQueue.header.sum = 22 := by
  decide

/-- Figure 3-4. -/
theorem test_usableLength : usableLength { StandCfg.default with reserve := 40000, takeUp := 1450 } 1250 100 200 = 41770020 := by
  decide

/-- The stand of section 3.5.1 with its schedule. -/
def worked : State :=
  let cfg := { StandCfg.default with
    isPresent := true, takeUp := 1450, webPath := 24000, jointTrail := 15000, jointLead := 10000, armDistance := 600000,
    sacrifice := 2500000, spliceSpeed := 3000 }
  let reel : RunningReel := { id := 5, loaded := 1200, core := 100, caliper := 200, last := 900, usable := 7500000 }
  let head := { setup 38 none with waste := 80000 }
  let cur := { setup 37 (some .onBoard) with planned := 6500000, produced := 500000 }
  let s := withCurrent cur (withQueue [head] conf)
  (s.setCfg { s.cfg with stands := s.cfg.stands.set 2 cfg }).setStands
    (s.stands.set 2 { stand .ready with running := some reel })

/-- Figure 3-6. -/
theorem test_workedPlan : computePlan worked 2 = { kind := .targeted, fire := 5871983 } := by
  decide

/-- Figure 2-4: setup 41. -/
theorem test_workedAdmission :
    let s := withOrders [{ order 1201 .queued false with wanted := 500 },
      { order 1202 .fed false with cut := 9500, outs := 3, wanted := 700 }] conf
    let t := after (.setupQueue 1 41 1201 500 1 1202 700 2400 3 3 40000 [20, 9000, 13500, 19000, 23980] [4500, 15000, 21000]) s
    t.sched.queued.map Setup.planned = [3040000] ∧ t.sched.orders.map OrderRec.state = [.queued, .active] := by
  decide +kernel

/-- Figure 7-3. -/
theorem test_workedBraking : braking conf 4000 300000 = 7042 ∧ braking conf 4000 50000 = 4427 ∧ braking conf 4000 15000 = 4000 := by
  decide +kernel

/-- Figure 7-7. -/
theorem test_workedBond :
    let s := conf.setCfg { conf.cfg with
      bond := conf.cfg.bond.set 3 [⟨1600, 1500⟩, ⟨1750, 3500⟩, ⟨1850, 5000⟩, ⟨1950, 6000⟩] }
    [1550, 1800, 1777, 2000].map (bondSpeed s 3) = [300, 4250, 3905, 6000] := by
  decide +kernel

/-- R132: bundle size 100, outs 4, cut length 8,000, change time 6,000. -/
theorem test_workedStacker :
    let s := withOrders [{ order 1201 .active false with cut := 8000, outs := 4 }] (withLane
      { lane none 0 with active := some { setup := 37, order := 1201 } } conf)
    stackerLimit s .u = some 3333 := by
  decide

/-! ## Witnesses: the step, the end of an event, power -/

theorem witness_StepRunsFrontCommand : ({ quiet with pending := [.status 1, .boardBreak] } : State).pending = .status 1 :: [.boardBreak] := rfl

theorem witness_EveryStepGoesOn : State.reset.pending = [] := rfl

theorem witness_EndOfEventKeepsBlocks : State.reset.evalDue = false := rfl

/-- The image that a commit of the defaults writes is valid (R187, R188): a part with it comes up CONFIGURED. -/
def defaults : ImageContent := { cfg := Settings.default, hard := noHard }

theorem test_defaultsInRange :
    (itemNumbers.all fun n => (Item.ofNumber n).all fun it => it.accepts (it.read Settings.default)) = true := by
  decide +kernel

theorem test_defaultsValid : validSettings Settings.default [] = true := by
  decide +kernel

theorem witness_PowerOnValues : State.reset.store.image = none ∧
    StoredImage.isValid { content := defaults, crc := crc32 defaults.bytes } = true := by
  refine ⟨rfl, ?_⟩
  have r := test_defaultsInRange
  have v := test_defaultsValid
  simp only [StoredImage.isValid, defaults, BEq.rfl, r, v, Bool.and_self]

/-! ## Witnesses: the link -/

/-- The link is free at reset (R179). -/
theorem witness_linkFree : LinkFree conf ∧ LinkFree quiet ∧ conf.link.rx = .hunting ∧ quiet.link.tx = .free := by
  decide +kernel

theorem witness_RequestCommandIsItsWireFrame : (Instr.mapRead 9 127).frame = some { kind := 0x01#8, tag := 9, payload := [127] } ∧
    (Instr.mapRead 9 127).wellFormed = true ∧ ([] : List Byte).length ≤ 1020 ∧ (List.replicate 1020 (0 : Byte)).length ≤ 1020 := by
  decide +kernel

/-- A busy link with 0, 3 and 4 frames waiting. -/
def busy (n : Nat) : State :=
  let f : Frame := { kind := 0x00#8, tag := 1, payload := [] }
  conf.setLink { conf.link with reply := some f, rxQueue := List.replicate n f }

theorem witness_ReceiveQueueHoldsFour : (Instr.status 1).frame = some { kind := 0x00#8, tag := 1, payload := [] } ∧
    (busy 3).link.rxQueue.length < 4 ∧ (busy 3).link.reply.isSome = true ∧ 4 ≤ (busy 4).link.rxQueue.length := by
  decide

theorem test_receiveQueue : (after (.status 1) (busy 3)).link.rxQueue.length = 4 ∧ (after (.status 1) (busy 4)).link.dropCount = 1 := by
  decide +kernel

theorem witness_ReceiverAssemblesAndDiscards :
    let bytes := [0xA5#8, 0x00#8, 0x00#8, 0x00#8, 0x01#8, 0xE1#8, 0x95#8]
    isOneFrame bytes = true ∧
    (crc16 (bytes.drop 1 |>.take (bytes.length - 3))).toNat ≠ fromLE (bytes.drop (bytes.length - 2)) ∧
    (conf.setLink { conf.link with rx := .assembling [] 0 }).link.rx = .assembling [] 0 := by
  decide +kernel

/-- The least length that is too large, 1,021 (R176). -/
theorem witness_ReceiverAssemblesAndDiscards_lengths : 1020 < (0xFD#8 : Byte).toNat + 256 * (0x03#8 : Byte).toNat ∧
    (0xFC#8 : Byte).toNat + 256 * (0x03#8 : Byte).toNat ≤ 1020 ∧ (0xA5#8 : Byte) ≠ 0xA4#8 ∧
    ([] : List Byte).length + 1 < (0#8 : Byte).toNat + 256 * (0#8 : Byte).toNat + 4 := by
  decide

theorem test_falseStart : (after (.falseStart 0xFD#8 0x03#8) conf).link.rx = .hunting ∧
    (after (.falseStart 0xA5#8 0x04#8) conf).link.rx = .assembling [0x04#8] 0 ∧
    (after (.falseStart 0x00#8 0xA5#8) conf).link.rx = .assembling [] 0 := by
  decide +kernel

theorem witness_RefusedFramesAreAnswered : 0x30 ≤ (0x30#8 : Byte).toNat ∧ 0x30 ≤ (0xFF#8 : Byte).toNat ∧
    Request.mapRead.lengthFits [] = false ∧ Request.status.lengthFits [0] = false := by
  decide

theorem test_unknownKind : code (.unknownKind 0x30#8 1 []) conf = some 2 ∧
    code (.frameReceived (Frame.wire { kind := 0x01#8, tag := 1, payload := [] })) conf = some 3 := by
  decide +kernel

theorem witness_TransmitterSendsRepliesAndNotices :
    let sending := fun n => (busy n).setLink { (busy n).link with tx := .reply }
    (sending 0).link.tx = .reply ∧ (sending 0).link.rxQueue = [] ∧ (sending 2).link.tx = .reply ∧
    (sending 2).link.rxQueue.length = 2 ∧ conf.link.tx = .notice resetStartUp ∧ quiet.link.tx = .free := by
  decide +kernel

theorem test_transmitComplete : (after .transmitComplete conf).link.tx = .free := by
  decide +kernel

theorem witness_TransmitterSendsRepliesAndNotices_notices :
    let f := resetStartUp
    let s := fun n k r => (quiet.setNotices { queue := List.replicate n f, number := 255, lost := false }).setLink
      { quiet.link with reply := if r then some f else none, lastSent := k }
    (s 31 .reply false).notices.queue.length < 32 ∧ 32 ≤ (s 32 .reply false).notices.queue.length ∧
    (s 0 .reply true).link.reply = some f ∧ (s 0 .reply true).notices.queue = [] ∧ (s 1 .notice true).link.lastSent = .notice ∧
    (s 1 .reply true).link.lastSent = .reply ∧ (s 1 .reply false).link.reply = none ∧ (s 1 .reply false).notices.queue = [f] := by
  decide +kernel

theorem witness_StatusAndMapRead : ¬127 < (127#8 : Byte).toNat ∧ 127 < (128#8 : Byte).toNat ∧
    code (.mapRead 1 127) conf = some 0 ∧ code (.mapRead 1 128) conf = some 4 ∧ code (.status 1) conf = some 0 := by
  decide +kernel

/-! ## Witnesses: the board tracker -/

theorem witness_SelectedTravelMovesAxis : Encoder.belt = conf.enc.selected ∧ 0 < 1 := by
  decide

theorem test_travel : (after (.encoderReport .belt 2500) conf).enc.axis = 2500 ∧
    (after (.encoderReport .belt 2500) conf).rest = { timer := .running 1000, lastAdvance := some 0 } := by
  decide +kernel

/-- The silence watch expired with 999 and 1,000 tenths from the secondary, and in force. -/
def watched (w : Watch) (sum : Nat) (fallback : Bool) : State :=
  quiet.setEnc { quiet.enc with silence := w, secondarySum := sum, fallback := fallback }

theorem witness_SecondaryTravelAndFallback : Encoder.feed ≠ quiet.enc.selected ∧ quiet.enc.fallback = false ∧
    (watched .stopped 0 true).enc.fallback = true ∧ (watched .expired 998 false).enc.silence = .expired ∧
    min 4294967295 ((watched .expired 998 false).enc.secondarySum + 1) < 1000 ∧
    (watched (.running 500) 999 false).enc.silence = .running 500 ∧ (watched (.running 500) 999 false).enc.secondarySum < 1000 ∧
    1000 ≤ (watched (.running 500) 1000 false).enc.secondarySum ∧
    1000 ≤ min 4294967295 ((watched .expired 999 false).enc.secondarySum + 1) ∧
    (∀ due, (watched .expired 0 false).enc.silence ≠ .running due) ∧ (∀ due, (watched .stopped 0 true).enc.silence ≠ .running due) := by
  refine ⟨?_, ?_, ?_, ?_, ?_, ?_, ?_, ?_, ?_, fun due h => ?_, fun due h => ?_⟩ <;> first | decide | cases h

theorem test_fallback :
    let t := after .silenceTimerExpiry (watched (.running 500) 1000 false)
    t.enc.selected = .feed ∧ t.enc.axis = 1000 ∧ t.now = 500 ∧
      notices .silenceTimerExpiry (watched (.running 500) 1000 false) = [0xC1] ∧
      (after (.encoderReport .feed 1) (watched .expired 999 false)).enc.fallback = true := by
  decide +kernel

/-- Stand 0 present, in a splice state. -/
def st (k : SpliceState) : State := withStand true (stand k) conf

/-- Stand 0 with a pending joint of 1,000 and with a plan, setup 37 CURRENT with nothing queued. -/
def travelling (sensor : Bool) (joint : Int) : State :=
  withStand sensor { stand .armed with joint := some joint } (withCurrent { setup 37 (some .onBoard) with produced := 500 } conf)

/-- A sensor defect 10 below its limit, a BREAK mark that grows, and two marks that come to the knife in 1,000. -/
def moving : State :=
  let m := mark (.defect .sensor) 60000
  let s := withMarks [{ mark (.runChange 37) 299000 with trail := 1 }, mark (.defect .report) 299000,
    { m with openSensor := true }, { mark .brk 0 with openBreak := true }] conf
  s.setWeb { s.web with sensorDefect := some 49990 }

theorem witness_TravelMovesMarksSetupAndReels :
    ((travelling false 1001).stands.get 0).joint = some 1001 ∧ (0 : Int) < 1001 - 1000 ∧ (1000 : Int) - 1000 ≤ 0 ∧
    (travelling true 0).cfg.stands.s0.tolerance = 1000 ∧ ((travelling false 1).stands.get 0).plan.isSome = true ∧
    ((travelling false 1).stands.get 0).running.map RunningReel.usable = some 400000 ∧ (st .firing).stands.s0.state = .firing ∧
    (travelling false 1).sched.current.map Setup.markState = some (some .onBoard) ∧ (travelling false 1).sched.queued = [] ∧
    fit48 (500 + 1000) < (setup 37 none).planned ∧ (travelling false 1).web.sensorDefect = none ∧
    moving.sched.current = none ∧ moving.line.condition ≠ .run ∧
    (∀ x, (moving.stations.get x).late = none ∧ (moving.stations.get x).pattern = none) ∧
    (∀ i, (moving.stands.get i).joint = none ∧ (moving.stands.get i).running = none) := by
  and_intros <;> first | decide | exact fun x => by cases x <;> decide

theorem test_travelOfStands :
    let run := fun sensor joint k => (after (.encoderReport .belt k) (travelling sensor joint)).stands.s0
    (run false 1001 1000).joint = some 1 ∧ (run false 1000 1000).joint = none ∧ (run true 0 999).joint = some (-999) ∧
    (run true 0 1000).joint = none ∧ (run true 0 1000).late = true ∧ (run false 1001 1000).running.map RunningReel.usable = some 399000 ∧
    (run false 1001 1000).plan = some { kind := .reserve, fire := 399000 } ∧
    (after (.encoderReport .belt 1000) (travelling false 1001)).sched.current.map Setup.produced = some 1500 := by
  decide +kernel

/-- The zone of one tenth more stays at the knife, the other leaves; the sensor defect closes at 50,000 (R9, R12, R19). -/
theorem test_travelOfMarks :
    (after (.encoderReport .belt 1000) moving).web.marks.map (fun m => (m.kind, m.pos, m.trail, m.openSensor)) =
      [(.runChange 37, 300000, 1, false), (.defect .sensor, 61000, 10, false), (.brk, 1000, 1000, false)] ∧
    (after (.encoderReport .belt 1000) moving).web.sensorDefect = none := by
  decide +kernel

/-- A full map: 128 marks, one of them a defect. -/
def full : State := withMarks (mark (.defect .report) 200 :: List.replicate 127 (mark (.runChange 37) 100)) conf

theorem witness_RejectMarkPlacedOrMerged :
    (withMarks (List.replicate 127 (mark .brk 5)) conf).web.marks.length < 128 ∧ 128 ≤ full.web.marks.length ∧
    full.web.marks = [] ++ mark (.defect .report) 200 :: List.replicate 127 (mark (.runChange 37) 100) ∧
    (mark (.defect .report) 200).isReject = true ∧ (∀ q ∈ List.replicate 127 (mark (.runChange 37) 100), q.isReject = false) := by
  refine ⟨by decide +kernel, by decide +kernel, rfl, rfl, fun q h => ?_⟩
  rw [List.eq_of_mem_replicate h]
  rfl

/-- The zone 100 to 300 taken by the mark at 200, which keeps its record and takes the higher kind and the open reason (R16, R17). -/
theorem test_mergedZone :
    ((enterReject { mark .brk 150 with lead := 150, trail := 50, openBreak := true } full).web.marks.head?.map fun m =>
      (m.kind, m.pos, m.lead, m.trail, m.openBreak, m.merged)) = some (.brk, 200, 100, 100, true, true) := by
  decide +kernel

theorem test_merge :
    let t := after (.defectReport 1 0 100 100) full
    t.web.marks.length = 128 ∧ t.web.marks.head?.map Mark.merged = some true ∧ t.accounts.merges = 1 := by
  decide +kernel

def fitted (d : Option Nat) : State :=
  (conf.setCfg { conf.cfg with sensorFitted := true }).setWeb { conf.web with sensorDefect := d }

theorem witness_DefectsEnterMarks : (fitted none).cfg.sensorFitted = true ∧ (fitted none).web.sensorDefect = none ∧
    (fitted (some 0)).web.sensorDefect.isSome = true ∧ conf.cfg.sensorFitted = false ∧
    conf.cfg.pk ≤ (300000#32).toNat ∧ ¬conf.cfg.pk ≤ (299999#32).toNat ∧ (50000#32).toNat ≤ 50000 ∧ 50000 < (50001#32).toNat := by
  decide

/-- A fitted sensor whose last defect closed at 50,000 (R19). -/
def stuck : State := (fitted none).setWeb { (fitted none).web with sensorStuck := true }

theorem witness_DefectsEnterMarks_stuck : stuck.cfg.sensorFitted = true ∧ stuck.web.sensorDefect = none ∧
    stuck.web.sensorStuck = true ∧ (fitted none).web.sensorStuck = false := by
  decide

/-- The close at 50,000 leaves the sensor stuck: no new defect until *defect ends* is seen and a further *defect begins* follows
(R19). -/
theorem test_stuckSensor : (after (.encoderReport .belt 1000) moving).web.sensorStuck = true ∧
    (after .defectBegins stuck).web = stuck.web ∧ (after .defectBegins (after .defectEnds stuck)).web.sensorDefect = some 0 := by
  decide +kernel

/-- The sensor defect of 700 that extends setup 37 (R40). -/
def extended (id : Nat) : State :=
  let s := withMarks [{ mark (.defect .sensor) 61000 with openSensor := true }]
    ((fitted (some 700)).setSched { current.sched with openExtension := some 37 })
  withCurrent (setup id (some .onBoard)) s

theorem witness_DefectsEnterMarks_extension : (extended 37).web.sensorDefect = some 700 ∧
    (sensorMark (extended 37)).map Mark.merged = some false ∧ (extended 37).sched.openExtension = some (setup 37 none).id ∧
    (extended 38).sched.openExtension ≠ some (setup 38 none).id := by
  decide +kernel

theorem test_finalLength : (after .defectEnds (extended 37)).sched.current.map Setup.planned = some 2430700 ∧
    (after .defectEnds (extended 38)).sched.current.map Setup.planned = some 2430000 := by
  decide +kernel

theorem test_defects : code (.defectReport 1 299999 50000 50000) conf = some 0 ∧ code (.defectReport 1 300000 0 0) conf = some 4 ∧
    code (.defectReport 1 0 50001 0) conf = some 4 ∧ (after .defectBegins (fitted none)).web.sensorDefect = some 0 ∧
    (after .defectEnds (fitted (some 0))).web.sensorDefect = none := by
  decide +kernel

/-! ## Witnesses: orders and setups -/

/-- 32 orders, ids 1 to 32. -/
def allOrders : State := withOrders ((List.range 32).map fun k => order (k + 1) .queued false) conf

theorem witness_OrderAddChecksAndEnters :
    code (.orderAdd 1 1 3000 1 1 0 0 1) conf = some 0 ∧ code (.orderAdd 1 65535 70000 8 999999 99999 99999 5000) conf = some 0 ∧
    code (.orderAdd 1 0 3000 1 1 0 0 1) conf = some 4 ∧ code (.orderAdd 1 1 2999 1 1 0 0 1) conf = some 4 ∧
    code (.orderAdd 1 1 70001 1 1 0 0 1) conf = some 4 ∧ code (.orderAdd 1 1 3000 9 1 0 0 1) conf = some 4 ∧
    code (.orderAdd 1 32 3000 1 1 0 0 1) allOrders = some 6 ∧ code (.orderAdd 1 33 3000 1 1 0 0 1) allOrders = some 7 := by
  decide +kernel

def oneOrder (st : OrderState) (cancel : Bool) : State := withOrders [order 1201 st cancel] conf

theorem witness_OrderAmendReplacesThreeValues :
    code (.orderAmend 1 7 1 0 0) (oneOrder .active false) = some 5 ∧ code (.orderAmend 1 1201 0 0 0) (oneOrder .active false) = some 4 ∧
    code (.orderAmend 1 1201 1 0 0) (oneOrder .closed false) = some 8 ∧
    code (.orderAmend 1 1201 999999 99999 99999) (oneOrder .active false) = some 0 := by
  decide +kernel

theorem witness_OrderCancelReleaseAndClosure_release :
    code (.orderRelease 1 7) conf = some 5 ∧ code (.orderRelease 1 1201) (oneOrder .fed false) = some 8 ∧
    code (.orderRelease 1 1201) (withDelivery (stacker .stacking) (oneOrder .closed false)) = some 8 ∧
    code (.orderRelease 1 1201) (oneOrder .closed false) = some 0 := by
  decide +kernel

theorem witness_OrderCancelReleaseAndClosure :
    code (.orderCancel 1 7) conf = some 5 ∧ code (.orderCancel 1 1201) (oneOrder .closed false) = some 8 ∧
    code (.orderCancel 1 1201) scheduled = some 8 ∧ code (.orderCancel 1 1201) (oneOrder .active true) = some 0 ∧
    (after (.orderCancel 1 1201) (oneOrder .queued false)).sched.orders.map OrderRec.outcome = [some .cancelled] ∧
    (after (.orderCancel 1 1201) (oneOrder .active false)).sched.orders.map OrderRec.state = [.active] ∧
    mayClose (oneOrder .fed false) (order 1201 .fed false) = true ∧
    mayClose (oneOrder .active false) (order 1201 .active false) = false := by
  decide +kernel

theorem witness_ScheduleQueriesShowTables :
    code (.orderQuery 1 1201) scheduled = some 0 ∧ code (.orderQuery 1 7) scheduled = some 5 ∧
    code (.setupQuery 1 37) scheduled = some 0 ∧ code (.setupQuery 1 38) scheduled = some 5 ∧
    code (.scheduleRead 1) scheduled = some 0 := by
  decide +kernel

def queueRequest (id : Byte) (order : BitVec 16) (target : BitVec 32) (slits : List (BitVec 16)) : Instr :=
  .setupQueue 1 id order target 0 0 0 2000 0 3 30000 slits [300, 400]

/-- The seven checks of R31 in order, and an admission. -/
theorem witness_SetupQueueAndWithdraw :
    let s := withOrders [order 1201 .queued false, order 1202 .closed false] conf
    let slits := [200, 6000, 12000]
    code (queueRequest 37 1201 400 slits) State.reset = some 0x0F ∧ code (queueRequest 0 1201 400 slits) s = some 4 ∧
    code (queueRequest 37 1201 400 slits) scheduled = some 6 ∧
    code (queueRequest 37 1201 400 slits) (withQueue (List.replicate 16 (setup 40 none)) s) = some 7 ∧
    code (queueRequest 37 1203 400 slits) s = some 5 ∧ code (queueRequest 37 1202 400 slits) s = some 8 ∧
    code (queueRequest 37 1201 400 [1, 2, 3, 4, 5, 6, 7]) s = some 0x0A ∧ code (queueRequest 37 1201 2 slits) s = some 9 ∧
    code (queueRequest 37 1201 4 slits) s = some 0 ∧ (after (queueRequest 37 1201 400 slits) s).sched.queued = [setup 37 none] := by
  decide +kernel

theorem witness_withdraw :
    code (.setupWithdraw 1 37) scheduled = some 0 ∧ (after (.setupWithdraw 1 37) scheduled).sched.orders.map OrderRec.state = [.closed] ∧
    code (.setupWithdraw 1 37) current = some 8 ∧ code (.setupWithdraw 1 38) scheduled = some 5 := by
  decide +kernel

/-- Setup 37 queued, its order QUEUED, the line in RUN. -/
def starting : State := inCondition .run (withQueue [setup 37 none] (withOrders [order 1201 .queued false] conf))

/-- A report of 1,000 that meets nothing but the schedule: setup 37 CURRENT with its mark off the board and 400 tenths to make. -/
def ending : State := withCurrent { setup 37 (some .pastKnife) with produced := 2429600 } (withOrders [order 1201 .active false] conf)

/-- The same part purged and restarted. -/
def restarted : State :=
  let s := inCondition .run (withCurrent (setup 37 (some .pending)) (withOrders [order 1201 .active false] conf))
  s.setLine { s.line with rethread := true }

theorem witness_SetupsStartOrAreDeferred_quiet :
    (∀ s ∈ [ending, withQueue [setup 38 none] ending, restarted], s.web.marks = [] ∧ s.web.sensorDefect = none ∧
      s.sched.online = [] ∧ s.stations.a.late = none ∧ s.stations.b.late = none ∧
      (∀ i, (s.stands.get i).joint = none ∧ (s.stands.get i).running = none) ∧ s.lanes.u.since + 1000 < s.lanes.u.length ∧
      s.lanes.l.enabled = false ∧ s.delivery.u.queue = [] ∧ s.delivery.l.queue = []) ∧
    fit48 (2429600 + 300) < 2430000 ∧ ¬fit48 (2429600 + 1000) < 2430000 ∧ restarted.line.condition = .run ∧
    { setup 38 none with held := true }.held = true ∧ conf.cfg.psa = 100000 ∧ conf.cfg.psb = 120000 := by
  decide +kernel

/-- The CURRENT setup with its produced length, the deferral episode and the overrun account. -/
def shown (s : State) : Option (Nat × Nat) × Option Deferral × Nat :=
  (s.sched.current.map fun c => (c.id, c.produced), s.sched.episode, s.accounts.overrun)

/-- The marks with their position and trailing extent. -/
def placed (s : State) : List (MarkKind × Nat × Nat) := s.web.marks.map fun m => (m.kind, m.pos, m.trail)

/-- A start attempt not due, dry, dry again, held and starved (R36, R38). -/
theorem test_deferrals :
    let run := fun k s => after (.encoderReport .belt k) s
    let held := withQueue [{ setup 38 none with held := true }] ending
    shown (run 300 ending) = (some (37, 2429900), none, 0) ∧ shown (run 1000 ending) = (some (37, 2430600), some .dry, 600) ∧
    shown (run 1000 (run 1000 ending)) = (some (37, 2431600), some .dry, 1600) ∧
    shown (run 1000 held) = (some (37, 2430600), some .held, 600) ∧ notices (.encoderReport .belt 1000) (held.setLink quiet.link) = [0xC4] ∧
    (startAttempt 1000 (withMarks (List.replicate 120 (mark .brk 5)) starting)).sched.episode = some .starved := by
  decide +kernel

/-- A start behind a CURRENT setup, and a restart mark lengthened to the rethread length (R37, R158). -/
theorem test_startAndRestart :
    let t := after (.encoderReport .belt 1000) (withQueue [setup 38 none] ending)
    let u := after (.encoderReport .belt 1000) restarted
    shown t = (some (38, 600), none, 0) ∧ t.sched.online.map Setup.id = [37] ∧ placed t = [(.runChange 38, 600, 30000)] ∧
    shown u = (some (37, 0), none, 0) ∧ placed u = [(.runChange 37, 0, 50000)] ∧ u.line.rethread = false := by
  decide +kernel

theorem witness_SetupsStartOrAreDeferred : Encoder.belt = starting.enc.selected ∧ 1000 ≤ 1000 ∧ starting.line.condition = .run ∧
    starting.sched.current = none ∧ starting.sched.online = [] ∧ starting.sched.queued = [setup 37 none] ∧
    (setup 37 none).held = false ∧ starting.web.marks = [] ∧ starting.web.sensorDefect = none ∧
    (∀ i, (starting.stands.get i).running = none ∧ (starting.stands.get i).joint = none) ∧
    starting.stations.a.late = none ∧ starting.stations.b.late = none ∧ starting.lanes.u.active = none ∧
    starting.lanes.l.active = none ∧ starting.delivery.u.queue = [] ∧ starting.delivery.l.queue = [] := by
  decide +kernel

theorem test_firstStart :
    let t := after (.encoderReport .belt 1000) starting
    t.sched.current = some { setup 37 (some .onBoard) with produced := 0 } ∧ t.sched.queued = [] ∧
    t.sched.orders = [order 1201 .active false] ∧ t.web.marks.map Mark.kind = [.runChange 37] ∧
    t.stations.a.state = .positioning ∧ t.stations.b.state = .free := by
  decide +kernel

/-- An open extension is discarded when another setup starts, even one that re-uses the id (R40, log 22). -/
theorem test_startDiscardsExtension :
    let s := starting.setSched { starting.sched with openExtension := some 37 }
    (after (.encoderReport .belt 1000) s).sched.openExtension = none := by
  decide +kernel

/-! ## Witnesses: reel stands -/

theorem witness_DiameterReadingTakenOrRefused :
    (conf.cfg.stands.get 0).isPresent = false ∧ ((st .loaded).cfg.stands.get 0).isPresent = true ∧
    ((st .loaded).stands.get 0).running.map (fun r => (r.loaded, r.last, r.core)) = some (1200, 1200, 100) ∧
    ((after (.diameterReading 0 1200) (st .loaded)).stands.get 0).refused = 0 ∧
    ((after (.diameterReading 0 1201) (st .loaded)).stands.get 0).refused = 1 ∧
    ((after (.diameterReading 0 99) (st .loaded)).stands.get 0).refused = 1 ∧
    ((after (.diameterReading 0 100) (st .loaded)).stands.get 0).state = .exhausted := by
  decide +kernel

theorem witness_SpliceCycleInputs :
    ((st .loaded).cfg.stands.get 0).isPresent = true ∧ ((st .loaded).stands.get 0).state = .loaded ∧
    ((st .firing).stands.get 0).state = .firing ∧ ((st .firing).stands.get 0).running.isSome = true ∧
    ((st .firing).stands.get 0).standby.isSome = true ∧ ((st .firing).stands.get 0).plan.isSome = true ∧
    ((st .firing).stands.get 0).timer = some 500 ∧ ((st .loaded).cfg.stands.get 0).jointSensor = true ∧
    ({ stand .empty with joint := some 1 } : Stand).joint.isSome = true ∧ ({ stand .empty with late := true } : Stand).joint = none ∧
    (stand .empty).late = false := by
  decide +kernel

theorem test_spliceCycle :
    ((after (.standbyPrepared 0) (st .loaded)).stands.get 0).plan = some { kind := .reserve, fire := 400000 } ∧
    ((after (.spliceConfirmed 0) (st .firing)).stands.get 0).joint = some 50000 ∧
    ((after (.spliceTimerExpiry 0) (st .firing)).stands.get 0).state = .fault ∧
    (after (.jointSensed 0) (withStand true { stand .empty with joint := some 1 } conf)).web.marks.map Mark.kind = [.joint 0 .sensed] ∧
    (after (.jointSensed 0) (withStand true { stand .empty with late := true } conf)).accounts.lateJoints = 1 := by
  decide +kernel

/-- The bounds of R57 where its clauses meet: f = U and U - f = S. -/
theorem witness_PlanAndFiring :
    let s := worked
    let cfg := s.cfg.stands.get 2
    cfg.jointTrail + cfg.jointLead ≤ 80000 ∧ cfg.webPath * 10000 / cfg.takeUp = 165517 ∧
    (s.stands.get 2).usable ≤ 5871983 + cfg.sacrifice ∧ conf.sched.current = none ∧ scheduled.sched.current = none ∧
    (computePlan (s.setCfg { s.cfg with stands := s.cfg.stands.set 2 { cfg with sacrifice := 1628017 } }) 2).kind = .targeted ∧
    (computePlan (s.setCfg { s.cfg with stands := s.cfg.stands.set 2 { cfg with sacrifice := 1628016 } }) 2).kind = .reserve ∧
    ((st .armed).stands.get 0).state = .armed ∧ ((st .armed).stands.get 0).plan.isSome = true ∧
    (st .armed).gov.reference ≤ ((st .armed).cfg.stands.get 0).spliceSpeed ∧ ((st .armed).stands.get 0).joint = none := by
  decide +kernel

theorem test_forcedSplice : ((after (.spliceForce 1 0) (st .ready)).stands.get 0).state = .firing ∧
    (after (.spliceForce 1 0) (st .ready)).issued = [.spliceFire 0] := by
  decide +kernel

theorem witness_BreakTakesLineDown :
    (conf.cfg.stands.get 0).isPresent = false ∧ ((st .loaded).cfg.stands.get 0).isPresent = true ∧
    (inCondition .brk (st .loaded)).line.condition = .brk ∧ (st .loaded).line.condition ≠ .brk ∧
    (st .loaded).web.marks.length < 128 ∧ ((st .loaded).stands.get 0).state ≠ .broken := by
  decide +kernel

/-- A reading of the core diameter in READY plans, arms and fires before the exhaustion test, at a reference of 0 (R53, R64, log 35);
a LOADED stand is exhausted. -/
theorem test_readingOfCore : ((after (.diameterReading 0 100) (st .ready)).stands.get 0).state = .firing ∧
    ((after (.diameterReading 0 100) (st .loaded)).stands.get 0).state = .exhausted := by
  decide +kernel

theorem test_breaks : ((after (.webBreak 0) (st .loaded)).stands.get 0).state = .broken ∧
    (after (.webBreak 0) (st .loaded)).web.marks = [{ breakMark with entry := 0 }] ∧ (after .boardBreak conf).line.condition = .brk ∧
    notices .boardBreak quiet = [0xCF] := by
  decide +kernel

theorem witness_ReelAndStandRequests :
    let load := fun v d => Instr.reelLoad 1 0 v 1 d 100 200
    code (load 0 1200) State.reset = some 0x0F ∧ code (load 0 1200) conf = some 5 ∧ code (load 0 100) (st .empty) = some 4 ∧
    code (load 2 1200) (st .empty) = some 4 ∧ code (load 0 1200) (st .empty) = some 0 ∧ code (load 0 1200) (st .loaded) = some 8 ∧
    code (load 1 1200) (st .empty) = some 0 ∧ code (load 1 1200) (st .loaded) = some 8 ∧
    code (.reelLoad 1 6 0 1 1200 100 200) State.reset = some 4 ∧ 5 < (6#8 : Byte).toNat ∧
    code (.reelUnload 1 0) (st .ready) = some 0 ∧ code (.reelUnload 1 0) (st .armed) = some 8 ∧
    code (.spliceForce 1 0) (st .armed) = some 0 ∧ code (.spliceForce 1 0) (st .loaded) = some 8 ∧
    code (.standReset 1 0) (st .fault) = some 0 ∧ code (.standReset 1 0) (st .broken) = some 8 ∧
    code (.standReset 1 0) (withStand true { stand .broken with reloaded := true } conf) = some 0 := by
  decide +kernel

theorem witness_StandAndStationQueryLayouts : code (.standQuery 1 0) (st .armed) = some 0 ∧ code (.standQuery 1 5) (st .armed) = some 5 ∧
    code (.standQuery 1 6) (st .armed) = some 4 ∧
    ((after (.standQuery 1 0) (st .armed)).link.reply.map fun f => f.payload.length) = some 46 := by
  decide +kernel

/-! ## Witnesses: stations -/

def at' (k : StationState) : State := withStation (station k) scheduled

theorem witness_StationEventsAndReset :
    (at' .positioning).stations.a.state = .positioning ∧ (at' .positioning).stations.a.late = none ∧
    ((at' .positioning).stations.a.pattern.bind (findSetup (at' .positioning))).any (fun t => t.markState == some .pastKnife) = false ∧
    ({ station .positioning with late := some { setup := 37, slack := 0 } } : StationRec).late.isSome = true ∧
    (at' .positioning).stations.a.timer = some 20000 ∧ (at' .ready).stations.a.state = .ready ∧
    (at' .engaged).stations.a.state = .engaged ∧ (at' .free).stations.a.state = .free ∧ (at' .fault).stations.a.state = .fault ∧
    code (.stationReset 1 0) (at' .fault) = some 0 ∧ code (.stationReset 1 0) (at' .ready) = some 8 ∧
    code (.stationReset 1 2) (at' .fault) = some 4 := by
  decide +kernel

theorem test_stationEvents : (after (.inPosition .a) (at' .positioning)).stations.a.state = .ready ∧
    (after (.positioningTimerExpiry .a) (at' .positioning)).stations.a.state = .fault ∧
    (after (.positionFault .a) (at' .engaged)).stations.a.faultPending = true ∧
    (after (.positionFault .a) (at' .ready)).stations.a.state = .fault := by
  decide +kernel

/-- Station A in a state with setup 37 loaded, and the RUN_CHANGE mark of a setup below it. -/
def meeting (r : StationRec) (id pos : Nat) : State :=
  withMarks [{ mark (.runChange id) pos with trail := 3000 }] (withStation r scheduled)

theorem witness_StationsMeetRunChangeMarks :
    let late := { station .positioning with late := some { setup := 37, slack := 500 } }
    (station .ready).pattern = some 37 ∧ (station .positioning).state = .positioning ∧ (station .fault).state = .fault ∧
    (runMark (meeting (station .fault) 37 100000) 37).isSome = true ∧ (37 : Nat) ≠ 38 ∧ (station .engaged).state = .engaged ∧
    late.late.isSome = true ∧ (station .free).pattern = none ∧ late.late = some { setup := 37, slack := 500 } ∧
    (∀ pos, pos = 99999 ∨ pos = 99000 → { mark (.runChange 37) pos with trail := 3000 } ∈ (meeting (station .ready) 37 pos).web.marks) ∧
    99999 < conf.cfg.psa ∧ conf.cfg.psa ≤ 99000 + 1000 ∧ conf.cfg.psa + 1000 < 2 ^ 32 ∧ (meeting (station .ready) 37 99999).sched.online = [] := by
  and_intros <;> first | decide | exact fun pos _ => by simp [meeting, withMarks]

/-- Figure 4-2 at station A: READY engages, POSITIONING is late with slack 2,500, ENGAGED with another pattern retracts. -/
theorem test_arrivals :
    let run := fun r id pos k => (after (.encoderReport .belt k) (meeting r id pos)).stations.a
    (run (station .ready) 37 99000 1000).state = .engaged ∧ (run (station .ready) 37 99999 1).state = .engaged ∧
    (run (station .ready) 37 99998 1).state = .ready ∧
    (run (station .positioning) 37 99500 1000).late = some { setup := 37, slack := 2500 } ∧
    (run (station .engaged) 38 99999 1).lastArrival = some (38, .retracted) ∧
    (run (station .fault) 38 99999 1).lastArrival = some (38, .none) := by
  decide +kernel

/-- A late station with slack 400 grows its mark by 600 in an advance of 1,000 (R79). -/
theorem test_lateAdvance :
    let s := lateAdvance 1000 .a (meeting { station .positioning with late := some { setup := 37, slack := 400 } } 37 101000)
    s.web.marks.map Mark.trail = [3600] ∧ s.stations.a.late = some { setup := 37, slack := 0 } := by
  decide +kernel

/-- Slitter head 2 of station A, in service and retired, with a soft and with a hard mapping. -/
theorem witness_HeadsRetireAndReturn :
    let h : HeadName := { st := .a, group := .s1, head := 2 }
    h.head ≤ h.group.size ∧ (freshHeads.get h.group).isRetired h.head = false ∧
    ((retired .none .free).groups.get h.group).isRetired h.head = true ∧
    ((retired (.hard 2) .free).groups.get h.group).mapping = .hard h.head ∧
    ((retired (.soft 2) .free).groups.get h.group).mapping ≠ .hard h.head ∧
    (freshHeads.get .s1).isRetired 0 = false ∧ HeadSet.isRetired { retired := 0, spareRetired := true, mapping := .none } 0 = true := by
  decide +kernel

theorem test_heads : inService .s1 (after (.headRetire 1 0 0 2) conf).stations.a.groups.s1 = 0x3D#16 ∧
    inService .s1 (after (.headFault .a .s1 6) conf).stations.a.groups.s1 = 0x1F#16 ∧
    inService .s1 (after (.headFault .a .s1 6) (busy 1)).stations.a.groups.s1 = 0x1F#16 ∧
    code (.headRestore 1 0 0 2) (withStation (retired (.hard 2) .free) conf) = some 8 ∧
    inService .s1 (after (.headRestore 1 0 0 2) (withStation (retired .none .free) conf)).stations.a.groups.s1 = 0x3F#16 := by
  decide +kernel

theorem witness_SoftRemapAndHeadRanges :
    code (.softRemap 1 0 0 2) conf = some 8 ∧ code (.softRemap 1 0 0 2) (withStation (retired .none .engaged) conf) = some 8 ∧
    code (.softRemap 1 0 0 2) (withStation (retired (.hard 3) .free) conf) = some 0x0B ∧
    code (.softRemap 1 0 0 2) (withStation (retired .none .free) conf) = some 0 ∧
    code (.softRemap 1 0 0 2) (withStation (retired (.soft 2) .free) conf) = some 0 ∧ code (.softRemap 1 0 0 0) conf = some 4 ∧
    code (.headRetire 1 0 0 7) conf = some 4 ∧ code (.headRetire 1 0 2 10) conf = some 0 ∧ code (.headRetire 1 0 2 11) conf = some 4 ∧
    code (.headRetire 1 2 0 1) conf = some 4 ∧ code (.headRetire 1 0 4 1) conf = some 4 := by
  decide +kernel

def remapping (r : Remap) (m : Mapping) (k : StationState) (s : State) : State := (withStation (retired m k) s).setRemap r

theorem witness_HardRemapTakesThreeRequests :
    let h : HeadName := { st := .a, group := .s1, head := 2 }
    code (.remapPrepare 1 0 0 2) conf = some 0 ∧ code (.remapConfirm 1 0 0 2) (remapping (.prepared h) .none .free conf) = some 0 ∧
    code (.remapConfirm 1 0 0 2) conf = some 0x0C ∧ code (.hardRemap 1 0 0 2) (remapping (.prepared h) .none .free conf) = some 0x0C ∧
    code (.hardRemap 1 0 0 2) (remapping (.confirmed h) .none .free State.reset) = some 0x0F ∧
    code (.hardRemap 1 0 0 2) (remapping (.confirmed h) .none .free
      (conf.setStore { conf.store with writing := some (.commit, defaults) })) = some 0x0E ∧
    code (.hardRemap 1 0 0 2) (remapping (.confirmed h) .none .engaged conf) = some 8 ∧
    code (.hardRemap 1 0 0 2) (remapping (.confirmed h) (.hard 3) .free conf) = some 0x0B ∧
    code (.hardRemap 1 0 0 2) (remapping (.confirmed h) .none .free conf) = some 0 := by
  decide +kernel

theorem witness_StandAndStationQueryLayouts_stations : code (.stationQuery 1 1) conf = some 0 ∧ code (.stationQuery 1 2) conf = some 4 ∧
    ((after (.stationQuery 1 0) conf).link.reply.map fun f => f.payload.length) = some 45 := by
  decide +kernel

/-! ## Witnesses: knives and delivery -/

def trimmed' (session : Option TrimRange) (t : Int) : State := withLane (lane session t) conf

theorem witness_TrimSessionsClampSteps :
    code (.trimEnter 1 0 0) (trimmed' none (-250)) = some 0 ∧ code (.trimEnter 1 0 1) (trimmed' none 250) = some 0 ∧
    code (.trimEnter 1 0 2) (trimmed' none 0) = some 4 ∧ code (.trimEnter 1 0 1) (trimmed' (some .fine) 0) = some 8 ∧
    code (.trimEnter 1 1 1) conf = some 8 ∧ code (.trimSet 1 0 25) (trimmed' (some .coarse) 0) = some 0 ∧
    code (.trimSet 1 0 26) (trimmed' (some .coarse) 0) = some 1 ∧ code (.trimSet 1 0 0xCE#8) (trimmed' (some .fine) 0) = some 0 ∧
    code (.trimSet 1 0 0x81#8) (trimmed' (some .fine) 0) = some 1 ∧ code (.trimSet 1 0 0x80#8) (trimmed' (some .fine) 0) = some 4 ∧
    code (.trimSet 1 0 1) (trimmed' none 0) = some 8 ∧ code (.trimExit 1 0) (trimmed' (some .fine) 0) = some 0 ∧
    code (.trimExit 1 0) (trimmed' none 0) = some 8 := by
  decide +kernel

theorem witness_LaneQueriesAndRanges : code (.knifeQuery 1 1) conf = some 0 ∧ code (.deliveryQuery 1 1) conf = some 0 ∧
    code (.knifeQuery 1 2) conf = some 4 ∧ code (.deliveryQuery 1 255) conf = some 4 ∧ 1 < (2#8 : Byte).toNat := by
  decide +kernel

/-- The idle lane cuts 10,000 tenths of UNASSIGNED board (R92, R94, R97). -/
theorem test_idleCut :
    let s := withLane { lane none 0 with since := 9500 } conf
    let t := after (.encoderReport .belt 1000) s
    t.issued.head? = some (.cut .u) ∧ t.lanes.u.since = 500 ∧ t.accounts.lanes.u.classes.unassigned = { sheets := 1, board := 10000 } := by
  decide +kernel

/-- Lane U cutting order 1201 for setup 37, so many tenths since its last cut, with a RUN_CHANGE mark of setup 38 below the knife. -/
def cutting (since : Nat) (shadow : Option Nat) : State :=
  let s := withQueue [setup 38 none] (withOrders [order 1201 .active false] conf)
  withMarks [mark (.runChange 38) 299500] (withLane
    { lane none 0 with active := some { setup := 37, order := 1201 }, length := 12000, since := since, shadow := shadow } s)

theorem witness_CutsAreMadeClassifiedAndCharged :
    let s := withMarks [] (cutting 11000 (some 12010))
    s.lanes.u.enabled = true ∧ s.lanes.u.since < s.lanes.u.length ∧ s.lanes.u.since + 999 < s.lanes.u.length ∧
    s.lanes.u.length ≤ s.lanes.u.since + 1000 ∧ (∀ m ∈ s.web.marks, m.pos + m.lead + 1000 < s.cfg.pk) ∧ conf.lanes.l.enabled = false ∧
    crossingOf 300000 1000 { mark .brk 300100 with trail := 200 } = some { cls := .brk, uncovered := true, first := 900, last := 1000 } ∧
    (order 1201 .active true).cancel = true ∧ (order 1201 .active false).cancel = false ∧
    ¬(order 1201 .active false).wanted ≤ (order 1201 .active false).good := by
  decide +kernel

/-- A GOOD cut of 12,000 at the end of 1,000 tenths, two sheets of order 1201, and the shadow length taken (R93, R94, R97). -/
theorem test_cutOfAdvance :
    let t := after (.encoderReport .belt 1000) (withMarks [] (cutting 11000 (some 12010)))
    t.lanes.u.since = 0 ∧ t.lanes.u.length = 12010 ∧ t.accounts.lanes.u.classes.good = { sheets := 2, board := 12000 } ∧
    (after (.encoderReport .belt 999) (withMarks [] (cutting 11000 none))).lanes.u.since = 11999 ∧
    classify conf none none = .unassigned ∧ classify (oneOrder .active true) (some { setup := 37, order := 1201 }) none = .surplus := by
  decide +kernel

theorem witness_RunChangesAtKnife :
    (findSetup (cutting 5999 none) 38).isSome = true ∧ (setup 38 none).runL = none ∧ (cutting 5999 none).lanes.u.enabled = true ∧
    (cutting 5999 none).lanes.u.since < conf.cfg.minSpacing ∧ conf.cfg.minSpacing ≤ (cutting 6000 none).lanes.u.since ∧
    conf.lanes.l.enabled = false ∧ (0 : Nat) < 1 := by
  decide +kernel

/-- A piece of 5,999 runs on into the first sheet of setup 38, one of 6,000 is cut as TRANSITION (R99); the lane the setup does not
have closes (R101), and one it has is enabled (R100). -/
theorem test_runChange :
    let t := laneArrival .u 38 300000 (cutting 5999 none)
    let u := laneArrival .u 38 300000 (cutting 6000 none)
    let closing := (cutting 0 none).setLanes ⟨(cutting 0 none).lanes.u, { lane none 0 with since := 1 }⟩
    t.lanes.u.since = 5999 ∧ t.lanes.u.active = some { setup := 38, order := 1201 } ∧ u.lanes.u.since = 0 ∧
    u.accounts.lanes.u.classes.transition = { sheets := 2, board := 6000 } ∧ (laneArrival .l 38 300000 closing).lanes.l.enabled = false ∧
    (laneArrival .l 38 300000 closing).accounts.lanes.l.classes.transition = { sheets := 1, board := 1 } ∧
    (laneArrival .u 38 300000 (withLane { lane none 0 with enabled := false } (cutting 0 none))).lanes.u.length = 12000 := by
  decide +kernel

def stacking (d : DeliveryRec) : State := withDelivery d (oneOrder .active false)

theorem witness_StackChangesAndRequests :
    (stacking (stacker .changing)).delivery.u.stacker = .changing ∧ (stacking (stacker .changing)).delivery.u.waiting = false ∧
    ({ stacker .changing with waiting := true, fork := some { order := 1201, count := 100 } } : DeliveryRec).waiting = true ∧
    (stacking (stacker .changing)).delivery.u.timer = some 15000 ∧
    code (.stackEject 1 0) (stacking (stacker .stacking)) = some 0 ∧ code (.stackEject 1 0) conf = some 8 ∧
    code (.stackEject 1 0) (stacking (stacker .changing)) = some 0 ∧ code (.stackEject 1 0) (stacking (stacker .fault)) = some 8 ∧
    code (.stackerReset 1 0) (stacking (stacker .fault)) = some 0 ∧ code (.stackerReset 1 0) conf = some 8 := by
  decide +kernel

/-- A fork of 99 sheets and of 100, the bundle size (R117). -/
theorem test_changeDone :
    let d := fun n => { stacker .changing with waiting := true, waitCause := some .eject, fork := some { order := 1201, count := n } }
    (after (.changeDone .u) (stacking (d 99))).delivery.u.cause = some .eject ∧
    (after (.changeDone .u) (stacking (d 100))).delivery.u.cause = some .size ∧
    (after (.changeDone .u) (stacking (stacker .changing))).delivery.u.stacker = .stacking ∧
    (after (.changeTimerExpiry .u) (stacking (stacker .changing))).delivery.u.stacker = .fault := by
  decide +kernel

/-- One cut of order 1201, of two sheets, at axis count 0. -/
def batch : Batch := { order := some 1201, cls := .good, length := 12000, outs := 2, cuts := 1, firstAxis := 0, delivered := 0 }

/-- No lane comes to its cut, and the batch reaches the stacker end, 60,000 tenths on, in the next 1,000. -/
def arriving : State :=
  let s := withDelivery { DeliveryRec.initial with queue := [batch] } (oneOrder .active false)
  s.setEnc { s.enc with axis := 59000 }

theorem witness_DeliveriesAreLaidOrDiverted :
    let full := { stacker .changing with fork := some { order := 1201, count := 5000 } }
    (conf.delivery.get .u).queue = [] ∧ (arriving.delivery.get .u).queue = [batch] ∧ batch.cls = .good ∧ batch.order = some 1201 ∧
    { batch with cls := .defect }.cls ≠ .good ∧ (stacker .stacking).bundle.map Pile.order = some 1201 ∧
    ({ stacker .stacking with bundle := some { order := 9, count := 1 } } : DeliveryRec).bundle.map Pile.order ≠ some 1201 ∧
    (stacker .stacking).fork = none ∧ batch.outs ≤ (conf.cfg.lanes.get .u).forkCapacity ∧ (stacker .changing).fork = none ∧
    (conf.cfg.lanes.get .u).forkCapacity < (full.fork.map Pile.count).getD 0 + batch.outs ∧ (stacker .fault).stacker = .fault ∧
    arriving.web.marks = [] ∧ arriving.lanes.u.since + 1000 < arriving.lanes.u.length ∧ arriving.lanes.l.enabled = false ∧
    arriving.delivery = PerLane.set ⟨DeliveryRec.initial, DeliveryRec.initial⟩ .u { DeliveryRec.initial with queue := [batch] } ∧
    batch.cuts = batch.delivered + 1 ∧ findOrder arriving 1201 = some (order 1201 .active false) ∧
    (conf.cfg.lanes.get .u).transit ≤ (arriving.enc.axis + 1000 + 2 ^ 48 - 0) % 2 ^ 48 := by
  decide +kernel

/-- Laid on a fresh bundle; a cut of another order begins a change and is laid on the fork; in FAULT it is diverted (R111 to R118). -/
theorem test_deliveries :
    let t := after (.encoderReport .belt 1000) arriving
    let other := deliverCut .u batch (stacking { stacker .stacking with bundle := some { order := 9, count := 1 } })
    let lost := deliverCut .u batch (stacking (stacker .fault))
    t.delivery.u.bundle = some { order := 1201, count := 2 } ∧ t.sched.orders.map OrderRec.stacked = [2] ∧
    (after (.encoderReport .belt 999) arriving).delivery.u.queue = [batch] ∧ other.delivery.u.cause = some .order ∧
    other.delivery.u.fork = some { order := 1201, count := 2 } ∧ lost.accounts.lanes.u.diverted = 2 ∧
    (deliverCut .u { batch with cls := .brk } (stacking (stacker .stacking))).sched.orders.map OrderRec.stacked = [0] := by
  decide +kernel

/-! ## Witnesses: governor and line -/

theorem test_isqrt : [0, 1, 3, 4, 49600000].map isqrt = [0, 1, 1, 2, 7042] := by
  decide +kernel

def ramp (ref ceiling demand : Nat) (q : Option Segment) (hold : Bool) : State :=
  conf.setGov { conf.gov with reference := ref, ceiling := ceiling, demand := demand, segment := q, hold := hold }

/-- Setup 37 CURRENT with lane U on order 1201 and its own mark 10,000 below the knife, the hot plate at 180.0 degrees. -/
def governed (k : SpliceState) : State :=
  let s := withStand false (stand k) (withMarks [mark (.runChange 37) 290000] (withLane
    { lane none 0 with active := some { setup := 37, order := 1201 }, length := 12000 } current))
  s.setGov { s.gov with temperature := some 1800, tempTime := some 0, age := .fresh, demand := 3000 }

/-- Station A on its way, and in FAULT, with its setup's mark 10,000 below it. -/
def waiting (k : StationState) : State := withMarks [mark (.runChange 37) 90000] (withStation (station k) current)

theorem witness_LimitersFollowTheirInputs :
    conf.line.condition ≠ .run ∧ (inCondition .run conf).line.condition = .run ∧ (conf.cfg.stands.get 0).isPresent = false ∧
    ((governed .armed).cfg.stands.get 0).isPresent = true ∧ ((governed .armed).stands.get 0).running.isSome = true ∧
    (governed .armed).web.marks = [] ++ mark (.runChange 37) 290000 :: [] ∧ (mark (.runChange 37) 290000).pos < conf.cfg.pk ∧
    findSetup (governed .armed) 37 = some (setup 37 (some .pending)) ∧ (station .positioning).pattern = some 37 ∧
    runMark (waiting .positioning) 37 = some (mark (.runChange 37) 90000) ∧ 90000 < conf.cfg.psa ∧
    (station .positioning).lastOutput = some 0 ∧ conf.gov.temperature = none ∧ (governed .armed).gov.temperature = some 1800 ∧
    (governed .armed).gov.age ≠ .stale ∧ (governed .armed).cfg.bond.getD 3 [] = defaultBond ∧
    defaultBond.Pairwise (fun a b => a.temperature < b.temperature) ∧ ((governed .armed).cfg.glue.get .db).getD 3 [] = defaultGlue ∧
    defaultGlue.Pairwise (fun a b => a.speed < b.speed) := by
  decide +kernel

/-- The limiters of those states, and the glue and wrap of grade 3 at reference 0, issued at the change of grade. -/
theorem test_limiters :
    let g := (evaluate (governed .armed)).gov
    (evaluate (inCondition .run (governed .armed))).gov.limits.stop = none ∧ g.limits.stop = some 0 ∧ g.ceiling = 0 ∧
    g.limits.splice.s0 = some (min 65535 (isqrt (500 ^ 2 + 1200 * 38000))) ∧
    (evaluate (governed .loaded)).gov.limits.splice.s0 = some (min 65535 (isqrt (1200 * 38000))) ∧ g.limits.splice.s1 = none ∧
    g.limits.knife.u = some 6000 ∧ g.limits.bond = 2750 ∧ g.issuedGlue.db = { gap := 400, wrap := 800 } ∧
    Output.glueGap .db 400 ∈ (evaluate (governed .armed)).issued ∧
    (evaluate (waiting .positioning)).gov.limits.slitter.a = some 125 ∧ (evaluate (waiting .fault)).gov.limits.slitter.a = some 300 ∧
    (evaluate (waiting .ready)).gov.limits.slitter.a = none := by
  decide +kernel

theorem witness_CeilingAndReference :
    (ramp 0 0 0 none true).gov.hold = true ∧ min (ramp 2001 9 2000 none false).gov.demand conf.cfg.lineMax < 2001 ∧
    (ramp 2000 2000 2000 none false).gov.reference = (ramp 2000 2000 2000 none false).gov.ceiling ∧
    2000 ≤ min (ramp 2000 2000 2000 none false).gov.demand conf.cfg.lineMax ∧ conf.cfg.accel = 300 ∧ conf.cfg.decel = 600 ∧
    (movedReference ((ramp 0 2000 2000 (some { dir := .rising, rate := 300, startRef := 0, startTime := 0 }) false).setNow 1000)).1 = 300 ∧
    (movedReference ((ramp 2000 0 2000 (some { dir := .falling, rate := 600, startRef := 2000, startTime := 0 }) false).setNow 1000)).1 = 1400 ∧
    (movedReference (ramp 0 2000 2000 none false)).2 = some { dir := .rising, rate := 300, startRef := 0, startTime := 0 } := by
  decide +kernel

def heated (age : TempAge) : State := conf.setGov { conf.gov with temperature := some 1800, tempTime := some 0, age := age }

theorem witness_GovernorTimeEventsEvaluate :
    (conf.setGov { conf.gov with rampTimer := some 20 }).gov.rampTimer = some 20 ∧ conf.gov.rampTimer = none ∧
    (at' .positioning).stations.a.lastOutput = some 0 ∧ (at' .free).stations.a.state ≠ .positioning ∧
    (0 : Int) ≤ 0 ∧ (2500 : Int) ≤ 2500 ∧ (-1 : Int) < 0 ∧ (2500 : Int) < 2501 ∧ (heated .fresh).gov.age = .fresh ∧
    (heated .aging).gov.age = .aging ∧ (heated .stale).gov.age ≠ .fresh ∧ (heated .fresh).gov.tempTime = some 0 := by
  decide +kernel

theorem test_governorEvents : (after .rampTimerExpiry (conf.setGov { conf.gov with rampTimer := some 20 })).now = 20 ∧
    (after (.positioningEstimateRunout .a) (at' .positioning)).now = 8000 ∧
    (after (.hotPlateReading 2500) conf).gov.temperature = some 2500 ∧ (after (.hotPlateReading 2501) conf).gov.temperature = none ∧
    (after .temperatureAging (heated .fresh)).gov.age = .aging ∧ (after .temperatureStale (heated .aging)).gov.age = .stale := by
  decide +kernel

theorem witness_SpeedDemandSetsDemand : code (.speedDemand 1 3000) conf = some 0 ∧ code (.speedDemand 1 3001) conf = some 1 ∧
    (after (.speedDemand 1 3001) conf).gov.demand = 3000 := by
  decide +kernel

theorem witness_GovernorAndLineQueries : (resting).rest.lastAdvance = some 0 ∧ code (.governorQuery 1) conf = some 0 ∧
    code (.lineQuery 1) resting = some 0 := by
  decide +kernel

theorem witness_EmergencyStopHoldsReference : conf.emergencyStop = false ∧ (conf.setEmergencyStop true).emergencyStop = true ∧
    (ramp 1000 2000 2000 none false).gov.reference ≠ 0 := by
  decide

theorem test_emergencyStop :
    let t := after .emergencyStopActive (inCondition .run (ramp 1000 2000 2000 none false))
    t.gov.reference = 0 ∧ t.gov.hold = true ∧ t.line.condition = .halt ∧
    (after .emergencyStopReleased (conf.setEmergencyStop true)).emergencyStop = false := by
  decide +kernel

theorem witness_LineStopsRestartsAndRests :
    code (.lineStop 1) (inCondition .run conf) = some 0 ∧ code (.lineStop 1) conf = some 0 ∧
    code (.lineStop 1) (inCondition .purged conf) = some 0 ∧ code (.lineStop 1) (inCondition .brk conf) = some 8 ∧
    code (.lineRestart 1) State.reset = some 0x0F ∧ code (.lineRestart 1) (inCondition .brk conf) = some 8 ∧
    code (.lineRestart 1) (conf.setEmergencyStop true) = some 8 ∧ code (.lineRestart 1) conf = some 0 ∧
    conf.rest.timer = .running 1000 ∧ (after .restTimerExpiry conf).rest.timer = .expired := by
  decide +kernel

/-- At rest in HALT with a mark on the board and setup 37 CURRENT. -/
def halted : State :=
  withMarks [mark (.runChange 37) 500] (withCurrent { setup 37 (some .onBoard) with produced := 500 }
    (withOrders [order 1201 .active false] resting))

theorem witness_PurgeEmptiesBoard : halted.rest.timer = .expired ∧ halted.gov.reference = 0 ∧ halted.line.condition = .halt ∧
    code (.purge 1) halted = some 0 ∧ code (.purge 1) (inCondition .brk halted) = some 0 ∧ code (.purge 1) conf = some 0x0D ∧
    code (.purge 1) (inCondition .run halted) = some 0x0D ∧ code (.purge 1) (inCondition .purged halted) = some 0x0D := by
  decide +kernel

theorem test_purge :
    let t := after (.purge 1) halted
    t.web.marks = [] ∧ t.line.condition = .purged ∧ t.line.rethread = true ∧
    t.sched.current.map (fun q => (q.id, q.planned, q.produced, q.markState)) = some (37, 2430000, 0, some .pending) := by
  decide +kernel

/-- The planned length of a purge counts the sheets that remain, 100 in 50 cuts of 12,000 (R46), and the remap sequence is broken
(log 38). -/
theorem test_purgeRestates :
    let s := (withCurrent { setup 37 (some .pastKnife) with runU := { order := 1201, target := 400, credited := 300 } } halted).setRemap
      (.prepared { st := .a, group := .s1, head := 2 })
    (after (.purge 1) s).sched.current.map Setup.planned = some 630000 ∧ (after (.purge 1) s).remap = .none := by
  decide +kernel

theorem witness_ProductionClearStartsAfresh : code (.productionClear 1) halted = some 0 ∧
    code (.productionClear 1) (inCondition .purged halted) = some 0 ∧ code (.productionClear 1) (inCondition .brk halted) = some 0x0D ∧
    code (.productionClear 1) (inCondition .run halted) = some 0x0D ∧ code (.productionClear 1) conf = some 0x0D ∧
    (after (.productionClear 1) halted).sched.orders = [] ∧ (∀ i, (halted.bank.counters.get i).value < 2 ^ 40) ∧
    (halted.setGov { halted.gov with grade := 3 }).gov.grade ≠ 0 := by
  decide +kernel

/-- A part at rest in HALT, its stand 0 in a splice state, its arm distance raised to 400,000 since the stand planned. -/
def raised (k : SpliceState) (s : State) : State :=
  let t := withStand true (stand k) s
  t.setCfg { t.cfg with stands := t.cfg.stands.set 0 { standCfg true with armDistance := 400000 } }

/-- R46, R70: a READY stand plans at a purge with a CURRENT setup and keeps its record without one (log 33); an ARMED one returns to
READY and plans, and every other keeps its record. -/
theorem witness_PurgeEmptiesBoard_stands :
    ((after (.purge 1) (raised .ready resting)).stands.get 0) = stand .ready ∧
    ((after (.purge 1) (raised .ready halted)).stands.get 0) = stand .armed ∧
    ((after (.purge 1) (withStand true { stand .armed with plan := some { kind := .targeted, fire := 9 } } halted)).stands.get 0) =
      stand .ready ∧
    ((after (.purge 1) (withStand true { stand .loaded with joint := some 5 } halted)).stands.get 0) = stand .loaded := by
  decide +kernel

/-- A stand that the purge's own hand-off arms is not unlocked by the same purge: ANY_ARMED counts it once (log 25). -/
theorem test_purgeArmsOnce :
    ((after (.purge 1) (withCounter { counter .anyArmed 0 with edge := true } (raised .ready halted))).bank.counters.get 0).value = 1 := by
  decide +kernel

/-- R47, R71: a READY stand and an ARMED one plan RESERVE with their U; every other keeps its record. -/
theorem witness_ProductionClearStartsAfresh_stands :
    let plan (n : Nat) : Option SplicePlan := some { kind := .reserve, fire := n }
    ((after (.productionClear 1) (withStand true { stand .ready with plan := plan 9 } halted)).stands.get 0) = stand .ready ∧
    ((after (.productionClear 1) (raised .armed halted)).stands.get 0) = stand .armed ∧
    ((after (.productionClear 1) (withStand true { stand .loaded with joint := some 5 } halted)).stands.get 0) = stand .loaded := by
  decide +kernel

/-! ## Witnesses: accounts, counters, settings -/

theorem witness_AccountsReadAndClear : code (.accountsRead 1) conf = some 0 ∧ code (.accountsClear 1) conf = some 0 ∧
    ((after (.accountsRead 1) conf).link.reply.map fun f => f.payload.length) = some 325 := by
  decide +kernel

theorem witness_CounterRequests :
    let setupOf := fun src mode fam => Instr.counterSetup 1 7 1 src mode 0 1 2 0 0 127 fam
    code (setupOf 0 0 7) conf = some 0 ∧ code (setupOf 11 1 0) conf = some 0 ∧ code (setupOf 12 0 0) conf = some 4 ∧
    code (setupOf 6 1 0) conf = some 4 ∧ code (setupOf 7 1 8) conf = some 4 ∧
    code (.counterSetup 1 0 1 0 0 0 0 0 0 0 0 0) (withCounter (counter .cutSheets 0) conf) = some 8 ∧
    code (.counterEnable 1 7 1) conf = some 0 ∧ code (.counterEnable 1 8 1) conf = some 4 ∧ code (.counterEnable 1 0 2) conf = some 4 ∧
    code (.counterPreset 1 7 0xFFFFFFFFFF#40) conf = some 0 ∧ code (.counterPreset 1 8 0) conf = some 4 ∧
    code (.counterUnfreeze 1) conf = some 0 ∧ code (.counterRead 1 1) conf = some 0 ∧ code (.counterRead 1 2) conf = some 4 := by
  decide +kernel

/-- NOT_RUN holds in HALT; the value before the wrap and below it, and a frozen bank (R166, R168, R169). -/
theorem witness_MillisecondRaisesLevelCounters :
    tested conf 0 (counter .notRun 0) = true ∧ (∀ i, ((withCounter (counter .notRun (2 ^ 40 - 1)) conf).bank.counters.get i).value < 2 ^ 40) ∧
    conf.bank.frozen = false ∧ (conf.setBank { conf.bank with frozen := true }).bank.frozen = true := by
  decide +kernel

/-- A reference that comes to the first band threshold and fires a stand: two hand-offs, and the first wrap freezes the bank before
the second can count (R168, R169, log 28). -/
theorem test_referenceHandsOffTwice :
    let edge := fun src => { counter src (2 ^ 40 - 1) with edge := true }
    let s := withStand false { stand .armed with plan := some { kind := .reserve, fire := 0 } }
      (ramp 3000 400 400 none false)
    let cs := ((s.bank.counters.set 0 { edge .band with invert := true, lastSeen := false }).set 1
      { edge .anyArmed with invert := true, lastSeen := false })
    let t := takeReference (s.setBank { counters := cs, frozen := false })
    t.stands.s0.state = .firing ∧ t.bank.frozen = true ∧ t.bank.counters.c0.value = 0 ∧ t.bank.counters.c1.value = 2 ^ 40 - 1 := by
  decide +kernel

theorem test_counterWraps :
    let t := after .counterMillisecond (withCounter (counter .notRun (2 ^ 40 - 1)) conf)
    t.bank.counters.c0.value = 0 ∧ t.bank.counters.c0.overflow = true ∧ t.bank.frozen = true ∧
    notices .counterMillisecond (withCounter (counter .notRun (2 ^ 40 - 1)) quiet) = [0xD0] := by
  decide +kernel

/-- LINE_MAX is item 0300h (not restricted), PK item 0003h (restricted); at LINE_MAX 0 and an unknown number the first position
fails, at PSB below PSA + 1 a cross-check does. -/
theorem witness_SettingsWriteChecksAndReplaces :
    code (.settingsWrite 1 [(0x300, 5000)]) conf = some 0 ∧ (after (.settingsWrite 1 [(0x300, 5000)]) conf).cfg.lineMax = 5000 ∧
    code (.settingsWrite 1 []) conf = some 0 ∧ code (.settingsWrite 1 [(0x300, 0)]) conf = some 4 ∧
    code (.settingsWrite 1 [(0xFFFF, 0)]) conf = some 4 ∧ code (.settingsWrite 1 [(3, 340000)]) conf = some 8 ∧
    code (.settingsWrite 1 [(2, 140000), (3, 340000)]) resting = some 0 ∧ code (.settingsWrite 1 [(2, 100000)]) resting = some 4 ∧
    code (.settingsWrite 1 []) (conf.setStore { conf.store with writing := some (.commit, defaults) }) = some 0x0E ∧
    (List.replicate 127 ((0, 0) : BitVec 16 × BitVec 48)).length ≤ 127 := by
  decide +kernel

/-- The later position of an item listed twice is the one that fails (log 40). -/
theorem test_listedTwiceFailsLater :
    firstBad [] 1 [(0x300, 5000), (0x300, 5000)] = some 2 ∧ firstBad [] 1 [(0x300, 0), (0x300, 5000)] = some 1 ∧
    firstBad [] 1 [(0x300, 5000), (0xFFFF, 0), (0x300, 5000)] = some 2 := by
  decide +kernel

theorem witness_ImageWriteBeginsAndEnds :
    let w := conf.setStore { conf.store with writing := some (.hardRemap, defaults) }
    code (.settingsCommit 1) conf = some 0 ∧ code (.settingsCommit 1) w = some 0x0E ∧ w.store.writing = some (.hardRemap, defaults) ∧
    conf.store.writing = none ∧ notices .imageWriteFailure (w.setLink quiet.link) = [0xD1] := by
  decide +kernel

theorem test_imageWriteSuccess :
    (after .imageWriteSuccess (conf.setStore { conf.store with writing := some (.commit, defaults) })).store.imageValid = true := by
  decide +kernel

/-! ## Witnesses: the link of every state used above is free -/

theorem witness_linkFreeStates : LinkFree scheduled ∧ LinkFree current ∧ LinkFree allOrders ∧ LinkFree resting ∧ LinkFree halted ∧
    LinkFree full ∧ (∀ d, LinkFree (fitted d)) ∧ (∀ k c, LinkFree (oneOrder k c)) ∧ (∀ k, LinkFree (st k)) ∧
    (∀ k, LinkFree (at' k)) ∧ (∀ q t, LinkFree (trimmed' q t)) ∧ (∀ d, LinkFree (stacking d)) ∧
    (∀ r m k, LinkFree (remapping r m k conf)) ∧ (∀ c, LinkFree (inCondition c conf)) := by
  and_intros <;> intros <;> first | rfl | exact ⟨rfl, rfl⟩

/-! ## Witnesses: the invariants

Every invariant holds at reset (test_powerOn below shows that reset is what POWER_ON leaves), so the hypotheses of the statements
that every step keeps them are met there with any command in front. -/

theorem witness_invariantsAtReset :
    MapHolds State.reset ∧ TablesHold State.reset ∧ ReferenceHolds State.reset ∧ LinkHolds State.reset ∧ CountersHold State.reset ∧ SettingsHold State.reset := by
  refine ⟨⟨by decide, by simp [State.reset], by simp [State.reset], by decide, by decide⟩,
    ⟨by decide, by simp [State.reset], by decide⟩,
    ⟨by decide, by decide, by decide, by simp [State.reset], by simp [State.reset]⟩,
    ⟨by decide, fun _ => rfl, by decide, by decide, by simp [State.reset], by simp [State.reset]⟩,
    fun i => by simp [State.reset, Counter.initial], test_defaultsValid⟩

/-- A command in front, and a next state after it: what the hypotheses of the statements ask for beside the invariant. -/
theorem witness_stepInvariants :
    let s := { State.reset with pending := [.boardBreak] }
    MapHolds s ∧ TablesHold s ∧ (∀ i, StandHolds (s.stands.get i)) ∧ (∀ lane, StackerHolds (s.delivery.get lane)) ∧
    (∀ lane, TrimHolds (s.lanes.get lane)) ∧ ReferenceHolds s ∧ LinkHolds s ∧ CountersHold s ∧ SettingsHold s ∧
    ∃ t, step s = .next t := by
  have i := witness_invariantsAtReset
  refine ⟨i.1, i.2.1, fun i => ?_, fun lane => ?_, fun lane => ?_, i.2.2.1, i.2.2.2.1, i.2.2.2.2.1, i.2.2.2.2.2, _, rfl⟩
  · simp [State.reset, StandHolds, Stand.initial]
  · cases lane <;> simp [State.reset, PerLane.get, StackerHolds, DeliveryRec.initial]
  · cases lane <;> simp [State.reset, PerLane.get, TrimHolds, LaneRec.initial]

theorem test_powerOn : (after (.powerOn false false false) State.reset).link = State.reset.link ∧
    (after (.powerOn false false false) State.reset).gov = State.reset.gov := by
  decide +kernel

end Sys2Proof.Tests
end

