-- ==== Sys2Proof/Proofs/Orders.lean ====
section
/-! PROOFS. ORDER_ADD and ORDER_AMEND (R25, R27): what each owner's operation answers under each of its checks, and from it
what the request does on a free link. -/

namespace Sys2Proof.Machine

open Sys2Proof

/-! ## Refusals and replies without data -/

/-- A request whose owner keeps the state and answers a code alone is refused with that code (R180). -/
theorem refuses_of_plain {c : Instr} {r : Request} {tag : Byte} {code : Result} {s : State} {a : State × Answer}
    (h : exec c s = .next (answer r tag a)) (ha : a = (begin s, .plain code)) : Refuses c r tag code s := by
  subst ha
  exact h

/-! ## The checks of the order table -/

@[simp] theorem inRange_iff (lo hi x : Nat) : inRange lo hi x = true ↔ lo ≤ x ∧ x ≤ hi := by
  simp [inRange]

theorem findOrder_isSome_iff (s : State) (o : Nat) : (findOrder s o).isSome = true ↔ ∃ r ∈ s.sched.orders, r.id = o := by
  simp [findOrder]

/-- A change of one order, written out: the schedule's other parts and every other order are kept. -/
theorem updateOrder_eq (o : Nat) (f : OrderRec → OrderRec) (s : State) :
    updateOrder o f s = s.setSched { s.sched with orders := s.sched.orders.map fun q => if q.id = o then f q else q } := by
  simp only [updateOrder, beq_iff_eq]

/-- The three values that ORDER_AMEND replaces lie in the ranges of Figure 2-1. -/
def AmendRanged (wanted overrun underrun : Nat) : Prop :=
  1 ≤ wanted ∧ wanted ≤ 999999 ∧ overrun ≤ 99999 ∧ underrun ≤ 99999

theorem amendRanged_iff (wanted overrun underrun : Nat) :
    (inRange 1 999999 wanted && inRange 0 99999 overrun && inRange 0 99999 underrun) = true
      ↔ AmendRanged wanted overrun underrun := by
  simp [AmendRanged, and_assoc]

/-- Every field of an order lies in its range of Figure 2-1. -/
def AddRanged (id cut outs wanted overrun underrun bundle : Nat) : Prop :=
  (1 ≤ id ∧ id ≤ 65535) ∧ (3000 ≤ cut ∧ cut ≤ 70000) ∧ (1 ≤ outs ∧ outs ≤ 8) ∧ AmendRanged wanted overrun underrun ∧
    1 ≤ bundle ∧ bundle ≤ 5000

theorem addRanged_iff (id cut outs wanted overrun underrun bundle : Nat) :
    (inRange 1 65535 id && inRange 3000 70000 cut && inRange 1 8 outs && inRange 1 999999 wanted
        && inRange 0 99999 overrun && inRange 0 99999 underrun && inRange 1 5000 bundle) = true
      ↔ AddRanged id cut outs wanted overrun underrun bundle := by
  simp [AddRanged, AmendRanged, and_assoc]

/-! ## ORDER_ADD -/

/-- The record of an order that has just entered the table (R25): no cancel flag, no tally, no outcome, QUEUED. -/
def newOrder (id cut outs wanted overrun underrun bundle : Nat) : OrderRec :=
  { id := id, cut := cut, outs := outs, wanted := wanted, overrun := overrun, underrun := underrun, bundle := bundle,
    cancel := false, state := .queued, good := 0, stacked := 0, joint := 0, defect := 0, brk := 0, transition := 0,
    surplus := 0, diverted := 0, outcome := none }

section
variable {id cut outs wanted overrun underrun bundle : Nat} {s : State}

theorem orderAdd_of_not_ranged (h : ¬AddRanged id cut outs wanted overrun underrun bundle) :
    orderAdd id cut outs wanted overrun underrun bundle s = (s, .plain .outOfRange) := by
  rw [← addRanged_iff, Bool.not_eq_true] at h
  simp only [orderAdd, h, Bool.not_false, if_true]

/-- Within the ranges the answer turns on the table alone: a duplicate, a full table, or the entry. -/
theorem orderAdd_of_ranged (h : AddRanged id cut outs wanted overrun underrun bundle) :
    orderAdd id cut outs wanted overrun underrun bundle s =
      if (findOrder s id).isSome then (s, .plain .duplicate)
      else if Config.orderEntries ≤ s.sched.orders.length then (s, .plain .tableFull)
      else (s.setSched { s.sched with
        orders := insertOrder (newOrder id cut outs wanted overrun underrun bundle) s.sched.orders }, .plain .ok) := by
  rw [← addRanged_iff] at h
  simp only [orderAdd, h, Bool.not_true, Bool.false_eq_true, if_false, newOrder]

theorem orderAdd_of_taken (h : AddRanged id cut outs wanted overrun underrun bundle) (ht : ∃ r ∈ s.sched.orders, r.id = id) :
    orderAdd id cut outs wanted overrun underrun bundle s = (s, .plain .duplicate) := by
  rw [orderAdd_of_ranged h, if_pos ((findOrder_isSome_iff s id).mpr ht)]

theorem orderAdd_of_full (h : AddRanged id cut outs wanted overrun underrun bundle) (ht : ¬∃ r ∈ s.sched.orders, r.id = id)
    (hf : Config.orderEntries ≤ s.sched.orders.length) :
    orderAdd id cut outs wanted overrun underrun bundle s = (s, .plain .tableFull) := by
  rw [orderAdd_of_ranged h, if_neg (mt (findOrder_isSome_iff s id).mp ht), if_pos hf]

theorem orderAdd_of_room (h : AddRanged id cut outs wanted overrun underrun bundle) (ht : ¬∃ r ∈ s.sched.orders, r.id = id)
    (hr : s.sched.orders.length < Config.orderEntries) :
    orderAdd id cut outs wanted overrun underrun bundle s = (s.setSched { s.sched with
      orders := insertOrder (newOrder id cut outs wanted overrun underrun bundle) s.sched.orders }, .plain .ok) := by
  rw [orderAdd_of_ranged h, if_neg (mt (findOrder_isSome_iff s id).mp ht), if_neg (Nat.not_le.mpr hr)]

end

/-! ## ORDER_AMEND -/

section
variable {id wanted overrun underrun : Nat} {s : State} {r : OrderRec}

theorem orderAmend_of_not_found (h : findOrder s id = none) :
    orderAmend id wanted overrun underrun s = (s, .plain .notFound) := by
  simp only [orderAmend, h]

theorem orderAmend_of_not_ranged (h : findOrder s id = some r) (hr : ¬AmendRanged wanted overrun underrun) :
    orderAmend id wanted overrun underrun s = (s, .plain .outOfRange) := by
  rw [← amendRanged_iff, Bool.not_eq_true] at hr
  simp only [orderAmend, h, hr, Bool.not_false, if_true]

/-- Of an order in the table and values in range, the answer turns on whether the order is CLOSED. -/
theorem orderAmend_of_ranged (h : findOrder s id = some r) (hr : AmendRanged wanted overrun underrun) :
    orderAmend id wanted overrun underrun s =
      if r.state = .closed then (s, .plain .wrongState)
      else (updateOrder id (fun q => { q with wanted := wanted, overrun := overrun, underrun := underrun }) s, .plain .ok) := by
  rw [← amendRanged_iff] at hr
  simp only [orderAmend, h, hr, Bool.not_true, Bool.false_eq_true, if_false]

end

/-! ## The statements -/

/-- Settles O18, check by check: each answer of `orderAdd` is the reply of the request on a free link. -/
theorem orderAddChecksAndEnters : Obligations.OrderAddChecksAndEnters := by
  intro tag id cut outs wanted overrun underrun bundle s hfree c ranged taken entered
  have hexec := exec_orderAdd tag id cut outs wanted overrun underrun bundle s hfree
  -- The upper end of the id's range is the width of its field.
  have hranged : ranged ↔ AddRanged id.toNat cut.toNat outs.toNat wanted.toNat overrun.toNat underrun.toNat bundle.toNat := by
    have hid : id.toNat ≤ 65535 := Nat.le_of_lt_succ id.isLt
    simp only [ranged, AddRanged, AmendRanged]
    tauto
  refine ⟨fun hn => ?_, fun hr ht => ?_, fun hr ht hf => ?_, fun hr ht hroom => ?_⟩
  · exact refuses_of_plain hexec (orderAdd_of_not_ranged (mt hranged.mpr hn))
  · exact refuses_of_plain hexec (orderAdd_of_taken (hranged.mp hr) ht)
  · exact refuses_of_plain hexec (orderAdd_of_full (hranged.mp hr) ht hf)
  · rw [orderAdd_of_room (s := begin s) (hranged.mp hr) ht hroom] at hexec
    exact hexec

/-- Settles O19, check by check: each answer of `orderAmend` is the reply of the request on a free link. -/
theorem orderAmendReplacesThreeValues : Obligations.OrderAmendReplacesThreeValues := by
  intro tag id wanted overrun underrun s hfree c ranged
  have hexec := exec_orderAmend tag id wanted overrun underrun s hfree
  refine ⟨fun hnone => ?_, fun r hsome => ⟨fun hn => ?_, fun hr hc => ?_, fun hr hc => ?_⟩⟩
  · exact refuses_of_plain hexec (orderAmend_of_not_found hnone)
  · exact refuses_of_plain hexec (orderAmend_of_not_ranged hsome hn)
  · rw [orderAmend_of_ranged (s := begin s) hsome hr, if_pos hc] at hexec
    exact refuses_of_plain hexec rfl
  · rw [orderAmend_of_ranged (s := begin s) hsome hr, if_neg hc, updateOrder_eq] at hexec
    exact hexec

end Sys2Proof.Machine
end

