-- ==== Sys2Proof/Proofs/Changes.lean ====
section
/-! PROOFS. What an operation of a block can do to the parts of the state that the invariants speak of: a chain of changes, each of
which keeps the well-formedness of the one part it writes. -/

namespace Sys2Proof.Machine

open Sys2Proof

/-! ## The well-formedness of each part -/

/-- The web map is sound, and an open sensor defect has not reached a length b (R8, R13, R19). -/
def WebHolds (b : Nat) (w : WebMap) : Prop :=
  w.marks.length ≤ 128 ∧ w.marks.Pairwise (fun m k => k.pos ≤ m.pos) ∧
    (∀ len, w.sensorDefect = some len → len < b ∧ w.sensorStuck = false) ∧ w.nextEntry < 65536

/-- The live setups of a schedule (R30). -/
def Schedule.live (d : Schedule) : Nat := d.online.length + d.current.toList.length + d.queued.length

/-- Both tables fit, the orders in strict order of id (sections 2.1, 2.2). -/
def TablesFit (d : Schedule) : Prop :=
  d.orders.length ≤ 32 ∧ d.orders.Pairwise (fun r q => r.id < q.id) ∧ d.live ≤ 16

/-- The queue of notices and their numbers keep their bounds (R181, R192). -/
def NoticesFit (k : Notices) : Prop := k.queue.length ≤ 32 ∧ k.number < 256

/-- Every counter value lies below 2^40 (R168). -/
def BankFits (b : Bank) : Prop := ∀ i, (b.counters.get i).value < 2 ^ 40

theorem mapHolds_iff (s : State) : MapHolds s ↔ WebHolds 50000 s.web ∧ s.enc.axis < 2 ^ 48 := by
  simp only [MapHolds, WebHolds]
  tauto

theorem tablesHold_iff (s : State) : TablesHold s ↔ TablesFit s.sched := by
  simp only [TablesHold, TablesFit, setupOrder, Schedule.live, List.length_append]

theorem countersHold_iff (s : State) : CountersHold s ↔ BankFits s.bank := Iff.rfl

/-! ## Changes -/

/-- The parts that the invariants speak of stand in t as in s. -/
def SameBlocks (s t : State) : Prop :=
  t.enc = s.enc ∧ t.web = s.web ∧ t.sched = s.sched ∧ t.stands = s.stands ∧ t.lanes = s.lanes ∧ t.delivery = s.delivery ∧
    t.bank = s.bank ∧ t.notices = s.notices

/-- One change of the state that keeps the part it writes well-formed. `prepared` is the one change in two writes: a LOADED stand
becomes READY and plans (R55), with no plan in between. -/
inductive Change : State → State → Prop
  | same {s t : State} (h : SameBlocks s t) : Change s t
  | enc (s : State) (v : Encoders) (h : s.enc.axis < 2 ^ 48 → v.axis < 2 ^ 48) : Change s (s.setEnc v)
  | web (s : State) (w : WebMap) (h : ∀ b, 0 < b → WebHolds b s.web → WebHolds b w) : Change s (s.setWeb w)
  | sched (s : State) (d : Schedule) (h : TablesFit s.sched → TablesFit d) : Change s (s.setSched d)
  | stands (s : State) (p : Six Stand) (h : ∀ i, StandHolds (s.stands.get i) → StandHolds (p.get i)) :
      Change s (s.setStands p)
  | lanes (s : State) (p : PerLane LaneRec) (h : ∀ x, TrimHolds (s.lanes.get x) → TrimHolds (p.get x)) :
      Change s (s.setLanes p)
  | delivery (s : State) (p : PerLane DeliveryRec) (h : ∀ x, StackerHolds (s.delivery.get x) → StackerHolds (p.get x)) :
      Change s (s.setDelivery p)
  | bank (s : State) (b : Bank) (h : BankFits s.bank → BankFits b) : Change s (s.setBank b)
  | notices (s : State) (k : Notices) (h : NoticesFit s.notices → NoticesFit k) : Change s (s.setNotices k)
  | prepared (i : Fin 6) (s : State) (p : SplicePlan) (h : (s.stands.get i).state = .loaded) :
      Change s (setStand i { s.stands.get i with state := .ready, plan := some p }
        (setStand i { s.stands.get i with state := .ready } s))

/-- A chain of changes. -/
def Evolves : State → State → Prop := Relation.ReflTransGen Change

theorem Evolves.refl {s : State} : Evolves s s := Relation.ReflTransGen.refl

theorem Evolves.trans {s t u : State} (h : Evolves s t) (k : Evolves t u) : Evolves s u := Relation.ReflTransGen.trans h k

theorem Evolves.of {s t : State} (h : Change s t) : Evolves s t := Relation.ReflTransGen.single h

theorem Evolves.same {s t : State} (h : SameBlocks s t) : Evolves s t := .of (.same h)

theorem Evolves.foldl {α : Type} (f : State → α → State) (h : ∀ s a, Evolves s (f s a)) :
    ∀ (l : List α) (s : State), Evolves s (l.foldl f s)
  | [], _ => .refl
  | a :: l, s => (h s a).trans (Evolves.foldl f h l (f s a))

/-! ## Notices and the counter bank -/

theorem NoticesFit.add (k : Notices) (kind : Byte) (contents : List Byte) (h : NoticesFit k) :
    NoticesFit (k.add kind contents) := Notices.add_bounds k kind contents h.1

theorem notice_evolves (kind : Byte) (contents : List Byte) (s : State) : Evolves s (notice kind contents s) :=
  .of (.notices s _ (NoticesFit.add _ _ _))

theorem emit_evolves (o : Output) (s : State) : Evolves s (emit o s) := .same (by simp [SameBlocks])

theorem needEvaluation_evolves (s : State) : Evolves s (needEvaluation s) := .same (by simp [SameBlocks])

/-- A raised value is taken modulo 2^40 (R168). -/
theorem Counter.raise_value_lt (c : Counter) (k : Nat) : (c.raise k).value < 2 ^ 40 :=
  Nat.mod_lt _ (by decide)

theorem handOff_evolves (inc : Fin 8 → Counter → Nat) (s : State) : Evolves s (handOff inc s) := by
  have fits : ∀ frozen : Bool,
      BankFits { counters := s.bank.counters.mapIdx fun i c => c.raise (inc i c), frozen := frozen } := fun frozen i => by
    simpa using Counter.raise_value_lt _ _
  have raised := fun frozen => Evolves.of (.bank s _ fun _ => fits frozen)
  simp only [handOff]
  split
  · exact .refl
  · split
    · exact (raised true).trans (notice_evolves _ _ _)
    · exact raised false

theorem countEvent_evolves (src : Source) (s : State) : Evolves s (countEvent src s) := handOff_evolves _ _

theorem conditionsChanged_evolves (s : State) : Evolves s (conditionsChanged s) :=
  (handOff_evolves _ s).trans (.of (.bank _ _ fun h i => by simpa using h i))

/-! ## The setters with their hand-offs -/

theorem setStand_evolves (i : Fin 6) (st : Stand) (s : State) (h : StandHolds (s.stands.get i) → StandHolds st) :
    Evolves s (setStand i st s) := by
  have keeps : ∀ j, StandHolds (s.stands.get j) → StandHolds ((s.stands.set i st).get j) := fun j hj => by
    by_cases e : j = i
    · subst e
      simpa using h hj
    · rwa [Six.get_set_ne _ _ _ _ e]
  have written : Evolves s ((s.setStands (s.stands.set i st)).setEvalDue
      (s.evalDue || (s.stands.get i).reading != st.reading)) :=
    (Evolves.of (.stands s _ keeps)).trans (.same (by simp [SameBlocks]))
  simp only [setStand]
  split
  · exact written
  · exact written.trans (conditionsChanged_evolves _)

theorem setStation_evolves (x : Station) (r : StationRec) (s : State) : Evolves s (setStation x r s) :=
  .same (by simp [SameBlocks])

theorem setLane_evolves (lane : Lane) (r : LaneRec) (s : State) (h : TrimHolds (s.lanes.get lane) → TrimHolds r) :
    Evolves s (setLane lane r s) := by
  have keeps : ∀ x, TrimHolds (s.lanes.get x) → TrimHolds ((s.lanes.set lane r).get x) := fun x hx => by
    by_cases e : x = lane
    · subst e
      simpa using h hx
    · rwa [PerLane.get_set_ne _ _ _ _ e]
  exact (Evolves.of (.lanes s _ keeps)).trans (.same (by simp [SameBlocks, setLane]))

theorem setDelivery_evolves (lane : Lane) (d : DeliveryRec) (s : State)
    (h : StackerHolds (s.delivery.get lane) → StackerHolds d) : Evolves s (setDelivery lane d s) := by
  have keeps : ∀ x, StackerHolds (s.delivery.get x) → StackerHolds ((s.delivery.set lane d).get x) := fun x hx => by
    by_cases e : x = lane
    · subst e
      simpa using h hx
    · rwa [PerLane.get_set_ne _ _ _ _ e]
  have written := Evolves.of (.delivery s _ keeps)
  simp only [setDelivery]
  split
  · exact written
  · exact (written.trans (needEvaluation_evolves _)).trans (conditionsChanged_evolves _)

theorem setCondition_evolves (c : Condition) (s : State) : Evolves s (setCondition c s) := by
  have written : Evolves s (needEvaluation (s.setLine { s.line with condition := c })) := .same (by simp [SameBlocks])
  simp only [setCondition]
  split
  · exact .refl
  · exact written.trans (conditionsChanged_evolves _)

end Sys2Proof.Machine
end

