-- ==== Sys2Proof/Proofs/ScheduleChanges.lean ====
section
/-! PROOFS. Stack changes, the closure of orders, planning and marks as chains of changes. -/

namespace Sys2Proof.Machine

open Sys2Proof

/-! ## The tables -/

/-- Tables that lose entries, and change others but not their ids, still fit. -/
theorem TablesFit.shrink {d e : Schedule} (ids : (e.orders.map OrderRec.id).Sublist (d.orders.map OrderRec.id))
    (live : e.live ≤ d.live) (h : TablesFit d) : TablesFit e := by
  obtain ⟨count, order, setups⟩ := h
  have len : e.orders.length ≤ d.orders.length := by simpa using ids.length_le
  refine ⟨len.trans count, ?_, live.trans setups⟩
  rw [← List.pairwise_map (f := OrderRec.id) (R := fun a b => a < b)] at order ⊢
  exact order.sublist ids

/-- A change of the schedule under which no order enters and no setup. -/
theorem setSched_evolves (d : Schedule) (s : State)
    (ids : (d.orders.map OrderRec.id).Sublist (s.sched.orders.map OrderRec.id)) (live : d.live ≤ s.sched.live) :
    Evolves s (s.setSched d) :=
  .of (.sched s d (TablesFit.shrink ids live))

/-- A change of the schedule that leaves the ids of the orders as they are. -/
theorem setSched_evolves_of_ids (d : Schedule) (s : State)
    (ids : d.orders.map OrderRec.id = s.sched.orders.map OrderRec.id) (live : d.live ≤ s.sched.live) :
    Evolves s (s.setSched d) :=
  setSched_evolves d s (ids ▸ List.Sublist.refl _) live

theorem updateOrder_evolves (o : Nat) (f : OrderRec → OrderRec) (s : State) (h : ∀ r, (f r).id = r.id) :
    Evolves s (updateOrder o f s) := by
  refine setSched_evolves_of_ids _ s ?_ le_rfl
  simp only [List.map_map]
  refine List.map_congr_left fun r _ => ?_
  simp only [Function.comp_apply]
  split
  · exact h r
  · rfl

theorem updateSetup_evolves (id : Nat) (f : Setup → Setup) (s : State) : Evolves s (updateSetup id f s) :=
  setSched_evolves_of_ids _ s rfl (by simp [Schedule.live, Option.length_toList])

theorem activate_evolves (was : OrderState) (os : List Nat) (s : State) : Evolves s (activate was os s) := by
  refine setSched_evolves_of_ids _ s ?_ le_rfl
  simp only [List.map_map]
  refine List.map_congr_left fun r _ => ?_
  simp only [Function.comp_apply]
  split <;> rfl

/-! ## Stack changes and the closure of orders -/

/-- A change may begin on a stacker that holds a bundle (R115). -/
theorem startChange_evolves (lane : Lane) (cause : ChangeCause) (s : State)
    (h : (s.delivery.get lane).bundle.isSome = true) : Evolves s (startChange lane cause s) := by
  refine (emit_evolves (.stackChange lane) s).trans (setDelivery_evolves _ _ _ fun _ => ?_)
  simp [StackerHolds, h]

theorem Pile.isSome_of_holds {p : Option Pile} {o : Nat} (h : Pile.holds p o = true) : p.isSome = true := by
  cases p with
  | none => cases h
  | some q => rfl

theorem closingChange_evolves (o : Nat) (lane : Lane) (s : State) : Evolves s (closingChange o lane s) := by
  simp only [closingChange]
  split
  · split
    · rename_i holds
      exact startChange_evolves _ _ _ (Pile.isSome_of_holds holds)
    · exact .refl
  · rename_i changing
    split
    · refine setDelivery_evolves _ _ _ fun ⟨timer, bundle, stacking, _⟩ => ?_
      exact ⟨timer, bundle, stacking, fun _ => changing⟩
    · exact .refl
  · exact .refl

theorem closeOrder_evolves (r : OrderRec) (s : State) : Evolves s (closeOrder r s) := by
  simp only [closeOrder]
  refine .trans (.trans (.trans ?_ (notice_evolves _ _ _)) (closingChange_evolves _ _ _)) (closingChange_evolves _ _ _)
  exact updateOrder_evolves _ _ s fun _ => rfl

theorem closureTest_evolves (o : Nat) (s : State) : Evolves s (closureTest o s) := by
  simp only [closureTest]
  split
  · split
    · exact closeOrder_evolves _ _
    · exact .refl
  · exact .refl

theorem closureTests_evolves (os : List Nat) (s : State) : Evolves s (closureTests os s) :=
  Evolves.foldl _ (fun s o => closureTest_evolves o s) os s

theorem feedOrder_evolves (o : Nat) (s : State) : Evolves s (feedOrder o s) := by
  simp only [feedOrder]
  split
  · split
    · refine .trans ?_ (closureTest_evolves _ _)
      exact updateOrder_evolves o _ s fun _ => rfl
    · exact .refl
  · exact .refl

theorem feedOrders_evolves (os : List Nat) (s : State) : Evolves s (feedOrders os s) :=
  Evolves.foldl _ (fun s o => feedOrder_evolves o s) os s

/-! ## Planning -/

/-- An ARMED stand that meets the firing test holds as FIRING (R59). -/
theorem StandHolds.fire {st : Stand} {due : Nat} (armed : st.state = .armed) (joint : st.joint = none) (h : StandHolds st) :
    StandHolds { st with state := .firing, timer := some due } := by
  obtain ⟨plan, _, _, reels⟩ := h
  exact ⟨by simp [plan, armed], by simp, fun _ => joint, fun _ => reels (by simp [armed])⟩

theorem firingTest_evolves (i : Fin 6) (s : State) : Evolves s (firingTest i s) := by
  rcases firingTest_cases i s with e | ⟨armed, joint, _, e⟩ <;> rw [e]
  · exact .refl
  · exact (emit_evolves _ s).trans (setStand_evolves _ _ _ (StandHolds.fire armed joint))

theorem StandHolds.arm {st : Stand} (ready : st.state = .ready) (h : StandHolds st) :
    StandHolds { st with state := .armed } := by
  obtain ⟨plan, timer, _, reels⟩ := h
  exact ⟨by simp [plan, ready], by simpa [ready] using timer, by simp, fun _ => reels (by simp [ready])⟩

theorem armingTest_evolves (i : Fin 6) (s : State) : Evolves s (armingTest i s) := by
  simp only [armingTest]
  split
  · rename_i ready _
    split
    · exact (setStand_evolves _ _ _ (StandHolds.arm ready)).trans (firingTest_evolves _ _)
    · exact .refl
  · exact .refl

theorem StandHolds.plan {st : Stand} {p : SplicePlan} (ready : st.state = .ready) (h : StandHolds st) :
    StandHolds { st with plan := some p } := by
  obtain ⟨_, timer, joint, reels⟩ := h
  exact ⟨by simp [ready], timer, joint, reels⟩

theorem planStand_evolves (i : Fin 6) (s : State) : Evolves s (planStand i s) := by
  simp only [planStand]
  split
  · rename_i ready
    exact (setStand_evolves _ _ _ (StandHolds.plan ready)).trans (armingTest_evolves _ _)
  · exact .refl

theorem replanAll_evolves (s : State) : Evolves s (replanAll s) :=
  Evolves.foldl _ (fun s i => planStand_evolves i s) slots s

/-- A stand whose low warning alone changes. -/
theorem setLowWarned_evolves (i : Fin 6) (b : Bool) (s : State) :
    Evolves s (setStand i { s.stands.get i with lowWarned := b } s) :=
  setStand_evolves _ _ _ fun h => h

theorem lowTest_evolves (i : Fin 6) (s : State) : Evolves s (lowTest i s) := by
  simp only [lowTest]
  split
  · split
    · split
      · exact setLowWarned_evolves i false s
      · exact .refl
    · split
      · exact (setLowWarned_evolves i true s).trans (notice_evolves _ _ _)
      · exact .refl
  · exact .refl

/-! ## Marks -/

theorem length_insertMark (m : Mark) (ms : List Mark) : (insertMark m ms).length = ms.length + 1 := by
  induction ms with
  | nil => rfl
  | cons x xs ih =>
    simp only [insertMark]
    split <;> simp [ih]

theorem mem_insertMark {m k : Mark} {ms : List Mark} : k ∈ insertMark m ms ↔ k = m ∨ k ∈ ms := by
  induction ms with
  | nil => simp [insertMark]
  | cons x xs ih =>
    simp only [insertMark]
    split
    · simp only [List.mem_cons, ih]
      tauto
    · simp

/-- A mark that enters keeps the order of positions (R8). -/
theorem insertMark_pairwise (m : Mark) (ms : List Mark) (h : ms.Pairwise fun m k => k.pos ≤ m.pos) :
    (insertMark m ms).Pairwise fun m k => k.pos ≤ m.pos := by
  induction ms with
  | nil => simp [insertMark]
  | cons x xs ih =>
    obtain ⟨first, rest⟩ := List.pairwise_cons.mp h
    simp only [insertMark]
    split
    · rename_i le
      refine List.pairwise_cons.mpr ⟨fun k hk => ?_, ih rest⟩
      rcases mem_insertMark.mp hk with rfl | hk
      · exact le
      · exact first k hk
    · rename_i lt
      refine List.pairwise_cons.mpr ⟨fun k hk => ?_, h⟩
      rcases List.mem_cons.mp hk with rfl | hk
      · omega
      · have := first k hk
        omega

/-- A mark enters on a record that is free (R6, R13). -/
theorem placeMark_evolves (m : Mark) (s : State) (room : s.web.marks.length < 128) : Evolves s (placeMark m s) := by
  refine .of (.web s _ fun b _ ⟨_, order, defect, _⟩ => ⟨?_, insertMark_pairwise _ _ order, defect, ?_⟩)
  · rw [length_insertMark]
    exact room
  · exact Nat.mod_lt _ (by decide)

theorem enterRunChange_evolves (pos trail setup : Nat) (s : State) (room : s.web.marks.length < 128) :
    Evolves s (enterRunChange pos trail setup s) := by
  have released : Evolves s (s.setLine { s.line with rethread := false }) := .same (by simp [SameBlocks])
  exact (released.trans (placeMark_evolves _ _ room)).trans (needEvaluation_evolves _)

/-- A change of marks one by one that leaves the positions keeps the map. -/
theorem mapMarks_evolves (f : Mark → Mark) (s : State) (h : ∀ m, (f m).pos = m.pos) :
    Evolves s (s.setWeb { s.web with marks := s.web.marks.map f }) := by
  refine .of (.web s _ fun b _ ⟨count, order, defect, entry⟩ => ⟨by simpa using count, ?_, defect, entry⟩)
  rw [List.pairwise_map]
  simpa only [h] using order

theorem growRunMark_evolves (id k : Nat) (s : State) : Evolves s (growRunMark id k s) :=
  mapMarks_evolves _ s fun m => by split <;> rfl

theorem raisePlanned_evolves (k : Nat) (s : State) : Evolves s (raisePlanned k s) := by
  simp only [raisePlanned]
  split
  · rename_i cur current
    have raised := setSched_evolves { s.sched with
      current := some { cur with planned := fit48 (cur.planned + k) }
      episode := if cur.produced < fit48 (cur.planned + k) then none else s.sched.episode } s (List.Sublist.refl _)
      (by simp [Schedule.live, current])
    exact raised.trans (replanAll_evolves _)
  · exact .refl

/-- A change of the schedule's episode and open extension alone. -/
theorem setExtension_evolves (e : Option Deferral) (x : Option Nat) (s : State) :
    Evolves s (s.setSched { s.sched with episode := e, openExtension := x }) :=
  setSched_evolves _ s (List.Sublist.refl _) le_rfl

theorem noteExtension_evolves (m : Mark) (q : Bool) (s : State) : Evolves s (noteExtension m q s) := by
  simp only [noteExtension]
  split
  · exact setExtension_evolves _ _ s
  · exact .refl

/-- A merge changes one mark, and leaves the number and the positions of all (R16). -/
theorem updateLast_marks {p : Mark → Bool} {f : Mark → Mark} (h : ∀ m, (f m).pos = m.pos) :
    ∀ {ms ns : List Mark}, updateLast p f ms = some ns → ns.map Mark.pos = ms.map Mark.pos := by
  intro ms
  induction ms with
  | nil => intro ns e; cases e
  | cons x xs ih =>
    intro ns e
    simp only [updateLast] at e
    split at e
    · rename_i ys tail
      cases e
      simp [ih tail]
    · split at e
      · cases e
        simp [h]
      · cases e

theorem enterReject_evolves (m : Mark) (s : State) : Evolves s (enterReject m s) := by
  simp only [enterReject]
  split
  · rename_i room
    have placed := (placeMark_evolves { m with covered := qualifies s m.pos, merged := false } s room).trans
      (noteExtension_evolves m (qualifies s m.pos) _)
    split
    · exact placed.trans (raisePlanned_evolves _ _)
    · exact placed
  · split
    · rename_i ms merged
      have pos := updateLast_marks (f := mergeInto m) (fun _ => rfl) merged
      have len : ms.length = s.web.marks.length := by simpa using congrArg List.length pos
      have web : Evolves s (s.setWeb { s.web with marks := ms }) :=
        .of (.web s _ fun b _ ⟨count, order, defect, entry⟩ => ⟨len ▸ count, by
          rw [← List.pairwise_map (f := Mark.pos) (R := fun a b => b ≤ a)] at order ⊢
          rwa [pos], defect, entry⟩)
      exact web.trans (.same (by simp [SameBlocks]))
    · exact .refl

theorem takeFinalLength_evolves (len : Nat) (s : State) : Evolves s (takeFinalLength len s) := by
  have cleared := setExtension_evolves s.sched.episode none s
  simp only [takeFinalLength]
  split
  · split
    · exact cleared.trans (raisePlanned_evolves _ _)
    · exact cleared
  · exact cleared

theorem closeSensorDefect_evolves (s : State) : Evolves s (closeSensorDefect s) := by
  simp only [closeSensorDefect]
  split
  · have closed : Evolves s (s.setWeb { s.web with
        sensorDefect := none, marks := s.web.marks.map fun m => { m with openSensor := false } }) := by
      refine .of (.web s _ fun b _ ⟨count, order, _, entry⟩ => ⟨by simpa using count, ?_, by simp, entry⟩)
      rw [List.pairwise_map]
      exact order
    split
    · split
      · exact closed
      · exact closed.trans (takeFinalLength_evolves _ _)
    · exact closed
  · exact .refl

theorem breakCause_evolves (c : BreakCause) (s : State) : Evolves s (breakCause c s) := by
  have recorded : Evolves s (s.setLine { s.line with lastBreak := some c }) := .same (by simp [SameBlocks])
  simp only [breakCause]
  split
  · exact recorded.trans (notice_evolves _ _ _)
  · exact ((recorded.trans (setCondition_evolves _ _)).trans (enterReject_evolves _ _)).trans (notice_evolves _ _ _)

end Sys2Proof.Machine
end

