-- ==== Sys2Proof/Proofs/BoardChanges.lean ====
section
/-! PROOFS. The stations, the schedule, delivery and the knives as chains of changes. -/

namespace Sys2Proof.Machine

open Sys2Proof

/-! ## Stations -/

theorem positionOutput_evolves (x : Station) (t : Setup) (r : StationRec) (s : State) :
    Evolves s (positionOutput x t r s) := .same (by simp [SameBlocks])

theorem beginLate_evolves (x : Station) (id : Nat) (s : State) : Evolves s (beginLate x id s) := by
  simp only [beginLate]
  split
  · exact (growRunMark_evolves _ _ s).trans (setStation_evolves _ _ _)
  · exact .refl

theorem lateAdvance_evolves (n : Nat) (x : Station) (s : State) : Evolves s (lateAdvance n x s) := by
  simp only [lateAdvance]
  split
  · exact (growRunMark_evolves _ _ s).trans (setStation_evolves _ _ _)
  · exact .refl

theorem loadAttempt_evolves (x : Station) (s : State) : Evolves s (loadAttempt x s) := by
  simp only [loadAttempt]
  split
  · split
    · split
      · exact (positionOutput_evolves _ _ _ s).trans (beginLate_evolves _ _ _)
      · exact positionOutput_evolves _ _ _ s
    · exact .refl
  · exact .refl

theorem loadAttempts_evolves (x : Station) (s : State) : Evolves s (loadAttempts x s) :=
  ((loadAttempt_evolves x s).trans (loadAttempt_evolves _ _)).trans (loadAttempt_evolves _ _)

theorem engageStation_evolves (x : Station) (s : State) : Evolves s (engageStation x s) := .same (by simp [SameBlocks])

theorem retractStation_evolves (x : Station) (next : StationState) (p : Option Nat) (s : State) :
    Evolves s (retractStation x next p s) := .same (by simp [SameBlocks])

theorem abandonPattern_evolves (x : Station) (s : State) : Evolves s (abandonPattern x s) := .same (by simp [SameBlocks])

theorem recordArrival_evolves (x : Station) (id : Nat) (o : ArrivalOutcome) (s : State) :
    Evolves s (recordArrival x id o s) := .same (by simp [SameBlocks])

theorem stationArrival_evolves (x : Station) (id : Nat) (s : State) : Evolves s (stationArrival x id s) := by
  have kept := fun o => recordArrival_evolves x id o s
  simp only [stationArrival]
  split
  · split
    · exact (engageStation_evolves _ s).trans (recordArrival_evolves _ _ _ _)
    · exact (beginLate_evolves _ _ s).trans (recordArrival_evolves _ _ _ _)
    · exact (beginLate_evolves _ _ s).trans (recordArrival_evolves _ _ _ _)
    · exact kept _
    · exact kept _
  · split
    · split
      · exact ((retractStation_evolves _ _ _ s).trans (loadAttempts_evolves _ _)).trans (recordArrival_evolves _ _ _ _)
      · split
        · exact ((abandonPattern_evolves _ s).trans (loadAttempts_evolves _ _)).trans (recordArrival_evolves _ _ _ _)
        · exact kept _
      · split
        · exact ((setStation_evolves _ _ s).trans (loadAttempts_evolves _ _)).trans (recordArrival_evolves _ _ _ _)
        · exact kept _
      · exact kept _
      · exact kept _
    · exact kept _

theorem stationArrivals_evolves (x : Station) (ids : List Nat) (s : State) : Evolves s (stationArrivals x ids s) :=
  Evolves.foldl _ (fun s id => stationArrival_evolves x id s) ids s

theorem stationsTakeQueue_evolves (s : State) : Evolves s (stationsTakeQueue s) := loadAttempts_evolves _ s

theorem giveUpWithdrawn_evolves (id : Nat) (x : Station) (s : State) : Evolves s (giveUpWithdrawn id x s) := by
  simp only [giveUpWithdrawn]
  split
  · split
    · exact (abandonPattern_evolves _ s).trans (loadAttempts_evolves _ _)
    · exact (abandonPattern_evolves _ s).trans (loadAttempts_evolves _ _)
    · exact (setStation_evolves _ _ s).trans (loadAttempts_evolves _ _)
    · exact .refl
    · exact .refl
  · exact .refl

theorem giveUpRetired_evolves (id : Nat) (x : Station) (s : State) : Evolves s (giveUpRetired id x s) := by
  simp only [giveUpRetired]
  split
  · split
    · exact (abandonPattern_evolves _ s).trans (loadAttempts_evolves _ _)
    · exact (abandonPattern_evolves _ s).trans (loadAttempts_evolves _ _)
    · exact (retractStation_evolves _ _ _ s).trans (loadAttempts_evolves _ _)
    · exact (setStation_evolves _ _ s).trans (loadAttempts_evolves _ _)
    · exact .refl
  · exact .refl

theorem purgeStations_evolves (s : State) : Evolves s (purgeStations s) := by
  have purged : ∀ x t, Evolves t (purgeStation x t) := fun x t => .same (by simp [SameBlocks])
  exact ((purged .a s).trans (purged .b _)).trans (loadAttempts_evolves _ _)

theorem recheckHeld_evolves (s : State) : Evolves s (recheckHeld s) := by
  have checked := setSched_evolves_of_ids { s.sched with
    queued := s.sched.queued.map fun t => { t with held := !patternFits s t } } s rfl (by simp [Schedule.live])
  simp only [recheckHeld]
  split
  · exact checked
  · exact checked.trans (replanAll_evolves _)

theorem headsChanged_evolves (x : Station) (old : PerGroup HeadSet) (s : State) : Evolves s (headsChanged x old s) := by
  unfold headsChanged
  extract_lets r checked
  have rechecked : Evolves s checked := by
    simp only [checked]
    split
    · exact .refl
    · exact recheckHeld_evolves s
  split
  · exact rechecked
  · split
    · exact rechecked.trans (positionOutput_evolves _ _ _ _)
    · exact rechecked.trans (positionOutput_evolves _ _ _ _)
    · exact rechecked

theorem updateHeads_evolves (x : Station) (g : HeadGroup) (f : HeadSet → HeadSet) (s : State) :
    Evolves s (updateHeads x g f s) :=
  (setStation_evolves _ _ s).trans (headsChanged_evolves _ _ _)

theorem headFault_evolves (h : HeadName) (s : State) : Evolves s (headFault h s) := by
  simp only [headFault]
  split
  · exact .refl
  · exact ((setStation_evolves _ _ s).trans (notice_evolves _ _ _)).trans (headsChanged_evolves _ _ _)

theorem headRetire_evolves (st g head : Nat) (s : State) : Evolves s (headRetire st g head s).1 := by
  simp only [headRetire]
  split
  · exact .refl
  · split
    · exact .refl
    · dsimp only
      exact updateHeads_evolves _ _ _ s

theorem headRestore_evolves (st g head : Nat) (s : State) : Evolves s (headRestore st g head s).1 := by
  simp only [headRestore]
  split
  · exact .refl
  · split
    · exact .refl
    · split
      · dsimp only
        exact updateHeads_evolves _ _ _ s
      · exact .refl

theorem softRemap_evolves (st g head : Nat) (s : State) : Evolves s (softRemap st g head s).1 := by
  simp only [softRemap]
  split
  · exact .refl
  split
  · exact .refl
  split
  · exact .refl
  split
  · exact .refl
  · dsimp only
    exact updateHeads_evolves _ _ _ s

theorem hardRemap_evolves (st g head : Nat) (s : State) : Evolves s (hardRemap st g head s).1 := by
  have ended : Evolves s (s.setRemap .none) := .same (by simp [SameBlocks])
  have written : ∀ t, Evolves t (beginWrite .hardRemap t) := fun t => .same (by simp [SameBlocks])
  simp only [hardRemap]
  split
  · exact ended
  split
  · exact ended
  split
  · exact ended
  split
  · exact ended
  split
  · exact ended
  split
  · exact ended
  · exact (ended.trans (updateHeads_evolves _ _ _ _)).trans (written _)

theorem stationReset_evolves (st : Nat) (s : State) : Evolves s (stationReset st s).1 := by
  simp only [stationReset]
  split
  · exact .refl
  · split
    · exact (setStation_evolves _ _ s).trans (loadAttempts_evolves _ _)
    · exact .refl

/-! ## The schedule -/

theorem insertOrder_length (r : OrderRec) (os : List OrderRec) : (insertOrder r os).length = os.length + 1 := by
  induction os with
  | nil => rfl
  | cons x xs ih =>
    simp only [insertOrder]
    split <;> simp [ih]

theorem mem_insertOrder {r q : OrderRec} {os : List OrderRec} : q ∈ insertOrder r os ↔ q = r ∨ q ∈ os := by
  induction os with
  | nil => simp [insertOrder]
  | cons x xs ih =>
    simp only [insertOrder]
    split
    · simp only [List.mem_cons, ih]
      tauto
    · simp

/-- An order with an id of its own takes its place in the order of ids (SPEC 2.1). -/
theorem insertOrder_pairwise (r : OrderRec) (os : List OrderRec) (new : ∀ q ∈ os, q.id ≠ r.id)
    (h : os.Pairwise fun r q => r.id < q.id) : (insertOrder r os).Pairwise fun r q => r.id < q.id := by
  induction os with
  | nil => simp [insertOrder]
  | cons x xs ih =>
    obtain ⟨first, rest⟩ := List.pairwise_cons.mp h
    have ne := new x (by simp)
    simp only [insertOrder]
    split
    · rename_i lt
      refine List.pairwise_cons.mpr ⟨fun k hk => ?_, ih (fun q hq => new q (by simp [hq])) rest⟩
      rcases mem_insertOrder.mp hk with rfl | hk
      · exact lt
      · exact first k hk
    · rename_i ge
      refine List.pairwise_cons.mpr ⟨fun k hk => ?_, h⟩
      rcases List.mem_cons.mp hk with rfl | hk
      · omega
      · have := first k hk
        omega

theorem orderAdd_evolves (id cut outs wanted overrun underrun bundle : Nat) (s : State) :
    Evolves s (orderAdd id cut outs wanted overrun underrun bundle s).1 := by
  simp only [orderAdd]
  split
  · exact .refl
  · split
    · exact .refl
    · rename_i fresh
      split
      · exact .refl
      · rename_i room
        have new : ∀ q ∈ s.sched.orders, q.id ≠ id := fun q hq e => fresh ((findOrder_isSome_iff s id).mpr ⟨q, hq, e⟩)
        refine .of (.sched s _ fun ⟨_, order, live⟩ => ⟨?_, insertOrder_pairwise _ _ new order, live⟩)
        rw [insertOrder_length]
        exact Nat.lt_of_not_le room

theorem orderAmend_evolves (id wanted overrun underrun : Nat) (s : State) :
    Evolves s (orderAmend id wanted overrun underrun s).1 := by
  simp only [orderAmend]
  split
  · exact .refl
  · split
    · exact .refl
    · split
      · exact .refl
      · exact updateOrder_evolves _ _ s fun _ => rfl

theorem orderCancel_evolves (id : Nat) (s : State) : Evolves s (orderCancel id s).1 := by
  simp only [orderCancel]
  split
  · exact .refl
  · split
    · exact .refl
    · split
      · exact .refl
      · split
        · refine .trans ?_ (closureTest_evolves _ _)
          exact updateOrder_evolves _ _ s fun _ => rfl
        · exact updateOrder_evolves _ _ s fun _ => rfl

theorem orderRelease_evolves (id : Nat) (s : State) : Evolves s (orderRelease id s).1 := by
  simp only [orderRelease]
  split
  · exact .refl
  · split
    · exact .refl
    · exact setSched_evolves _ s (List.filter_sublist.map _) le_rfl

theorem setupQueue_evolves (id orderU targetU presentL orderL targetL deckle boundary grade waste : Nat)
    (slits scores : List Nat) (s : State) :
    Evolves s (setupQueue id orderU targetU presentL orderL targetL deckle boundary grade waste slits scores s).1 := by
  unfold setupQueue
  split
  · exact .refl
  split
  · exact .refl
  split
  · exact .refl
  split
  · exact .refl
  rename_i room
  extract_lets runL t0 t ahead queued entered
  split
  · split
    · exact .refl
    split
    · exact .refl
    refine .trans (.trans (.trans ?_ (activate_evolves _ _ _)) (replanAll_evolves _)) (stationsTakeQueue_evolves _)
    refine .of (.sched s _ fun ⟨count, order, _⟩ => ⟨count, order, ?_⟩)
    simp only [Config.setupEntries, liveCount, setupOrder, List.length_append] at room
    simp only [Schedule.live, queued, List.length_append, List.length_cons, List.length_nil]
    omega
  · exact .refl

theorem setupWithdraw_evolves (id : Nat) (s : State) : Evolves s (setupWithdraw id s).1 := by
  simp only [setupWithdraw]
  split
  · refine .trans (.trans (.trans (.trans (.trans ?_ (feedOrders_evolves _ _)) (replanAll_evolves _))
      (giveUpWithdrawn_evolves _ _ _)) (giveUpWithdrawn_evolves _ _ _)) (stationsTakeQueue_evolves _)
    exact setSched_evolves _ s (List.Sublist.refl _) (Nat.add_le_add_left List.filter_sublist.length_le _)
  · split <;> exact .refl

theorem beginEpisode_evolves (d : Deferral) (s : State) : Evolves s (beginEpisode d s) := by
  unfold beginEpisode
  split
  · exact .refl
  extract_lets sched noted accounts charged
  have h1 : Evolves s noted := by
    refine .trans (setExtension_evolves (some d) s.sched.openExtension s) ?_
    cases d <;> exact notice_evolves _ _ _
  have h2 : Evolves noted charged := by
    refine .same ?_
    cases d <;> simp [SameBlocks, charged]
  exact (h1.trans h2).trans (countEvent_evolves _ _)

theorem countOverrun_evolves (k : Nat) (s : State) : Evolves s (countOverrun k s) := .same (by simp [SameBlocks])

theorem deferStart_evolves (n : Nat) (d : Deferral) (s : State) : Evolves s (deferStart n d s) := by
  simp only [deferStart]
  split
  · exact (beginEpisode_evolves d s).trans (countOverrun_evolves _ _)
  · exact beginEpisode_evolves d s

/-- A setup starts on a record that is free (R36, R37): the setups change their lists, and none enters. -/
theorem startSetup_evolves (n : Nat) (head : Setup) (rest : List Setup) (s : State)
    (queued : s.sched.queued = head :: rest) (room : s.web.marks.length < 128) : Evolves s (startSetup n head rest s) := by
  have overrun : ∀ (b : Prop) [Decidable b] t, Evolves t (if b then countOverrun n t else t) := fun b _ t => by
    split
    · exact countOverrun_evolves _ _
    · exact .refl
  simp only [startSetup]
  refine .trans (.trans (.trans (.trans (.trans (.trans (.trans ?_ (activate_evolves _ _ _)) (notice_evolves _ _ _))
    (overrun _ _)) (countEvent_evolves _ _)) (feedOrders_evolves _ _)) (replanAll_evolves _)) (stationsTakeQueue_evolves _)
  refine .trans (enterRunChange_evolves _ _ _ s room) (setSched_evolves_of_ids _ _ (by simp) ?_)
  simp [Schedule.live, queued]
  omega

/-- A start has a free record besides the eight kept back (R14). -/
theorem room_of_freeRecords {s : State} (h : Config.poolReserve < freeRecords s) : s.web.marks.length < 128 := by
  simp only [Config.poolReserve, freeRecords, Config.poolSize] at h
  omega

theorem startAttempt_evolves (n : Nat) (s : State) : Evolves s (startAttempt n s) := by
  simp only [startAttempt]
  split
  · exact .refl
  · split
    · exact deferStart_evolves _ _ s
    · rename_i queued
      split
      · exact deferStart_evolves _ _ s
      · split
        · exact deferStart_evolves _ _ s
        · rename_i free
          exact startSetup_evolves _ _ _ s queued (room_of_freeRecords (Nat.lt_of_not_le free))

theorem restartMark_evolves (s : State) : Evolves s (restartMark s) := by
  simp only [restartMark]
  split
  · rename_i cur current
    split
    · rename_i free
      have entered := enterRunChange_evolves 0 cur.waste cur.id s (room_of_freeRecords free.2.2)
      exact entered.trans (setSched_evolves_of_ids _ _ rfl (by simp [Schedule.live, current]))
    · exact .refl
  · exact .refl

theorem retireRecord_evolves (t : Setup) (s : State) : Evolves s (retireRecord t s) := by
  simp only [retireRecord]
  refine .trans (.trans ?_ (notice_evolves _ _ _)) (closureTests_evolves _ _)
  refine setSched_evolves _ s (List.Sublist.refl _) ?_
  have fewer : (s.sched.online.filter fun q => q.id != t.id).length ≤ s.sched.online.length := List.filter_sublist.length_le
  simp only [Schedule.live]
  omega

theorem retireSetup_evolves (t : Setup) (s : State) : Evolves s (retireSetup t s) :=
  ((retireRecord_evolves t s).trans (giveUpRetired_evolves _ _ _)).trans (giveUpRetired_evolves _ _ _)

theorem retireAll_evolves (s : State) : Evolves s (retireAll s) :=
  Evolves.foldl _ (fun s t => retireSetup_evolves t s) _ s

theorem length_carryInto (s : State) (o outs : Nat) (ts : List Setup) : (carryInto s o outs ts).length = ts.length := by
  induction ts with
  | nil => rfl
  | cons t ts ih =>
    simp only [carryInto]
    split <;> simp [ih]

theorem carryForward_evolves (o outs : Nat) (uncovered : Bool) (s : State) : Evolves s (carryForward o outs uncovered s) := by
  simp only [carryForward]
  split
  · refine .trans ?_ (replanAll_evolves _)
    exact setSched_evolves_of_ids _ s rfl (by simp [Schedule.live, length_carryInto])
  · exact .refl

theorem purgeSchedule_evolves (s : State) : Evolves s (purgeSchedule s) := by
  simp only [purgeSchedule]
  refine .trans (t := retireOnline s) (Evolves.foldl _ (fun s t => retireRecord_evolves t s) _ s) ?_
  exact setSched_evolves_of_ids _ _ rfl (by simp [Schedule.live, Option.length_toList])

theorem replanRestated_evolves (s : State) : Evolves s (replanRestated s) := by
  simp only [replanRestated]
  split
  · exact replanAll_evolves s
  · exact .refl

theorem clearSchedule_evolves (s : State) : Evolves s (clearSchedule s) :=
  setSched_evolves _ s (List.nil_sublist _) (Nat.zero_le _)

/-! ## Delivery -/

theorem enqueueCut_evolves (lane : Lane) (c : CutRec) (s : State) : Evolves s (enqueueCut lane c s) :=
  setDelivery_evolves _ _ s fun h => h

theorem setGate_evolves (lane : Lane) (g : Disposition) (s : State) : Evolves s (setGate lane g s) := by
  simp only [setGate]
  split
  · exact .refl
  · refine .trans ?_ (emit_evolves _ _)
    exact setDelivery_evolves _ _ s fun h => h

theorem layCut_evolves (lane : Lane) (o outs : Nat) (s : State) : Evolves s (layCut lane o outs s) := by
  refine .trans ?_ (setGate_evolves _ _ _)
  exact updateOrder_evolves _ _ s fun _ => rfl

theorem divertGood_evolves (lane : Lane) (o outs : Nat) (s : State) : Evolves s (divertGood lane o outs s) := by
  unfold divertGood
  extract_lets tallied la accounts charged
  have h1 : Evolves s tallied := updateOrder_evolves _ _ s fun _ => rfl
  have h2 : Evolves tallied charged := .same (by simp [SameBlocks, charged])
  exact ((h1.trans h2).trans (handOff_evolves _ _)).trans (setGate_evolves _ _ _)

/-- A GOOD cut goes to the fork of a stacker that changes (R116). -/
theorem offerFork_evolves (lane : Lane) (o outs : Nat) (s : State) (changing : (s.delivery.get lane).stacker = .changing) :
    Evolves s (offerFork lane o outs s) := by
  simp only [offerFork]
  split
  · refine .trans (setDelivery_evolves _ _ s fun ⟨timer, bundle, _, _⟩ => ?_) (layCut_evolves _ _ _ _)
    exact ⟨timer, bundle, by simp [changing], fun _ => changing⟩
  · exact divertGood_evolves _ _ _ s

theorem layCut_stacker (lane : Lane) (o outs : Nat) (s : State) :
    (layCut lane o outs s).delivery = s.delivery.set lane { s.delivery.get lane with divert := .stack } := by
  simp [layCut]

theorem startChange_delivery (lane : Lane) (cause : ChangeCause) (s : State) :
    (startChange lane cause s).delivery = s.delivery.set lane { s.delivery.get lane with
      stacker := .changing, cause := some cause, timer := some (s.now + (s.cfg.lanes.get lane).changeTimeout) } := by
  simp [startChange]

theorem offerBundle_evolves (lane : Lane) (o outs : Nat) (s : State) : Evolves s (offerBundle lane o outs s) := by
  simp only [offerBundle]
  split
  · have laid := (setDelivery_evolves lane { s.delivery.get lane with
      bundle := some { order := o, count := ((s.delivery.get lane).bundle.map Pile.count).getD 0 + outs } } s
      fun ⟨timer, _, stacking, waiting⟩ => ⟨timer, fun _ => rfl, stacking, waiting⟩).trans (layCut_evolves lane o outs _)
    split
    · exact laid.trans (startChange_evolves _ _ _ (by simp [layCut_stacker]))
    · exact laid
  · rename_i other
    have bundle : (s.delivery.get lane).bundle.isSome = true := by
      cases h : (s.delivery.get lane).bundle <;> simp [h] at other ⊢
    exact (startChange_evolves _ _ s bundle).trans (offerFork_evolves _ _ _ _ (by simp [startChange_delivery]))

theorem deliverCut_evolves (lane : Lane) (b : Batch) (s : State) : Evolves s (deliverCut lane b s) := by
  simp only [deliverCut]
  split
  · split
    · exact offerBundle_evolves _ _ _ s
    · rename_i changing
      exact offerFork_evolves _ _ _ s changing
    · exact divertGood_evolves _ _ _ s
  · exact setGate_evolves _ _ s

theorem deliverFront_evolves (lane : Lane) (b : Batch) (rest : List Batch) (s : State) :
    Evolves s (deliverFront lane b rest s) := by
  have queued : ∀ q, Evolves s (setDelivery lane { (deliverCut lane b s).delivery.get lane with queue := q }
      (deliverCut lane b s)) := fun q => (deliverCut_evolves _ _ s).trans (setDelivery_evolves _ _ _ fun h => h)
  simp only [deliverFront]
  split
  · exact (queued _).trans (closureTests_evolves _ _)
  · exact queued _

theorem deliverReached_evolves (lane : Lane) (k : Nat) (s : State) : Evolves s (deliverReached lane k s) := by
  induction k generalizing s with
  | zero => exact .refl
  | succ k ih =>
    simp only [deliverReached]
    split
    · split
      · exact (deliverFront_evolves _ _ _ s).trans (ih _)
      · exact .refl
    · exact .refl

theorem deliverLane_evolves (lane : Lane) (s : State) : Evolves s (deliverLane lane s) := deliverReached_evolves _ _ s

/-- A stacker that stacks, its fork and its cause gone (R117, R120). -/
theorem stackerHolds_stacking {d : DeliveryRec} (stacker : d.stacker = .stacking) (timer : d.timer = none)
    (fork : d.fork = none) (cause : d.cause = none) (waiting : d.waiting = false) : StackerHolds d := by
  simp [StackerHolds, stacker, timer, fork, cause, waiting]

theorem changeDone_evolves (lane : Lane) (s : State) : Evolves s (changeDone lane s) := by
  simp only [changeDone]
  split
  · have stacking := setDelivery_evolves lane { s.delivery.get lane with
      stacker := .stacking, bundle := (s.delivery.get lane).fork, fork := none, cause := none, waiting := false
      waitCause := none, timer := none } s fun _ => stackerHolds_stacking rfl rfl rfl rfl rfl
    split
    · rename_i p _ fork
      have changing := stacking.trans (startChange_evolves lane .size _ (by simp [fork]))
      split
      · exact changing
      · refine changing.trans (setDelivery_evolves _ _ _ fun ⟨timer, bundle, _, waiting⟩ => ?_)
        exact ⟨timer, bundle, by simp [startChange_delivery], waiting⟩
    · exact stacking
  · exact .refl
  · exact .refl

theorem reachTime_evolves (due : Nat) (s : State) : Evolves s (reachTime due s) := .same (by simp [SameBlocks])

theorem changeTimeout_evolves (lane : Lane) (s : State) : Evolves s (changeTimeout lane s) := by
  simp only [changeTimeout]
  split
  · refine .trans (.trans (reachTime_evolves _ s) (setDelivery_evolves _ _ _ fun _ => ?_)) (notice_evolves _ _ _)
    simp [StackerHolds]
  · exact .refl

theorem stackEject_evolves (lane : Nat) (s : State) : Evolves s (stackEject lane s).1 := by
  simp only [stackEject]
  split
  · exact .refl
  · split
    · split
      · rename_i bundle
        exact startChange_evolves _ _ s bundle
      · exact .refl
    · rename_i changing
      exact setDelivery_evolves _ _ s fun ⟨timer, bundle, stacking, _⟩ => ⟨timer, bundle, stacking, fun _ => changing⟩
    · exact .refl

theorem stackerReset_evolves (lane : Nat) (s : State) : Evolves s (stackerReset lane s).1 := by
  simp only [stackerReset]
  split
  · exact .refl
  · split
    · rename_i fault
      refine setDelivery_evolves _ _ s fun ⟨timer, _⟩ => stackerHolds_stacking rfl ?_ rfl rfl rfl
      simpa [fault] using timer
    · exact .refl

theorem clearDelivery_evolves (lane : Lane) (s : State) : Evolves s (clearDelivery lane s) :=
  (setDelivery_evolves _ _ s fun _ => stackerHolds_stacking rfl rfl rfl rfl rfl).trans (emit_evolves _ _)

/-! ## Knives -/

theorem creditSetup_evolves (lane : Lane) (outs : Nat) (s : State) : Evolves s (creditSetup lane outs s) := by
  simp only [creditSetup]
  split
  · exact updateSetup_evolves _ _ s
  · exact .refl

theorem OrderRec.raiseTally_id (r : OrderRec) (c : SheetClass) (k : Nat) : (r.raiseTally c k).id = r.id := by
  cases c <;> rfl

theorem handCut_evolves (lane : Lane) (cls : SheetClass) (order : Option Nat) (length : Nat) (uncovered : Bool) (axis : Nat)
    (s : State) : Evolves s (handCut lane cls order length uncovered axis s) := by
  unfold handCut
  extract_lets carried outs tallied queued forwarded la ca accounts charged
  have h1 : Evolves s tallied := by
    clear_value carried
    simp only [tallied]
    cases carried with
    | none => exact .refl
    | some o =>
      have raised := updateOrder_evolves o (fun r => r.raiseTally cls outs) s fun r => OrderRec.raiseTally_id r _ _
      dsimp only
      split
      · exact raised.trans (creditSetup_evolves _ _ _)
      · exact raised
  have h2 : Evolves tallied queued := enqueueCut_evolves _ _ _
  have h3 : Evolves queued forwarded := by
    clear_value carried queued
    simp only [forwarded]
    cases carried with
    | none => exact .refl
    | some o =>
      dsimp only
      split
      · exact carryForward_evolves _ _ _ _
      · exact .refl
  have h4 : Evolves forwarded charged := .same (by simp [SameBlocks, charged])
  exact ((((h1.trans h2).trans h3).trans h4).trans (handOff_evolves _ _)).trans (emit_evolves _ _)

theorem takeShadow_evolves (lane : Lane) (s : State) : Evolves s (takeShadow lane s) := by
  simp only [takeShadow]
  split
  · refine .trans ?_ (emit_evolves _ _)
    exact setLane_evolves _ _ s fun h => h
  · exact .refl

/-- A lane's record written over with the trim that the lane has. -/
theorem setLane_evolves_of_trim (lane : Lane) (r : LaneRec) (s : State) (h : r.trim = (s.lanes.get lane).trim) :
    Evolves s (setLane lane r s) :=
  setLane_evolves _ _ s fun k => by simpa only [TrimHolds, h] using k

theorem stretch_evolves (lane : Lane) (report : List Crossing) (axis a b : Nat) (s : State) :
    Evolves s (stretch lane report axis a b s) := by
  simp only [stretch]
  split
  · exact .refl
  · split
    · exact setLane_evolves_of_trim _ _ s rfl
    · exact ((handCut_evolves _ _ _ _ _ _ s).trans (setLane_evolves_of_trim _ _ _ (by simp))).trans (takeShadow_evolves _ _)

theorem releaseOrder_evolves (former : Option LaneJob) (s : State) : Evolves s (releaseOrder former s) :=
  closureTests_evolves _ s

theorem cutPiece_evolves (lane : Lane) (r : LaneRec) (axis : Nat) (s : State) : Evolves s (cutPiece lane r axis s) :=
  handCut_evolves _ _ _ _ _ _ s

theorem knifeOvershoot_evolves (lane : Lane) (s : State) : Evolves s (knifeOvershoot lane s) := .same (by simp [SameBlocks])

theorem changeOver_evolves (lane : Lane) (id : Nat) (run : LaneRun) (axis : Nat) (s : State) :
    Evolves s (changeOver lane id run axis s) := by
  unfold changeOver
  extract_lets r length boundary cut taken fresh written
  have h1 : Evolves s cut := by
    simp only [cut]
    split
    · exact cutPiece_evolves _ _ _ s
    · exact .refl
  have lanes : cut.lanes = s.lanes := by
    simp only [cut]
    split <;> simp
  have trim : fresh.trim = (cut.lanes.get lane).trim := by
    rw [lanes]
    simp only [fresh]
    split <;> rfl
  have h2 : Evolves cut written := (setLane_evolves_of_trim _ _ _ trim).trans (emit_evolves _ _)
  exact ((h1.trans h2).trans (knifeOvershoot_evolves _ _)).trans (releaseOrder_evolves _ _)

theorem enableLane_evolves (lane : Lane) (id : Nat) (run : LaneRun) (s : State) : Evolves s (enableLane lane id run s) := by
  unfold enableLane
  refine .trans (.trans ?_ (emit_evolves _ _)) (knifeOvershoot_evolves _ _)
  exact setLane_evolves_of_trim _ _ s rfl

theorem closeLane_evolves (lane : Lane) (axis : Nat) (s : State) : Evolves s (closeLane lane axis s) := by
  unfold closeLane
  extract_lets r cut closed
  have h1 : Evolves s cut := by
    simp only [cut]
    split
    · exact cutPiece_evolves _ _ _ s
    · exact .refl
  have lanes : cut.lanes = s.lanes := by
    simp only [cut]
    split <;> simp
  have h2 : Evolves cut closed := setLane_evolves_of_trim _ _ _ (by simp only [lanes]; rfl)
  exact ((h1.trans h2).trans (emit_evolves _ _)).trans (releaseOrder_evolves _ _)

theorem laneArrival_evolves (lane : Lane) (id axis : Nat) (s : State) : Evolves s (laneArrival lane id axis s) := by
  simp only [laneArrival]
  split
  · exact .refl
  · split
    · exact changeOver_evolves _ _ _ _ s
    · exact enableLane_evolves _ _ _ s
    · exact closeLane_evolves _ _ s
    · exact .refl

theorem laneStretches_evolves (lane : Lane) (report : List Crossing) (axis n : Nat) (points : List (Nat × Nat)) :
    ∀ (a : Nat) (s : State), Evolves s (laneStretches lane report axis n a points s) := by
  induction points with
  | nil => exact fun a s => stretch_evolves _ _ _ _ _ s
  | cons p ps ih =>
    exact fun a s => ((stretch_evolves _ _ _ _ _ s).trans (laneArrival_evolves _ _ _ _)).trans (ih _ _)

theorem laneAdvance_evolves (lane : Lane) (report : List Crossing) (points : List (Nat × Nat)) (axis n : Nat) (s : State) :
    Evolves s (laneAdvance lane report points axis n s) := laneStretches_evolves _ _ _ _ _ _ s

theorem shadowTrim_trim (s : State) (r : LaneRec) : (shadowTrim s r).trim = r.trim := by
  simp only [shadowTrim]
  split <;> rfl

/-- A trim brought into a range at TRIM_ENTER stays within -250 to +250 (R103). -/
theorem TrimRange.bring_holds (range : TrimRange) (t : Int) (h : -250 ≤ t ∧ t ≤ 250) :
    -250 ≤ range.bring t ∧ range.bring t ≤ 250 := by
  cases range
  · simp only [TrimRange.bring]
    rcases Int.le_total 0 t with pos | neg
    · rw [Int.tdiv_eq_ediv_of_nonneg pos]
      omega
    · rw [← Int.neg_neg t, Int.neg_tdiv, Int.tdiv_eq_ediv_of_nonneg (by omega : 0 ≤ -t)]
      omega
  · simp only [TrimRange.bring, clamp]
    omega

theorem trimEnter_evolves (lane range : Nat) (s : State) : Evolves s (trimEnter lane range s).1 := by
  simp only [trimEnter]
  split
  · split
    · exact .refl
    · refine setLane_evolves _ _ s fun h => ?_
      have brought := fun range : TrimRange => range.bring_holds _ h
      split
      · exact brought _
      · simpa only [TrimHolds, shadowTrim_trim] using brought _
  · exact .refl

/-- The clamped steps of a session make a trim within -250 to +250 (R104, Figure 5-5). -/
theorem TrimRange.steps_holds (range : TrimRange) (k : Int) :
    -250 ≤ clamp (-range.steps) range.steps k * range.step ∧ clamp (-range.steps) range.steps k * range.step ≤ 250 := by
  cases range <;> simp only [clamp, TrimRange.steps, TrimRange.step] <;> omega

theorem trimSet_evolves (lane : Nat) (steps : Int) (s : State) : Evolves s (trimSet lane steps s).1 := by
  simp only [trimSet]
  split
  · exact .refl
  · split
    · exact .refl
    · split
      · exact .refl
      · refine setLane_evolves _ _ s fun _ => ?_
        simpa only [TrimHolds, shadowTrim_trim] using TrimRange.steps_holds _ _

theorem trimExit_evolves (lane : Nat) (s : State) : Evolves s (trimExit lane s).1 := by
  simp only [trimExit]
  split
  · exact .refl
  · split
    · exact setLane_evolves _ _ s fun h => h
    · exact .refl

theorem purgeLane_evolves (lane : Lane) (s : State) : Evolves s (purgeLane lane s) := by
  simp only [purgeLane]
  refine .trans ?_ (releaseOrder_evolves _ _)
  split
  · refine .trans ?_ (emit_evolves _ _)
    exact setLane_evolves_of_trim _ _ s rfl
  · exact setLane_evolves_of_trim _ _ s rfl

theorem clearLanes_evolves (s : State) : Evolves s (clearLanes s) := by
  simp only [clearLanes]
  refine .trans (.trans ?_ (setLane_evolves_of_trim .l _ _ ?_)) (emit_evolves _ _)
  · exact setLane_evolves_of_trim .u _ s rfl
  · simp [PerLane.get, PerLane.set, setLane]

end Sys2Proof.Machine
end

