-- ==== Sys2Proof/Proofs/LineChanges.lean ====
section
/-! PROOFS. The governor, the stands' own events, the line condition, the counters and the settings as chains of changes. -/

namespace Sys2Proof.Machine

open Sys2Proof

/-! ## The governor -/

theorem firingTests_evolves (s : State) : Evolves s (firingTests s) :=
  Evolves.foldl _ (fun s i => firingTest_evolves i s) slots s

theorem setGov_evolves (g : Governor) (s : State) : Evolves s (s.setGov g) := .same (by simp [SameBlocks])

theorem takeLimits_evolves (s : State) : Evolves s (takeLimits s) := by
  simp only [takeLimits]
  split
  · exact setGov_evolves _ s
  · exact ((setGov_evolves _ s).trans (notice_evolves _ _ _)).trans (conditionsChanged_evolves _)

theorem takeReference_evolves (s : State) : Evolves s (takeReference s) := by
  simp only [takeReference]
  split
  · exact setGov_evolves _ s
  · exact (((setGov_evolves _ s).trans (emit_evolves _ _)).trans (conditionsChanged_evolves _)).trans (firingTests_evolves _)

/-- An evaluation (R136): a stand may fire, and notices are added; nothing else that the invariants speak of changes. -/
theorem evaluate_evolves (s : State) : Evolves s (evaluate s) :=
  ((takeLimits_evolves s).trans (takeReference_evolves _)).trans (.same (by simp [SameBlocks, evaluate]))

/-! ## Joints, exhaustion and breaks -/

theorem placeJoint_evolves (i : Fin 6) (source : JointSource) (pos widen : Nat) (s : State) :
    Evolves s (placeJoint i source pos widen s) := by
  unfold placeJoint
  extract_lets cfg m accounts counted entered
  have h1 : Evolves s counted := by
    simp only [counted]
    split
    · exact .same (by simp [SameBlocks])
    · exact .refl
  have h2 : Evolves counted entered := enterReject_evolves _ _
  refine ((h1.trans h2).trans (setStand_evolves _ _ _ fun ⟨plan, timer, _, reels⟩ => ?_)).trans (firingTest_evolves _ _)
  exact ⟨plan, timer, fun _ => rfl, reels⟩

/-- A stand whose late watch alone changes. -/
theorem setLate_evolves (i : Fin 6) (b : Bool) (s : State) : Evolves s (setStand i { s.stands.get i with late := b } s) :=
  setStand_evolves _ _ _ fun h => h

theorem jointTest_evolves (i : Fin 6) (s : State) : Evolves s (jointTest i s) := by
  simp only [jointTest]
  split
  · split
    · split
      · exact (setLate_evolves i true s).trans (placeJoint_evolves _ _ _ _ _)
      · exact .refl
    · split
      · exact placeJoint_evolves _ _ _ _ _
      · exact .refl
  · exact .refl

theorem jointSensed_evolves (i : Fin 6) (s : State) : Evolves s (jointSensed i s) := by
  simp only [jointSensed]
  split
  · split
    · exact placeJoint_evolves _ _ _ _ _
    · split
      · exact (setLate_evolves i false s).trans (.same (by simp [SameBlocks]))
      · exact .refl
  · exact .refl

/-- A stand that tests exhaustion is not FIRING, so it has no timer to lose (R64). -/
theorem StandHolds.exhaust {st : Stand} (tests : st.state.testsExhaustion = true) (h : StandHolds st) :
    StandHolds { st with state := .exhausted, plan := none, reloaded := false } := by
  obtain ⟨_, timer, _, _⟩ := h
  have notFiring : st.state ≠ .firing := fun e => by simp [e, SpliceState.testsExhaustion] at tests
  exact ⟨by simp, by simpa [notFiring] using timer, by simp, by simp⟩

theorem exhaustionTest_evolves (i : Fin 6) (s : State) : Evolves s (exhaustionTest i s) := by
  simp only [exhaustionTest]
  split
  · rename_i due
    exact (setStand_evolves _ _ s (StandHolds.exhaust due.2.2)).trans (breakCause_evolves _ _)
  · exact .refl

theorem webBreak_evolves (i : Fin 6) (s : State) : Evolves s (webBreak i s) := by
  simp only [webBreak]
  split
  · refine .trans ?_ (breakCause_evolves _ _)
    split
    · exact .refl
    · exact setStand_evolves _ _ s fun _ => by simp [StandHolds]
  · exact .refl

/-! ## Readings and the splice cycle -/

theorem setStands_evolves (i : Fin 6) (st : Stand) (s : State) (h : StandHolds (s.stands.get i) → StandHolds st) :
    Evolves s (s.setStands (s.stands.set i st)) := by
  refine .of (.stands s _ fun j hj => ?_)
  by_cases e : j = i
  · subst e
    simpa using h hj
  · rwa [Six.get_set_ne _ _ _ _ e]

theorem diameterReading_evolves (i : Fin 6) (d : Nat) (s : State) : Evolves s (diameterReading i d s) := by
  simp only [diameterReading]
  split
  · split
    · exact setStands_evolves _ _ s fun h => h
    · refine .trans (.trans (.trans ?_ (lowTest_evolves _ _)) (planStand_evolves _ _)) (exhaustionTest_evolves _ _)
      exact setStand_evolves _ _ s fun ⟨plan, timer, joint, reels⟩ =>
        ⟨plan, timer, joint, fun cycle => ⟨(reels cycle).1, rfl⟩⟩
  · exact .refl

theorem standbyPrepared_evolves (i : Fin 6) (s : State) : Evolves s (standbyPrepared i s) := by
  simp only [standbyPrepared]
  split
  · rename_i loaded
    have entered : (setStand i { s.stands.get i with state := .ready } s).stands.get i =
        { s.stands.get i with state := .ready } := by simp
    simp only [planStand, entered]
    exact .trans (.of (.prepared i s _ loaded.2)) (armingTest_evolves _ _)
  · exact .refl

theorem countSplice_evolves (i : Fin 6) (k : PlanKind) (s : State) : Evolves s (countSplice i k s) :=
  .same (by simp [SameBlocks])

theorem spliceConfirmed_evolves (i : Fin 6) (s : State) : Evolves s (spliceConfirmed i s) := by
  simp only [spliceConfirmed]
  split
  · refine .trans (.trans (.trans (.trans ?_ (notice_evolves _ _ _)) (countSplice_evolves _ _ _)) (countEvent_evolves _ _))
      (lowTest_evolves _ _)
    exact setStand_evolves _ _ s fun _ => by simp [StandHolds]
  · exact .refl

theorem spliceTimeout_evolves (i : Fin 6) (s : State) : Evolves s (spliceTimeout i s) := by
  simp only [spliceTimeout]
  split
  · rename_i firing timer
    refine .trans (.trans (reachTime_evolves _ s) (setStand_evolves _ _ _ fun ⟨_, _, _, reels⟩ => ?_)) (notice_evolves _ _ _)
    exact ⟨by simp, by simp, by simp, fun _ => by
      have := reels (by simp [firing])
      simpa using this⟩
  · exact .refl

/-! ## The stands' requests -/

theorem reelLoad_evolves (stand reelVariant reel diameter core caliper : Nat) (s : State) :
    Evolves s (reelLoad stand reelVariant reel diameter core caliper s).1 := by
  unfold reelLoad
  split
  · extract_lets i st
    split
    · exact .refl
    split
    · exact .refl
    split
    · exact .refl
    split
    · have loaded : ∀ r b, Evolves s (lowTest i (setStand i { st with
          running := some r, refused := 0, lowWarned := false, reloaded := b } s)) := fun r b => by
        refine .trans ?_ (lowTest_evolves _ _)
        exact setStand_evolves _ _ s fun ⟨plan, timer, joint, reels⟩ =>
          ⟨plan, timer, joint, fun cycle => ⟨(reels cycle).1, rfl⟩⟩
      split
      · exact loaded _ _
      · exact loaded _ _
      · exact loaded _ _
      · exact .refl
    · split
      · rename_i standby
        dsimp only
        refine setStand_evolves _ _ s fun ⟨plan, timer, _, _⟩ => ⟨?_, ?_, by simp, fun _ => ⟨rfl, standby.2⟩⟩
        · simpa [st, standby.1] using plan
        · simpa [st, standby.1] using timer
      · exact .refl
  · exact .refl

theorem reelUnload_evolves (stand : Nat) (s : State) : Evolves s (reelUnload stand s).1 := by
  have emptied : ∀ i : Fin 6, (s.stands.get i).state ≠ .firing →
      Evolves s (lowTest i (setStand i { s.stands.get i with standby := none, plan := none, state := .empty } s)) :=
    fun i notFiring => by
      refine .trans (setStand_evolves _ _ s fun ⟨_, timer, _, _⟩ => ?_) (lowTest_evolves _ _)
      exact ⟨by simp, by simpa [notFiring] using timer, by simp, by simp⟩
  simp only [reelUnload]
  split
  · exact .refl
  · split
    · rename_i loaded
      exact emptied _ (by simp [loaded])
    · rename_i ready
      exact emptied _ (by simp [ready])
    · exact .refl

theorem spliceForce_evolves (stand : Nat) (s : State) : Evolves s (spliceForce stand s).1 := by
  have armed : ∀ (i : Fin 6) (p : SplicePlan), (s.stands.get i).state = .ready ∨ (s.stands.get i).state = .armed →
      Evolves s (firingTest i (setStand i { s.stands.get i with state := .armed, plan := some p } s)) :=
    fun i p cycle => by
      refine .trans (setStand_evolves _ _ s fun ⟨_, timer, _, reels⟩ => ?_) (firingTest_evolves _ _)
      have notFiring : (s.stands.get i).state ≠ .firing := by
        rcases cycle with e | e <;> simp [e]
      exact ⟨by simp, by simpa [notFiring] using timer, by simp, fun _ => reels (by tauto)⟩
  simp only [spliceForce]
  split
  · exact .refl
  · split
    · rename_i ready
      exact armed _ _ (.inl ready)
    · rename_i armedState
      exact armed _ _ (.inr armedState)
    · exact .refl

theorem standReset_evolves (stand : Nat) (s : State) : Evolves s (standReset stand s).1 := by
  have reset : ∀ i : Fin 6, (s.stands.get i).state = .broken ∨ (s.stands.get i).state = .exhausted →
      Evolves s (setStand i { s.stands.get i with
        standby := none, joint := none, reloaded := false, late := false, state := .empty } s) := fun i broken => by
    refine setStand_evolves _ _ s fun ⟨plan, timer, _, _⟩ => ⟨?_, ?_, by simp, by simp⟩
    · rcases broken with e | e <;> simpa [e] using plan
    · rcases broken with e | e <;> simpa [e] using timer
  simp only [standReset]
  split
  · exact .refl
  · split
    · rename_i fault
      refine setStand_evolves _ _ s fun ⟨plan, timer, _, reels⟩ => ⟨?_, ?_, by simp, fun _ => reels (by simp [fault])⟩
      · simpa [fault] using plan
      · simpa [fault] using timer
    · rename_i broken
      split
      · exact reset _ (.inl broken)
      · exact .refl
    · rename_i exhausted
      split
      · exact reset _ (.inr exhausted)
      · exact .refl
    · exact .refl

theorem unlockStand_evolves (i : Fin 6) (s : State) : Evolves s (unlockStand i s) := by
  simp only [unlockStand]
  split
  · rename_i armed
    refine .trans (setStand_evolves _ _ s fun ⟨plan, timer, _, reels⟩ => ?_) (planStand_evolves _ _)
    exact ⟨by simpa [armed] using plan, by simpa [armed] using timer, by simp, fun _ => reels (by simp [armed])⟩
  · exact setStand_evolves _ _ s fun ⟨plan, timer, _, reels⟩ => ⟨plan, timer, fun _ => rfl, reels⟩

theorem unlockStands_evolves (s : State) : Evolves s (unlockStands s) :=
  Evolves.foldl _ (fun s i => unlockStand_evolves i s) slots s

/-! ## The parts of a board advance -/

theorem advanceProduced_evolves (n : Nat) (s : State) : Evolves s (advanceProduced n s) :=
  setSched_evolves_of_ids _ s rfl (by simp [Schedule.live, Option.length_toList])

theorem StandHolds.advance {st : Stand} (n : Nat) (h : StandHolds st) : StandHolds (st.advance n) := by
  obtain ⟨plan, timer, joint, reels⟩ := h
  exact ⟨by simpa [Stand.advance] using plan, timer, fun firing => by simp [Stand.advance, joint firing],
    fun cycle => by simpa [Stand.advance] using reels cycle⟩

theorem advanceStands_evolves (n : Nat) (s : State) : Evolves s (advanceStands n s) := by
  refine .trans (.of (.stands s ⟨s.stands.s0.advance n, s.stands.s1.advance n, s.stands.s2.advance n, s.stands.s3.advance n,
    s.stands.s4.advance n, s.stands.s5.advance n⟩ fun i h => ?_)) (.same ?_)
  · fin_cases i <;> exact StandHolds.advance n h
  · simp [SameBlocks, advanceStands]

theorem passKnife_evolves (m : Mark) (s : State) : Evolves s (passKnife m s) := by
  simp only [passKnife]
  split
  · exact updateSetup_evolves _ _ s
  · exact .refl

theorem passKnifeAll_evolves (gone : List Mark) (s : State) : Evolves s (passKnifeAll gone s) :=
  Evolves.foldl _ (fun s m => passKnife_evolves m s) gone s

theorem removeMarks_evolves (s : State) : Evolves s (removeMarks s) := by
  simp only [removeMarks]
  refine .trans (.of (.web s _ fun b _ ⟨count, order, defect, entry⟩ => ?_)) (passKnifeAll_evolves _ _)
  exact ⟨List.filter_sublist.length_le.trans count, order.sublist List.filter_sublist, defect, entry⟩

/-- The sensor is taken to be stuck only when no sensor defect is open (R19). -/
theorem setStuck_evolves (stuck : Bool) (s : State) (closed : s.web.sensorDefect = none ∨ stuck = false) :
    Evolves s (setStuck stuck s) := by
  refine .of (.web s _ fun b _ ⟨count, order, defect, entry⟩ => ⟨count, order, fun len open_ => ?_, entry⟩)
  rcases closed with none | free
  · simp [none] at open_
  · exact ⟨(defect len open_).1, free⟩

theorem closeSensorDefect_defect (s : State) : (closeSensorDefect s).web.sensorDefect = none := by
  simp only [closeSensorDefect]
  split
  · split
    · split
      · simp
      · simp
    · simp
  · assumption

theorem defectLimitTest_evolves (s : State) : Evolves s (defectLimitTest s) := by
  simp only [defectLimitTest]
  split
  · exact (closeSensorDefect_evolves s).trans (setStuck_evolves _ _ (.inl (closeSensorDefect_defect s)))
  · exact .refl

theorem standTests_evolves (i : Fin 6) (s : State) : Evolves s (standTests i s) :=
  ((((lowTest_evolves i s).trans (armingTest_evolves _ _)).trans (firingTest_evolves _ _)).trans
    (jointTest_evolves _ _)).trans (exhaustionTest_evolves _ _)

theorem allStandTests_evolves (s : State) : Evolves s (allStandTests s) :=
  Evolves.foldl _ (fun s i => standTests_evolves i s) slots s

/-! ## The encoders and the defect sensor -/

/-- A change of the encoders that leaves the axis count as it is. -/
theorem setEnc_evolves (v : Encoders) (s : State) (h : v.axis = s.enc.axis) : Evolves s (s.setEnc v) :=
  .of (.enc s v fun k => h ▸ k)

theorem restartSilence_evolves (s : State) : Evolves s (restartSilence s) := setEnc_evolves _ s rfl

theorem restartSilenceUnlessFallen_evolves (s : State) : Evolves s (restartSilenceUnlessFallen s) := by
  simp only [restartSilenceUnlessFallen]
  split
  · exact .refl
  · exact restartSilence_evolves s

theorem placeMark_web (m : Mark) (s : State) : (placeMark m s).web.sensorDefect = s.web.sensorDefect ∧
    (placeMark m s).web.sensorStuck = s.web.sensorStuck := ⟨rfl, rfl⟩

/-- No entry opens or closes a sensor defect (R13 to R17). -/
theorem enterReject_sensor (m : Mark) (s : State) : (enterReject m s).web.sensorDefect = s.web.sensorDefect ∧
    (enterReject m s).web.sensorStuck = s.web.sensorStuck := by
  simp only [enterReject]
  split
  · split <;> simp [placeMark_web]
  · split <;> simp

theorem defectBegins_evolves (s : State) : Evolves s (defectBegins s) := by
  simp only [defectBegins]
  split
  · rename_i free
    refine .trans (enterReject_evolves _ s) (.of (.web _ _ fun b pos ⟨count, order, _, entry⟩ => ?_))
    refine ⟨count, order, fun len open_ => ?_, entry⟩
    cases open_
    exact ⟨pos, (enterReject_sensor _ s).2.trans free.2.2⟩
  · exact .refl

theorem defectEnds_evolves (s : State) : Evolves s (defectEnds s) := by
  simp only [defectEnds]
  split
  · exact (closeSensorDefect_evolves s).trans (setStuck_evolves _ _ (.inr rfl))
  · exact .refl

theorem defectReport_evolves (pos lead trail : Nat) (s : State) : Evolves s (defectReport pos lead trail s).1 := by
  simp only [defectReport]
  split
  · exact .refl
  · dsimp only
    exact enterReject_evolves _ s

theorem purgeTracker_evolves (s : State) : Evolves s (purgeTracker s) := by
  refine .trans (.trans ?_ (restartSilenceUnlessFallen_evolves _)) (needEvaluation_evolves _)
  exact .of (.web s _ fun b _ ⟨_, _, _, entry⟩ => ⟨by simp, by simp, by simp, entry⟩)

theorem clearTracker_evolves (s : State) : Evolves s (clearTracker s) := by
  have zeroed : Evolves s (s.setEnc { s.enc with axis := 0 }) := .of (.enc s _ fun _ => Nat.two_pow_pos 48)
  refine (zeroed.trans (.of (.web _ _ fun b _ ⟨count, order, defect, _⟩ => ?_))).trans (purgeTracker_evolves _)
  exact ⟨count, order, defect, Nat.succ_pos _⟩

/-! ## The line condition -/

theorem emergencyStopActive_evolves (s : State) : Evolves s (emergencyStopActive s) := by
  simp only [emergencyStopActive]
  split
  · exact .refl
  · refine .trans (.trans (.trans (t := s.setEmergencyStop true) (.same (by simp [SameBlocks])) ?_)
      (setGov_evolves _ _)) (needEvaluation_evolves _)
    split
    · exact setCondition_evolves _ _
    · exact .refl

theorem lineStop_evolves (s : State) : Evolves s (lineStop s).1 := by
  simp only [lineStop]
  split
  · exact .refl
  · exact setCondition_evolves _ s
  · exact .refl

theorem lineRestart_evolves (s : State) : Evolves s (lineRestart s).1 := by
  simp only [lineRestart]
  split
  · exact .refl
  split
  · exact .refl
  split
  · exact .refl
  · exact setCondition_evolves _ s

theorem purgeAll_evolves (s : State) : Evolves s (purgeAll s) := by
  simp only [purgeAll]
  refine .trans (.trans (.trans (.trans (.trans (.trans (.trans (.trans (purgeTracker_evolves s) (purgeSchedule_evolves _))
    (unlockStands_evolves _)) (replanRestated_evolves _)) (purgeStations_evolves _)) (purgeLane_evolves .u _))
    (purgeLane_evolves .l _)) (setCondition_evolves .purged _)) (.same ?_)
  simp [SameBlocks]

theorem purge_evolves (s : State) : Evolves s (purge s).1 := by
  simp only [purge]
  split
  · dsimp only
    exact purgeAll_evolves s
  · exact .refl

theorem clearStation_evolves (x : Station) (s : State) : Evolves s (clearStation x s) := .same (by simp [SameBlocks])

theorem clearAll_evolves (s : State) : Evolves s (clearAll s) := by
  simp only [clearAll]
  refine .trans (.trans (.trans (.trans (.trans (.trans (.trans (.trans (.trans (clearTracker_evolves s)
    (clearSchedule_evolves _)) (unlockStands_evolves _)) (replanAll_evolves _)) (clearStation_evolves .a _))
    (clearStation_evolves .b _)) (clearLanes_evolves _)) (clearDelivery_evolves .u _)) (clearDelivery_evolves .l _)) (.same ?_)
  simp [SameBlocks]

theorem productionClear_evolves (s : State) : Evolves s (productionClear s).1 := by
  simp only [productionClear]
  split
  · exact clearAll_evolves s
  · exact .refl

/-! ## The counter bank -/

theorem updateCounter_evolves (i : Fin 8) (f : Counter → Counter) (s : State)
    (h : (s.bank.counters.get i).value < 2 ^ 40 → (f (s.bank.counters.get i)).value < 2 ^ 40) :
    Evolves s (updateCounter i f s) := by
  refine .of (.bank s _ fun fits j => ?_)
  by_cases e : j = i
  · subst e
    simpa using h (fits j)
  · simpa [Eight.get_set_ne _ _ _ _ e] using fits j

theorem counterSetup_evolves (counter enable source mode invert freeze laneFilter orderMatch orderMask classSet family : Nat)
    (s : State) : Evolves s
      (counterSetup counter enable source mode invert freeze laneFilter orderMatch orderMask classSet family s).1 := by
  simp only [counterSetup]
  split
  · split
    · exact .refl
    · split
      · dsimp only
        exact updateCounter_evolves _ _ s fun h => h
      · exact .refl
  · exact .refl

theorem counterEnable_evolves (counter enable : Nat) (s : State) : Evolves s (counterEnable counter enable s).1 := by
  simp only [counterEnable]
  split
  · split
    · exact .refl
    · dsimp only
      exact updateCounter_evolves _ _ s fun h => h
  · exact .refl

theorem counterPreset_evolves (counter value : Nat) (s : State) : Evolves s (counterPreset counter value s).1 := by
  simp only [counterPreset]
  split
  · split
    · exact .refl
    · rename_i small
      dsimp only
      exact updateCounter_evolves _ _ s fun _ => Nat.lt_of_not_le small
  · exact .refl

theorem counterUnfreeze_evolves (s : State) : Evolves s (counterUnfreeze s).1 := .of (.bank s _ fun h => h)

theorem counterRead_evolves (clear : Nat) (s : State) : Evolves s (counterRead clear s).1 := by
  simp only [counterRead]
  split
  · exact .refl
  · dsimp only
    split
    · exact .of (.bank s _ fun h i => by simpa using h i)
    · exact .refl

theorem millisecond_evolves (s : State) : Evolves s (millisecond s) :=
  .trans (t := s.setNow (s.now + 1)) (.same (by simp [SameBlocks])) (by
    simp only [millisecond, countMillisecond]
    exact handOff_evolves _ _)

/-! ## The settings -/

theorem standWritten_evolves (old : Settings) (i : Fin 6) (s : State) : Evolves s (standWritten old i s) := by
  simp only [standWritten]
  split
  · exact .refl
  · exact setStand_evolves _ _ s fun _ => by simp [StandHolds, Stand.initial]

theorem standsWritten_evolves (old : Settings) (s : State) : Evolves s (standsWritten old s) :=
  Evolves.foldl _ (fun s i => standWritten_evolves old i s) slots s

theorem encoderWritten_evolves (s : State) : Evolves s (encoderWritten s) :=
  .trans (setEnc_evolves { s.enc with selected := s.cfg.primary, fallback := false } s rfl) (restartSilence_evolves _)

theorem idleWritten_evolves (lane : Lane) (s : State) : Evolves s (idleWritten lane s) := by
  simp only [idleWritten]
  split
  · exact setLane_evolves _ _ s fun h => h
  · exact .refl

theorem takeWrite_evolves (items : List (Item × Nat)) (s : State) : Evolves s (takeWrite items s) := by
  unfold takeWrite
  extract_lets old has tested entered stood idled
  have h1 : Evolves s tested := .trans (t := s.setCfg (written s.cfg items)) (.same (by simp [SameBlocks]))
    (conditionsChanged_evolves _)
  have h2 : Evolves tested entered := by
    simp only [entered]
    split
    · exact encoderWritten_evolves _
    · exact .refl
  have h3 : Evolves entered stood := standsWritten_evolves _ _
  have h4 : Evolves stood idled := by
    simp only [idled]
    split
    · exact (idleWritten_evolves _ _).trans (idleWritten_evolves _ _)
    · exact .refl
  have h5 := ((h1.trans h2).trans h3).trans h4
  split
  · exact h5.trans (needEvaluation_evolves _)
  · exact h5

theorem settingsWrite_evolves (entries : List (Nat × Nat)) (s : State) : Evolves s (settingsWrite entries s).1 := by
  unfold settingsWrite
  split
  · exact .refl
  · split
    · exact .refl
    · extract_lets items
      split
      · exact .refl
      · split
        · exact .refl
        · exact takeWrite_evolves _ s

theorem imageWriteFailure_evolves (s : State) : Evolves s (imageWriteFailure s) := by
  simp only [imageWriteFailure]
  split
  · refine .trans ?_ (notice_evolves _ _ _)
    exact .same (by simp [SameBlocks])
  · exact .refl

theorem statusRequest_evolves (s : State) : Evolves s (statusRequest s).1 := .of (.notices s _ fun h => h)

/-! ## Stations' field events -/

theorem positioningTimeout_evolves (x : Station) (s : State) : Evolves s (positioningTimeout x s) := by
  simp only [positioningTimeout]
  split
  · refine .trans ?_ (notice_evolves _ _ _)
    exact .trans (reachTime_evolves _ s) (setStation_evolves _ _ _)
  · exact .refl

theorem positionFault_evolves (x : Station) (s : State) : Evolves s (positionFault x s) := by
  have noticed : ∀ k b r, Evolves s (stationFaultNotice x k b (setStation x r s)) := fun k b r =>
    (setStation_evolves x r s).trans (notice_evolves _ _ _)
  simp only [positionFault]
  split
  · exact noticed _ _ _
  · exact noticed _ _ _
  · exact noticed _ _ _
  · exact .refl
  · exact .refl

end Sys2Proof.Machine
end

