-- ==== Sys2Proof/Proofs/Courses.lean ====
section
/-! PROOFS. Requests, the receiver and the events as courses: chains of changes, board advances and power-ons; every step is one. -/

namespace Sys2Proof.Machine

open Sys2Proof

/-! ## Requests -/

theorem perform_evolves (r : Request) (v : List Nat) (s : State) : Evolves s (perform r v s).1 := by
  cases r with
  | status => exact statusRequest_evolves s
  | mapRead => exact .same (by simp [SameBlocks, perform])
  | defectReport => exact defectReport_evolves _ _ _ s
  | orderAdd => exact orderAdd_evolves _ _ _ _ _ _ _ s
  | orderAmend => exact orderAmend_evolves _ _ _ _ s
  | orderCancel => exact orderCancel_evolves _ s
  | orderRelease => exact orderRelease_evolves _ s
  | orderQuery => exact .same (by simp [SameBlocks, perform])
  | setupQueue => exact setupQueue_evolves _ _ _ _ _ _ _ _ _ _ _ _ s
  | setupWithdraw => exact setupWithdraw_evolves _ s
  | setupQuery => exact .same (by simp [SameBlocks, perform])
  | scheduleRead => exact .same (by simp [SameBlocks, perform])
  | reelLoad => exact reelLoad_evolves _ _ _ _ _ _ s
  | reelUnload => exact reelUnload_evolves _ s
  | spliceForce => exact spliceForce_evolves _ s
  | standReset => exact standReset_evolves _ s
  | standQuery => exact .same (by simp [SameBlocks, perform])
  | stationReset => exact stationReset_evolves _ s
  | headRetire => exact headRetire_evolves _ _ _ s
  | headRestore => exact headRestore_evolves _ _ _ s
  | softRemap => exact softRemap_evolves _ _ _ s
  | remapPrepare => exact .same (by simp [SameBlocks, perform])
  | remapConfirm => exact .same (by simp [SameBlocks, perform])
  | hardRemap => exact hardRemap_evolves _ _ _ s
  | stationQuery => exact .same (by simp [SameBlocks, perform])
  | trimEnter => exact trimEnter_evolves _ _ s
  | trimSet => exact trimSet_evolves _ _ s
  | trimExit => exact trimExit_evolves _ s
  | knifeQuery => exact .same (by simp [SameBlocks, perform])
  | stackEject => exact stackEject_evolves _ s
  | stackerReset => exact stackerReset_evolves _ s
  | deliveryQuery => exact .same (by simp [SameBlocks, perform])
  | speedDemand => exact .same (by simp [SameBlocks, perform])
  | governorQuery => exact .same (by simp [SameBlocks, perform])
  | lineStop => exact lineStop_evolves s
  | lineRestart => exact lineRestart_evolves s
  | purge => exact purge_evolves s
  | lineQuery => exact .same (by simp [SameBlocks, perform])
  | accountsRead => exact .same (by simp [SameBlocks, perform])
  | accountsClear => exact .same (by simp [SameBlocks, perform])
  | counterSetup => exact counterSetup_evolves _ _ _ _ _ _ _ _ _ _ _ s
  | counterEnable => exact counterEnable_evolves _ _ s
  | counterPreset => exact counterPreset_evolves _ _ s
  | counterUnfreeze => exact counterUnfreeze_evolves s
  | counterRead => exact counterRead_evolves _ s
  | settingsWrite => exact settingsWrite_evolves _ s
  | settingsCommit => exact .same (by simp [SameBlocks, perform])
  | productionClear => exact productionClear_evolves s

/-! ## Taking and receiving frames -/

theorem setLink_evolves (k : Link) (s : State) : Evolves s (s.setLink k) := .same (by simp [SameBlocks])

theorem setRemap_evolves (r : Remap) (s : State) : Evolves s (s.setRemap r) := .same (by simp [SameBlocks])

theorem breakSequence_evolves (r : Request) (s : State) : Evolves s (breakSequence r s) := .same (by simp [SameBlocks])

theorem answerFrame_evolves (q : Frame) (s : State) : Evolves s (answerFrame q s).1 := by
  simp only [answerFrame]
  split
  · exact setRemap_evolves _ s
  · split
    · exact (perform_evolves _ _ s).trans (breakSequence_evolves _ _)
    · exact setRemap_evolves _ s

theorem takeFrame_evolves (q : Frame) (s : State) : Evolves s (takeFrame q s) :=
  (answerFrame_evolves q s).trans (setLink_evolves _ _)

theorem takeOldest_evolves (s : State) : Evolves s (takeOldest s) := by
  simp only [takeOldest]
  split
  · exact (setLink_evolves _ s).trans (takeFrame_evolves _ _)
  · exact .refl

theorem arrive_evolves (q : Frame) (s : State) : Evolves s (arrive q s) := by
  simp only [arrive]
  split
  · exact (setLink_evolves _ s).trans (takeOldest_evolves _)
  · exact (setLink_evolves _ s).trans (countEvent_evolves _ _)

theorem checkFrame_evolves (taken : List Byte) (len : Nat) (s : State) : Evolves s (checkFrame taken len s) := by
  have hunting : Evolves s (setRx .hunting s) := setLink_evolves _ s
  simp only [checkFrame]
  split
  · exact hunting.trans (arrive_evolves _ _)
  · exact (hunting.trans (setLink_evolves _ _)).trans (countEvent_evolves _ _)

theorem rxByte_evolves (b : Byte) (s : State) : Evolves s (rxByte b s) := by
  have received : ∀ r, Evolves s (setRx r s) := fun r => setLink_evolves _ s
  simp only [rxByte]
  split
  · split
    · exact received _
    · exact .refl
  · split
    · exact received _
    · split
      · exact checkFrame_evolves _ _ s
      · exact received _

theorem rxBytes_evolves (bs : List Byte) (s : State) : Evolves s (rxBytes bs s) :=
  Evolves.foldl _ (fun s b => rxByte_evolves b s) bs s

theorem gapTimeout_evolves (s : State) : Evolves s (gapTimeout s) := by
  simp only [gapTimeout]
  split
  · refine .trans (.trans (.trans ?_ (setLink_evolves _ _)) (setLink_evolves _ _)) (countEvent_evolves _ _)
    exact reachTime_evolves _ s
  · exact .refl

/-! ## The transmitter and the frame of an event -/

theorem sendNotice_evolves (n : Frame) (rest : List Frame) (s : State) (h : s.notices.queue = n :: rest) :
    Evolves s (sendNotice n rest s) := by
  refine (setLink_evolves _ s).trans (.of (.notices _ _ fun ⟨count, number⟩ => ⟨?_, number⟩))
  simp only [State.setLink_fields, h, List.length_cons] at count
  exact Nat.le_of_succ_le count

theorem arbitrate_evolves (s : State) : Evolves s (arbitrate s) := by
  simp only [arbitrate]
  split
  · split
    · exact setLink_evolves _ s
    · rename_i queue
      exact sendNotice_evolves _ _ s queue
    · rename_i queue
      split
      · exact sendNotice_evolves _ _ s queue
      · exact setLink_evolves _ s
    · exact .refl
  · exact .refl
  · exact .refl

theorem transmitComplete_evolves (s : State) : Evolves s (transmitComplete s) := by
  simp only [transmitComplete]
  split
  · exact .refl
  · exact setLink_evolves _ s
  · exact (setLink_evolves _ s).trans (takeOldest_evolves _)

theorem settle_evolves (s : State) : Evolves s (settle s) := by
  simp only [settle]
  refine .trans ?_ (arbitrate_evolves _)
  split
  · exact evaluate_evolves s
  · exact .refl

theorem begin_evolves (s : State) : Evolves s (begin s) := .same (by simp [SameBlocks])

/-! ## Courses -/

/-- What an event may do: a change, a board advance, or a power-on. -/
inductive Course : State → State → Prop
  | change {s t : State} (h : Change s t) : Course s t
  | advance (n : Nat) (s : State) : Course s (boardAdvance n s)
  | power (high low stopped : Bool) (s : State) : Course s (powerOn high low stopped s)

/-- A chain of changes, board advances and power-ons. -/
def Runs : State → State → Prop := Relation.ReflTransGen Course

theorem Evolves.runs {s t : State} (h : Evolves s t) : Runs s t := by
  induction h with
  | refl => exact .refl
  | tail _ change ih => exact ih.tail (.change change)

theorem Runs.refl {s : State} : Runs s s := Relation.ReflTransGen.refl

theorem Runs.trans {s t u : State} (h : Runs s t) (k : Runs t u) : Runs s u := Relation.ReflTransGen.trans h k

theorem Runs.of {s t : State} (h : Course s t) : Runs s t := Relation.ReflTransGen.single h

/-- What changes, board advances and power-ons keep, every chain of them keeps. -/
theorem Runs.keeps {p : State → Prop} (change : ∀ s t, Change s t → p s → p t)
    (advance : ∀ n s, p s → p (boardAdvance n s)) (power : ∀ a b c s, p s → p (powerOn a b c s)) {s t : State}
    (h : Runs s t) : p s → p t := by
  induction h with
  | refl => exact id
  | tail _ course ih =>
    intro hs
    cases course with
    | change h => exact change _ _ h (ih hs)
    | advance n s => exact advance n _ (ih hs)
    | power a b c s => exact power a b c _ (ih hs)

/-! ## The encoders -/

theorem fullAdvances_runs (k : Nat) : ∀ s : State, Runs s (fullAdvances k s) := by
  induction k with
  | zero => exact fun s => .refl
  | succ k ih => exact fun s => (Runs.of (.advance _ s)).trans (ih _)

theorem deliverTravel_runs (k : Nat) (s : State) : Runs s (deliverTravel k s) := by
  simp only [deliverTravel]
  split
  · exact fullAdvances_runs _ s
  · exact (fullAdvances_runs _ s).trans (.of (.advance _ _))

theorem fallBack_runs (s : State) : Runs s (fallBack s) := by
  simp only [fallBack]
  refine .trans (.trans (Evolves.runs ?_) (deliverTravel_runs _ _)) (notice_evolves _ _ _).runs
  exact setEnc_evolves _ s rfl

theorem fallbackTest_runs (s : State) : Runs s (fallbackTest s) := by
  simp only [fallbackTest]
  split
  · exact fallBack_runs s
  · exact .refl

theorem encoderReport_runs (e : Encoder) (k : Nat) (s : State) : Runs s (encoderReport e k s) := by
  simp only [encoderReport]
  split
  · exact .refl
  split
  · split
    · exact deliverTravel_runs _ s
    · exact (restartSilence_evolves s).runs.trans (deliverTravel_runs _ _)
  split
  · exact .refl
  · refine .trans (Evolves.runs ?_) (fallbackTest_runs _)
    exact setEnc_evolves _ s rfl

theorem silenceExpiry_runs (s : State) : Runs s (silenceExpiry s) := by
  simp only [silenceExpiry]
  split
  · refine .trans (Evolves.runs ?_) (fallbackTest_runs _)
    refine .trans ?_ (setEnc_evolves _ _ rfl)
    exact reachTime_evolves _ s
  · exact .refl
  · exact .refl

/-! ## Commands -/

theorem encodeFields_eq (fs : List (Nat × Nat)) : encodeFields fs = fields fs := by
  induction fs with
  | nil => rfl
  | cons f fs ih => simp [encodeFields, fields, ih]

/-- The event of a command that is not a request. -/
def fieldEvent : Instr → State → State
  | .powerOn high low stopped => powerOn high low stopped
  | .encoderReport enc tenths => encoderReport enc tenths
  | .silenceTimerExpiry => silenceExpiry
  | .defectBegins => defectBegins
  | .defectEnds => defectEnds
  | .diameterReading i mm => diameterReading i mm
  | .standbyPrepared i => standbyPrepared i
  | .spliceConfirmed i => spliceConfirmed i
  | .spliceTimerExpiry i => spliceTimeout i
  | .webBreak i => webBreak i
  | .jointSensed i => jointSensed i
  | .inPosition x => inPosition x
  | .positioningTimerExpiry x => positioningTimeout x
  | .positionFault x => positionFault x
  | .headFault x g h => headFault { st := x, group := g, head := h }
  | .changeDone lane => changeDone lane
  | .changeTimerExpiry lane => changeTimeout lane
  | .rampTimerExpiry => rampExpiry
  | .positioningEstimateRunout x => estimateRunout x
  | .hotPlateReading t => hotPlateReading t
  | .temperatureAging => temperatureAging
  | .temperatureStale => temperatureStale
  | .emergencyStopActive => emergencyStopActive
  | .emergencyStopReleased => emergencyStopReleased
  | .boardBreak => boardBreak
  | .restTimerExpiry => restExpiry
  | .counterMillisecond => millisecond
  | .frameReceived bytes => rxBytes bytes
  | .gapTimeout => gapTimeout
  | .transmitComplete => transmitComplete
  | .imageWriteSuccess => imageWriteSuccess
  | .imageWriteFailure => imageWriteFailure
  | .falseStart lo hi => rxBytes [Config.startByte, lo, hi]
  | _ => id

theorem fieldEvent_runs (c : Instr) (s : State) : Runs s (fieldEvent c s) := by
  cases c with
  | powerOn high low stopped => exact .of (.power high low stopped s)
  | encoderReport e k => exact encoderReport_runs e k s
  | silenceTimerExpiry => exact silenceExpiry_runs s
  | defectBegins => exact (defectBegins_evolves s).runs
  | defectEnds => exact (defectEnds_evolves s).runs
  | diameterReading i mm => exact (diameterReading_evolves i mm s).runs
  | standbyPrepared i => exact (standbyPrepared_evolves i s).runs
  | spliceConfirmed i => exact (spliceConfirmed_evolves i s).runs
  | spliceTimerExpiry i => exact (spliceTimeout_evolves i s).runs
  | webBreak i => exact (webBreak_evolves i s).runs
  | jointSensed i => exact (jointSensed_evolves i s).runs
  | inPosition x => exact (Evolves.same (by simp [SameBlocks, fieldEvent])).runs
  | positioningTimerExpiry x => exact (positioningTimeout_evolves x s).runs
  | positionFault x => exact (positionFault_evolves x s).runs
  | headFault x g h => exact (headFault_evolves _ s).runs
  | changeDone lane => exact (changeDone_evolves lane s).runs
  | changeTimerExpiry lane => exact (changeTimeout_evolves lane s).runs
  | rampTimerExpiry => exact (Evolves.same (by simp [SameBlocks, fieldEvent])).runs
  | positioningEstimateRunout x => exact (Evolves.same (by simp [SameBlocks, fieldEvent])).runs
  | hotPlateReading t => exact (Evolves.same (by simp [SameBlocks, fieldEvent])).runs
  | temperatureAging => exact (Evolves.same (by simp [SameBlocks, fieldEvent])).runs
  | temperatureStale => exact (Evolves.same (by simp [SameBlocks, fieldEvent])).runs
  | emergencyStopActive => exact (emergencyStopActive_evolves s).runs
  | emergencyStopReleased => exact (Evolves.same (by simp [SameBlocks, fieldEvent])).runs
  | boardBreak => exact (breakCause_evolves _ s).runs
  | restTimerExpiry => exact (Evolves.same (by simp [SameBlocks, fieldEvent])).runs
  | counterMillisecond => exact (millisecond_evolves s).runs
  | frameReceived bytes => exact (rxBytes_evolves bytes s).runs
  | gapTimeout => exact (gapTimeout_evolves s).runs
  | transmitComplete => exact (transmitComplete_evolves s).runs
  | imageWriteSuccess => exact (Evolves.same (by simp [SameBlocks, fieldEvent])).runs
  | imageWriteFailure => exact (imageWriteFailure_evolves s).runs
  | falseStart lo hi => exact (rxBytes_evolves _ s).runs
  | _ => exact .refl

/-- A command that is not a request is its own event. -/
theorem exec_of_no_frame (c : Instr) (s : State) (h : c.frame = none) : exec c s = run (fieldEvent c) s := by
  cases c <;> first | rfl | cases h

@[simp] theorem le_byte (b : Byte) : le 1 b.toNat = [b] := by
  simp [le]

theorem fields_append (fs gs : List (Nat × Nat)) : fields (fs ++ gs) = fields fs ++ fields gs := by
  simp [fields]

/-- A command that is a request is the arrival of its frame (R178). -/
theorem exec_of_frame (c : Instr) (q : Frame) (s : State) (h : c.frame = some q) : exec c s = run (arrive q) s := by
  have sent : ∀ (r : Request) (tag : Byte) (fs : List (Nat × Nat)),
      q = { kind := BitVec.ofNat 8 r.code, tag := tag, payload := fields fs } → request r tag fs s = run (arrive q) s :=
    fun r tag fs e => by rw [e, request, requestFrame, encodeFields_eq]
  cases c with
  | unknownKind kind tag payload =>
    cases h
    rfl
  | _ => cases h <;> exact sent _ _ _ (by simp [fields, Request.code])

theorem run_runs (f : State → State) (h : ∀ s, Runs s (f s)) (s t : State) (e : run f s = .next t) : Runs s t := by
  cases e
  exact ((begin_evolves s).runs.trans (h _)).trans (settle_evolves _).runs

/-- Every step is a course. -/
theorem step_runs (s t : State) (h : step s = .next t) : Runs s t := by
  simp only [step] at h
  split at h
  · rename_i c rest front
    have taken : Runs s { s with pending := rest } := (Evolves.same (by simp [SameBlocks])).runs
    refine taken.trans ?_
    cases frame : c.frame with
    | none => exact run_runs _ (fieldEvent_runs c) _ _ (exec_of_no_frame c _ frame ▸ h)
    | some q => exact run_runs _ (fun u => (arrive_evolves q u).runs) _ _ (exec_of_frame c q _ frame ▸ h)
  · cases h
    exact .refl

end Sys2Proof.Machine
end

