-- ==== Sys2Proof/Proofs/BlockInvariants.lean ====
section
/-! PROOFS. The invariants of the map, the tables, the stands, the stackers, the trims and the counters: each is kept by every change,
by a board advance and by a power-on, so by every step. -/

namespace Sys2Proof.Machine

open Sys2Proof

/-! ## What a change keeps -/

/-- The web map, whose sensor defect has not reached b, and the axis count. -/
def TrackerHolds (b : Nat) (s : State) : Prop := WebHolds b s.web ∧ s.enc.axis < 2 ^ 48

/-- The blocks whose invariants are of one record each, and of the tables and the notices. -/
structure BlocksHold (s t : State) : Prop where
  tables : TablesFit s.sched → TablesFit t.sched
  stands : (∀ i, StandHolds (s.stands.get i)) → ∀ i, StandHolds (t.stands.get i)
  trims : (∀ x, TrimHolds (s.lanes.get x)) → ∀ x, TrimHolds (t.lanes.get x)
  stackers : (∀ x, StackerHolds (s.delivery.get x)) → ∀ x, StackerHolds (t.delivery.get x)
  counters : BankFits s.bank → BankFits t.bank
  notices : NoticesFit s.notices → NoticesFit t.notices

theorem Change.tracker {s t : State} (c : Change s t) (b : Nat) (pos : 0 < b) (h : TrackerHolds b s) : TrackerHolds b t := by
  cases c with
  | same k =>
    obtain ⟨enc, web, _⟩ := k
    simpa [TrackerHolds, enc, web] using h
  | enc _ v k => exact ⟨h.1, k h.2⟩
  | web _ w k => exact ⟨k b pos h.1, h.2⟩
  | prepared i _ p k => simpa [TrackerHolds] using h
  | _ => exact h

/-- A LOADED stand holds as READY with a plan (R55, R56). -/
theorem StandHolds.prepare {st : Stand} {p : SplicePlan} (loaded : st.state = .loaded) (h : StandHolds st) :
    StandHolds { st with state := .ready, plan := some p } := by
  obtain ⟨_, timer, _, reels⟩ := h
  exact ⟨by simp, by simpa [loaded] using timer, by simp, fun _ => reels (by simp [loaded])⟩

/-- A hand-off keeps the counters below 2^40 and the notices in their bounds. -/
theorem handOff_fits (inc : Fin 8 → Counter → Nat) (s : State) : (BankFits s.bank → BankFits (handOff inc s).bank) ∧
    (NoticesFit s.notices → NoticesFit (handOff inc s).notices) := by
  have raised : ∀ frozen : Bool,
      BankFits { counters := s.bank.counters.mapIdx fun i c => c.raise (inc i c), frozen := frozen } := fun frozen i => by
    simpa using Counter.raise_value_lt _ _
  simp only [handOff]
  split
  · exact ⟨id, id⟩
  · split
    · exact ⟨fun _ => by simpa using raised true, NoticesFit.add _ _ _⟩
    · exact ⟨fun _ => raised false, id⟩

theorem setStand_fits (i : Fin 6) (st : Stand) (s : State) : (BankFits s.bank → BankFits (setStand i st s).bank) ∧
    (NoticesFit s.notices → NoticesFit (setStand i st s).notices) := by
  have changed : ∀ u, (BankFits u.bank → BankFits (conditionsChanged u).bank) ∧
      (NoticesFit u.notices → NoticesFit (conditionsChanged u).notices) := fun u => by
    refine ⟨fun h i => ?_, (handOff_fits _ u).2⟩
    simpa [conditionsChanged] using (handOff_fits _ u).1 h i
  simp only [setStand]
  split
  · exact ⟨id, id⟩
  · exact changed ((s.setStands (s.stands.set i st)).setEvalDue (s.evalDue || (s.stands.get i).reading != st.reading))

theorem Change.blocks {s t : State} (c : Change s t) : BlocksHold s t := by
  cases c with
  | same k =>
    obtain ⟨_, _, sched, stands, lanes, delivery, bank, notices⟩ := k
    constructor <;> simp [sched, stands, lanes, delivery, bank, notices]
  | sched _ d k => exact ⟨k, id, id, id, id, id⟩
  | stands _ p k => exact ⟨id, fun h i => k i (h i), id, id, id, id⟩
  | lanes _ p k => exact ⟨id, id, fun h x => k x (h x), id, id, id⟩
  | delivery _ p k => exact ⟨id, id, id, fun h x => k x (h x), id, id⟩
  | bank _ b k => exact ⟨id, id, id, id, k, id⟩
  | notices _ n k => exact ⟨id, id, id, id, id, k⟩
  | prepared i _ p loaded =>
    obtain ⟨bank₁, notices₁⟩ := setStand_fits i { s.stands.get i with state := .ready } s
    obtain ⟨bank₂, notices₂⟩ := setStand_fits i { s.stands.get i with state := .ready, plan := some p }
      (setStand i { s.stands.get i with state := .ready } s)
    refine ⟨by simp, fun h j => ?_, by simp, by simp, bank₂ ∘ bank₁, notices₂ ∘ notices₁⟩
    by_cases e : j = i
    · subst e
      simpa using StandHolds.prepare loaded (h j)
    · simpa [Six.get_set_ne _ _ _ _ e] using h j
  | _ => exact ⟨id, id, id, id, id, id⟩

/-! ## What a chain of changes keeps -/

theorem Evolves.tracker {s t : State} (e : Evolves s t) (b : Nat) (pos : 0 < b) (h : TrackerHolds b s) : TrackerHolds b t := by
  induction e with
  | refl => exact h
  | tail _ c ih => exact c.tracker b pos ih

theorem BlocksHold.refl (s : State) : BlocksHold s s := ⟨id, id, id, id, id, id⟩

theorem BlocksHold.trans {s t u : State} (h : BlocksHold s t) (k : BlocksHold t u) : BlocksHold s u :=
  ⟨k.tables ∘ h.tables, k.stands ∘ h.stands, k.trims ∘ h.trims, k.stackers ∘ h.stackers, k.counters ∘ h.counters,
    k.notices ∘ h.notices⟩

theorem Evolves.blocks {s t : State} (e : Evolves s t) : BlocksHold s t := by
  induction e with
  | refl => exact .refl s
  | tail _ c ih => exact ih.trans c.blocks

/-! ## A board advance -/

/-- A board advance around the two parts that no chain of changes describes, since a sensor defect may come to its limit in
between: the travel of the tracker, and the test of that limit (R9, R19). -/
theorem boardAdvance_evolves (n : Nat) (s : State) : ∃ u v, Evolves s u ∧ Evolves (advanceTracker n u) v ∧
    Evolves (defectLimitTest v) (boardAdvance n s) := by
  refine ⟨restartRest s, removeMarks (advanceStands n (advanceProduced n (advanceTracker n (restartRest s)))),
    .same (by simp [SameBlocks]), ?_, ?_⟩
  · exact ((advanceProduced_evolves _ _).trans (advanceStands_evolves _ _)).trans (removeMarks_evolves _)
  · have arrivals : ∀ x ids t, Evolves t (stationArrivals x ids t) := stationArrivals_evolves
    simp only [boardAdvance]
    refine .trans (.trans (.trans (.trans (.trans (.trans (.trans (.trans (.trans (.trans (.trans (.trans ?_
      (lateAdvance_evolves _ _ _)) (arrivals _ _ _)) (arrivals _ _ _)) (laneAdvance_evolves _ _ _ _ _ _))
      (laneAdvance_evolves _ _ _ _ _ _)) (retireAll_evolves _)) (deliverLane_evolves _ _)) (deliverLane_evolves _ _))
      (startAttempt_evolves _ _)) (restartMark_evolves _)) (allStandTests_evolves _)) (evaluate_evolves _)
    exact lateAdvance_evolves _ _ _

/-- The travel grows positions alike, so the order of the marks stays (R8, R9), and an open sensor defect to its limit (R19). -/
theorem advanceTracker_tracker (n : Nat) (s : State) (h : TrackerHolds 50000 s) : TrackerHolds 50001 (advanceTracker n s) := by
  obtain ⟨⟨count, order, defect, entry⟩, axis⟩ := h
  refine ⟨⟨?_, ?_, ?_, entry⟩, Nat.mod_lt _ (Nat.two_pow_pos 48)⟩
  · simpa [advanceTracker] using count
  · simp only [advanceTracker, State.setWeb_fields, List.pairwise_map]
    refine order.imp fun le => ?_
    simp only [Mark.advance, grown, sat]
    omega
  · intro len
    simp only [advanceTracker, State.setWeb_fields, Option.map_eq_some_iff]
    rintro ⟨old, open_, rfl⟩
    obtain ⟨below, free⟩ := defect old open_
    refine ⟨?_, free⟩
    simp only [open_, defectGrowth, Config.defectLimit]
    omega

/-- A sensor defect that has come to its limit is closed (R19). -/
theorem defectLimitTest_tracker (s : State) (h : TrackerHolds 50001 s) : TrackerHolds 50000 (defectLimitTest s) := by
  obtain ⟨⟨count, order, defect, entry⟩, axis⟩ := (defectLimitTest_evolves s).tracker 50001 (by decide) h
  refine ⟨⟨count, order, fun len open_ => ?_, entry⟩, axis⟩
  obtain ⟨below, free⟩ := defect len open_
  refine ⟨?_, free⟩
  simp only [defectLimitTest] at open_
  split at open_
  · simp [setStuck, closeSensorDefect_defect] at open_
  · rename_i notLimit
    have : len ≠ 50000 := by
      rintro rfl
      exact notLimit open_
    omega

theorem boardAdvance_tracker (n : Nat) (s : State) (h : TrackerHolds 50000 s) : TrackerHolds 50000 (boardAdvance n s) := by
  obtain ⟨u, v, before, between, after⟩ := boardAdvance_evolves n s
  have moved := advanceTracker_tracker n u (before.tracker 50000 (by decide) h)
  exact after.tracker 50000 (by decide) (defectLimitTest_tracker v (between.tracker 50001 (by decide) moved))

theorem boardAdvance_blocks (n : Nat) (s : State) : BlocksHold s (boardAdvance n s) := by
  obtain ⟨u, v, before, between, after⟩ := boardAdvance_evolves n s
  have moved : BlocksHold u (advanceTracker n u) := by constructor <;> simp
  exact (((before.blocks.trans moved).trans between.blocks).trans (defectLimitTest_evolves v).blocks).trans after.blocks

/-! ## A power-on -/

theorem powerOn_evolves (high low stopped : Bool) (s : State) :
    Evolves (powerOnBase (strapRate high low) stopped s) (powerOn high low stopped s) := by
  have outputs : ∀ u, Evolves u (powerOnOutputs u) := fun u => .same (by simp [SameBlocks])
  exact (outputs _).trans (notice_evolves _ _ _)

/-- The tracker as reset and power-on leave it (R23, R188). -/
theorem trackerHolds_fresh {s : State} (web : s.web = State.reset.web) (axis : s.enc.axis = 0) : TrackerHolds 50000 s := by
  simp [TrackerHolds, WebHolds, web, axis, State.reset]

/-- The blocks of a record each, the tables and the notices as reset leaves them. -/
structure Fresh (s : State) : Prop where
  tables : TablesFit s.sched
  stands : ∀ i, StandHolds (s.stands.get i)
  trims : ∀ x, TrimHolds (s.lanes.get x)
  stackers : ∀ x, StackerHolds (s.delivery.get x)
  counters : BankFits s.bank
  notices : NoticesFit s.notices

theorem fresh_of_initial {s : State} (sched : s.sched = State.reset.sched) (stands : s.stands = State.reset.stands)
    (trims : s.lanes.u.trim = 0 ∧ s.lanes.l.trim = 0) (delivery : s.delivery = State.reset.delivery)
    (bank : s.bank = State.reset.bank) (notices : NoticesFit s.notices) : Fresh s where
  tables := by simp [sched, State.reset, TablesFit, Schedule.live]
  stands i := by simp [stands, State.reset, StandHolds, Stand.initial]
  trims x := by cases x <;> simp [TrimHolds, PerLane.get, trims]
  stackers x := by cases x <;> simp [delivery, State.reset, PerLane.get, StackerHolds, DeliveryRec.initial]
  counters i := by simp [bank, State.reset, Counter.initial]
  notices := notices

theorem Fresh.of_blocks {s t : State} (h : Fresh s) (k : BlocksHold s t) : Fresh t :=
  ⟨k.tables h.tables, k.stands h.stands, k.trims h.trims, k.stackers h.stackers, k.counters h.counters, k.notices h.notices⟩

theorem powerOn_fresh (high low stopped : Bool) (s : State) : Fresh (powerOn high low stopped s) :=
  (fresh_of_initial rfl rfl ⟨rfl, rfl⟩ rfl rfl ⟨Nat.zero_le _, Nat.succ_pos _⟩ : Fresh (powerOnBase _ stopped s)).of_blocks
    (powerOn_evolves high low stopped s).blocks

theorem powerOn_tracker (high low stopped : Bool) (s : State) : TrackerHolds 50000 (powerOn high low stopped s) :=
  (powerOn_evolves high low stopped s).tracker 50000 (by decide) (trackerHolds_fresh rfl rfl)

/-! ## Steps -/

theorem step_tracker {s t : State} (h : step s = .next t) : TrackerHolds 50000 s → TrackerHolds 50000 t :=
  (step_runs s t h).keeps (fun _ _ c => c.tracker 50000 (by decide)) boardAdvance_tracker
    fun a b c s _ => powerOn_tracker a b c s

/-- A course keeps the blocks: a chain of changes or a board advance does, and a power-on leaves fresh ones. -/
theorem Runs.blocks {s t : State} (h : Runs s t) : BlocksHold s t := by
  induction h with
  | refl => exact .refl s
  | tail _ course ih =>
    refine ih.trans ?_
    cases course with
    | change c => exact c.blocks
    | advance n s => exact boardAdvance_blocks n _
    | power a b c s =>
      obtain ⟨tables, stands, trims, stackers, counters, notices⟩ := powerOn_fresh a b c ‹_›
      exact ⟨fun _ => tables, fun _ => stands, fun _ => trims, fun _ => stackers, fun _ => counters, fun _ => notices⟩

theorem step_blocks {s t : State} (h : step s = .next t) : BlocksHold s t := (step_runs s t h).blocks

/-! ## The obligations -/

/-- Settles O53: every change keeps the map, and a board advance closes a sensor defect at its limit. -/
theorem stepKeepsMap : Obligations.StepKeepsMap := by
  intro s t holds h
  rw [mapHolds_iff] at holds ⊢
  exact step_tracker h holds

/-- Settles O54. -/
theorem stepKeepsTables : Obligations.StepKeepsTables := by
  intro s t holds h
  rw [tablesHold_iff] at holds ⊢
  exact (step_blocks h).tables holds

/-- Settles O55. -/
theorem stepKeepsStands : Obligations.StepKeepsStands := fun _ _ holds h => (step_blocks h).stands holds

/-- Settles O56. -/
theorem stepKeepsStackersAndTrim : Obligations.StepKeepsStackersAndTrim :=
  ⟨fun _ _ holds h => (step_blocks h).stackers holds, fun _ _ holds h => (step_blocks h).trims holds⟩

end Sys2Proof.Machine
end

