-- ==== Sys2Proof/Proofs/Commands.lean ====
section
/-! PROOFS. Every command is one event; the link and the settings through an event; the invariants at reset. -/

namespace Sys2Proof.Machine

open Sys2Proof

/-! ## Commands as events -/

/-- The event of a command: its frame arrives, or its field input acts. -/
def commandEvent (c : Instr) (s : State) : State :=
  match c.frame with
  | some q => arrive q s
  | none => fieldEvent c s

theorem exec_eq_event (c : Instr) (s : State) : exec c s = .next (event (commandEvent c) s) := by
  cases frame : c.frame with
  | some q => simp only [exec_of_frame c q s frame, run, event, commandEvent, frame]
  | none => simp only [exec_of_no_frame c s frame, run, event, commandEvent, frame]

/-- What holds of the queue's rest holds after a step, when it holds after every event of a command. -/
theorem step_keeps {p : State → Prop} (popped : ∀ s rest, p s → p { s with pending := rest })
    (kept : ∀ c s, p s → p (event (commandEvent c) s)) {s t : State} (h : step s = .next t) (hs : p s) : p t := by
  simp only [step] at h
  split at h
  · rw [exec_eq_event] at h
    cases h
    exact kept _ _ (popped s _ hs)
  · cases h
    exact hs

theorem fieldEvent_pending (c : Instr) (s : State) : (fieldEvent c s).pending = s.pending := by
  cases c with
  | powerOn high low stopped => rfl
  | _ => simp [fieldEvent]

theorem commandEvent_pending (c : Instr) (s : State) : (commandEvent c s).pending = s.pending := by
  simp only [commandEvent]
  split
  · simp
  · exact fieldEvent_pending c s

/-- Settles O1. -/
theorem stepRunsFrontCommand : Obligations.StepRunsFrontCommand := fun c rest s h => by
  simp only [step, h]

/-- Settles O2: every command is one event, and an event ends with no evaluation due. -/
theorem everyStepGoesOn : Obligations.EveryStepGoesOn := by
  refine ⟨fun s h => by simp only [step, h], fun c s => ⟨_, exec_eq_event c s, ?_, settle_evalDue _⟩⟩
  simp [event, commandEvent_pending]

/-! ## The link -/

/-- The link within an event: at most four frames wait, only behind a reply, and a reply is sent only out of its buffer. -/
def LinkWaits (k : Link) : Prop :=
  k.rxQueue.length ≤ 4 ∧ (k.reply = none → k.rxQueue = []) ∧ (k.tx = .reply → k.reply.isSome)

theorem linkHolds_iff (s : State) : LinkHolds s ↔ LinkWaits s.link ∧ NoticesFit s.notices ∧
    (s.link.tx = .free → s.link.reply = none ∧ s.notices.queue = []) := by
  simp only [LinkHolds, LinkWaits, NoticesFit]
  tauto

theorem takeFrame_link (q : Frame) (s : State) : ∃ f, (takeFrame q s).link = { s.link with reply := some f } :=
  ⟨{ kind := (answerFrame q s).2.1, tag := q.tag, payload := (answerFrame q s).2.2 }, by simp [takeFrame]⟩

theorem takeOldest_waits (s : State) (few : s.link.rxQueue.length ≤ 4) (sent : s.link.tx = .reply → s.link.reply.isSome) :
    LinkWaits (takeOldest s).link := by
  simp only [takeOldest]
  split
  · rename_i q rest reply queue
    obtain ⟨f, e⟩ := takeFrame_link q (s.setLink { s.link with rxQueue := rest })
    rw [e]
    simp only [queue, List.length_cons] at few
    exact ⟨by simpa using Nat.le_of_succ_le few, by simp, by simp⟩
  · rename_i taken
    refine ⟨few, fun reply => ?_, sent⟩
    cases queue : s.link.rxQueue with
    | nil => rfl
    | cons q rest => exact (taken q rest reply queue).elim

theorem arrive_waits (q : Frame) (s : State) (h : LinkWaits s.link) : LinkWaits (arrive q s).link := by
  obtain ⟨few, waits, sent⟩ := h
  simp only [arrive]
  split
  · rename_i room
    refine takeOldest_waits _ ?_ sent
    simp only [State.setLink_fields, List.length_append, List.length_singleton]
    exact room
  · exact ⟨by simpa using few, by simpa using waits, by simpa using sent⟩

theorem setRx_waits (r : Receiver) (s : State) (h : LinkWaits s.link) : LinkWaits (setRx r s).link := h

theorem checkFrame_waits (taken : List Byte) (len : Nat) (s : State) (h : LinkWaits s.link) :
    LinkWaits (checkFrame taken len s).link := by
  simp only [checkFrame]
  split
  · exact arrive_waits _ _ (setRx_waits _ _ h)
  · simpa [LinkWaits, setRx] using h

theorem rxByte_waits (b : Byte) (s : State) (h : LinkWaits s.link) : LinkWaits (rxByte b s).link := by
  simp only [rxByte]
  split
  · split
    · exact setRx_waits _ _ h
    · exact h
  · split
    · exact setRx_waits _ _ h
    · split
      · exact checkFrame_waits _ _ _ h
      · exact setRx_waits _ _ h

theorem rxBytes_waits (bs : List Byte) : ∀ s : State, LinkWaits s.link → LinkWaits (rxBytes bs s).link := by
  induction bs with
  | nil => exact fun s h => h
  | cons b bs ih => exact fun s h => ih _ (rxByte_waits b s h)

theorem gapTimeout_waits (s : State) (h : LinkWaits s.link) : LinkWaits (gapTimeout s).link := by
  simp only [gapTimeout]
  split
  · simpa [LinkWaits, setRx] using h
  · exact h

theorem transmitComplete_waits (s : State) (h : LinkWaits s.link) : LinkWaits (transmitComplete s).link := by
  obtain ⟨few, waits, sent⟩ := h
  simp only [transmitComplete]
  split
  · exact ⟨few, waits, sent⟩
  · exact ⟨few, waits, by simp⟩
  · exact takeOldest_waits _ few (by simp)

theorem commandEvent_waits (c : Instr) (s : State) (h : LinkWaits s.link) : LinkWaits (commandEvent c s).link := by
  simp only [commandEvent]
  split
  · exact arrive_waits _ _ h
  · cases c with
    | powerOn high low stopped => simp [fieldEvent, powerOn, startUpNotice, LinkWaits, powerOnBase, State.reset]
    | frameReceived bytes => exact rxBytes_waits bytes s h
    | falseStart lo hi => exact rxBytes_waits _ s h
    | gapTimeout => exact gapTimeout_waits s h
    | transmitComplete => exact transmitComplete_waits s h
    | _ => simpa [fieldEvent] using h

/-- A free transmitter starts a frame that waits (R182). -/
theorem arbitrate_holds (s : State) (link : LinkWaits s.link) (notices : NoticesFit s.notices) : LinkHolds (arbitrate s) := by
  have fits := (arbitrate_evolves s).blocks.notices notices
  obtain ⟨few, waits, sent⟩ := link
  refine (linkHolds_iff _).mpr ⟨?_, fits, ?_⟩
  · simp only [arbitrate]
    split
    · split
      · rename_i reply _
        exact ⟨few, waits, fun _ => by simp [sendReply, reply]⟩
      · exact ⟨few, waits, by simp [sendNotice]⟩
      · rename_i reply _
        split
        · exact ⟨few, waits, by simp [sendNotice]⟩
        · exact ⟨few, waits, fun _ => by simp [sendReply, reply]⟩
      · exact ⟨few, waits, sent⟩
    · exact ⟨few, waits, sent⟩
    · exact ⟨few, waits, sent⟩
  · simp only [arbitrate]
    split
    · split
      · simp [sendReply]
      · simp [sendNotice]
      · split <;> simp [sendReply, sendNotice]
      · rename_i reply queue
        exact fun _ => ⟨reply, queue⟩
    · rename_i tx
      simp [tx]
    · rename_i tx
      simp [tx]

theorem settle_holds (s : State) (link : LinkWaits s.link) (notices : NoticesFit s.notices) : LinkHolds (settle s) := by
  simp only [settle]
  split
  · exact arbitrate_holds _ (by simpa using link) ((evaluate_evolves s).blocks.notices notices)
  · exact arbitrate_holds s link notices

theorem commandEvent_runs (c : Instr) (s : State) : Runs s (commandEvent c s) := by
  simp only [commandEvent]
  split
  · exact (arrive_evolves _ s).runs
  · exact fieldEvent_runs c s

/-- Settles O58: within an event frames wait only behind a reply, and its close starts what waits; a counter takes every value
modulo 2^40. -/
theorem stepKeepsLinkAndCounters : Obligations.StepKeepsLinkAndCounters := by
  refine ⟨fun s t holds h => ?_, fun s t holds h => (step_blocks h).counters holds⟩
  refine step_keeps (p := LinkHolds) (fun _ _ h => h) (fun c s h => ?_) h holds
  obtain ⟨link, notices, _⟩ := (linkHolds_iff s).mp h
  have begun : NoticesFit (begin s).notices := by simpa using notices
  exact settle_holds _ (commandEvent_waits c _ (by simpa using link)) ((commandEvent_runs c _).blocks.notices begun)

/-! ## The settings -/

/-- A set that is valid with live setups is valid without any (R34, R186). -/
theorem validSettings_nil {c : Settings} {planned : List Nat} (h : validSettings c planned = true) :
    validSettings c [] = true := by
  simp only [validSettings, crossChecks, geometryChecks, List.all_append, List.all_cons, List.all_nil, Bool.and_eq_true] at h ⊢
  tauto

theorem takeWrite_cfg (items : List (Item × Nat)) (s : State) : (takeWrite items s).cfg = written s.cfg items := by
  simp only [takeWrite]
  (repeat' split) <;> simp

/-- SETTINGS_WRITE leaves the settings, or replaces them by a valid set (R186). -/
theorem settingsWrite_valid (entries : List (Nat × Nat)) (s : State) (h : SettingsHold s) :
    SettingsHold (settingsWrite entries s).1 := by
  simp only [settingsWrite]
  split
  · exact h
  split
  · exact h
  split
  · exact h
  split
  · exact h
  · rename_i noFailure
    rw [SettingsHold, takeWrite_cfg]
    refine validSettings_nil (planned := plannedLengths s) ?_
    simpa [validSettings] using noFailure

theorem perform_cfg (r : Request) (v : List Nat) (s : State) (h : r ≠ .settingsWrite) : (perform r v s).1.cfg = s.cfg := by
  cases r with
  | settingsWrite => exact absurd rfl h
  | _ => simp [perform]

theorem perform_valid (r : Request) (v : List Nat) (s : State) (h : SettingsHold s) : SettingsHold (perform r v s).1 := by
  by_cases e : r = .settingsWrite
  · subst e
    exact settingsWrite_valid _ s h
  · rwa [SettingsHold, perform_cfg r v s e]

theorem takeFrame_valid (q : Frame) (s : State) (h : SettingsHold s) : SettingsHold (takeFrame q s) := by
  simp only [takeFrame, answerFrame]
  split
  · exact h
  · split
    · simpa [SettingsHold] using perform_valid _ _ s h
    · exact h

theorem takeOldest_valid (s : State) (h : SettingsHold s) : SettingsHold (takeOldest s) := by
  simp only [takeOldest]
  split
  · exact takeFrame_valid _ _ h
  · exact h

theorem arrive_valid (q : Frame) (s : State) (h : SettingsHold s) : SettingsHold (arrive q s) := by
  simp only [arrive]
  split
  · exact takeOldest_valid _ h
  · simpa [SettingsHold] using h

theorem rxByte_valid (b : Byte) (s : State) (h : SettingsHold s) : SettingsHold (rxByte b s) := by
  simp only [rxByte]
  split
  · split
    · exact h
    · exact h
  · split
    · exact h
    · split
      · simp only [checkFrame]
        split
        · exact arrive_valid _ _ h
        · simpa [SettingsHold] using h
      · exact h

theorem rxBytes_valid (bs : List Byte) : ∀ s : State, SettingsHold s → SettingsHold (rxBytes bs s) := by
  induction bs with
  | nil => exact fun s h => h
  | cons b bs ih => exact fun s h => ih _ (rxByte_valid b s h)

theorem transmitComplete_valid (s : State) (h : SettingsHold s) : SettingsHold (transmitComplete s) := by
  simp only [transmitComplete]
  split
  · exact h
  · exact h
  · exact takeOldest_valid _ h

theorem default_valid : validSettings Settings.default [] = true := by decide +kernel

/-- Power-on loads a valid image, or the default settings (R188). -/
theorem powerOn_valid (high low stopped : Bool) (s : State) : SettingsHold (powerOn high low stopped s) := by
  have cfg : (powerOn high low stopped s).cfg = ((loadedImage s).map ImageContent.cfg).getD Settings.default := rfl
  rw [SettingsHold, cfg]
  cases image : loadedImage s with
  | none => exact default_valid
  | some c =>
    simp only [loadedImage, Option.bind_eq_some_iff] at image
    obtain ⟨m, _, loaded⟩ := image
    split at loaded
    · rename_i valid
      cases loaded
      simp only [StoredImage.isValid, Bool.and_eq_true] at valid
      exact valid.2
    · cases loaded

theorem commandEvent_valid (c : Instr) (s : State) (h : SettingsHold s) : SettingsHold (commandEvent c s) := by
  simp only [commandEvent]
  split
  · exact arrive_valid _ _ h
  · cases c with
    | powerOn high low stopped => exact powerOn_valid high low stopped s
    | frameReceived bytes => exact rxBytes_valid bytes s h
    | falseStart lo hi => exact rxBytes_valid _ s h
    | transmitComplete => exact transmitComplete_valid s h
    | _ => simpa [fieldEvent, SettingsHold] using h

/-- Settles O59: only an accepted SETTINGS_WRITE and a power-on replace the settings, both by a valid set. -/
theorem stepKeepsSettingsValid : Obligations.StepKeepsSettingsValid := by
  intro s t holds h
  refine step_keeps (p := SettingsHold) (fun _ _ h => h) (fun c s h => ?_) h holds
  simpa [event, SettingsHold] using commandEvent_valid c (begin s) (by simpa [SettingsHold] using h)

/-! ## Reset -/

/-- Settles O60: reset leaves empty tables, idle records and a reference at rest. -/
theorem invariantsHoldAtReset : Obligations.InvariantsHoldAtReset := by
  have fresh : Fresh State.reset := fresh_of_initial rfl rfl ⟨rfl, rfl⟩ rfl rfl (by simp [NoticesFit, State.reset])
  refine ⟨(mapHolds_iff _).mpr (trackerHolds_fresh rfl rfl), (tablesHold_iff _).mpr fresh.tables, fresh.stands,
    fresh.stackers, fresh.trims, ?_, ?_, fresh.counters, default_valid⟩
  · simp [ReferenceHolds, State.reset]
  · simp [LinkHolds, State.reset]

end Sys2Proof.Machine
end

