-- ==== Sys2Proof/Proofs/Reference.lean ====
section
/-! PROOFS. The governor: the least active limiter, the reference after an evaluation, and its bounds through every event. -/

namespace Sys2Proof.Machine

open Sys2Proof

/-! ## The binding limiter -/

/-- r is what a search through ms finds that holds best so far: no active member is less, and r is the best so far or the first that
is less than everything before it (R135). -/
def FirstLeast (best r : Family × Nat × Nat) (ms : List (Family × Nat × Option Nat)) : Prop :=
  r.2.2 ≤ best.2.2 ∧ (∀ f m v, (f, m, some v) ∈ ms → r.2.2 ≤ v) ∧
    (r = best ∨ r.2.2 < best.2.2 ∧ ∃ before after, ms = before ++ (r.1, r.2.1, some r.2.2) :: after ∧
      ∀ f m v, (f, m, some v) ∈ before → r.2.2 < v)

section

variable {best r : Family × Nat × Nat} {ms : List (Family × Nat × Option Nat)} {f : Family} {m v : Nat}

theorem FirstLeast.skip (h : FirstLeast best r ms) : FirstLeast best r ((f, m, none) :: ms) := by
  obtain ⟨le, least, found⟩ := h
  refine ⟨le, by simpa using least, ?_⟩
  rcases found with same | ⟨less, before, after, e, above⟩
  · exact .inl same
  · exact .inr ⟨less, (f, m, none) :: before, after, congrArg _ e, by simpa using above⟩

theorem FirstLeast.keep (notLess : best.2.2 ≤ v) (h : FirstLeast best r ms) : FirstLeast best r ((f, m, some v) :: ms) := by
  obtain ⟨le, least, found⟩ := h
  refine ⟨le, fun f' m' w h => ?_, ?_⟩
  · rcases List.mem_cons.mp h with h | h
    · cases h
      exact le.trans notLess
    · exact least f' m' w h
  · rcases found with same | ⟨less, before, after, e, above⟩
    · exact .inl same
    · refine .inr ⟨less, (f, m, some v) :: before, after, congrArg _ e, fun f' m' w h => ?_⟩
      rcases List.mem_cons.mp h with h | h
      · cases h
        exact less.trans_le notLess
      · exact above f' m' w h

theorem FirstLeast.take (less : v < best.2.2) (h : FirstLeast (f, m, v) r ms) : FirstLeast best r ((f, m, some v) :: ms) := by
  obtain ⟨le, least, found⟩ := h
  refine ⟨le.trans less.le, fun f' m' w h => ?_, .inr ⟨lt_of_le_of_lt le less, ?_⟩⟩
  · rcases List.mem_cons.mp h with h | h
    · cases h
      exact le
    · exact least f' m' w h
  · rcases found with rfl | ⟨below, before, after, e, above⟩
    · exact ⟨[], ms, rfl, by simp⟩
    · refine ⟨(f, m, some v) :: before, after, congrArg _ e, fun f' m' w h => ?_⟩
      rcases List.mem_cons.mp h with h | h
      · cases h
        exact below
      · exact above f' m' w h

end

theorem firstLeast_spec (ms : List (Family × Nat × Option Nat)) : ∀ best, FirstLeast best (firstLeast best ms) ms := by
  induction ms with
  | nil => exact fun best => ⟨le_rfl, by simp, .inl rfl⟩
  | cons x xs ih =>
    obtain ⟨f, m, value⟩ := x
    intro best
    cases value with
    | none => exact (ih best).skip
    | some v =>
      simp only [firstLeast]
      split
      · rename_i less
        exact (ih _).take less
      · rename_i notLess
        exact (ih _).keep (Nat.le_of_not_lt notLess)

/-- The ceiling is the least active limiter, and the binding limiter the first member that holds it (R135). -/
theorem binding_spec (l : Limits) : (∀ f m v, (f, m, some v) ∈ l.members → l.binding.2.2 ≤ v) ∧
    ∃ before after, l.members = before ++ (l.binding.1, l.binding.2.1, some l.binding.2.2) :: after ∧
      ∀ f m v, (f, m, some v) ∈ before → l.binding.2.2 < v := by
  have lineMax : (Family.lineMax, 0, some l.lineMax) ∈ l.members := by simp [Limits.members]
  cases first : l.members.find? fun m => m.2.2.isSome with
  | none => exact absurd (List.find?_eq_none.mp first _ lineMax) (by simp)
  | some x =>
    obtain ⟨active, before, after, e, inactive⟩ := List.find?_eq_some_iff_append.mp first
    obtain ⟨f, m, value⟩ := x
    cases value with
    | none => simp at active
    | some v =>
      have binding : l.binding = firstLeast (f, m, v) l.members := by simp only [Limits.binding, first]
      obtain ⟨_, least, found⟩ := firstLeast_spec l.members (f, m, v)
      rw [binding]
      refine ⟨least, ?_⟩
      rcases found with same | ⟨_, found⟩
      · rw [same]
        exact ⟨before, after, e, fun f' m' w h => by simpa using inactive _ h⟩
      · exact found

theorem members_demand (s : State) : (Family.demand, 0, some s.gov.demand) ∈ (computeLimits s).members := by
  simp [Limits.members, computeLimits]

theorem members_lineMax (s : State) : (Family.lineMax, 0, some s.cfg.lineMax) ∈ (computeLimits s).members := by
  simp [Limits.members, computeLimits]

/-! ## The moved reference -/

/-- What evaluations keep of the reference: the hold follows the input, and a falling segment lies at or below it (R138, R140). -/
def FallsBelow (s : State) : Prop :=
  s.gov.hold = s.emergencyStop ∧ ∀ q, s.gov.segment = some q → q.dir = .falling →
    q.startRef - q.rate * (s.now - q.startTime) / 1000 ≤ s.gov.reference

/-- The reference after R139's cuts. -/
theorem cutReference_cases (s : State) :
    (s.gov.hold = true ∧ cutReference s = (0, none)) ∨
    (s.gov.hold = false ∧ min s.gov.demand s.cfg.lineMax < s.gov.reference ∧
      cutReference s = (min s.gov.demand s.cfg.lineMax, none)) ∨
    (s.gov.hold = false ∧ s.gov.reference ≤ min s.gov.demand s.cfg.lineMax ∧
      cutReference s = (s.gov.reference, s.gov.segment)) := by
  simp only [cutReference]
  cases hold : s.gov.hold
  · by_cases cut : min s.gov.demand s.cfg.lineMax < s.gov.reference
    · exact .inr (.inl ⟨rfl, cut, by simp [cut]⟩)
    · exact .inr (.inr ⟨rfl, Nat.le_of_not_lt cut, by simp [cut]⟩)
  · exact .inl ⟨rfl, by simp⟩

/-- A segment's reach never passes the ceiling upward, and stays between ceiling and start downward (R138). -/
theorem Segment.reached_bounds (g : Segment) (now ceiling : Nat) :
    (g.dir = .rising → g.reached now ceiling ≤ ceiling) ∧
    (g.dir = .falling → g.reached now ceiling = max ceiling (g.startRef - g.rate * (now - g.startTime) / 1000)) := by
  simp only [Segment.reached]
  cases g.dir <;> simp

/-- Where a segment has been left falling, it lies at or below the reference (R138). -/
abbrev FallsTo (s : State) (v : Nat) (g : Option Segment) : Prop :=
  ∀ q, g = some q → q.dir = .falling → q.startRef - q.rate * (s.now - q.startTime) / 1000 ≤ v

theorem fallsTo_none (s : State) (v : Nat) : FallsTo s v none := by simp [FallsTo]

/-- The reference stays as it was cut, at the ceiling or under a fresh segment, or follows its segment (R138). -/
theorem movedReference_cases (s : State) :
    movedReference s = ((cutReference s).1, (if s.gov.hold = true then (cutReference s).2 else none)) ∨
    (∃ d, movedReference s = ((cutReference s).1,
      some { dir := d, rate := rateInForce s d, startRef := (cutReference s).1, startTime := s.now })) ∨
    ∃ q, (cutReference s).2 = some q ∧ movedReference s = (q.reached s.now s.gov.ceiling,
      if q.reached s.now s.gov.ceiling = s.gov.ceiling then none else some q) := by
  unfold movedReference
  extract_lets g c dir fresh
  clear_value dir
  by_cases hold : g.hold = true
  · exact .inl (by simp [g, c] at hold ⊢; simp [hold])
  · rw [if_neg hold]
    by_cases there : c.1 = g.ceiling
    · rw [if_pos there]
      exact .inl (by simp [g] at hold; simp [c, hold])
    · rw [if_neg there]
      cases segment : c.2 with
      | none => exact .inr (.inl ⟨dir, rfl⟩)
      | some q =>
        dsimp only
        by_cases same : q.dir = dir ∧ q.rate = fresh.rate
        · exact .inr (.inr ⟨q, rfl, by rw [if_pos same]⟩)
        · exact .inr (.inl ⟨dir, by rw [if_neg same]⟩)

/-- A move from a reference within DEMAND and LINE_MAX to a ceiling within them stays within them (R134, R138, R139). -/
theorem movedReference_bounds (s : State) (below : FallsBelow s) (demand : s.gov.ceiling ≤ s.gov.demand)
    (lineMax : s.gov.ceiling ≤ s.cfg.lineMax) :
    (movedReference s).1 ≤ min s.gov.demand s.cfg.lineMax ∧ (s.gov.hold = true → (movedReference s).1 = 0) ∧
      FallsTo s (movedReference s).1 (movedReference s).2 := by
  have ceiling : s.gov.ceiling ≤ min s.gov.demand s.cfg.lineMax := Nat.le_min.mpr ⟨demand, lineMax⟩
  have cut : (cutReference s).1 ≤ min s.gov.demand s.cfg.lineMax ∧ (s.gov.hold = true → cutReference s = (0, none)) ∧
      FallsTo s (cutReference s).1 (cutReference s).2 := by
    rcases cutReference_cases s with ⟨_, e⟩ | ⟨hold, _, e⟩ | ⟨hold, le, e⟩ <;> rw [e]
    · exact ⟨Nat.zero_le _, fun _ => rfl, fallsTo_none _ _⟩
    · exact ⟨le_rfl, by simp [hold], fallsTo_none _ _⟩
    · exact ⟨le, by simp [hold], below.2⟩
  obtain ⟨cut, stopped, falls⟩ := cut
  refine ⟨?_, fun hold => by simp [movedReference, hold, stopped hold], ?_⟩
  · rcases movedReference_cases s with e | ⟨d, e⟩ | ⟨q, segment, e⟩ <;> rw [e]
    · exact cut
    · exact cut
    · obtain ⟨rising, falling⟩ := q.reached_bounds s.now s.gov.ceiling
      cases dir : q.dir with
      | rising => exact (rising dir).trans ceiling
      | falling =>
        simp only [falling dir]
        exact Nat.max_le.mpr ⟨ceiling, (falls q segment dir).trans cut⟩
  · rcases movedReference_cases s with e | ⟨d, e⟩ | ⟨q, segment, e⟩ <;> rw [e]
    · split
      · exact falls
      · exact fallsTo_none _ _
    · intro p e _
      cases e
      exact Nat.sub_le _ _
    · dsimp only
      split
      · exact fallsTo_none _ _
      · intro p e dir
        cases e
        rw [(q.reached_bounds s.now s.gov.ceiling).2 dir]
        exact Nat.le_max_right _ _

/-- An evaluation brings the reference within its bounds, whatever DEMAND, LINE_MAX and the hold have become (R139, R140). -/
theorem evaluate_holds (s : State) (h : FallsBelow s) : ReferenceHolds (evaluate s) := by
  obtain ⟨reference, segment, demand, hold, _⟩ := evaluate_reference s
  obtain ⟨ref, seg, dem, hld, ceil⟩ := takeLimits_inputs s
  have least := (binding_spec (computeLimits s)).1
  have below : FallsBelow (takeLimits s) := by simpa [FallsBelow, ref, seg, hld] using h
  obtain ⟨bound, stopped, falls⟩ := movedReference_bounds (takeLimits s) below
    (by rw [ceil, dem]; exact least _ _ _ (members_demand s))
    (by rw [ceil]; simpa using least _ _ _ (members_lineMax s))
  rw [← reference] at bound stopped falls
  rw [← segment] at falls
  simp only [dem, takeLimits_frame, Nat.le_min] at bound
  refine ⟨demand ▸ bound.1, by simpa using bound.2, ?_, ?_, ?_⟩
  · simpa [hold] using h.1
  · rw [hold, ← hld]
    exact stopped
  · simpa [FallsTo] using falls

theorem ReferenceHolds.fallsBelow {s : State} (h : ReferenceHolds s) : FallsBelow s := ⟨h.2.2.1, h.2.2.2.2⟩

/-! ## The reference through an event -/

/-- The inputs of the reference's bounds that a later time base alone changes. -/
def SameReference (s t : State) : Prop :=
  t.gov.reference = s.gov.reference ∧ t.gov.demand = s.gov.demand ∧ t.gov.hold = s.gov.hold ∧
    t.gov.segment = s.gov.segment ∧ t.emergencyStop = s.emergencyStop ∧ s.now ≤ t.now

/-- A falling segment falls on with the time (R138). -/
theorem FallsBelow.of_same {s t : State} (k : SameReference s t) (h : FallsBelow s) : FallsBelow t := by
  obtain ⟨reference, _, hold, segment, stop, now⟩ := k
  refine ⟨by rw [hold, stop]; exact h.1, fun q e dir => ?_⟩
  rw [reference]
  refine le_trans (Nat.sub_le_sub_left (Nat.div_le_div_right (Nat.mul_le_mul_left _ ?_)) _) (h.2 q (segment ▸ e) dir)
  exact Nat.sub_le_sub_right now _

theorem ReferenceHolds.of_same {s t : State} (k : SameReference s t) (lineMax : t.cfg.lineMax = s.cfg.lineMax)
    (h : ReferenceHolds s) : ReferenceHolds t := by
  obtain ⟨stop, falls⟩ := h.fallsBelow.of_same k
  obtain ⟨reference, demand, hold, _⟩ := k
  obtain ⟨le, leMax, _, stopped, _⟩ := h
  exact ⟨by rwa [reference, demand], by rwa [reference, lineMax], stop, by rwa [hold, reference], falls⟩

/-- Within an event the bounds hold, or an evaluation that restores them is due at its close (R136). -/
def ReferenceDue (s : State) : Prop := FallsBelow s ∧ (ReferenceHolds s ∨ s.evalDue = true)

theorem ReferenceHolds.due {s : State} (h : ReferenceHolds s) : ReferenceDue s := ⟨h.fallsBelow, .inl h⟩

theorem settle_reference (s : State) (h : ReferenceDue s) : ReferenceHolds (settle s) := by
  obtain ⟨below, holds | due⟩ := h
  · by_cases due : s.evalDue = true
    · have e := evaluate_holds s below
      simp only [settle, due, if_true]
      exact e.of_same (by simp [SameReference]) (by simp)
    · simp only [settle, due]
      exact holds.of_same (by simp [SameReference]) (by simp)
  · have e := evaluate_holds s below
    simp only [settle, due, if_true]
    exact e.of_same (by simp [SameReference]) (by simp)

/-- A board advance ends in an evaluation of a state with the governor's inputs as they were (log 1). -/
theorem boardAdvance_eq_evaluate (n : Nat) (s : State) : ∃ u, boardAdvance n s = evaluate u ∧ u.gov = s.gov ∧
    u.cfg = s.cfg ∧ u.now = s.now ∧ u.emergencyStop = s.emergencyStop := by
  refine ⟨_, by simp only [boardAdvance]; rfl, ?_⟩
  simp

theorem boardAdvance_reference (n : Nat) (s : State) (h : ReferenceHolds s) : ReferenceHolds (boardAdvance n s) := by
  obtain ⟨u, e, gov, cfg, now, stop⟩ := boardAdvance_eq_evaluate n s
  rw [e]
  exact evaluate_holds u (h.fallsBelow.of_same (by simp [SameReference, gov, now, stop]))

theorem fullAdvances_reference (k : Nat) : ∀ s : State, ReferenceHolds s → ReferenceHolds (fullAdvances k s) := by
  induction k with
  | zero => exact fun s h => h
  | succ k ih => exact fun s h => ih _ (boardAdvance_reference _ s h)

theorem deliverTravel_reference (k : Nat) (s : State) (h : ReferenceHolds s) : ReferenceHolds (deliverTravel k s) := by
  simp only [deliverTravel]
  split
  · exact fullAdvances_reference _ s h
  · exact boardAdvance_reference _ _ (fullAdvances_reference _ s h)

theorem fallBack_reference (s : State) (h : ReferenceHolds s) : ReferenceHolds (fallBack s) := by
  simp only [fallBack]
  refine .of_same ?_ ?_ (deliverTravel_reference s.enc.secondarySum (s.setEnc { s.enc with
    selected := s.enc.selected.other, fallback := true, silence := .stopped }) (h.of_same (by simp [SameReference]) rfl))
  · simp [SameReference]
  · simp

theorem fallbackTest_reference (s : State) (h : ReferenceHolds s) : ReferenceHolds (fallbackTest s) := by
  simp only [fallbackTest]
  split
  · exact fallBack_reference s h
  · exact h

theorem encoderReport_reference (e : Encoder) (k : Nat) (s : State) (h : ReferenceHolds s) :
    ReferenceHolds (encoderReport e k s) := by
  simp only [encoderReport]
  split
  · exact h
  split
  · split
    · exact deliverTravel_reference k s h
    · exact deliverTravel_reference k _ (h.of_same (by simp [SameReference]) (by simp))
  split
  · exact h
  · exact fallbackTest_reference _ (h.of_same (by simp [SameReference]) rfl)

theorem silenceExpiry_reference (s : State) (h : ReferenceHolds s) : ReferenceHolds (silenceExpiry s) := by
  simp only [silenceExpiry]
  split
  · refine fallbackTest_reference _ (.of_same ?_ ?_ h) <;> simp [SameReference, reachTime]
  · exact h
  · exact h

/-! ### Settings and requests -/

/-- An item that the governor does not read leaves LINE_MAX (R136). -/
theorem Item.write_lineMax (it : Item) (v : Nat) (c : Settings) (h : it.governorReads = false) :
    (it.write v c).lineMax = c.lineMax := by
  cases it with
  | governor k => simp [Item.governorReads] at h
  | _ => rfl

theorem written_lineMax (items : List (Item × Nat)) (c : Settings) (h : (items.any fun e => e.1.governorReads) = false) :
    (written c items).lineMax = c.lineMax := by
  induction items generalizing c with
  | nil => rfl
  | cons e items ih =>
    simp only [List.any_cons, Bool.or_eq_false_iff] at h
    exact (ih _ h.2).trans (e.1.write_lineMax e.2 c h.1)

/-- A write of an item that the governor reads asks for an evaluation (R136). -/
theorem takeWrite_due (items : List (Item × Nat)) (s : State) (h : ReferenceHolds s) : ReferenceDue (takeWrite items s) := by
  have same : SameReference s (takeWrite items s) := by simp [SameReference]
  refine ⟨h.fallsBelow.of_same same, ?_⟩
  cases reads : items.any fun e => e.1.governorReads with
  | true => exact .inr (by simp only [takeWrite, reads, if_true, needEvaluation_evalDue])
  | false => exact .inl (h.of_same same (by rw [takeWrite_cfg, written_lineMax _ _ reads]))

theorem settingsWrite_due (entries : List (Nat × Nat)) (s : State) (h : ReferenceHolds s) :
    ReferenceDue (settingsWrite entries s).1 := by
  simp only [settingsWrite]
  split
  · exact h.due
  split
  · exact h.due
  split
  · exact h.due
  split
  · exact h.due
  · exact takeWrite_due _ s h

theorem perform_gov (r : Request) (v : List Nat) (s : State) (h : r ≠ .speedDemand) : (perform r v s).1.gov = s.gov := by
  cases r with
  | speedDemand => exact absurd rfl h
  | _ => simp [perform]

theorem perform_due (r : Request) (v : List Nat) (s : State) (h : ReferenceHolds s) : ReferenceDue (perform r v s).1 := by
  by_cases write : r = .settingsWrite
  · subst write
    exact settingsWrite_due _ s h
  by_cases demand : r = .speedDemand
  · subst demand
    exact ⟨h.fallsBelow, .inr rfl⟩
  · exact (h.of_same (by simp [SameReference, perform_gov r v s demand]) (by rw [perform_cfg r v s write])).due

theorem ReferenceDue.of_same {s t : State} (k : SameReference s t) (lineMax : t.cfg.lineMax = s.cfg.lineMax)
    (due : t.evalDue = s.evalDue) (h : ReferenceDue s) : ReferenceDue t :=
  ⟨h.1.of_same k, h.2.imp (fun holds => holds.of_same k lineMax) fun e => due ▸ e⟩

/-- While frames may still be taken in an event the bounds hold; after one was taken its reply keeps every other waiting (R179). -/
def ReferenceMeanwhile (s : State) : Prop := ReferenceDue s ∧ (ReferenceHolds s ∨ s.link.reply.isSome)

theorem takeFrame_meanwhile (q : Frame) (s : State) (h : ReferenceHolds s) : ReferenceMeanwhile (takeFrame q s) := by
  obtain ⟨f, link⟩ := takeFrame_link q s
  refine ⟨?_, .inr (by simp [link])⟩
  simp only [takeFrame, answerFrame]
  split
  · exact h.due
  · rename_i r _
    split
    · have due := perform_due r (decodeFields (r.widths q.payload) q.payload) s h
      refine .of_same ?_ ?_ ?_ due <;> simp [SameReference]
    · exact h.due

theorem takeOldest_meanwhile (s : State) (h : ReferenceMeanwhile s) : ReferenceMeanwhile (takeOldest s) := by
  obtain ⟨due, holds⟩ := h
  simp only [takeOldest]
  split
  · rename_i reply queue
    rcases holds with holds | replied
    · exact takeFrame_meanwhile _ _ holds
    · simp [reply] at replied
  · exact ⟨due, holds⟩

/-- A change of the link that keeps the reply. -/
theorem ReferenceMeanwhile.of_same {s t : State} (k : SameReference s t) (lineMax : t.cfg.lineMax = s.cfg.lineMax)
    (due : t.evalDue = s.evalDue) (reply : t.link.reply = s.link.reply) (h : ReferenceMeanwhile s) : ReferenceMeanwhile t :=
  ⟨h.1.of_same k lineMax due, h.2.imp (fun holds => holds.of_same k lineMax) fun e => reply ▸ e⟩

theorem arrive_meanwhile (q : Frame) (s : State) (h : ReferenceMeanwhile s) : ReferenceMeanwhile (arrive q s) := by
  simp only [arrive]
  split
  · exact takeOldest_meanwhile _ (h.of_same (by simp [SameReference]) rfl rfl rfl)
  · exact h.of_same (by simp [SameReference]) (by simp) (by simp) (by simp)

theorem setRx_meanwhile (r : Receiver) (s : State) (h : ReferenceMeanwhile s) : ReferenceMeanwhile (setRx r s) :=
  h.of_same (by simp [SameReference]) rfl rfl rfl

theorem rxByte_meanwhile (b : Byte) (s : State) (h : ReferenceMeanwhile s) : ReferenceMeanwhile (rxByte b s) := by
  simp only [rxByte]
  split
  · split
    · exact setRx_meanwhile _ _ h
    · exact h
  · split
    · exact setRx_meanwhile _ _ h
    · split
      · simp only [checkFrame]
        split
        · exact arrive_meanwhile _ _ (setRx_meanwhile _ _ h)
        · exact (setRx_meanwhile .hunting s h).of_same (by simp [SameReference]) (by simp) (by simp) (by simp)
      · exact setRx_meanwhile _ _ h

theorem rxBytes_meanwhile (bs : List Byte) : ∀ s : State, ReferenceMeanwhile s → ReferenceMeanwhile (rxBytes bs s) := by
  induction bs with
  | nil => exact fun s h => h
  | cons b bs ih => exact fun s h => ih _ (rxByte_meanwhile b s h)

theorem ReferenceHolds.meanwhile {s : State} (h : ReferenceHolds s) : ReferenceMeanwhile s := ⟨h.due, .inl h⟩

theorem transmitComplete_due (s : State) (h : ReferenceHolds s) : ReferenceDue (transmitComplete s) := by
  simp only [transmitComplete]
  split
  · exact h.due
  · exact (h.of_same (by simp [SameReference]) rfl).due
  · refine (takeOldest_meanwhile _ (ReferenceHolds.meanwhile (.of_same ?_ ?_ h))).1 <;> simp [SameReference]

/-! ### Field events -/

theorem emergencyStopActive_due (s : State) (h : ReferenceHolds s) : ReferenceDue (emergencyStopActive s) := by
  simp only [emergencyStopActive]
  split
  · exact h.due
  · refine ⟨⟨?_, ?_⟩, .inr rfl⟩
    · split <;> simp
    · split <;> simpa using h.fallsBelow.2

theorem emergencyStopReleased_holds (s : State) (h : ReferenceHolds s) : ReferenceHolds (emergencyStopReleased s) := by
  simp only [emergencyStopReleased]
  split
  · obtain ⟨demand, lineMax, _, _, falls⟩ := h
    exact ⟨demand, lineMax, rfl, by simp, falls⟩
  · exact h

theorem powerOn_reference (high low stopped : Bool) (s : State) : ReferenceHolds (powerOn high low stopped s) :=
  ⟨Nat.zero_le _, Nat.zero_le _, rfl, fun _ => rfl, fun q e => by cases e⟩

theorem rampExpiry_reference (s : State) (h : ReferenceHolds s) : ReferenceHolds (rampExpiry s) := by
  simp only [rampExpiry]
  split
  · refine .of_same ?_ ?_ h <;> simp [SameReference, reachTime]
  · exact h

theorem hotPlateReading_reference (t : Int) (s : State) (h : ReferenceHolds s) : ReferenceHolds (hotPlateReading t s) := by
  simp only [hotPlateReading]
  split
  · refine .of_same ?_ ?_ h <;> simp [SameReference]
  · exact h

theorem temperatureAging_reference (s : State) (h : ReferenceHolds s) : ReferenceHolds (temperatureAging s) := by
  simp only [temperatureAging]
  split
  · refine .of_same ?_ ?_ h <;> simp [SameReference, reachTime]
  · exact h

theorem temperatureStale_reference (s : State) (h : ReferenceHolds s) : ReferenceHolds (temperatureStale s) := by
  simp only [temperatureStale]
  split
  · refine .of_same ?_ ?_ h <;> simp [SameReference, reachTime]
  · exact h

/-! ### The time base moves on only (log 2) -/

theorem now_le_spliceTimeout (i : Fin 6) (s : State) : s.now ≤ (spliceTimeout i s).now := by
  simp only [spliceTimeout]
  split <;> simp [reachTime]

theorem now_le_positioningTimeout (x : Station) (s : State) : s.now ≤ (positioningTimeout x s).now := by
  simp only [positioningTimeout]
  split <;> simp [reachTime]

theorem now_le_changeTimeout (lane : Lane) (s : State) : s.now ≤ (changeTimeout lane s).now := by
  simp only [changeTimeout]
  split <;> simp [reachTime]

theorem now_le_estimateRunout (x : Station) (s : State) : s.now ≤ (estimateRunout x s).now := by
  simp only [estimateRunout]
  split <;> simp [reachTime]

theorem now_le_restExpiry (s : State) : s.now ≤ (restExpiry s).now := by
  simp only [restExpiry]
  split <;> simp [reachTime]

theorem now_le_gapTimeout (s : State) : s.now ≤ (gapTimeout s).now := by
  simp only [gapTimeout]
  split <;> simp [reachTime, setRx]

theorem now_le_millisecond (s : State) : s.now ≤ (millisecond s).now := by
  simp [millisecond]

/-- Field events that change nothing of what bounds the reference but the time base. -/
theorem fieldEvent_due (c : Instr) (s : State) (h : ReferenceHolds s) : ReferenceDue (fieldEvent c s) := by
  cases c with
  | powerOn high low stopped => exact (powerOn_reference high low stopped s).due
  | encoderReport e k => exact (encoderReport_reference e k s h).due
  | silenceTimerExpiry => exact (silenceExpiry_reference s h).due
  | frameReceived bytes => exact (rxBytes_meanwhile bytes s h.meanwhile).1
  | falseStart lo hi => exact (rxBytes_meanwhile _ s h.meanwhile).1
  | transmitComplete => exact transmitComplete_due s h
  | emergencyStopActive => exact emergencyStopActive_due s h
  | emergencyStopReleased => exact (emergencyStopReleased_holds s h).due
  | rampTimerExpiry => exact (rampExpiry_reference s h).due
  | hotPlateReading t => exact (hotPlateReading_reference t s h).due
  | temperatureAging => exact (temperatureAging_reference s h).due
  | temperatureStale => exact (temperatureStale_reference s h).due
  | spliceTimerExpiry i =>
    refine (ReferenceHolds.of_same ?_ ?_ h).due <;> simp [SameReference, fieldEvent, now_le_spliceTimeout]
  | positioningTimerExpiry x =>
    refine (ReferenceHolds.of_same ?_ ?_ h).due <;> simp [SameReference, fieldEvent, now_le_positioningTimeout]
  | changeTimerExpiry lane =>
    refine (ReferenceHolds.of_same ?_ ?_ h).due <;> simp [SameReference, fieldEvent, now_le_changeTimeout]
  | positioningEstimateRunout x =>
    refine (ReferenceHolds.of_same ?_ ?_ h).due <;> simp [SameReference, fieldEvent, now_le_estimateRunout]
  | restTimerExpiry => refine (ReferenceHolds.of_same ?_ ?_ h).due <;> simp [SameReference, fieldEvent, now_le_restExpiry]
  | counterMillisecond => refine (ReferenceHolds.of_same ?_ ?_ h).due <;> simp [SameReference, fieldEvent, now_le_millisecond]
  | gapTimeout => refine (ReferenceHolds.of_same ?_ ?_ h).due <;> simp [SameReference, fieldEvent, now_le_gapTimeout]
  | _ => refine (ReferenceHolds.of_same ?_ ?_ h).due <;> simp [SameReference, fieldEvent]

theorem commandEvent_due (c : Instr) (s : State) (h : ReferenceHolds s) : ReferenceDue (commandEvent c s) := by
  simp only [commandEvent]
  split
  · exact (arrive_meanwhile _ s h.meanwhile).1
  · exact fieldEvent_due c s h

/-! ## The obligations -/

/-- Settles O57: an event that lowers DEMAND or LINE_MAX, or sets the hold, asks for an evaluation, and no other request is taken in
it; the evaluation at its close brings the reference within its bounds. -/
theorem stepKeepsReference : Obligations.StepKeepsReference := by
  intro s t holds h
  refine step_keeps (p := ReferenceHolds) (fun _ _ h => h) (fun c s h => ?_) h holds
  exact settle_reference _ (commandEvent_due c _ (ReferenceHolds.of_same (by simp [SameReference]) rfl h))

/-- Without the hold the reference stays at the ceiling, follows a segment of its direction and rate, or starts a fresh one (R138). -/
theorem movedReference_of_free (s : State) (hold : s.gov.hold = false) :
    ((cutReference s).1 = s.gov.ceiling → movedReference s = ((cutReference s).1, none)) ∧
    ((cutReference s).1 ≠ s.gov.ceiling → (cutReference s).2 = none → (movedReference s).1 = (cutReference s).1 ∧
      ∃ q, (movedReference s).2 = some q ∧ q.startRef = (cutReference s).1 ∧ q.startTime = s.now) ∧
    ∀ q, (cutReference s).2 = some q → (cutReference s).1 ≠ s.gov.ceiling →
      q.dir = (if (cutReference s).1 < s.gov.ceiling then .rising else .falling) → q.rate = rateInForce s q.dir →
      (movedReference s).1 = q.reached s.now s.gov.ceiling := by
  simp only [movedReference, hold, Bool.false_eq_true, if_false]
  refine ⟨fun there => by simp [there], fun away segment => ?_, fun q segment away dir rate => ?_⟩
  · simp only [away, if_false, segment, true_and]
    exact ⟨_, rfl, rfl, rfl⟩
  · rw [dir] at rate
    simp [away, segment, dir, rate]

/-- Settles O40: the ceiling by the search for the least member, the reference by its cuts and its segment. -/
theorem ceilingAndReference : Obligations.CeilingAndReference := by
  refine ⟨fun s => ?_, fun s => ?_⟩
  · obtain ⟨limits, ceiling, family, member⟩ := evaluate_limits s
    obtain ⟨least, first⟩ := binding_spec (computeLimits s)
    simp only [limits, ceiling, family, member]
    exact ⟨least, least _ _ _ (members_lineMax s), first⟩
  · obtain ⟨there, fresh, follows⟩ : _ ∧ _ ∧ _ := ⟨fun h => (movedReference_of_free s h).1,
      fun h => (movedReference_of_free s h).2.1, fun h => (movedReference_of_free s h).2.2⟩
    have within : s.gov.hold = false → s.gov.reference ≤ min s.gov.demand s.cfg.lineMax →
        cutReference s = (s.gov.reference, s.gov.segment) := fun hold le => by
      simp [cutReference, hold, Nat.not_lt.mpr le]
    refine ⟨fun hold => by simp [movedReference, cutReference, hold], fun hold above => ?_, fun hold le e => ?_,
      fun q hold le segment => ?_, fun hold le segment away => ?_⟩
    · have cut : cutReference s = (min s.gov.demand s.cfg.lineMax, none) := by simp only [cutReference, hold, above]; rfl
      by_cases e : min s.gov.demand s.cfg.lineMax = s.gov.ceiling
      · rw [there hold (by rw [cut]; exact e), cut]
      · rw [(fresh hold (by rw [cut]; exact e) (by rw [cut])).1, cut]
    · have cut := within hold le
      rw [there hold (by rw [cut]; exact e), cut]
    · have cut := within hold le
      have follow := follows hold q (by rw [cut]; exact segment)
      rw [cut] at follow
      refine ⟨fun below dir rate => ?_, fun above dir rate => ?_⟩
      · rw [follow below.ne (by rw [if_pos below]; exact dir) (by rw [dir]; exact rate)]
        simp only [Segment.reached, dir]
      · rw [follow above.ne' (by rw [if_neg (Nat.lt_asymm above)]; exact dir) (by rw [dir]; exact rate)]
        simp only [Segment.reached, dir]
    · have cut := within hold le
      have started := fresh hold (by rw [cut]; exact away) (by rw [cut]; exact segment)
      rwa [cut] at started

end Sys2Proof.Machine
end

