-- ==== Sys2Proof/Proofs/LineLink.lean ====
section
/-! PROOFS. The line link: frames on the wire, the receive queue, refused frames, the transmitter, STATUS and MAP_READ, the close of an
event. -/

namespace Sys2Proof.Machine

open Sys2Proof

/-- A request that its owner answers with a state, a code and data. -/
theorem next_of_answer {c : Instr} {r : Request} {tag : Byte} {code : Result} {data : List Byte} {s t : State}
    {a : State × Answer} (h : exec c s = .next (answer r tag a)) (ha : a = (t, { code := code, data := data })) :
    exec c s = .next (answered r tag code data t) := by
  subst ha
  exact h

/-! ## The receiver -/

theorem checkFrame_setLink (taken : List Byte) (len : Nat) (r : Receiver) (s : State) :
    checkFrame taken len (s.setLink { s.link with rx := r }) = checkFrame taken len s := rfl

theorem setRx_hunting {s : State} (h : s.link.rx = .hunting) : setRx .hunting s = s := by
  have e : ({ s.link with rx := .hunting } : Link) = s.link := by rw [← h]
  rw [setRx, e]
  rfl

theorem rxByte_start {s : State} (h : s.link.rx = .hunting) :
    rxByte Config.startByte s = s.setLink { s.link with rx := .assembling [] s.now } := by
  simp [rxByte, h, setRx]

theorem rxByte_first (b : Byte) {s : State} {last : Nat} (h : s.link.rx = .assembling [] last) :
    rxByte b s = s.setLink { s.link with rx := .assembling [b] s.now } := by
  simp [rxByte, h, setRx]

theorem rxByte_second (lo b : Byte) {s : State} {last : Nat} (h : s.link.rx = .assembling [lo] last)
    (fits : lo.toNat + 256 * b.toNat ≤ 1020) : rxByte b s = s.setLink { s.link with rx := .assembling [lo, b] s.now } := by
  have notLong : ¬Config.maxPayload < lo.toNat + 256 * b.toNat := Nat.not_lt.mpr fits
  simp [rxByte, h, setRx, fromLE, notLong]

/-- A length beyond 1,020 is a false start, and its bytes are examined again (R176). -/
theorem rxByte_false_start (lo b : Byte) {s : State} {last : Nat} (h : s.link.rx = .assembling [lo] last)
    (long : 1020 < lo.toNat + 256 * b.toNat) : rxByte b s = s.setLink { s.link with rx := reexamine lo b s.now } := by
  have tooLong : Config.maxPayload < lo.toNat + 256 * b.toNat := long
  simp [rxByte, h, setRx, fromLE, tooLong]

/-- One whole frame received in HUNTING is checked with its length (R176). -/
theorem rxBytes_whole (lo hi : Byte) (rest : List Byte) {s : State} (h : s.link.rx = .hunting)
    (fits : lo.toNat + 256 * hi.toNat ≤ 1020) (len : rest.length = lo.toNat + 256 * hi.toNat + 4) :
    rxBytes (Config.startByte :: lo :: hi :: rest) s = checkFrame (lo :: hi :: rest) (lo.toNat + 256 * hi.toNat) s := by
  obtain ⟨pre, b, rfl⟩ : ∃ pre b, rest = pre ++ [b] :=
    ⟨_, _, (List.dropLast_append_getLast (fun e => by simp [e] at len)).symm⟩
  simp only [List.length_append, List.length_singleton] at len
  have three : rxBytes (Config.startByte :: lo :: hi :: (pre ++ [b])) s =
      rxBytes (pre ++ [b]) (s.setLink { s.link with rx := .assembling [lo, hi] s.now }) := by
    simp only [rxBytes, List.foldl_cons]
    rw [rxByte_start h, rxByte_first lo (last := s.now) rfl, rxByte_second lo hi (last := s.now) rfl fits]
    rfl
  rw [three, rxBytes_append, rxBytes_assembling pre _ lo hi [] s.now rfl (by simp; omega)]
  have last : ∀ u, rxBytes [b] u = rxByte b u := fun _ => rfl
  rw [last, rxByte_completes b _ lo hi pre _ rfl (by omega)]
  rfl

theorem le_two (n : Nat) : le 2 n = [BitVec.ofNat 8 n, BitVec.ofNat 8 (n / 256)] := rfl

theorem toNat_le_two (n : Nat) (h : n < 65536) :
    (BitVec.ofNat 8 n).toNat + 256 * (BitVec.ofNat 8 (n / 256)).toNat = n := by
  simp only [BitVec.toNat_ofNat]
  omega

/-- A frame on the wire arrives unchanged (R175, R176). -/
theorem rxBytes_wire (q : Frame) {s : State} (short : q.payload.length ≤ 1020) (h : s.link.rx = .hunting) :
    rxBytes q.wire s = arrive q s := by
  have length := toNat_le_two q.payload.length (by omega)
  have wire : q.wire = Config.startByte :: BitVec.ofNat 8 q.payload.length :: BitVec.ofNat 8 (q.payload.length / 256) ::
      (q.kind :: q.tag :: q.payload ++ le 2 (crc16 q.covered).toNat) := rfl
  have covered : q.covered.length = q.payload.length + 4 := by
    simp [Frame.covered]
    omega
  have taken : BitVec.ofNat 8 q.payload.length :: BitVec.ofNat 8 (q.payload.length / 256) ::
      (q.kind :: q.tag :: q.payload ++ le 2 (crc16 q.covered).toNat) = q.covered ++ le 2 (crc16 q.covered).toNat := rfl
  have crc : (crc16 q.covered).toNat = (crc16 q.covered).toNat % 256 ^ 2 :=
    (Nat.mod_eq_of_lt (crc16 q.covered).isLt).symm
  rw [wire, rxBytes_whole _ _ _ h (by omega) (by rw [length]; simp), length, checkFrame, setRx_hunting h, taken,
    List.take_left' covered, List.drop_left' covered, fromLE_le, if_pos crc]
  congr 1
  obtain ⟨kind, tag, payload⟩ := q
  simp [Frame.covered, le_two]

theorem exec_wire (q : Frame) {s : State} (short : q.payload.length ≤ 1020) (h : s.link.rx = .hunting) :
    exec (.frameReceived q.wire) s = .next (settle (arrive q (begin s))) := by
  have received : exec (.frameReceived q.wire) s = .next (settle (rxBytes q.wire (begin s))) := rfl
  rw [received, rxBytes_wire (s := begin s) q short h]

/-- The frame of a well-formed request fits on the line (R175, R193): only the lists of two kinds and an unknown payload have no
length of their own. -/
theorem frame_fits (c : Instr) : Laws.FrameFits.Statement c := by
  cases c with
  | unknownKind => exact Laws.FrameFits.unknownKind _ _ _
  | setupQueue => exact Laws.FrameFits.setupQueue _ _ _ _ _ _ _ _ _ _ _ _ _
  | settingsWrite => exact Laws.FrameFits.settingsWrite _ _
  | _ =>
    intro _ q frame
    cases frame <;> simp [Laws.FrameFits.length_fields]

/-- Settles O6: the wire form is assembled, its CRC agrees, and the frame arrives. -/
theorem requestCommandIsItsWireFrame : Obligations.RequestCommandIsItsWireFrame := by
  refine ⟨fun c q s frame wellFormed rx => ?_, fun q s short rx => exec_wire q short rx⟩
  rw [exec_wire q (frame_fits c wellFormed q frame) rx, exec_of_frame c q s frame]
  exact ⟨rfl, rfl⟩

/-! ## The receive queue -/

theorem takeOldest_of_reply {s : State} (h : s.link.reply.isSome = true) : takeOldest s = s := by
  obtain ⟨f, reply⟩ := Option.isSome_iff_exists.mp h
  simp only [takeOldest, reply]

/-- Settles O7. -/
theorem receiveQueueHoldsFour : Obligations.ReceiveQueueHoldsFour := by
  intro c q s frame
  rw [exec_of_frame c q s frame]
  simp only [run, event]
  have joined : s.link.rxQueue.length < 4 → arrive q (begin s) =
      takeOldest ((begin s).setLink { s.link with rxQueue := s.link.rxQueue ++ [q] }) := fun room => if_pos room
  refine ⟨fun room => by rw [joined room], fun room replied => ?_, fun full => ?_⟩
  · rw [joined room, takeOldest_of_reply]
    simpa using replied
  · have dropped : arrive q (begin s) = countEvent .framesRefused
        ((begin s).setLink { s.link with dropCount := counted s.link.dropCount }) := if_neg (Nat.not_lt.mpr full)
    rw [dropped, counted, sat, Nat.min_comm]

/-- Settles O8: byte by byte, then the false start, the CRC that does not agree, and the gap. -/
theorem receiverAssemblesAndDiscards : Obligations.ReceiverAssemblesAndDiscards := by
  refine ⟨fun b s => ⟨fun rx e => ?_, fun rx ne => ?_, fun taken last rx empty => ?_, fun lo last rx fits => ?_,
    fun lo hi more last rx short => ?_⟩, fun lo hi s rx long => ?_, fun bytes s one rx differs => ?_, fun s =>
    ⟨fun taken last rx => ?_, fun rx => ?_⟩⟩
  · rw [e]
    exact rxByte_start rx
  · have notStart : b ≠ Config.startByte := ne
    simp [rxByte, rx, notStart]
  · rw [List.length_eq_zero_iff.mp empty] at rx
    exact rxByte_first b rx
  · exact rxByte_second lo b rx fits
  · have e := rxBytes_assembling [b] s lo hi more last rx (by simp; omega)
    simpa [rxBytes] using e
  · have received : exec (.falseStart lo hi) s = .next (settle (rxByte hi (rxByte lo (rxByte Config.startByte (begin s))))) := rfl
    rw [received, rxByte_start (s := begin s) rx, rxByte_first lo (last := s.now) rfl,
      rxByte_false_start lo hi (last := s.now) rfl long]
    rfl
  · obtain ⟨start, lo, hi, rest, rfl⟩ : ∃ start lo hi rest, bytes = start :: lo :: hi :: rest := by
      match bytes, one with
      | start :: lo :: hi :: rest, _ => exact ⟨start, lo, hi, rest, rfl⟩
    simp only [isOneFrame, Bool.and_eq_true, beq_iff_eq, decide_eq_true_eq] at one
    obtain ⟨⟨rfl, fits⟩, len⟩ := one
    have received : exec (.frameReceived (Config.startByte :: lo :: hi :: rest)) s =
        .next (settle (rxBytes (Config.startByte :: lo :: hi :: rest) (begin s))) := rfl
    have mismatch : (crc16 ((lo :: hi :: rest).take (lo.toNat + 256 * hi.toNat + 4))).toNat ≠
        fromLE ((lo :: hi :: rest).drop (lo.toNat + 256 * hi.toNat + 4)) := by
      simpa [len] using differs
    rw [received, rxBytes_whole (s := begin s) lo hi rest rx fits len, checkFrame, setRx_hunting (s := begin s) rx,
      if_neg mismatch, counted, sat, Nat.min_comm]
    rfl
  · have discarded : exec .gapTimeout s = .next (settle (gapTimeout (begin s))) := rfl
    have gap : gapTimeout (begin s) = countEvent .framesRefused { begin s with
        now := max s.now (last + 5)
        link := { s.link with rx := .hunting, gapCount := counted s.link.gapCount } } := by
      simp only [gapTimeout, begin_fields, rx]
      rfl
    rw [discarded, gap, counted, sat, Nat.min_comm]
  · have silent : gapTimeout (begin s) = begin s := by simp only [gapTimeout, begin_fields, rx]
    show exec .gapTimeout s = _
    have discarded : exec .gapTimeout s = .next (settle (gapTimeout (begin s))) := rfl
    rw [discarded, silent]

/-! ## Refused frames, and the transmitter -/

theorem code_of_ofCode {n : Nat} {r : Request} : Request.ofCode n = some r → n = r.code := by
  unfold Request.ofCode
  split <;> rintro ⟨⟩ <;> rfl

/-- No request has a kind of 30h or above (Figure 10-3). -/
theorem ofCode_of_beyond {n : Nat} (h : 0x30 ≤ n) : Request.ofCode n = none := by
  cases e : Request.ofCode n with
  | none => rfl
  | some r =>
    have := code_of_ofCode e
    have := r.code_lt
    omega

/-- Settles O10. -/
theorem refusedFramesAreAnswered : Obligations.RefusedFramesAreAnswered := by
  refine ⟨fun kind tag payload s beyond free => ?_, fun r tag p s free rx short misfit => ?_⟩
  · have arrived : exec (.unknownKind kind tag payload) s =
        .next (settle (arrive { kind := kind, tag := tag, payload := payload } (begin s))) := rfl
    rw [arrived, arrive_free _ (begin s) free]
    simp only [takeFrame, answerFrame, ofCode_of_beyond beyond]
    rfl
  · rw [exec_wire _ short rx, arrive_free _ (begin s) free]
    simp only [takeFrame, answerFrame, Request.toNat_code, Request.ofCode_code, misfit, Bool.false_eq_true, if_false, answered,
      Request.reply_kind]
    congr 2
    have broken : breakSequence r ((begin s).setRemap .none) = (begin s).setRemap .none := by
      simp only [breakSequence]
      split <;> rfl
    rw [broken]
    rfl

/-- A quantity that fits its field is sent as it is (R190). -/
theorem uns_of_lt {n v : Nat} (h : v < 256 ^ n) : uns n v = le n v := by
  rw [uns, Nat.min_eq_left (Nat.le_sub_one_of_lt h)]

/-- Settles O11. -/
theorem transmitterSendsRepliesAndNotices : Obligations.TransmitterSendsRepliesAndNotices := by
  have completed : ∀ s, exec .transmitComplete s = .next (settle (transmitComplete (begin s))) := fun _ => rfl
  refine ⟨fun s => ⟨fun tx queue => ?_, fun q rest tx queue => ?_, fun n tx => ?_, fun tx => ?_⟩,
    fun kind contents s number => ⟨fun room => ?_, fun full => ?_⟩,
    fun s tx => ⟨fun f reply queue => ?_, fun n rest reply queue => ?_, fun f n rest reply queue last => ?_,
      fun f n rest reply queue last => ?_, fun reply queue => ?_⟩⟩
  · rw [completed]
    simp only [transmitComplete, begin_fields, tx, takeOldest, State.setLink_fields, queue]
  · rw [completed]
    simp only [transmitComplete, begin_fields, tx, takeOldest, State.setLink_fields, queue]
    rfl
  · rw [completed]
    simp only [transmitComplete, begin_fields, tx]
  · show exec .transmitComplete s = _
    rw [completed]
    simp only [transmitComplete, begin_fields, tx]
  · have entries : s.notices.queue.length < Config.noticeEntries := room
    simp only [notice_notices, Notices.add, entries, if_true, uns_of_lt (n := 1) number]
    rfl
  · have entries : ¬s.notices.queue.length < Config.noticeEntries := Nat.not_lt.mpr full
    simp only [notice_notices, Notices.add, entries, if_false]
  · simp only [arbitrate, tx, reply, queue, sendReply]
  · simp only [arbitrate, tx, reply, queue, sendNotice]
  · simp [arbitrate, tx, reply, queue, last, sendReply]
  · simp [arbitrate, tx, reply, queue, last, sendNotice]
  · simp only [arbitrate, tx, reply, queue]

/-- Settles O13. -/
theorem statusAndMapRead : Obligations.StatusAndMapRead := by
  refine ⟨fun tag s free => next_of_answer (exec_status tag s free) rfl, fun tag start s free => ⟨fun beyond => ?_, fun within => ?_⟩⟩
  · exact refuses_of_plain (exec_mapRead tag start s free) (by simp only [mapRead, beyond, if_true])
  · refine next_of_answer (exec_mapRead tag start s free) ?_
    simp only [mapRead, Nat.not_lt.mpr within, if_false]
    rfl

/-! ## The close of an event -/

/-- A firing test keeps a stand as the event left it, or fires it (R59). -/
theorem firingTest_firedOrKept (i j : Fin 6) (s₀ s : State) (now : s.now = s₀.now) (cfg : s.cfg = s₀.cfg)
    (h : FiredOrKept s₀ i (s₀.stands.get i) (s.stands.get i)) :
    FiredOrKept s₀ i (s₀.stands.get i) ((firingTest j s).stands.get i) := by
  by_cases e : i = j
  · subst e
    rcases firingTest_cases i s with kept | ⟨armed, joint, fire, fired⟩
    · rwa [kept]
    · rcases h with same | ⟨_, _, _, other⟩
      · rw [same] at armed joint fire
        refine .inr ⟨armed, joint, fire, ?_⟩
        rw [fired, setStand_stands]
        simp [same, now, cfg]
      · rw [other] at armed
        simp at armed
  · rwa [firingTest_other j i s e]

theorem firingTests_firedOrKept (i : Fin 6) (s₀ : State) (l : List (Fin 6)) : ∀ s : State, s.now = s₀.now → s.cfg = s₀.cfg →
    FiredOrKept s₀ i (s₀.stands.get i) (s.stands.get i) →
    FiredOrKept s₀ i (s₀.stands.get i) ((l.foldl (fun s j => firingTest j s) s).stands.get i) := by
  induction l with
  | nil => exact fun _ _ _ h => h
  | cons j l ih =>
    exact fun s now cfg h => ih _ (by simpa using now) (by simpa using cfg) (firingTest_firedOrKept i j s₀ s now cfg h)

/-- An evaluation keeps every stand or fires it (R126). -/
theorem evaluate_firedOrKept (i : Fin 6) (s : State) : FiredOrKept s i (s.stands.get i) ((evaluate s).stands.get i) := by
  have stands : (evaluate s).stands = (takeReference (takeLimits s)).stands := by simp [evaluate]
  rw [stands]
  simp only [takeReference]
  split
  · exact .inl (by simp)
  · exact firingTests_firedOrKept i s slots _ (by simp) (by simp) (.inl (by simp))

theorem arbitrate_link (s : State) :
    (arbitrate s).link = { s.link with tx := (arbitrate s).link.tx, lastSent := (arbitrate s).link.lastSent } := by
  simp only [arbitrate]
  split
  · split
    · rfl
    · rfl
    · split <;> rfl
    · rfl
  · rfl
  · rfl

theorem settle_link (s : State) :
    (settle s).link = { s.link with tx := (settle s).link.tx, lastSent := (settle s).link.lastSent } := by
  have e := arbitrate_link (if s.evalDue then evaluate s else s)
  have link : (if s.evalDue then evaluate s else s).link = s.link := by split <;> simp
  rwa [link] at e

/-- Settles O3. -/
theorem endOfEventKeepsBlocks : Obligations.EndOfEventKeepsBlocks := by
  refine fun s => ⟨?_, fun due => by simp [settle, due]⟩
  have stands : ∀ i, FiredOrKept s i (s.stands.get i) ((settle s).stands.get i) := fun i => by
    simp only [settle, arbitrate_frame]
    split
    · exact evaluate_firedOrKept i s
    · exact .inl rfl
  simp only [EndKeeps, settle_frame, true_and]
  exact ⟨settle_link s, stands⟩

end Sys2Proof.Machine
end

