-- ==== Sys2Proof/Proofs/BoardTracker.lean ====
section
/-! PROOFS. The board tracker: travel of the selected encoder and the fallback, reject marks, the defect sensor. -/

namespace Sys2Proof.Machine

open Sys2Proof

/-! ## Travel -/

/-- The axis and the rest timer after k + 1 full advances (R1, R3, R156). -/
theorem fullAdvances_fields (k : Nat) : ∀ s : State,
    (fullAdvances (k + 1) s).enc = { s.enc with axis := (s.enc.axis + (k + 1) * 1000) % 2 ^ 48 } ∧
    (fullAdvances (k + 1) s).rest = { timer := .running (s.now + 1000), lastAdvance := some s.now } := by
  induction k with
  | zero => exact fun s => boardAdvance_fields _ s
  | succ k ih =>
    intro s
    have later : fullAdvances (k + 1 + 1) s = fullAdvances (k + 1) (boardAdvance Config.maxAdvance s) := rfl
    obtain ⟨enc, rest⟩ := ih (boardAdvance Config.maxAdvance s)
    rw [later, enc, rest, (boardAdvance_fields _ s).1]
    refine ⟨?_, by simp⟩
    simp only [Nat.mod_add_mod, Config.maxAdvance]
    congr 2
    ring

/-- The axis takes the whole travel, however it is delivered (R1, R3). -/
theorem deliverTravel_fields (k : Nat) (s : State) (pos : 0 < k) :
    (deliverTravel k s).enc = { s.enc with axis := (s.enc.axis + k) % 2 ^ 48 } ∧
    (deliverTravel k s).rest = { timer := .running (s.now + 1000), lastAdvance := some s.now } := by
  have whole : k / 1000 * 1000 + k % 1000 = k := Nat.div_add_mod' k 1000
  have delivered : deliverTravel k s = if k % 1000 = 0 then fullAdvances (k / 1000) s
      else boardAdvance (k % 1000) (fullAdvances (k / 1000) s) := rfl
  rw [delivered]
  cases full : k / 1000 with
  | zero =>
    rw [full, Nat.zero_mul, Nat.zero_add] at whole
    rw [if_neg (by omega), whole]
    exact boardAdvance_fields k s
  | succ q =>
    obtain ⟨enc, rest⟩ := fullAdvances_fields q s
    rw [full] at whole
    split
    · rename_i none
      rw [none, Nat.add_zero] at whole
      rw [enc, rest, whole]
      exact ⟨rfl, rfl⟩
    · rw [(boardAdvance_fields _ _).1, (boardAdvance_fields _ _).2, enc]
      refine ⟨?_, by simp⟩
      simp only [Nat.mod_add_mod]
      congr 2
      omega

theorem exec_encoderReport (e : Encoder) (k : Nat) (s : State) :
    exec (.encoderReport e k) s = .next (settle (encoderReport e k (begin s))) := rfl

/-- A report of the selected encoder is travel; without a fallback it restarts the silence watch (R3, R4). -/
theorem encoderReport_selected (k : Nat) (s : State) (pos : 0 < k) :
    encoderReport s.enc.selected k s = deliverTravel k (if s.enc.fallback then s else restartSilence s) := by
  simp only [encoderReport, Nat.pos_iff_ne_zero.mp pos, if_false, if_true]
  split <;> rfl

/-- Settles O14: the travel's board advances, and the frames of the report and of the event's close. -/
theorem selectedTravelMovesAxis : Obligations.SelectedTravelMovesAxis := by
  rintro e k s rfl pos
  refine ⟨_, exec_encoderReport _ k s, ?_⟩
  have selected : s.enc.selected = (begin s).enc.selected := rfl
  have link := settle_link (encoderReport s.enc.selected k (begin s))
  simp only [encoderReport_frame, begin_fields] at link
  have travel := encoderReport_selected k (begin s) pos
  refine ⟨?_, ?_, by simp, by simp, by simp, by simp, by simp, link⟩
  · simp only [settle_frame, selected, travel, (deliverTravel_fields _ _ pos).1]
    cases fallback : s.enc.fallback <;> simp [fallback, restartSilence, Config.silencePeriod]
  · simp only [settle_frame, selected, travel, (deliverTravel_fields _ _ pos).2]
    cases fallback : s.enc.fallback <;> simp [fallback, restartSilence]

/-! ## The fallback -/

theorem encoderReport_fallen (e : Encoder) (k : Nat) (s : State) (other : e ≠ s.enc.selected) (fallen : s.enc.fallback = true) :
    encoderReport e k s = s := by
  simp only [encoderReport, other, fallen, if_false, if_true]
  split <;> rfl

theorem encoderReport_secondary (e : Encoder) (k : Nat) (s : State) (other : e ≠ s.enc.selected)
    (standing : s.enc.fallback = false) (pos : 0 < k) : encoderReport e k s =
      fallbackTest (s.setEnc { s.enc with secondarySum := min 4294967295 (s.enc.secondarySum + k) }) := by
  simp only [encoderReport, Nat.pos_iff_ne_zero.mp pos, other, standing, if_false, Bool.false_eq_true, sat, Config.max32,
    Nat.min_comm]

/-- The fallback delivers the sum as travel from the position where the selection changed (R4). -/
theorem fallBack_enc (s : State) (sum : 0 < s.enc.secondarySum) : (fallBack s).enc.selected = s.enc.selected.other ∧
    (fallBack s).enc.fallback = true ∧ (fallBack s).enc.silence = .stopped ∧
    (fallBack s).enc.axis = (s.enc.axis + s.enc.secondarySum) % 2 ^ 48 := by
  simp [fallBack, (deliverTravel_fields _ _ sum).1]

theorem fallbackTest_waits (s : State) (h : s.enc.silence = .expired → s.enc.secondarySum < 1000) : fallbackTest s = s := by
  simp only [fallbackTest, Config.fallbackTravel]
  exact if_neg fun ⟨expired, reached⟩ => absurd (h expired) (Nat.not_lt.mpr reached)

theorem fallbackTest_falls (s : State) (expired : s.enc.silence = .expired) (reached : 1000 ≤ s.enc.secondarySum) :
    fallbackTest s = fallBack s := if_pos ⟨expired, reached⟩

theorem exec_silenceTimerExpiry (s : State) : exec .silenceTimerExpiry s = .next (settle (silenceExpiry (begin s))) := rfl

theorem silenceExpiry_running (s : State) (due : Nat) (h : s.enc.silence = .running due) : silenceExpiry s =
    fallbackTest ((s.setNow (max s.now due)).setEnc { s.enc with silence := .expired }) := by
  simp only [silenceExpiry, h]
  rfl

/-- A silence that ends with too little secondary travel is only recorded (R4). -/
theorem silenceExpiry_waits {s : State} {due : Nat} (running : s.enc.silence = .running due) (few : s.enc.secondarySum < 1000) :
    silenceExpiry s = (s.setNow (max s.now due)).setEnc { s.enc with silence := .expired } :=
  (silenceExpiry_running s due running).trans (fallbackTest_waits _ fun _ => few)

/-- A silence that ends after enough secondary travel is the fallback (R4). -/
theorem silenceExpiry_falls {s : State} {due : Nat} (running : s.enc.silence = .running due)
    (reached : 1000 ≤ s.enc.secondarySum) :
    silenceExpiry s = fallBack ((s.setNow (max s.now due)).setEnc { s.enc with silence := .expired }) :=
  (silenceExpiry_running s due running).trans (fallbackTest_falls _ rfl reached)

/-- Settles O15. -/
theorem secondaryTravelAndFallback : Obligations.SecondaryTravelAndFallback := by
  refine ⟨fun e k s => ⟨rfl, fun other fallen => ?_, fun other standing pos waits => ?_, ?_⟩, fun s idle => ?_,
    fun due s running => ⟨fun few => ?_, fun reached => ?_, fun reached => ?_⟩⟩
  · show exec _ s = _
    rw [exec_encoderReport, encoderReport_fallen e k (begin s) other fallen]
  · rw [exec_encoderReport, encoderReport_secondary e k (begin s) other standing pos, fallbackTest_waits]
    · rfl
    · exact waits
  · intro sum other standing pos expired reached
    have falls : encoderReport e k (begin s) = fallBack ((begin s).setEnc { s.enc with secondarySum := sum }) := by
      rw [encoderReport_secondary e k (begin s) other standing pos]
      exact fallbackTest_falls _ expired reached
    rw [exec_encoderReport, falls]
    refine ⟨rfl, _, rfl, ?_⟩
    simpa using fallBack_enc ((begin s).setEnc { s.enc with secondarySum := sum }) (by simp; omega)
  · have ignored : silenceExpiry (begin s) = begin s := by
      simp only [silenceExpiry, begin_fields]
      split
      · rename_i due running
        exact absurd running (idle due)
      · rfl
      · rfl
    show exec _ s = _
    rw [exec_silenceTimerExpiry, ignored]
  · rw [exec_silenceTimerExpiry, silenceExpiry_waits (s := begin s) running few]
    rfl
  · rw [exec_silenceTimerExpiry, silenceExpiry_falls (s := begin s) running reached]
    rfl
  · rw [exec_silenceTimerExpiry, silenceExpiry_falls (s := begin s) running reached]
    refine ⟨_, rfl, ?_⟩
    simpa using fallBack_enc (((begin s).setNow (max s.now due)).setEnc { s.enc with silence := .expired })
      (Nat.lt_of_lt_of_le (by decide) reached)

/-! ## Reject marks -/

/-- A replan leaves everything but the stands, the counter bank, the notices and the outputs. -/
theorem raisePlanned_of_current (k : Nat) {s : State} {cur : Setup} (h : s.sched.current = some cur) :
    (raisePlanned k s).sched = { s.sched with
      current := some { cur with planned := fit48 (cur.planned + k) }
      episode := if cur.produced < fit48 (cur.planned + k) then none else s.sched.episode } := by
  simp [raisePlanned, h]

theorem noteExtension_current (m : Mark) (q : Bool) (s : State) :
    (noteExtension m q s).sched.current = s.sched.current := by
  simp only [noteExtension]
  split <;> rfl

theorem qualifies_current {s : State} {pos : Nat} (h : qualifies s pos = true) : ∃ cur, s.sched.current = some cur := by
  cases current : s.sched.current with
  | none => simp [qualifies, current] at h
  | some cur => exact ⟨cur, rfl⟩

/-- A reject mark with a record of its own, and the make-up extension it earns (R15, R39). -/
theorem enterReject_of_room (m : Mark) (s : State) (room : s.web.marks.length < 128) :
    enterReject m s = if qualifies s m.pos then
        raisePlanned (m.lead + m.trail + (s.sched.current.map (longestCut s)).getD 0) (noteExtension m (qualifies s m.pos)
          (placeMark { m with covered := qualifies s m.pos, merged := false } s))
      else noteExtension m (qualifies s m.pos) (placeMark { m with covered := qualifies s m.pos, merged := false } s) :=
  if_pos room

theorem enterReject_web (m : Mark) (s : State) (room : s.web.marks.length < 128) :
    (enterReject m s).web = { s.web with
      marks := insertMark { m with entry := s.web.nextEntry, covered := qualifies s m.pos, merged := false } s.web.marks
      nextEntry := (s.web.nextEntry + 1) % 65536 } := by
  rw [enterReject_of_room m s room]
  split <;> simp [placeMark]

/-- A merge changes its target and counts (R16, R17). -/
theorem enterReject_of_full (m : Mark) (s : State) (full : 128 ≤ s.web.marks.length) {ms : List Mark}
    (h : updateLast Mark.isReject (mergeInto m) s.web.marks = some ms) : enterReject m s =
      (s.setWeb { s.web with marks := ms }).setAccounts { s.accounts with merges := raised s.accounts.merges 1 } := by
  have noRoom : ¬s.web.marks.length < Config.poolSize := Nat.not_lt.mpr full
  simp only [enterReject, noRoom, if_false, h]

/-- Settles O16. -/
theorem rejectMarkPlacedOrMerged : Obligations.RejectMarkPlacedOrMerged := by
  refine fun m s => ⟨fun room => ⟨enterReject_web m s room, ?_, ?_⟩, fun before target after full marks reject rest => ?_⟩
  · rw [enterReject_of_room m s room]
    split <;> simp
  · rw [enterReject_of_room m s room]
    split
    · rename_i q
      obtain ⟨cur, current⟩ := qualifies_current q
      rw [raisePlanned_of_current (cur := cur) _ (by rw [noteExtension_current]; exact current)]
      simp [current]
    · rename_i q
      simp [noteExtension_current, placeMark, q]
  · have merged := updateLast_append Mark.isReject (mergeInto m) before target after reject rest
    rw [← marks] at merged
    rw [enterReject_of_full m s full merged]
    intro rank up down
    have rank_eq : ∀ k, rank k = k.rank := fun k => by cases k <;> rfl
    have target' : mergeInto m target = { target with
        trail := min (2 ^ 32 - 1) (target.trail + (up target - up m).toNat)
        lead := min (2 ^ 32 - 1) (target.lead + (down m - down target).toNat)
        kind := if rank target.kind < rank m.kind then m.kind else target.kind
        openSensor := target.openSensor || m.openSensor
        openBreak := target.openBreak || m.openBreak
        merged := true } := by
      rw [rank_eq, rank_eq]
      simp only [mergeInto, grown, sat, Config.max32, Nat.min_comm (2 ^ 32 - 1)]
      rfl
    rw [target']
    refine ⟨rfl, rfl, ?_⟩
    simp only [raised, sat, Config.maxAccount, Nat.min_comm]
    rfl

/-! ## The defect sensor -/

theorem exec_defectBegins (s : State) : exec .defectBegins s = .next (settle (defectBegins (begin s))) := rfl
theorem exec_defectEnds (s : State) : exec .defectEnds s = .next (settle (defectEnds (begin s))) := rfl

theorem takeFinalLength_web (len : Nat) (s : State) : (takeFinalLength len s).web = s.web := by simp

/-- The open extension ends with its defect (R40). -/
theorem takeFinalLength_extension (len : Nat) (s : State) : (takeFinalLength len s).sched.openExtension = none := by
  simp only [takeFinalLength]
  split
  · split
    · rename_i current _
      rw [raisePlanned_of_current (s := s.setSched { s.sched with openExtension := none }) len current]
      rfl
    · rfl
  · rfl

/-- The extended setup, still CURRENT, plans the final length (R40). -/
theorem takeFinalLength_of_current (len : Nat) {s : State} {cur : Setup} (extension : s.sched.openExtension = some cur.id)
    (current : s.sched.current = some cur) :
    (takeFinalLength len s).sched.current = some { cur with planned := fit48 (cur.planned + len) } := by
  have taken : takeFinalLength len s = raisePlanned len (s.setSched { s.sched with openExtension := none }) := by
    simp only [takeFinalLength, extension, current, if_true]
  rw [taken, raisePlanned_of_current (s := s.setSched { s.sched with openExtension := none }) len current]

/-- No setup plans the final length when the extended one is no longer CURRENT (R40). -/
theorem takeFinalLength_of_other (len : Nat) {s : State}
    (h : s.sched.openExtension = none ∨ ∀ cur, s.sched.current = some cur → s.sched.openExtension ≠ some cur.id) :
    (takeFinalLength len s).sched.current = s.sched.current := by
  simp only [takeFinalLength]
  split
  · rename_i id cur extension current
    split
    · rename_i same
      rcases h with none | other
      · cases extension.symm.trans none
      · exact absurd (same ▸ extension) (other cur current)
    · rfl
  · rfl

/-- A defect record that closes: its mark keeps no SENSOR reason, and an unmerged mark's length goes to the schedule (R19, R40). -/
theorem closeSensorDefect_of_open {s : State} {len : Nat} (h : s.web.sensorDefect = some len) : closeSensorDefect s =
    if (sensorMark s).any fun m => !m.merged then
      takeFinalLength len (s.setWeb { s.web with
        sensorDefect := none, marks := s.web.marks.map fun m => { m with openSensor := false } })
    else s.setWeb { s.web with sensorDefect := none, marks := s.web.marks.map fun m => { m with openSensor := false } } := by
  simp only [closeSensorDefect, h]
  cases sensorMark s with
  | none => rfl
  | some m => cases merged : m.merged <;> simp [merged]

theorem closeSensorDefect_web {s : State} (h : s.web.sensorDefect.isSome = true) : (closeSensorDefect s).web =
    { s.web with sensorDefect := none, marks := s.web.marks.map fun m => { m with openSensor := false } } := by
  obtain ⟨len, closed⟩ := Option.isSome_iff_exists.mp h
  rw [closeSensorDefect_of_open closed]
  split <;> simp

/-- A defect that ends with nothing open and nothing stuck changes nothing (R18, R19). -/
theorem defectEnds_of_shut {s : State}
    (h : s.cfg.sensorFitted = false ∨ (s.web.sensorDefect = none ∧ s.web.sensorStuck = false)) : defectEnds s = s := by
  rcases h with bare | ⟨closed, free⟩
  · simp [defectEnds, bare]
  · have same : setStuck false s = s := by
      obtain ⟨now, cfg, enc, ⟨marks, nextEntry, defect, stuck⟩⟩ := s
      cases free
      rfl
    have kept : closeSensorDefect s = s := by simp only [closeSensorDefect, closed]
    rw [defectEnds, kept, same]
    exact ite_self s

/-- What DEFECT_REPORT answers: whether the mark has a record of its own, and which record took it (R20). -/
theorem entering_data (s : State) : uns 1 (entering s).code ++ uns 2 (entering s).entry =
    if s.web.marks.length < 128 then uns 1 0 ++ uns 2 s.web.nextEntry
    else uns 1 1 ++ uns 2 (((s.web.marks.filter Mark.isReject).getLast?.map Mark.entry).getD 0) := by
  by_cases room : s.web.marks.length < 128
  · have : entering s = .placed s.web.nextEntry := if_pos room
    rw [this, if_pos room]
    rfl
  · have : entering s = .merged (((s.web.marks.filter Mark.isReject).getLast?.map Mark.entry).getD 0) := if_neg room
    rw [this, if_neg room]
    rfl

/-- Settles O17. -/
theorem defectsEnterMarks : Obligations.DefectsEnterMarks := by
  refine ⟨fun s => ⟨fun fitted closed free => ?_, fun shut => ?_, fun fitted isOpen => ?_, fun fitted closed => ?_, fun shut => ?_⟩,
    fun tag p l t s free => ⟨fun beyond => ?_, fun pos lead trail => ?_⟩⟩
  · have entered : (begin s).cfg.sensorFitted = true ∧ (begin s).web.sensorDefect = none ∧ (begin s).web.sensorStuck = false :=
      ⟨fitted, closed, free⟩
    rw [exec_defectBegins, defectBegins, if_pos entered]
    rfl
  · have refused : ¬((begin s).cfg.sensorFitted = true ∧ (begin s).web.sensorDefect = none ∧
        (begin s).web.sensorStuck = false) := by
      rintro ⟨fitted, closed, free⟩
      simp only [begin_fields] at fitted closed free
      simp [fitted, closed, free] at shut
    show exec _ s = _
    rw [exec_defectBegins, defectBegins, if_neg refused]
  · have ended : defectEnds (begin s) = setStuck false (closeSensorDefect (begin s)) := if_pos fitted
    refine ⟨_, exec_defectEnds s, ?_, ?_, fun len m cur size found own extension current => ?_, fun h => ?_⟩
    · rw [(settle_frame _).2.2.2.1, ended]
      simp only [setStuck, State.setWeb, closeSensorDefect_web (s := begin s) isOpen, begin_fields]
    · obtain ⟨len, size⟩ := Option.isSome_iff_exists.mp isOpen
      rw [(settle_frame _).2.2.2.2.1, ended]
      show (closeSensorDefect (begin s)).sched.openExtension = _
      rw [closeSensorDefect_of_open (s := begin s) size]
      show _ = if (sensorMark (begin s)).any _ = true then _ else _
      split
      · exact takeFinalLength_extension _ _
      · rfl
    · have unmerged : ((sensorMark (begin s)).any fun m => !m.merged) = true := by
        show ((sensorMark s).any fun m => !m.merged) = true
        simp [found, own]
      rw [(settle_frame _).2.2.2.2.1, ended]
      show (closeSensorDefect (begin s)).sched.current = _
      rw [closeSensorDefect_of_open (s := begin s) size, if_pos unmerged]
      exact takeFinalLength_of_current len extension current
    · obtain ⟨len, size⟩ := Option.isSome_iff_exists.mp isOpen
      rw [(settle_frame _).2.2.2.2.1, ended]
      show (closeSensorDefect (begin s)).sched.current = _
      rw [closeSensorDefect_of_open (s := begin s) size]
      split
      · rename_i unmerged
        refine takeFinalLength_of_other len (h.resolve_left fun merged => ?_)
        rw [Option.any_eq_true] at unmerged
        obtain ⟨m, found, own⟩ := unmerged
        rw [show sensorMark s = some m from found] at merged
        simp_all
      · rfl
  · have ended : defectEnds (begin s) = { begin s with web := { s.web with sensorStuck := false } } := by
      simp only [defectEnds, begin_fields, fitted, if_true, closeSensorDefect, closed, setStuck]
      rfl
    rw [exec_defectEnds, ended]
  · show exec _ s = _
    rw [exec_defectEnds, defectEnds_of_shut (s := begin s) shut]
  · exact refuses_of_plain (exec_defectReport tag p l t s free) (by simp only [defectReport, begin_fields, beyond, if_true])
  · refine next_of_answer (exec_defectReport tag p l t s free) ?_
    have within : ¬(s.cfg.pk ≤ p.toNat ∨ 50000 < l.toNat ∨ 50000 < t.toNat) := by omega
    simp only [defectReport, begin_fields, within, if_false]
    rw [entering_data]
    rfl

end Sys2Proof.Machine
end

