-- ==== Sys2Proof/Proofs/OrdersAndSetups.lean ====
section
/-! PROOFS. The rest of the order table and the setup queue: release, cancellation and closure of orders, the queries, SETUP_QUEUE
and SETUP_WITHDRAW. -/

namespace Sys2Proof.Machine

open Sys2Proof

/-! ## ORDER_RELEASE, ORDER_CANCEL and closure -/

section
variable {id : Nat} {s : State} {r : OrderRec}

theorem orderRelease_of_missing (h : findOrder s id = none) : orderRelease id s = (s, .plain .notFound) := by
  simp only [orderRelease, h]

theorem orderRelease_of_found (h : findOrder s id = some r) : orderRelease id s =
    if r.state ≠ .closed ∨ stackerHolds s id .u = true ∨ stackerHolds s id .l = true then (s, .plain .wrongState)
    else (s.setSched { s.sched with orders := s.sched.orders.filter fun q => q.id != id }, .plain .ok) := by
  simp only [orderRelease, h]

theorem orderCancel_of_missing (h : findOrder s id = none) : orderCancel id s = (s, .plain .notFound) := by
  simp only [orderCancel, h]

theorem orderCancel_of_fixed (h : findOrder s id = some r) (fixed : r.state = .closed ∨ namedAhead s id = true) :
    orderCancel id s = (s, .plain .wrongState) := by
  simp only [orderCancel, h, fixed, if_true]

/-- An order that may be cancelled and is not yet: QUEUED, it becomes FED and is tested for closure (R28). -/
theorem orderCancel_of_open (h : findOrder s id = some r) (fixed : ¬(r.state = .closed ∨ namedAhead s id = true)) :
    orderCancel id s = if r.cancel then (s, .plain .ok)
      else if r.state = .queued then
        (closureTest id (updateOrder id (fun q => { q with cancel := true, state := .fed }) s), .plain .ok)
      else (updateOrder id (fun q => { q with cancel := true }) s, .plain .ok) := by
  simp only [orderCancel, h, fixed, if_false]

theorem closureTest_of_found (h : findOrder s id = some r) :
    closureTest id s = if mayClose s r then closeOrder r s else s := by
  simp only [closureTest, h]

theorem closeOrder_sched (r : OrderRec) (s : State) : (closeOrder r s).sched =
    { s.sched with orders := s.sched.orders.map fun q =>
        if q.id = r.id then { q with state := .closed, outcome := some (closureOutcome r) } else q } := by
  simp [closeOrder, updateOrder]

end

theorem findOrder_id {s : State} {o : Nat} {r : OrderRec} (h : findOrder s o = some r) : r.id = o := by
  simpa using List.find?_some h

/-- Settles O20. -/
theorem orderCancelReleaseAndClosure : Obligations.OrderCancelReleaseAndClosure := by
  refine ⟨fun tag id s free => ?_, fun tag id s free => ?_, fun o r s found => ⟨fun stays => ?_, fun closes => ?_⟩⟩
  · have request := exec_orderRelease tag id s free
    refine ⟨fun missing => refuses_of_plain request (orderRelease_of_missing missing), fun r found => ⟨fun kept => ?_, fun closed out => ?_⟩⟩
    · exact refuses_of_plain request (by rw [orderRelease_of_found (s := begin s) found]; exact if_pos kept)
    · refine next_of_answer request ((orderRelease_of_found (s := begin s) found).trans (if_neg ?_))
      exact fun kept => kept.elim (fun n => n closed) out
  · have request := exec_orderCancel tag id s free
    refine ⟨fun missing => refuses_of_plain request (orderCancel_of_missing missing), fun r found =>
      ⟨fun fixed => refuses_of_plain request (orderCancel_of_fixed found fixed), ?_⟩⟩
    have opened : r.state ≠ .closed → namedAhead s id.toNat = false → orderCancel id.toNat (begin s) = _ :=
      fun unclosed behind => orderCancel_of_open (s := begin s) found fun fixed =>
        fixed.elim unclosed fun ahead => Bool.false_ne_true (behind.symm.trans ahead)
    refine ⟨fun unclosed behind again => ?_, fun queued behind first => ?_, fun running behind first => ?_⟩
    · exact next_of_answer request ((opened unclosed behind).trans (if_pos again))
    · refine next_of_answer request ((opened (by simp [queued]) behind).trans ?_)
      rw [first, if_neg Bool.false_ne_true, if_pos queued]
      rfl
    · refine next_of_answer request ((opened (by rcases running with h | h <;> simp [h]) behind).trans ?_)
      rw [first, if_neg Bool.false_ne_true, if_neg (by rcases running with h | h <;> simp [h])]
      rfl
  · rw [closureTest_of_found found, stays, if_neg Bool.false_ne_true]
  · rw [closureTest_of_found found, if_pos closes, closeOrder_sched, findOrder_id found]
    rfl

/-! ## The queries -/

/-- Settles O21: each query keeps the state and answers the fields of the record it finds. -/
theorem scheduleQueriesShowTables : Obligations.ScheduleQueriesShowTables := by
  refine fun tag o id s free => ⟨fun missing => ?_, fun r found => ?_, fun missing => ?_, fun t found => ?_, ?_⟩
  · have none : findOrder (begin s) o.toNat = none := missing
    exact refuses_of_plain (exec_orderQuery tag o s free) (by simp only [orderQuery, none])
  · have some : findOrder (begin s) o.toNat = some r := found
    exact next_of_answer (exec_orderQuery tag o s free) (by simp only [orderQuery, some])
  · have none : findSetup (begin s) id.toNat = none := missing
    exact refuses_of_plain (exec_setupQuery tag id s free) (by simp only [setupQuery, none])
  · have some : findSetup (begin s) id.toNat = some t := found
    refine next_of_answer (exec_setupQuery tag id s free) ?_
    simp only [setupQuery, some]
    rfl
  · exact next_of_answer (exec_scheduleRead tag s free) rfl

/-! ## SETUP_QUEUE -/

/-- What SETUP_QUEUE does with a new setup that has a place in the table: the checks of its orders, its fit and its length (R31). -/
def admitSetup (t : Setup) (s : State) : State × Answer :=
  match ordersUsable s t.orderIds with
  | .ok =>
    if !patternFits s t then (s, .plain .patternUnfit)
    else if t.planned < s.cfg.minSetup then (s, .plain .shortSetup)
    else (stationsTakeQueue (replanAll (activate .fed t.orderIds (s.setSched { s.sched with queued := s.sched.queued ++ [t] }))),
      { code := .ok, data := uns 6 t.planned ++ uns 1 s.sched.queued.length })
  | r => (s, .plain r)

section
variable {id orderU targetU presentL orderL targetL deckle boundary grade waste : Nat} {slits scores : List Nat} {s : State}

theorem setupQueue_of_unconfigured (h : s.store.configured = false) :
    setupQueue id orderU targetU presentL orderL targetL deckle boundary grade waste slits scores s =
      (s, .plain .unconfigured) := by
  simp only [setupQueue, configured, h, Bool.not_false, if_true]

theorem setupQueue_of_not_ranged (h : s.store.configured = true)
    (beyond : setupInRange id orderU targetU presentL orderL targetL deckle boundary grade waste slits scores = false) :
    setupQueue id orderU targetU presentL orderL targetL deckle boundary grade waste slits scores s =
      (s, .plain .outOfRange) := by
  simp only [setupQueue, configured, h, beyond, Bool.not_true, Bool.not_false, Bool.false_eq_true, if_false, if_true]

/-- The planned length of a request is that of its one or two lanes (R31). -/
theorem plannedLength_of_runs (s : State) (t : Setup) : plannedLength s t =
    t.waste + max (laneLength s t.runU.order t.runU.target) ((t.runL.map fun r => laneLength s r.order r.target).getD 0) := by
  cases lower : t.runL <;> simp [plannedLength, Setup.runs, lower]

/-- In range, the answer turns on the table and then on the setup itself (R31). -/
theorem setupQueue_of_ranged (h : s.store.configured = true)
    (within : setupInRange id orderU targetU presentL orderL targetL deckle boundary grade waste slits scores = true) :
    setupQueue id orderU targetU presentL orderL targetL deckle boundary grade waste slits scores s =
      if (findSetup s id).isSome then (s, .plain .duplicate)
      else if 16 ≤ (setupOrder s).length then (s, .plain .tableFull)
      else admitSetup (requestedSetup s id orderU targetU (if presentL = 0 then none else some (orderL, targetL)) deckle
        (if presentL = 0 then none else some boundary) grade waste slits scores) s := by
  simp only [setupQueue, configured, h, within, Bool.not_true, Bool.false_eq_true, if_false, plannedLength_of_runs]
  by_cases one : presentL = 0 <;> simp only [one, if_true, if_false] <;> rfl

end

theorem ordersUsable_of_missing {s : State} {os : List Nat} (h : ∃ o ∈ os, findOrder s o = none) :
    ordersUsable s os = .notFound := by
  have missing : (os.any fun o => (findOrder s o).isNone) = true := by simpa using h
  simp only [ordersUsable, missing, if_true]

/-- Orders that all exist are usable unless one is CLOSED or cancelled (R31). -/
theorem ordersUsable_of_found {s : State} {os : List Nat} (h : ∀ o ∈ os, (findOrder s o).isSome = true) :
    ordersUsable s os =
      if os.any fun o => (findOrder s o).any fun r => r.state == .closed || r.cancel then .wrongState else .ok := by
  have present : (os.any fun o => (findOrder s o).isNone) = false := by
    simp only [List.any_eq_false, Option.isNone_iff_eq_none]
    intro o mem none
    simpa [none] using h o mem
  simp only [ordersUsable, present, Bool.false_eq_true, if_false]

section
variable {t : Setup} {s : State}

theorem admitSetup_of_missing (h : ∃ o ∈ t.orderIds, findOrder s o = none) : admitSetup t s = (s, .plain .notFound) := by
  simp only [admitSetup, ordersUsable_of_missing h]

theorem admitSetup_of_ended (h : ∀ o ∈ t.orderIds, (findOrder s o).isSome = true)
    (ended : ∃ o ∈ t.orderIds, ∃ r, findOrder s o = some r ∧ (r.state = .closed ∨ r.cancel = true)) :
    admitSetup t s = (s, .plain .wrongState) := by
  have some : (t.orderIds.any fun o => (findOrder s o).any fun r => r.state == .closed || r.cancel) = true := by
    simpa [Option.any_eq_true] using ended
  simp only [admitSetup, ordersUsable_of_found h, some, if_true]

theorem admitSetup_of_usable (h : ∀ o ∈ t.orderIds, (findOrder s o).isSome = true)
    (open_ : ∀ o ∈ t.orderIds, ∀ r, findOrder s o = some r → r.state ≠ .closed ∧ r.cancel = false) :
    admitSetup t s = if !patternFits s t then (s, .plain .patternUnfit)
      else if t.planned < s.cfg.minSetup then (s, .plain .shortSetup)
      else (stationsTakeQueue (replanAll (activate .fed t.orderIds (s.setSched { s.sched with queued := s.sched.queued ++ [t] }))),
        { code := .ok, data := uns 6 t.planned ++ uns 1 s.sched.queued.length }) := by
  have none : (t.orderIds.any fun o => (findOrder s o).any fun r => r.state == .closed || r.cancel) = false := by
    simpa [Option.any_eq_false] using open_
  simp only [admitSetup, ordersUsable_of_found h, none, Bool.false_eq_true, if_false]

end

/-! ## SETUP_WITHDRAW -/

theorem setupWithdraw_of_queued {id : Nat} {s : State} {t : Setup} (h : s.sched.queued.find? (fun q => q.id == id) = some t) :
    setupWithdraw id s = (stationsTakeQueue (giveUpWithdrawn id .b (giveUpWithdrawn id .a (replanAll (feedOrders t.orderIds
      (s.setSched { s.sched with queued := s.sched.queued.filter fun q => q.id != id }))))), .plain .ok) := by
  simp only [setupWithdraw, h]

theorem setupWithdraw_of_not_queued {id : Nat} {s : State} (h : s.sched.queued.find? (fun q => q.id == id) = none) :
    setupWithdraw id s = if (findSetup s id).isSome then (s, .plain .wrongState) else (s, .plain .notFound) := by
  simp only [setupWithdraw, h]

/-- A setup that is nowhere is not in the queue either. -/
theorem queued_none_of_findSetup {id : Nat} {s : State} (h : findSetup s id = none) :
    s.sched.queued.find? (fun q => q.id == id) = none := by
  simp only [findSetup, setupOrder, List.find?_append, Option.or_eq_none_iff] at h
  exact h.2

/-- Settles O22, check by check in the order of R31. -/
theorem setupQueueAndWithdraw : Obligations.SetupQueueAndWithdraw := by
  refine ⟨fun tag id oU tU pL oL tL d b g w slits scores s free fewSlits fewScores => ?_, fun tag id s free => ?_⟩
  · have request := exec_setupQueue tag id oU tU pL oL tL d b g w slits scores s fewSlits fewScores free
    intro c ps qs ranged lower t refuses
    have upperOnly : pL.toNat = 0 ↔ pL = 0#8 := by bv_omega
    refine ⟨fun bare => refuses_of_plain request (setupQueue_of_unconfigured bare),
      fun conf beyond => refuses_of_plain request (setupQueue_of_not_ranged conf beyond), fun conf within => ?_⟩
    have checked := setupQueue_of_ranged (s := begin s) conf within
    simp only [upperOnly] at checked
    refine ⟨fun taken => refuses_of_plain request (checked.trans (if_pos taken)), fun fresh => ?_⟩
    replace checked := checked.trans (if_neg (by show ¬(findSetup s id.toNat).isSome = true; simp [fresh]))
    refine ⟨fun full => refuses_of_plain request (checked.trans (if_pos full)), fun room => ?_⟩
    replace checked := checked.trans (if_neg (Nat.not_le.mpr room))
    refine ⟨fun missing => refuses_of_plain request (checked.trans (admitSetup_of_missing (t := t) (s := begin s) missing)),
      fun present => ?_⟩
    refine ⟨fun ended => refuses_of_plain request
      (checked.trans (admitSetup_of_ended (t := t) (s := begin s) present ended)), fun usable => ?_⟩
    replace checked := checked.trans (admitSetup_of_usable (t := t) (s := begin s) present usable)
    refine ⟨fun unfit => refuses_of_plain request (checked.trans (if_pos (by show (!patternFits s t) = true; simp [unfit]))),
      fun fits short => ?_, fun fits long => ?_⟩
    all_goals replace checked := checked.trans (if_neg (by show ¬(!patternFits s t) = true; simp [fits]))
    · exact refuses_of_plain request (checked.trans (if_pos short))
    · exact next_of_answer request (checked.trans (if_neg (Nat.not_lt.mpr long)))
  · have request := exec_setupWithdraw tag id s free
    refine ⟨fun t queued => next_of_answer request (setupWithdraw_of_queued (s := begin s) queued),
      fun unqueued live => refuses_of_plain request ?_, fun gone => refuses_of_plain request ?_⟩
    · exact (setupWithdraw_of_not_queued (s := begin s) unqueued).trans (if_pos live)
    · refine (setupWithdraw_of_not_queued (s := begin s) (queued_none_of_findSetup gone)).trans (if_neg ?_)
      show ¬(findSetup s id.toNat).isSome = true
      simp [gone]

end Sys2Proof.Machine
end

