-- ==== Sys2Proof/Proofs/Stands.lean ====
section
/-! PROOFS. The reel stands: readings, the splice cycle, the plan and the firing test, breaks, and the stands' requests. -/

namespace Sys2Proof.Machine

open Sys2Proof

/-! ## Field commands -/

/-- A field command is its event, then the close of the event. -/
theorem exec_of_field {c : Instr} {s t : State} (frame : c.frame = none) (h : fieldEvent c (begin s) = t) :
    exec c s = .next (settle t) := by
  rw [exec_of_no_frame c s frame, ← h]
  rfl

theorem ignored_of_field {c : Instr} {s : State} (frame : c.frame = none) (h : fieldEvent c (begin s) = begin s) :
    Ignored c s := exec_of_field frame h

/-- An account saturates at 48 bits (R160). -/
theorem raised_eq (n k : Nat) : raised n k = min (2 ^ 48 - 1) (n + k) := Nat.min_comm _ _

/-! ## Readings -/

section
variable {i : Fin 6} {d : Nat} {s : State} {r : RunningReel}

theorem diameterReading_of_idle (h : (s.cfg.stands.get i).isPresent = false ∨ (s.stands.get i).running = none) :
    diameterReading i d s = s := by
  rcases h with absent | empty
  · simp only [diameterReading, slotPresent, absent]
  · simp only [diameterReading, empty]
    split
    · rename_i some
      cases some
    · rfl

theorem diameterReading_of_running (present : (s.cfg.stands.get i).isPresent = true)
    (running : (s.stands.get i).running = some r) : diameterReading i d s =
      if r.refuses d then s.setStands (s.stands.set i { s.stands.get i with refused := sat 65535 ((s.stands.get i).refused + 1) })
      else exhaustionTest i (planStand i (lowTest i (setStand i { s.stands.get i with
        running := some { r with last := d, usable := usableLength (s.cfg.stands.get i) d r.core r.caliper } } s))) := by
  simp only [diameterReading, slotPresent, present, running]

theorem refuses_iff (r : RunningReel) (d : Nat) :
    r.refuses d = true ↔ r.loaded < d ∨ r.last * 102 < d * 100 ∨ d < r.core := by
  simp [RunningReel.refuses, or_assoc]

end

/-- Settles O24. -/
theorem diameterReadingTakenOrRefused : Obligations.DiameterReadingTakenOrRefused := by
  refine fun i d s => ⟨fun idle => ignored_of_field rfl (diameterReading_of_idle (s := begin s) idle), fun r present running => ?_⟩
  have read := diameterReading_of_running (d := d) (s := begin s) present running
  refine ⟨fun refused => exec_of_field rfl ?_, fun loaded last core => exec_of_field rfl ?_⟩
  · refine (read.trans (if_pos ((refuses_iff r d).mpr refused))).trans ?_
    rw [sat, Nat.min_comm]
    rfl
  · refine read.trans (if_neg fun refused => ?_)
    have := (refuses_iff r d).mp refused
    omega

/-! ## The splice cycle -/

theorem standbyPrepared_of_loaded {i : Fin 6} {s : State} (present : (s.cfg.stands.get i).isPresent = true)
    (loaded : (s.stands.get i).state = .loaded) :
    standbyPrepared i s = planStand i (setStand i { s.stands.get i with state := .ready } s) := if_pos ⟨present, loaded⟩

theorem standbyPrepared_of_not_loaded {i : Fin 6} {s : State}
    (h : (s.cfg.stands.get i).isPresent = false ∨ (s.stands.get i).state ≠ .loaded) : standbyPrepared i s = s := by
  refine if_neg fun ⟨present, loaded⟩ => ?_
  rcases h with absent | other
  · exact Bool.false_ne_true (absent.symm.trans present)
  · exact other loaded

theorem spliceConfirmed_of_not_firing {i : Fin 6} {s : State}
    (h : (s.cfg.stands.get i).isPresent = false ∨ (s.stands.get i).state ≠ .firing) : spliceConfirmed i s = s := by
  simp only [spliceConfirmed, slotPresent]
  split
  · rename_i present firing _ _ _
    rcases h with absent | other
    · exact absurd (absent.symm.trans present) Bool.false_ne_true
    · exact absurd firing other
  · rfl

/-- The stand after its splice is confirmed: the standby reel runs, and its joint is on the web path (R60). -/
def Stand.spliced (cfg : StandCfg) (sb : StandbyReel) (st : Stand) : Stand :=
  { st with running := some { id := sb.id, loaded := sb.diameter, core := sb.core, caliper := sb.caliper, last := sb.diameter,
                              usable := usableLength cfg sb.diameter sb.core sb.caliper }
            standby := none, state := .empty, plan := none, joint := some (webPathBoard cfg), late := false, refused := 0,
            timer := none }

theorem spliceConfirmed_of_firing {i : Fin 6} {s : State} {old : RunningReel} {sb : StandbyReel} {plan : SplicePlan}
    (present : (s.cfg.stands.get i).isPresent = true) (firing : (s.stands.get i).state = .firing)
    (running : (s.stands.get i).running = some old) (standby : (s.stands.get i).standby = some sb)
    (planned : (s.stands.get i).plan = some plan) : spliceConfirmed i s =
      lowTest i (countEvent .splices (countSplice i plan.kind (notice 0xC8#8
        (uns 1 i ++ uns 1 plan.kind.code ++ uns 4 old.id ++ uns 4 sb.id ++
          uns 4 (usableLength (s.cfg.stands.get i) sb.diameter sb.core sb.caliper) ++
          uns 3 (webPathBoard (s.cfg.stands.get i)))
        (setStand i ((s.stands.get i).spliced (s.cfg.stands.get i) sb) s)))) := by
  simp only [spliceConfirmed, slotPresent, present, firing, running, standby, planned]
  rfl

theorem spliceTimeout_of_firing {i : Fin 6} {s : State} {due : Nat} (firing : (s.stands.get i).state = .firing)
    (timer : (s.stands.get i).timer = some due) : spliceTimeout i s =
      notice 0xC9#8 (uns 1 i ++ idOr0 4 ((s.stands.get i).standby.map StandbyReel.id))
        (setStand i { s.stands.get i with state := .fault, plan := none, timer := none } (reachTime due s)) := by
  simp only [spliceTimeout, firing, timer]

theorem spliceTimeout_of_idle {i : Fin 6} {s : State}
    (h : (s.stands.get i).state ≠ .firing ∨ (s.stands.get i).timer = none) : spliceTimeout i s = s := by
  simp only [spliceTimeout]
  split
  · rename_i due firing timer
    rcases h with other | none
    · exact absurd firing other
    · cases none.symm.trans timer
  · rfl

section
variable {i : Fin 6} {s : State}

theorem jointSensed_of_pending (fitted : (s.cfg.stands.get i).isPresent = true ∧ (s.cfg.stands.get i).jointSensor = true)
    (pending : (s.stands.get i).joint.isSome = true) : jointSensed i s = placeJoint i .sensed 0 0 s := by
  simp only [jointSensed, slotPresent, fitted.1, fitted.2, Bool.and_self, if_true, pending]

theorem jointSensed_of_late (fitted : (s.cfg.stands.get i).isPresent = true ∧ (s.cfg.stands.get i).jointSensor = true)
    (placed : (s.stands.get i).joint = none) (late : (s.stands.get i).late = true) : jointSensed i s =
      (setStand i { s.stands.get i with late := false } s).setAccounts
        { s.accounts with lateJoints := raised s.accounts.lateJoints 1 } := by
  simp [jointSensed, slotPresent, fitted.1, fitted.2, placed, late]

theorem jointSensed_of_idle (h : ¬((s.cfg.stands.get i).isPresent = true ∧ (s.cfg.stands.get i).jointSensor = true) ∨
    (s.stands.get i).joint = none ∧ (s.stands.get i).late = false) : jointSensed i s = s := by
  rcases h with unfitted | ⟨placed, early⟩
  · have none : ¬(slotPresent s i && (s.cfg.stands.get i).jointSensor) = true := by
      simpa [slotPresent] using unfitted
    exact if_neg none
  · simp [jointSensed, placed, early]

end

/-- Settles O25. -/
theorem spliceCycleInputs : Obligations.SpliceCycleInputs := by
  refine ⟨fun i s => ⟨fun present loaded => exec_of_field rfl (standbyPrepared_of_loaded (s := begin s) present loaded),
      fun h => ignored_of_field rfl (standbyPrepared_of_not_loaded (s := begin s) h)⟩,
    fun i s => ⟨fun old sb plan present firing running standby planned => exec_of_field rfl
        (spliceConfirmed_of_firing (s := begin s) present firing running standby planned),
      fun h => ignored_of_field rfl (spliceConfirmed_of_not_firing (s := begin s) h)⟩,
    fun i s => ⟨fun due firing timer => exec_of_field rfl (spliceTimeout_of_firing (s := begin s) firing timer),
      fun h => ignored_of_field rfl (spliceTimeout_of_idle (s := begin s) h)⟩,
    fun i s => ⟨fun fitted pending => exec_of_field rfl ?_, fun fitted placed late => exec_of_field rfl ?_,
      fun h => ignored_of_field rfl (jointSensed_of_idle (s := begin s) h)⟩⟩
  · refine (jointSensed_of_pending (s := begin s) fitted pending).trans ?_
    simp only [placeJoint, isAbsorbed, raised_eq, Nat.add_zero, begin_fields]
  · refine (jointSensed_of_late (s := begin s) fitted placed late).trans ?_
    rw [raised_eq]
    rfl

/-! ## The plan and the firing test -/

section
variable {i : Fin 6} {s : State}

theorem computePlan_of_no_pair (h : s.sched.current = none ∨ s.sched.queued = []) :
    computePlan s i = { kind := .reserve, fire := (s.stands.get i).usable } := by
  simp only [computePlan]
  split
  · rename_i current queued
    rcases h with none | nil
    · cases none.symm.trans current
    · cases nil.symm.trans queued
  · rfl

theorem computePlan_of_pair {cur head : Setup} {rest : List Setup} (current : s.sched.current = some cur)
    (queued : s.sched.queued = head :: rest) : computePlan s i =
      if head.held = true ∨ head.waste < (s.cfg.stands.get i).jointTrail + (s.cfg.stands.get i).jointLead then
        { kind := .reserve, fire := (s.stands.get i).usable }
      else
        let cfg := s.cfg.stands.get i
        let x := (cur.planned - cur.produced) + cfg.jointLead + (head.waste - cfg.jointTrail - cfg.jointLead) / 2
        if webPathBoard cfg ≤ x ∧ x - webPathBoard cfg ≤ (s.stands.get i).usable ∧
            (s.stands.get i).usable - (x - webPathBoard cfg) ≤ cfg.sacrifice then
          { kind := .targeted, fire := x - webPathBoard cfg }
        else { kind := .reserve, fire := (s.stands.get i).usable } := by
  simp only [computePlan, current, queued, Bool.or_eq_true, decide_eq_true_eq]

theorem firingTest_fires {p : SplicePlan} (armed : (s.stands.get i).state = .armed) (plan : (s.stands.get i).plan = some p)
    (h : p.fire = 0 ∧ s.gov.reference ≤ (s.cfg.stands.get i).spliceSpeed ∧ (s.stands.get i).joint = none) :
    firingTest i s = setStand i { s.stands.get i with state := .firing, timer := some (s.now + (s.cfg.stands.get i).spliceTimeout) }
      (emit (.spliceFire i) s) := by
  simp only [firingTest, armed, plan, h, and_self, if_true]

theorem firingTest_waits {p : SplicePlan} (plan : (s.stands.get i).plan = some p)
    (h : p.fire ≠ 0 ∨ (s.cfg.stands.get i).spliceSpeed < s.gov.reference ∨ (s.stands.get i).joint.isSome = true) :
    firingTest i s = s := by
  have waits : ¬(p.fire = 0 ∧ s.gov.reference ≤ (s.cfg.stands.get i).spliceSpeed ∧ (s.stands.get i).joint = none) := by
    rintro ⟨zero, slow, placed⟩
    rcases h with far | fast | pending
    · exact far zero
    · exact Nat.not_lt.mpr slow fast
    · simp [placed] at pending
  simp only [firingTest, plan]
  split
  · rename_i q _ same
    cases same
    exact if_neg waits
  · rfl

/-- A change of what the governor reads of a stand asks for an evaluation (R49). -/
theorem setStand_evalDue (i : Fin 6) (st : Stand) (s : State) (h : (s.stands.get i).reading ≠ st.reading) :
    (setStand i st s).evalDue = true := by
  have differs : ((s.stands.get i).reading != st.reading) = true := by simpa using h
  simp only [setStand, differs]
  split <;> simp

end

/-- Settles O26. -/
theorem planAndFiring : Obligations.PlanAndFiring := by
  refine ⟨fun i s => ⟨fun cur head rest current queued free room => ?_, computePlan_of_no_pair, fun cur head rest current queued h => ?_⟩,
    fun i p s => ?_⟩
  · have plan := computePlan_of_pair (i := i) current queued
    rw [if_neg (by simp [free]; omega)] at plan
    intro x
    refine ⟨fun near far spare => ?_, fun out => ?_⟩
    · rw [plan]
      exact if_pos ⟨near, far, Nat.sub_le_iff_le_add'.mpr spare⟩
    · rw [plan]
      refine if_neg fun ⟨near, far, spare⟩ => ?_
      rcases out with early | short | long
      · exact Nat.not_lt.mpr near early
      · exact Nat.not_lt.mpr far short
      · exact Nat.not_lt.mpr (Nat.sub_le_iff_le_add'.mp spare) long
  · exact (computePlan_of_pair (i := i) current queued).trans (if_pos h)
  · intro st cfg armed plan
    refine ⟨fun zero slow placed => ?_, firingTest_waits plan⟩
    rw [firingTest_fires armed plan ⟨zero, slow, placed⟩]
    refine ⟨?_, by simp [emit], setStand_evalDue i _ _ fun same => ?_⟩
    · rw [setStand_stands]
      rfl
    · exact absurd (armed.symm.trans (congrArg Prod.fst same)) SpliceState.noConfusion

/-! ## Breaks -/

theorem planStand_keeps (i j : Fin 6) (s : State) (h : (s.stands.get i).state ≠ .ready) :
    (planStand j s).stands.get i = s.stands.get i := by
  by_cases same : i = j
  · subst same
    rw [planStand_of_not_ready i s h]
  · exact planStand_other j i s same

/-- A replan leaves a stand alone that is not READY (R56). -/
theorem replanAll_keeps (i : Fin 6) (s : State) (h : (s.stands.get i).state ≠ .ready) :
    (replanAll s).stands.get i = s.stands.get i := by
  suffices kept : ∀ (js : List (Fin 6)) (s : State), (s.stands.get i).state ≠ .ready →
      (js.foldl (fun s j => planStand j s) s).stands.get i = s.stands.get i from kept slots s h
  intro js
  induction js with
  | nil => exact fun _ _ => rfl
  | cons j js ih =>
    intro s h
    have kept := planStand_keeps i j s h
    rw [List.foldl_cons, ih _ (by rw [kept]; exact h), kept]

theorem raisePlanned_keeps (i : Fin 6) (k : Nat) (s : State) (h : (s.stands.get i).state ≠ .ready) :
    (raisePlanned k s).stands.get i = s.stands.get i := by
  simp only [raisePlanned]
  split
  · exact replanAll_keeps i _ h
  · rfl

theorem enterReject_keeps (i : Fin 6) (m : Mark) (s : State) (h : (s.stands.get i).state ≠ .ready) :
    (enterReject m s).stands.get i = s.stands.get i := by
  by_cases room : s.web.marks.length < 128
  · rw [enterReject_of_room m s room]
    split
    · rw [raisePlanned_keeps i _ _ (by simpa using h)]
      simp
    · simp
  · have full : ¬s.web.marks.length < Config.poolSize := room
    simp only [enterReject, full, if_false]
    split <;> rfl

/-- Whether a mark qualifies turns on the schedule and the web map alone (R39). -/
theorem qualifies_congr {u s : State} (sched : u.sched = s.sched) (web : u.web = s.web) (pos : Nat) :
    qualifies u pos = qualifies s pos := by
  have marks : ∀ id, runMark u id = runMark s id := fun id => by simp only [runMark, web]
  simp only [qualifies, sched, marks]

theorem breakCause_line (c : BreakCause) (s : State) :
    (breakCause c s).line = { s.line with condition := .brk, lastBreak := some c } := by
  simp only [breakCause]
  split
  · rename_i broken
    have condition : s.line.condition = .brk := by simpa using broken
    simp [← condition]
  · simp

theorem breakCause_of_broken (c : BreakCause) {s : State} (h : s.line.condition = .brk) :
    (breakCause c s).web = s.web ∧ (breakCause c s).sched = s.sched := by
  simp [breakCause, h]

/-- Outside BREAK a free record takes the BREAK mark at the join line (R155). -/
theorem breakCause_web (c : BreakCause) {s : State} (h : s.line.condition ≠ .brk) (room : s.web.marks.length < 128) :
    (breakCause c s).web = { s.web with
      marks := insertMark { breakMark with entry := s.web.nextEntry, covered := qualifies s 0, merged := false } s.web.marks
      nextEntry := (s.web.nextEntry + 1) % 65536 } := by
  have outside : (s.line.condition == .brk) = false := by simpa using h
  simp only [breakCause, outside, Bool.false_eq_true, if_false, breakNotice_frame]
  rw [enterReject_web _ _ (by simpa using room), qualifies_congr (s := s) (by simp) (by simp)]
  simp [breakMark]

theorem breakCause_keeps (i : Fin 6) (c : BreakCause) (s : State) (h : (s.stands.get i).state ≠ .ready) :
    (breakCause c s).stands.get i = s.stands.get i := by
  simp only [breakCause]
  split
  · simp
  · rw [(breakNotice_frame _ _ _ _).2.2.2.2.2.1, enterReject_keeps i _ _ (by simpa using h)]
    simp

/-- A stand that is not ARMED comes through the close of the event unchanged (R59). -/
theorem settle_keeps (i : Fin 6) (s : State) (h : (s.stands.get i).state ≠ .armed) :
    (settle s).stands.get i = s.stands.get i := by
  obtain ⟨_, _, _, _, _, _, _, _, _, _, _, _, _, _, _, _, stands⟩ := (endOfEventKeepsBlocks s).1
  exact (stands i).resolve_right fun fired => h fired.1

/-- The web-break input takes the stand to BROKEN before the line takes the cause (R63, log 36). -/
def brokenStand (i : Fin 6) (s : State) : State :=
  if (s.stands.get i).state = .broken then s else
    setStand i { s.stands.get i with
      state := .broken, plan := none, timer := none, joint := none, late := false, reloaded := false } s

theorem brokenStand_fields (i : Fin 6) (s : State) :
    (brokenStand i s).line = s.line ∧ (brokenStand i s).web = s.web ∧ (brokenStand i s).sched = s.sched ∧
    ((s.stands.get i).state ≠ .broken → (brokenStand i s).stands.get i = { s.stands.get i with
      state := .broken, plan := none, timer := none, joint := none, late := false, reloaded := false }) := by
  simp only [brokenStand]
  split
  · rename_i broken
    exact ⟨rfl, rfl, rfl, fun other => absurd broken other⟩
  · simp

theorem webBreak_of_present {i : Fin 6} {s : State} (h : (s.cfg.stands.get i).isPresent = true) :
    webBreak i s = breakCause (.web i) (brokenStand i s) := if_pos h

/-- What either break input does to the line and the web map, at the close of its event. -/
theorem break_taken (c : BreakCause) {u s : State} (line : u.line = s.line) (web : u.web = s.web) (sched : u.sched = s.sched) :
    (settle (breakCause c u)).line = { s.line with condition := .brk, lastBreak := some c } ∧
    (s.line.condition = .brk → (settle (breakCause c u)).web = s.web ∧ (settle (breakCause c u)).sched = s.sched) ∧
    (s.line.condition ≠ .brk → s.web.marks.length < 128 → (settle (breakCause c u)).web = { s.web with
      marks := insertMark { entry := s.web.nextEntry, kind := .brk, pos := 0, lead := 0, trail := 0, openSensor := false,
                            openBreak := true, covered := qualifies s 0, merged := false } s.web.marks
      nextEntry := (s.web.nextEntry + 1) % 65536 }) := by
  have place := qualifies_congr sched web 0
  simp only [settle_frame]
  refine ⟨by rw [breakCause_line, line], fun broken => ?_, fun outside room => ?_⟩
  · rw [← line] at broken
    rw [(breakCause_of_broken c broken).1, (breakCause_of_broken c broken).2]
    exact ⟨web, sched⟩
  · rw [breakCause_web c (by rw [line]; exact outside) (by rw [web]; exact room), web, place]
    rfl

/-- Settles O27. -/
theorem breakTakesLineDown : Obligations.BreakTakesLineDown := by
  refine ⟨fun c cause s h => ?_, fun i s absent => ignored_of_field rfl (if_neg ?_)⟩
  · rcases h with ⟨rfl, rfl⟩ | ⟨i, rfl, rfl, present⟩
    · have link := settle_link (breakCause .board (begin s))
      obtain ⟨line, still, mark⟩ := break_taken .board (u := begin s) (s := s) rfl rfl rfl
      refine ⟨_, exec_of_field (t := breakCause .board (begin s)) rfl rfl, line, still, mark, fun i other => (nomatch other), ?_⟩
      simp only [breakCause_frame, begin_fields] at link
      simpa using link
    · obtain ⟨line, web, sched, broken⟩ := brokenStand_fields i (begin s)
      have link := settle_link (breakCause (.web i) (brokenStand i (begin s)))
      have taken : fieldEvent (.webBreak i) (begin s) = breakCause (.web i) (brokenStand i (begin s)) := webBreak_of_present present
      obtain ⟨line', still, mark⟩ := break_taken (.web i) (u := brokenStand i (begin s)) (s := s) line web sched
      refine ⟨_, exec_of_field rfl taken, line', still, mark, ?_, ?_⟩
      · rintro j same other
        cases same
        have stand := broken other
        have kept := breakCause_keeps i (.web i) (brokenStand i (begin s)) (by simp [stand])
        rw [settle_keeps i _ (by simp [kept, stand]), kept, stand]
        rfl
      · simp only [← taken, fieldEvent, webBreak_frame, begin_fields] at link ⊢
        simpa using link
  · simp [slotPresent, absent]

end Sys2Proof.Machine
end

