-- ==== Sys2Proof/Proofs/StandRequests.lean ====
section
/-! PROOFS. The requests on reel stands, and the layouts of STAND_QUERY and STATION_QUERY. -/

namespace Sys2Proof.Machine

open Sys2Proof

/-! ## The slot a request names -/

@[simp] theorem slot_toNat (i : Fin 6) : (BitVec.ofNat 8 i).toNat = i := by
  simp only [BitVec.toNat_ofNat]
  omega

section
variable {i : Fin 6} {n : Nat} {s : State}

theorem parseStand_of_present (h : (s.cfg.stands.get i).isPresent = true) : parseStand s i = .ok i := by
  simp [parseStand, slotPresent, h]

theorem parseStand_of_absent (h : (s.cfg.stands.get i).isPresent = false) : parseStand s i = .error .notFound := by
  simp [parseStand, slotPresent, h]

theorem parseStand_of_beyond (h : 5 < n) : parseStand s n = .error .outOfRange := by
  have beyond : ¬n < 6 := by omega
  simp [parseStand, beyond]

/-- The two ways a stand request names no stand (R48). -/
theorem parseStand_of_no_slot {r : Result} (h : (5 < n ∧ r = .outOfRange) ∨
    (∃ i : Fin 6, n = i ∧ (s.cfg.stands.get i).isPresent = false ∧ r = .notFound)) : parseStand s n = .error r := by
  rcases h with ⟨beyond, rfl⟩ | ⟨i, rfl, absent, rfl⟩
  · exact parseStand_of_beyond beyond
  · exact parseStand_of_absent absent

end

/-! ## REEL_LOAD -/

section
variable {i : Fin 6} {stand v reel d core cal : Nat} {s : State}

theorem reelLoad_of_beyond (h : 5 < stand) : reelLoad stand v reel d core cal s = (s, .plain .outOfRange) := by
  have beyond : ¬stand < 6 := by omega
  simp [reelLoad, beyond]

theorem reelLoad_of_unconfigured (h : s.store.configured = false) :
    reelLoad i v reel d core cal s = (s, .plain .unconfigured) := by
  simp [reelLoad, configured, h]

theorem reelLoad_of_absent (h : s.store.configured = true) (absent : (s.cfg.stands.get i).isPresent = false) :
    reelLoad i v reel d core cal s = (s, .plain .notFound) := by
  simp [reelLoad, configured, h, slotPresent, absent]

theorem reelLoad_of_not_ranged (h : s.store.configured = true) (present : (s.cfg.stands.get i).isPresent = true)
    (beyond : reelInRange v reel d core cal = false) : reelLoad i v reel d core cal s = (s, .plain .outOfRange) := by
  simp [reelLoad, configured, h, slotPresent, present, beyond]

theorem reelLoad_standby (h : s.store.configured = true) (present : (s.cfg.stands.get i).isPresent = true)
    (within : reelInRange v reel d core cal = true) (standby : v ≠ 0) : reelLoad i v reel d core cal s =
      if (s.stands.get i).state = .empty ∧ (s.stands.get i).running.isSome = true then
        (setStand i { s.stands.get i with
          standby := some { id := reel, diameter := d, core := core, caliper := cal }, state := .loaded } s, .plain .ok)
      else (s, .plain .wrongState) := by
  simp [reelLoad, configured, h, slotPresent, present, within, standby, Stand.feeding]
  rfl

theorem reelLoad_running (h : s.store.configured = true) (present : (s.cfg.stands.get i).isPresent = true)
    (within : reelInRange 0 reel d core cal = true)
    (idle : (s.stands.get i).state = .empty ∨ (s.stands.get i).state = .broken ∨ (s.stands.get i).state = .exhausted) :
    reelLoad i 0 reel d core cal s = (lowTest i (setStand i { s.stands.get i with
        running := some { id := reel, loaded := d, core := core, caliper := cal, last := d,
                          usable := usableLength (s.cfg.stands.get i) d core cal }
        refused := 0, lowWarned := false
        reloaded := if (s.stands.get i).state = .empty then (s.stands.get i).reloaded else true } s), .plain .ok) := by
  rcases idle with state | state | state <;> simp [reelLoad, configured, h, slotPresent, present, within, state]

theorem reelLoad_running_refused (h : s.store.configured = true) (present : (s.cfg.stands.get i).isPresent = true)
    (within : reelInRange 0 reel d core cal = true) (full : (s.stands.get i).state ≠ .empty)
    (whole : (s.stands.get i).state ≠ .broken) (feeding : (s.stands.get i).state ≠ .exhausted) :
    reelLoad i 0 reel d core cal s = (s, .plain .wrongState) := by
  simp [reelLoad, configured, h, slotPresent, present, within]

end

theorem reelInRange_iff (v reel d core cal : Nat) : reelInRange v reel d core cal = true ↔
    v ≤ 1 ∧ (1 ≤ reel ∧ reel ≤ 4294967295) ∧ (150 ≤ d ∧ d ≤ 2500) ∧ (50 ≤ core ∧ core ≤ 400) ∧ (80 ≤ cal ∧ cal ≤ 1500) ∧
      core < d := by
  simp [reelInRange, and_assoc]

/-! ## REEL_UNLOAD, SPLICE_FORCE and STAND_RESET -/

section
variable {i : Fin 6} {s : State}

theorem reelUnload_of_standby (present : (s.cfg.stands.get i).isPresent = true)
    (h : (s.stands.get i).state = .loaded ∨ (s.stands.get i).state = .ready) : reelUnload i s =
      (lowTest i (setStand i { s.stands.get i with standby := none, plan := none, state := .empty } s), .plain .ok) := by
  rcases h with state | state <;> simp only [reelUnload, parseStand_of_present present, state]

theorem reelUnload_refused (present : (s.cfg.stands.get i).isPresent = true) (unloaded : (s.stands.get i).state ≠ .loaded)
    (unready : (s.stands.get i).state ≠ .ready) : reelUnload i s = (s, .plain .wrongState) := by
  simp only [reelUnload, parseStand_of_present present]

theorem spliceForce_of_ready (present : (s.cfg.stands.get i).isPresent = true)
    (h : (s.stands.get i).state = .ready ∨ (s.stands.get i).state = .armed) : spliceForce i s =
      (firingTest i (setStand i { s.stands.get i with state := .armed, plan := some { kind := .reserve, fire := 0 } } s),
        .plain .ok) := by
  rcases h with state | state <;> simp only [spliceForce, parseStand_of_present present, state]

theorem spliceForce_refused (present : (s.cfg.stands.get i).isPresent = true) (unready : (s.stands.get i).state ≠ .ready)
    (unarmed : (s.stands.get i).state ≠ .armed) : spliceForce i s = (s, .plain .wrongState) := by
  simp only [spliceForce, parseStand_of_present present]

theorem standReset_of_fault (present : (s.cfg.stands.get i).isPresent = true) (h : (s.stands.get i).state = .fault) :
    standReset i s = (setStand i { s.stands.get i with state := .loaded } s, .plain .ok) := by
  simp only [standReset, parseStand_of_present present, h]

theorem standReset_of_broken (present : (s.cfg.stands.get i).isPresent = true)
    (h : (s.stands.get i).state = .broken ∨ (s.stands.get i).state = .exhausted) : standReset i s =
      if (s.stands.get i).reloaded then
        (setStand i { s.stands.get i with standby := none, joint := none, reloaded := false, late := false, state := .empty } s,
          .plain .ok)
      else (s, .plain .wrongState) := by
  rcases h with state | state <;> simp only [standReset, parseStand_of_present present, state]

theorem standReset_refused (present : (s.cfg.stands.get i).isPresent = true) (sound : (s.stands.get i).state ≠ .fault)
    (h : (s.stands.get i).state = .broken ∨ (s.stands.get i).state = .exhausted → (s.stands.get i).reloaded = false) :
    standReset i s = (s, .plain .wrongState) := by
  by_cases down : (s.stands.get i).state = .broken ∨ (s.stands.get i).state = .exhausted
  · rw [standReset_of_broken present down, h down, if_neg Bool.false_ne_true]
  · obtain ⟨whole, feeding⟩ := not_or.mp down
    have unbroken : (s.stands.get i).state ≠ .broken := whole
    have unspent : (s.stands.get i).state ≠ .exhausted := feeding
    simp only [standReset, parseStand_of_present present]

end

/-- Settles O28, request by request and check by check. -/
theorem reelAndStandRequests : Obligations.ReelAndStandRequests := by
  refine ⟨fun tag i v reel d core cal s free => ?_, fun tag n v reel d core cal s free beyond =>
      refuses_of_plain (exec_reelLoad tag n v reel d core cal s free) (reelLoad_of_beyond beyond), fun tag i s free present => ?_⟩
  · have request := exec_reelLoad tag (BitVec.ofNat 8 i) v reel d core cal s free
    rw [slot_toNat] at request
    intro c st cfg ranged
    have within : ranged ↔ reelInRange v.toNat reel.toNat d.toNat core.toNat cal.toNat = true := by
      have := reel.isLt
      simp only [ranged, reelInRange_iff]
      omega
    refine ⟨fun bare => refuses_of_plain request (reelLoad_of_unconfigured bare),
      fun conf absent => refuses_of_plain request (reelLoad_of_absent conf absent),
      fun conf present beyond => refuses_of_plain request (reelLoad_of_not_ranged conf present ?_), fun conf present fits => ?_⟩
    · exact Bool.not_eq_true _ ▸ mt within.mpr beyond
    · have inside := within.mp fits
      refine ⟨?_, ?_, ?_, ?_⟩
      · rintro rfl idle
        exact next_of_answer request (reelLoad_running conf present inside idle)
      · rintro rfl full whole feeding
        exact refuses_of_plain request (reelLoad_running_refused conf present inside full whole feeding)
      · rintro rfl empty feeding
        exact next_of_answer request
          ((reelLoad_standby (s := begin s) conf present inside (by decide)).trans (if_pos ⟨empty, feeding⟩))
      · rintro rfl other
        refine refuses_of_plain request ((reelLoad_standby (s := begin s) conf present inside (by decide)).trans (if_neg ?_))
        rintro ⟨empty, feeding⟩
        rcases other with full | bare
        · exact full empty
        · rw [show ((begin s).stands.get i).running = none from bare] at feeding
          cases feeding
  · have unload := exec_reelUnload tag (BitVec.ofNat 8 i) s free
    have force := exec_spliceForce tag (BitVec.ofNat 8 i) s free
    have reset := exec_standReset tag (BitVec.ofNat 8 i) s free
    rw [slot_toNat] at unload force reset
    refine ⟨fun loaded => next_of_answer unload (reelUnload_of_standby (s := begin s) present loaded),
      fun unloaded unready => refuses_of_plain unload (reelUnload_refused (s := begin s) present unloaded unready),
      fun ready => next_of_answer force (spliceForce_of_ready (s := begin s) present ready),
      fun unready unarmed => refuses_of_plain force (spliceForce_refused (s := begin s) present unready unarmed),
      fun fault => next_of_answer reset (standReset_of_fault (s := begin s) present fault),
      fun down reloaded => next_of_answer reset ((standReset_of_broken (s := begin s) present down).trans (if_pos reloaded)),
      fun sound bare => refuses_of_plain reset (standReset_refused (s := begin s) present sound bare)⟩

/-! ## Layouts -/

@[simp] theorem length_uns (n v : Nat) : (uns n v).length = n := length_le _ _
@[simp] theorem length_sgn (n : Nat) (z : Int) : (sgn n z).length = n := length_le _ _
@[simp] theorem length_flag (b : Bool) : (flag b).length = 1 := length_le _ _
@[simp] theorem length_idOr0 (n : Nat) (o : Option Nat) : (idOr0 n o).length = n := length_le _ _

theorem uns_one {v : Nat} (h : v < 256) : uns 1 v = [BitVec.ofNat 8 v] := uns_of_lt h

theorem bitOf_le (k : Nat) (b : Bool) : bitOf k b ≤ 2 ^ k := by
  cases b <;> simp [bitOf]

/-- Eight flags make one byte (R190). -/
theorem bits_lt (a b c d e f g h : Bool) : bitOf 0 a + bitOf 1 b + bitOf 2 c + bitOf 3 d + bitOf 4 e + bitOf 5 f + bitOf 6 g
    + bitOf 7 h < 256 := by
  have := bitOf_le 0 a
  have := bitOf_le 1 b
  have := bitOf_le 2 c
  have := bitOf_le 3 d
  have := bitOf_le 4 e
  have := bitOf_le 5 f
  have := bitOf_le 6 g
  have := bitOf_le 7 h
  omega

theorem Role.code_lt (r : Role) : r.code < 256 := by cases r <;> decide
theorem SpliceState.code_lt (r : SpliceState) : r.code < 256 := by cases r <;> decide

/-- The first four bytes of STAND_QUERY: the stand, its role, its state and its flags (Figure 12-5). -/
def standHead (i : Fin 6) (cfg : StandCfg) (st : Stand) : List Byte :=
  uns 1 i ++ uns 1 cfg.role.code ++ uns 1 st.state.code
    ++ uns 1 (bitOf 0 st.running.isSome + bitOf 1 st.standby.isSome + bitOf 2 st.plan.isSome
        + bitOf 3 (st.plan.any fun p => p.kind == .reserve) + bitOf 4 st.joint.isSome + bitOf 5 st.late
        + bitOf 6 st.reloaded + bitOf 7 st.lowWarned)

theorem length_standHead (i : Fin 6) (cfg : StandCfg) (st : Stand) : (standHead i cfg st).length = 4 := by
  simp [standHead]

theorem standHead_eq (i : Fin 6) (cfg : StandCfg) (st : Stand) : standHead i cfg st =
    [BitVec.ofNat 8 i, BitVec.ofNat 8 cfg.role.code, BitVec.ofNat 8 st.state.code,
      BitVec.ofNat 8 (bitOf 0 st.running.isSome + bitOf 1 st.standby.isSome + bitOf 2 st.plan.isSome
        + bitOf 3 (st.plan.any fun p => p.kind == .reserve) + bitOf 4 st.joint.isSome + bitOf 5 st.late
        + bitOf 6 st.reloaded + bitOf 7 st.lowWarned)] := by
  have slot : (i : Nat) < 256 := by omega
  rw [standHead, uns_one slot, uns_one (Role.code_lt _), uns_one (SpliceState.code_lt _), uns_one (bits_lt _ _ _ _ _ _ _ _)]
  rfl

/-- The other bytes of STAND_QUERY: the reels, the plan, the joint, the readings refused and the web path (Figure 12-5). -/
def standTail (cfg : StandCfg) (st : Stand) : List Byte :=
  flag st.timer.isSome ++ uns 4 ((st.running.map RunningReel.id).getD 0) ++ uns 2 ((st.running.map RunningReel.loaded).getD 0)
    ++ uns 2 ((st.running.map RunningReel.core).getD 0) ++ uns 2 ((st.running.map RunningReel.caliper).getD 0)
    ++ uns 2 ((st.running.map RunningReel.last).getD 0) ++ uns 4 ((st.running.map RunningReel.usable).getD 0)
    ++ uns 4 ((st.standby.map StandbyReel.id).getD 0) ++ uns 2 ((st.standby.map StandbyReel.diameter).getD 0)
    ++ uns 2 ((st.standby.map StandbyReel.core).getD 0) ++ uns 2 ((st.standby.map StandbyReel.caliper).getD 0)
    ++ uns 4 st.fireDistance ++ sgn 4 (st.joint.getD 0) ++ uns 2 st.refused ++ uns 4 (webPathBoard cfg)

theorem standQuery_of_present {i : Fin 6} {s : State} (h : (s.cfg.stands.get i).isPresent = true) : standQuery i s =
    (s, { code := .ok, data := standHead i (s.cfg.stands.get i) (s.stands.get i)
            ++ standTail (s.cfg.stands.get i) (s.stands.get i) }) := by
  simp only [standQuery, parseStand_of_present h, standHead, standTail, List.append_assoc]

theorem standQuery_of_no_slot {n : Nat} {r : Result} {s : State} (h : parseStand s n = .error r) :
    standQuery n s = (s, .plain r) := by
  simp only [standQuery, h]

theorem reelUnload_of_no_slot {n : Nat} {r : Result} {s : State} (h : parseStand s n = .error r) :
    reelUnload n s = (s, .plain r) := by
  simp only [reelUnload, h]

theorem spliceForce_of_no_slot {n : Nat} {r : Result} {s : State} (h : parseStand s n = .error r) :
    spliceForce n s = (s, .plain r) := by
  simp only [spliceForce, h]

theorem standReset_of_no_slot {n : Nat} {r : Result} {s : State} (h : parseStand s n = .error r) :
    standReset n s = (s, .plain r) := by
  simp only [standReset, h]

@[simp] theorem Station.ofCode_code (x : Station) : Station.ofCode x.code = some x := by
  cases x <;> rfl

theorem Station.ofCode_of_beyond {n : Nat} (h : 1 < n) : Station.ofCode n = none := by
  unfold Station.ofCode
  split
  · omega
  · omega
  · rfl

@[simp] theorem length_groupBlock (g : HeadGroup) (h : HeadSet) : (groupBlock g h).length = 6 := by
  simp [groupBlock]

theorem length_remapBlock (r : Remap) : (remapBlock r).length = 4 := by
  cases r <;> simp [remapBlock]

theorem HeadGroup.code_lt (g : HeadGroup) : g.code < 256 := by cases g <;> decide
theorem Station.code_lt (x : Station) : x.code < 256 := by cases x <;> decide

/-- The three bytes that name a head: a working head beyond one byte shows the largest value (R190). -/
theorem headName_eq (h : HeadName) : uns 1 h.st.code ++ uns 1 h.group.code ++ uns 1 h.head =
    [BitVec.ofNat 8 h.st.code, BitVec.ofNat 8 h.group.code, BitVec.ofNat 8 (min h.head 255)] := by
  rw [uns_one (Station.code_lt _), uns_one (HeadGroup.code_lt _)]
  rfl

/-- The first 16 bytes of STATION_QUERY: the station, its pattern, its last output, its lateness and its last arrival (Figure 12-6). -/
def stationHead (x : Station) (r : StationRec) (since : Nat) : List Byte :=
  uns 1 x.code ++ uns 1 r.state.code ++ idOr0 1 r.pattern ++ uns 4 since ++ flag r.timer.isSome
    ++ flag r.late.isSome ++ uns 4 ((r.late.map LateEngagement.slack).getD 0) ++ flag r.faultPending
    ++ idOr0 1 (r.lastArrival.map Prod.fst) ++ uns 1 ((r.lastArrival.map fun a => a.2.code).getD 0)

/-- The 24 bytes of the four head groups (Figure 12-6). -/
def stationGroups (r : StationRec) : List Byte :=
  groupBlock .s1 r.groups.s1 ++ groupBlock .s2 r.groups.s2 ++ groupBlock .c1 r.groups.c1 ++ groupBlock .c2 r.groups.c2

/-- The time since the last position output, the largest value before the first (R90). -/
def sinceOutput (now : Nat) (last : Option Nat) : Nat :=
  match last with
  | some t => now - t
  | none => 4294967295

theorem length_stationHead (x : Station) (r : StationRec) (since : Nat) : (stationHead x r since).length = 16 := by
  simp [stationHead]

theorem length_stationGroups (r : StationRec) : (stationGroups r).length = 24 := by
  simp [stationGroups]

theorem stationQuery_of_code (x : Station) (s : State) : stationQuery x.code s =
    (s, { code := .ok, data := stationHead x (s.stations.get x) (sinceOutput s.now (s.stations.get x).lastOutput)
            ++ (stationGroups (s.stations.get x) ++ remapBlock s.remap) }) := by
  simp only [stationQuery, Station.ofCode_code, stationHead, stationGroups, List.append_assoc]
  rfl

theorem stationQuery_of_beyond {n : Nat} (h : 1 < n) (s : State) : stationQuery n s = (s, .plain .outOfRange) := by
  simp only [stationQuery, Station.ofCode_of_beyond h]

/-- Settles O29: each layout is cut where its parts meet. -/
theorem standAndStationQueryLayouts : Obligations.StandAndStationQueryLayouts := by
  refine ⟨fun tag s free => ⟨fun i present => ?_, fun n r h => ?_⟩, fun tag n s free => ⟨fun beyond => ?_, fun x code => ?_⟩⟩
  · have request := exec_standQuery tag (BitVec.ofNat 8 i) s free
    rw [slot_toNat] at request
    have four := length_standHead i (s.cfg.stands.get i) (s.stands.get i)
    refine ⟨standHead i (s.cfg.stands.get i) (s.stands.get i) ++ standTail (s.cfg.stands.get i) (s.stands.get i), ?_,
      next_of_answer request (standQuery_of_present (s := begin s) present), ?_, ?_⟩
    · rw [List.length_append, four]
      simp [standTail]
    · rw [List.take_left' four, standHead_eq]
      rfl
    · rw [List.drop_left' four]
      rfl
  · have named : parseStand (begin s) n.toNat = .error r := parseStand_of_no_slot (s := begin s) h
    exact ⟨refuses_of_plain (exec_standQuery tag n s free) (standQuery_of_no_slot named),
      refuses_of_plain (exec_reelUnload tag n s free) (reelUnload_of_no_slot named),
      refuses_of_plain (exec_spliceForce tag n s free) (spliceForce_of_no_slot named),
      refuses_of_plain (exec_standReset tag n s free) (standReset_of_no_slot named)⟩
  · exact refuses_of_plain (exec_stationQuery tag n s free) (stationQuery_of_beyond beyond _)
  · have request := exec_stationQuery tag n s free
    rw [code] at request
    have sixteen := length_stationHead x (s.stations.get x) (sinceOutput s.now (s.stations.get x).lastOutput)
    have groups := length_stationGroups (s.stations.get x)
    refine ⟨_, ?_, next_of_answer request (stationQuery_of_code x (begin s)), ?_, ?_, ?_⟩
    · simp only [List.length_append, begin_fields, sixteen, groups, length_remapBlock]
    · rw [List.take_left' (by exact sixteen)]
      cases last : (s.stations.get x).lastOutput <;> simp [stationHead, sinceOutput, last, idOr0]
    · rw [List.drop_left' (by exact sixteen), List.take_left' (by exact groups)]
      rfl
    · rw [← List.drop_drop (i := 24) (j := 16), List.drop_left' (by exact sixteen), List.drop_left' (by exact groups)]
      cases remap : s.remap with
      | none => simp [remapBlock, remap]
      | prepared h => simp only [begin_fields, remap, remapBlock, List.append_assoc, ← headName_eq]; rfl
      | confirmed h => simp only [begin_fields, remap, remapBlock, List.append_assoc, ← headName_eq]; rfl

end Sys2Proof.Machine
end

