-- ==== Sys2Proof/Proofs/StationRequests.lean ====
section
/-! PROOFS. The stations' own inputs, tool heads, and the remaps. -/

namespace Sys2Proof.Machine

open Sys2Proof

/-! ## Positioning -/

section
variable {x : Station} {s : State}

theorem inPosition_of_positioning (h : (s.stations.get x).state = .positioning) : inPosition x s =
    if (s.stations.get x).late.isSome ||
        ((s.stations.get x).pattern.bind (findSetup s)).any fun t => t.markState == some .pastKnife then
      engageStation x (setStation x { s.stations.get x with state := .ready, timer := none } s)
    else setStation x { s.stations.get x with state := .ready, timer := none } s := by
  simp only [inPosition, h]

theorem inPosition_of_other (h : (s.stations.get x).state ≠ .positioning) : inPosition x s = s := by
  simp only [inPosition]

/-- A station that is late, or whose setup's mark has gone by, engages as soon as it stands (R75, R79). -/
theorem engage_ready_stations (r : StationRec) : (engageStation x (setStation x r s)).stations =
    s.stations.set x { r with state := .engaged, late := none } := by
  simp [engageStation, emit]

theorem positioningTimeout_of_running {due : Nat} (state : (s.stations.get x).state = .positioning)
    (timer : (s.stations.get x).timer = some due) : positioningTimeout x s =
      stationFaultNotice x 0 false (setStation x { s.stations.get x with state := .fault, timer := none } (reachTime due s)) := by
  simp only [positioningTimeout, state, timer]

theorem positioningTimeout_of_idle (h : (s.stations.get x).state ≠ .positioning ∨ (s.stations.get x).timer = none) :
    positioningTimeout x s = s := by
  simp only [positioningTimeout]
  split
  · rename_i due state timer
    rcases h with other | none
    · exact absurd state other
    · cases none.symm.trans timer
  · rfl

/-- STATION_FAULT names the pattern, which the fault itself keeps (R76). -/
theorem stationFaultNotice_of_kept (reason : Nat) (deferred : Bool) {r : StationRec} (u : State) :
    stationFaultNotice x reason deferred (setStation x r u) =
      notice 0xCB#8 (uns 1 x.code ++ uns 1 reason ++ idOr0 1 r.pattern ++ flag deferred) (setStation x r u) := by
  simp [stationFaultNotice]

theorem positionFault_of_loaded (h : (s.stations.get x).state = .positioning ∨ (s.stations.get x).state = .ready) :
    positionFault x s =
      stationFaultNotice x 1 false (setStation x { s.stations.get x with state := .fault, timer := none } s) := by
  rcases h with state | state <;> simp only [positionFault, state]

theorem positionFault_of_engaged (h : (s.stations.get x).state = .engaged) : positionFault x s =
    stationFaultNotice x 1 true (setStation x { s.stations.get x with faultPending := true } s) := by
  simp only [positionFault, h]

theorem positionFault_of_idle (h : (s.stations.get x).state = .free ∨ (s.stations.get x).state = .fault) :
    positionFault x s = s := by
  rcases h with state | state <;> simp only [positionFault, state]

theorem stationReset_of_fault (h : (s.stations.get x).state = .fault) : stationReset x.code s =
    (loadAttempts x (setStation x { s.stations.get x with state := .free, pattern := none, faultPending := false } s),
      .plain .ok) := by
  simp only [stationReset, Station.ofCode_code, h]

theorem stationReset_of_sound (h : (s.stations.get x).state ≠ .fault) : stationReset x.code s = (s, .plain .wrongState) := by
  simp only [stationReset, Station.ofCode_code]

theorem stationReset_of_beyond {n : Nat} (h : 1 < n) : stationReset n s = (s, .plain .outOfRange) := by
  simp only [stationReset, Station.ofCode_of_beyond h]

end

/-- Settles O30. -/
theorem stationEventsAndReset : Obligations.StationEventsAndReset := by
  refine ⟨fun x s => ?_, fun tag n s free => ⟨fun x code fault => ?_, fun x code sound => ?_, fun beyond => ?_⟩⟩
  · intro r gone fault
    have positioned : r.state = .positioning → inPosition x (begin s) = if r.late.isSome || gone then
        engageStation x (setStation x { r with state := .ready, timer := none } (begin s))
        else setStation x { r with state := .ready, timer := none } (begin s) :=
      inPosition_of_positioning (s := begin s)
    have noticed : ∀ reason deferred q u, q.pattern = r.pattern →
        stationFaultNotice x reason deferred (setStation x q u) = fault reason deferred (setStation x q u) := by
      intro reason deferred q u pattern
      rw [stationFaultNotice_of_kept, pattern]
    refine ⟨fun state early ahead => exec_of_field rfl ?_, fun state h => ?_,
      fun other => ignored_of_field rfl (inPosition_of_other (s := begin s) other), fun due state timer => exec_of_field rfl ?_,
      fun idle => ignored_of_field rfl (positioningTimeout_of_idle (s := begin s) idle), fun loaded => exec_of_field rfl ?_,
      fun engaged => exec_of_field rfl ?_, fun idle => ignored_of_field rfl (positionFault_of_idle (s := begin s) idle)⟩
    · exact (positioned state).trans (if_neg (by simp [early, ahead]))
    · have engaged := (positioned state).trans (if_pos (by simpa using h))
      refine ⟨_, exec_of_field rfl engaged, ?_⟩
      simp only [settle_frame]
      refine ⟨engage_ready_stations _, ?_⟩
      simp [engageStation, emit]
    · exact (positioningTimeout_of_running (s := begin s) state timer).trans (noticed _ _ _ _ rfl)
    · exact (positionFault_of_loaded (s := begin s) loaded).trans (noticed _ _ _ _ rfl)
    · exact (positionFault_of_engaged (s := begin s) engaged).trans (noticed _ _ _ _ rfl)
  · have request := exec_stationReset tag n s free
    rw [code] at request
    exact next_of_answer request (stationReset_of_fault (s := begin s) fault)
  · have request := exec_stationReset tag n s free
    rw [code] at request
    exact refuses_of_plain request (stationReset_of_sound (s := begin s) sound)
  · exact refuses_of_plain (exec_stationReset tag n s free) (stationReset_of_beyond beyond)

/-! ## The head a request names -/

@[simp] theorem station_toNat (x : Station) : (BitVec.ofNat 8 x.code).toNat = x.code := by cases x <;> rfl
@[simp] theorem group_toNat (g : HeadGroup) : (BitVec.ofNat 8 g.code).toNat = g.code := by cases g <;> rfl

theorem group_size_le (g : HeadGroup) : g.size ≤ 10 := by cases g <;> decide

theorem head_toNat {h : HeadName} (fits : h.head ≤ h.group.size) : (BitVec.ofNat 8 h.head).toNat = h.head := by
  have := group_size_le h.group
  simp only [BitVec.toNat_ofNat]
  omega

@[simp] theorem HeadGroup.ofCode_code (g : HeadGroup) : HeadGroup.ofCode g.code = some g := by cases g <;> rfl

theorem parseHead_of_code {h : HeadName} (fits : h.head ≤ h.group.size) :
    parseHead h.st.code h.group.code h.head = some h := by
  simp only [parseHead, Station.ofCode_code, HeadGroup.ofCode_code, fits, if_true]

theorem parseWorkingHead_of_code {h : HeadName} (fits : h.head ≤ h.group.size) (working : 1 ≤ h.head) :
    parseWorkingHead h.st.code h.group.code h.head = some h := by
  have : h.head ≠ 0 := by omega
  simp [parseWorkingHead, parseHead_of_code fits, this]

/-- A station, a group or a head outside its range names no head (R81). -/
theorem parseHead_of_bad {st g n : Nat} (bad : 1 < st ∨ 3 < g ∨ (g ≤ 1 ∧ 6 < n) ∨ 10 < n) : parseHead st g n = none := by
  unfold parseHead
  split
  · rename_i x k station group
    refine if_neg fun fits => ?_
    have st_le : st ≤ 1 := by
      by_contra beyond
      cases (Station.ofCode_of_beyond (by omega)).symm.trans station
    revert group
    unfold HeadGroup.ofCode
    split <;> rintro ⟨⟩ <;> simp only [HeadGroup.size] at fits <;> omega
  · rfl

theorem parseWorkingHead_of_bad {st g n : Nat} (bad : (1 < st ∨ 3 < g ∨ (g ≤ 1 ∧ 6 < n) ∨ 10 < n) ∨ n = 0) :
    parseWorkingHead st g n = none := by
  rcases bad with bad | rfl
  · simp [parseWorkingHead, parseHead_of_bad bad]
  · cases named : parseHead st g 0 with
    | none => simp [parseWorkingHead, named]
    | some h =>
      have zero : h.head = 0 := by
        unfold parseHead at named
        split at named
        · split at named
          · cases named
            rfl
          · cases named
        · cases named
      simp [parseWorkingHead, named, zero]

/-! ## Retirement and return -/

section
variable {h : HeadName} {s : State}

theorem headFault_of_fit (fit : (headSet s h).isRetired h.head = false) : headFault h s =
    headsChanged h.st (s.stations.get h.st).groups (notice 0xCC#8
      (uns 1 h.st.code ++ uns 1 h.group.code ++ uns 1 h.head ++ uns 1 (s.stations.get h.st).state.code)
      (setStation h.st { s.stations.get h.st with
        groups := (s.stations.get h.st).groups.set h.group ((headSet s h).retire h.head) } s)) := by
  refine if_neg ?_
  show ¬(headSet s h).isRetired h.head = true
  simp [fit]

theorem headFault_of_retired (retired : (headSet s h).isRetired h.head = true) : headFault h s = s := if_pos retired

theorem headRetire_of_head (fits : h.head ≤ h.group.size) : headRetire h.st.code h.group.code h.head s =
    if (headSet s h).isRetired h.head then (s, .plain .ok)
    else (updateHeads h.st h.group (fun q => q.retire h.head) s, .plain .ok) := by
  simp only [headRetire, parseHead_of_code fits]

theorem headRestore_of_head (fits : h.head ≤ h.group.size) : headRestore h.st.code h.group.code h.head s =
    if h.head ≠ 0 ∧ (headSet s h).mapping = .hard h.head then (s, .plain .wrongState)
    else if (headSet s h).isRetired h.head then (updateHeads h.st h.group (fun q => q.restore h.head) s, .plain .ok)
    else (s, .plain .ok) := by
  simp only [headRestore, parseHead_of_code fits]

theorem retire_eq (q : HeadSet) (n : Nat) : q.retire n = { q with
    retired := if n = 0 then q.retired else q.retired ||| headBit n
    spareRetired := if n = 0 then true else q.spareRetired } := by
  by_cases spare : n = 0 <;> simp [HeadSet.retire, spare]

end

/-- Settles O31. -/
theorem headsRetireAndReturn : Obligations.HeadsRetireAndReturn := by
  intro tag h s fits r set st g n retired
  have named : n.toNat = h.head := head_toNat fits
  have retire : set.retire h.head = retired := retire_eq set h.head
  have request := exec_headRetire tag st g n s
  have back := exec_headRestore tag st g n s
  simp only [named, show st.toNat = h.st.code from station_toNat h.st,
    show g.toNat = h.group.code from group_toNat h.group, headRetire_of_head fits, headRestore_of_head fits] at request back
  refine ⟨fun fit => exec_of_field rfl ?_, fun gone => ignored_of_field rfl (headFault_of_retired (s := begin s) gone),
    fun free fit => next_of_answer (request free) ?_, fun free gone => next_of_answer (request free) (if_pos gone),
    fun free working hard => refuses_of_plain (back free) (if_pos ⟨working, hard⟩),
    fun free soft fit => next_of_answer (back free) ?_, fun free soft gone => next_of_answer (back free) ?_⟩
  · rw [← retire]
    exact headFault_of_fit (s := begin s) fit
  · rw [← retire]
    exact if_neg (by rw [show (headSet (begin s) h).isRetired h.head = false from fit]; exact Bool.false_ne_true)
  · have unfixed : ¬(h.head ≠ 0 ∧ set.mapping = .hard h.head) := fun ⟨working, hard⟩ => soft.elim working fun n => n hard
    refine (if_neg unfixed).trans (if_neg ?_)
    rw [show (headSet (begin s) h).isRetired h.head = false from fit]
    exact Bool.false_ne_true
  · have unfixed : ¬(h.head ≠ 0 ∧ set.mapping = .hard h.head) := fun ⟨working, hard⟩ => soft.elim working fun n => n hard
    exact (if_neg unfixed).trans (if_pos gone)

/-! ## Remaps -/

section
variable {h : HeadName} {s : State}

theorem softRemap_of_head (fits : h.head ≤ h.group.size) (working : 1 ≤ h.head) :
    softRemap h.st.code h.group.code h.head s =
      if !remappable s h then (s, .plain .wrongState)
      else if (headSet s h).mapping.isHard || (headSet s h).spareRetired then (s, .plain .noSpare)
      else if (headSet s h).mapping = .soft h.head then (s, .plain .ok)
      else (updateHeads h.st h.group (fun q => { q with mapping := .soft h.head }) s, .plain .ok) := by
  simp only [softRemap, parseWorkingHead_of_code fits working]

theorem remapPrepare_of_head (fits : h.head ≤ h.group.size) (working : 1 ≤ h.head) :
    remapPrepare h.st.code h.group.code h.head s = (s.setRemap (.prepared h), .plain .ok) := by
  simp only [remapPrepare, parseWorkingHead_of_code fits working]

theorem remapConfirm_of_head (fits : h.head ≤ h.group.size) (working : 1 ≤ h.head) :
    remapConfirm h.st.code h.group.code h.head s =
      if s.remap = .prepared h then (s.setRemap (.confirmed h), .plain .ok)
      else (s.setRemap .none, .plain .sequenceBroken) := by
  simp only [remapConfirm, parseWorkingHead_of_code fits working]

theorem hardRemap_of_head (fits : h.head ≤ h.group.size) (working : 1 ≤ h.head) :
    hardRemap h.st.code h.group.code h.head s =
      if s.remap ≠ .confirmed h then (s.setRemap .none, .plain .sequenceBroken)
      else if !s.store.configured then (s.setRemap .none, .plain .unconfigured)
      else if s.store.writing.isSome then (s.setRemap .none, .plain .busy)
      else if !remappable s h then (s.setRemap .none, .plain .wrongState)
      else if (headSet s h).mapping.isHard then (s.setRemap .none, .plain .noSpare)
      else (beginWrite .hardRemap (updateHeads h.st h.group (fun q => { q with mapping := .hard h.head }) (s.setRemap .none)),
        .plain .ok) := by
  simp only [hardRemap, parseWorkingHead_of_code fits working, configured]
  rfl

theorem remappable_iff : remappable s h = true ↔
    ((s.stations.get h.st).state = .free ∨ (s.stations.get h.st).state = .ready) ∧ (headSet s h).isRetired h.head = true := by
  simp [remappable]

end

theorem isHard_iff (m : Mapping) : m.isHard = true ↔ ∃ k, m = .hard k := by
  cases m <;> simp [Mapping.isHard]

/-- Settles O32. -/
theorem softRemapAndHeadRanges : Obligations.SoftRemapAndHeadRanges := by
  refine ⟨fun tag h s working fits free => ?_, fun tag st g n s free => ?_⟩
  · have request := exec_softRemap tag (BitVec.ofNat 8 h.st.code) (BitVec.ofNat 8 h.group.code) (BitVec.ofNat 8 h.head) s free
    rw [head_toNat fits, station_toNat, group_toNat, softRemap_of_head fits working] at request
    intro r set c placed spare
    have places : placed ↔ remappable (begin s) h = true := (remappable_iff (s := begin s)).symm
    have spares : spare ↔ ¬((headSet (begin s) h).mapping.isHard || (headSet (begin s) h).spareRetired) = true := by
      rw [Bool.or_eq_true, isHard_iff]
      simp only [spare, not_or, not_exists, Bool.not_eq_true]
      rfl
    refine ⟨fun fixed => refuses_of_plain request (if_pos ?_), fun ready none => refuses_of_plain request ?_,
      fun ready one same => next_of_answer request ?_, fun ready one other => next_of_answer request ?_⟩
    · simpa using mt places.mpr fixed
    all_goals refine (if_neg (by simp [places.mp ready])).trans ?_
    · exact if_pos (Decidable.not_not.mp (mt spares.mpr none))
    · exact (if_neg (spares.mp one)).trans (if_pos same)
    · exact (if_neg (spares.mp one)).trans (if_neg other)
  · intro bad
    refine ⟨fun beyond => ⟨refuses_of_plain (exec_headRetire tag st g n s free) ?_,
      refuses_of_plain (exec_headRestore tag st g n s free) ?_⟩, fun unnamed => ?_⟩
    · simp only [headRetire, parseHead_of_bad beyond]
    · simp only [headRestore, parseHead_of_bad beyond]
    · have none : parseWorkingHead st.toNat g.toNat n.toNat = none :=
        parseWorkingHead_of_bad (unnamed.imp_right fun zero => by rw [zero]; rfl)
      refine ⟨refuses_of_plain (exec_softRemap tag st g n s free) ?_, next_of_answer (exec_remapPrepare tag st g n s free) ?_,
        next_of_answer (exec_remapConfirm tag st g n s free) ?_, next_of_answer (exec_hardRemap tag st g n s free) ?_⟩
      · simp only [softRemap, none]
      · simp only [remapPrepare, none]
        rfl
      · simp only [remapConfirm, none]
        rfl
      · simp only [hardRemap, none]
        rfl

/-- Settles O33. -/
theorem hardRemapTakesThreeRequests : Obligations.HardRemapTakesThreeRequests := by
  intro tag h s working fits free r set st g n ended refuses placed
  have named : n.toNat = h.head := head_toNat fits
  have station : st.toNat = h.st.code := station_toNat h.st
  have group : g.toNat = h.group.code := group_toNat h.group
  have prepare := exec_remapPrepare tag st g n s free
  have confirm := exec_remapConfirm tag st g n s free
  have hard := exec_hardRemap tag st g n s free
  rw [named, station, group] at prepare confirm hard
  rw [remapPrepare_of_head fits working] at prepare
  rw [remapConfirm_of_head fits working] at confirm
  rw [hardRemap_of_head fits working] at hard
  have places : placed ↔ remappable (begin s) h = true := (remappable_iff (s := begin s)).symm
  refine ⟨prepare, fun prepared => next_of_answer confirm (if_pos prepared), fun other => next_of_answer confirm (if_neg other),
    fun other => next_of_answer hard (if_pos other), fun confirmed => ?_⟩
  have sequenced : ¬((begin s).remap ≠ .confirmed h) := not_not.mpr confirmed
  rw [if_neg sequenced] at hard
  refine ⟨fun bare => next_of_answer hard (if_pos (by simp [bare])), fun conf busy => next_of_answer hard ?_, fun conf idle => ?_⟩
  all_goals have configured : ¬(!(begin s).store.configured) = true := by simp [conf]
  · exact (if_neg configured).trans (if_pos busy)
  · rw [if_neg configured, if_neg (by simp [idle])] at hard
    refine ⟨fun fixed => next_of_answer hard (if_pos (by simpa using mt places.mpr fixed)), fun ready one => next_of_answer hard ?_,
      fun ready none => next_of_answer hard ?_⟩
    all_goals refine (if_neg (by simp [places.mp ready])).trans ?_
    · exact if_pos ((isHard_iff _).mpr one)
    · refine (if_neg fun one => ?_).trans ?_
      · obtain ⟨k, mapped⟩ := (isHard_iff _).mp one
        exact none k mapped
      · simp only [updateHeads, beginWrite, headsChanged_frame, setStation_frame]
        rfl

end Sys2Proof.Machine
end

