-- ==== Sys2Proof/Proofs/LaneRequests.lean ====
section
/-! PROOFS. The lanes' requests: trim sessions, the two queries, and stack changes with the stacker's requests. -/

namespace Sys2Proof.Machine

open Sys2Proof

/-! ## The lane a request names -/

@[simp] theorem lane_toNat (lane : Lane) : (BitVec.ofNat 8 lane.code).toNat = lane.code := by cases lane <;> rfl
@[simp] theorem Lane.ofCode_code (lane : Lane) : Lane.ofCode lane.code = some lane := by cases lane <;> rfl

theorem Lane.ofCode_of_beyond {n : Nat} (h : 1 < n) : Lane.ofCode n = none := by
  unfold Lane.ofCode
  split
  · omega
  · omega
  · rfl

/-! ## Trim sessions -/

/-- The shadow length of a lane at a changed trim: that of the active order, or the old one (R103, R104). -/
def trimShadow (s : State) (r : LaneRec) (t : Int) : Option Nat :=
  match r.active with
  | some j => some (trimmed (cutLength s j.order) t)
  | none => r.shadow

section
variable {lane : Lane} {s : State} {n : Nat} {k : TrimRange}

theorem trimEnter_of_free (range : TrimRange.ofCode n = some k) (enabled : (s.lanes.get lane).enabled = true)
    (free : (s.lanes.get lane).session = none) : trimEnter lane.code n s =
      (setLane lane { s.lanes.get lane with
          session := some k, trim := k.bring (s.lanes.get lane).trim
          shadow := if k.bring (s.lanes.get lane).trim = (s.lanes.get lane).trim then (s.lanes.get lane).shadow
            else trimShadow s (s.lanes.get lane) (k.bring (s.lanes.get lane).trim) } s,
        { code := .ok, data := sgn 1 ((k.bring (s.lanes.get lane).trim).tdiv k.step) }) := by
  simp only [trimEnter, Lane.ofCode_code, range, enabled, free, Option.isSome_none, Bool.not_true, Bool.or_self,
    Bool.false_eq_true, if_false]
  split
  · rfl
  · cases active : (s.lanes.get lane).active <;> simp [shadowTrim, trimShadow, active]

theorem trimEnter_of_taken (range : TrimRange.ofCode n = some k)
    (h : (s.lanes.get lane).enabled = false ∨ (s.lanes.get lane).session.isSome = true) :
    trimEnter lane.code n s = (s, .plain .wrongState) := by
  have refused : (!(s.lanes.get lane).enabled || (s.lanes.get lane).session.isSome) = true := by simpa using h
  simp only [trimEnter, Lane.ofCode_code, range, refused, if_true]

theorem trimEnter_of_beyond (h : 1 < n) : trimEnter lane.code n s = (s, .plain .outOfRange) := by
  have none : TrimRange.ofCode n = none := by
    unfold TrimRange.ofCode
    split
    · omega
    · omega
    · rfl
  simp only [trimEnter, Lane.ofCode_code, none]

theorem trimSet_of_session {steps : Int} (session : (s.lanes.get lane).session = some k) (low : -127 ≤ steps) :
    trimSet lane.code steps s =
      (setLane lane { s.lanes.get lane with
          trim := clamp (-k.steps) k.steps steps * k.step
          shadow := trimShadow s (s.lanes.get lane) (clamp (-k.steps) k.steps steps * k.step) } s,
        { code := if clamp (-k.steps) k.steps steps = steps then .ok else .clamped
          data := sgn 2 (clamp (-k.steps) k.steps steps * k.step) }) := by
  have within : ¬steps < -127 := by omega
  simp only [trimSet, Lane.ofCode_code, within, if_false, session]
  cases active : (s.lanes.get lane).active <;> simp [shadowTrim, trimShadow, active]

theorem trimSet_of_low {steps : Int} (low : steps < -127) : trimSet lane.code steps s = (s, .plain .outOfRange) := by
  simp only [trimSet, Lane.ofCode_code, low, if_true]

theorem trimSet_of_idle {steps : Int} (low : -127 ≤ steps) (idle : (s.lanes.get lane).session = none) :
    trimSet lane.code steps s = (s, .plain .wrongState) := by
  have within : ¬steps < -127 := by omega
  simp only [trimSet, Lane.ofCode_code, within, if_false, idle]

theorem trimExit_of_lane : trimExit lane.code s = if (s.lanes.get lane).session.isSome then
    (setLane lane { s.lanes.get lane with session := none } s, .plain .ok) else (s, .plain .wrongState) := by
  simp only [trimExit, Lane.ofCode_code]

end

/-- A clamp leaves a value alone exactly in its range. -/
theorem clamp_eq_iff {lo hi x : Int} (h : lo ≤ hi) : clamp lo hi x = x ↔ lo ≤ x ∧ x ≤ hi := by
  simp only [clamp]
  omega

/-- Settles O35. -/
theorem trimSessionsClampSteps : Obligations.TrimSessionsClampSteps := by
  intro tag steps range lane s free n r shadow
  have enter := exec_trimEnter tag n range s free
  have set := exec_trimSet tag n steps s free
  have exit := exec_trimExit tag n s free
  have named : n.toNat = lane.code := lane_toNat lane
  rw [named] at enter set exit
  have shadows : ∀ t, trimShadow (begin s) r t = shadow r.shadow t := fun t => by
    simp only [trimShadow, shadow]
    cases r.active <;> rfl
  have low : -128 ≤ steps.toInt := BitVec.le_toInt steps
  refine ⟨?_, ?_, fun beyond => refuses_of_plain enter (trimEnter_of_beyond beyond), fun known taken => ?_,
    fun k session low => ?_, fun least => refuses_of_plain set (trimSet_of_low (by omega)), fun idle above => ?_,
    fun session => next_of_answer exit (trimExit_of_lane.trans (if_pos session)), fun idle => refuses_of_plain exit ?_⟩
  · rintro enabled idle rfl
    have entered := trimEnter_of_free (s := begin s) (n := 0) (k := .coarse) rfl enabled idle
    refine next_of_answer enter (entered.trans ?_)
    rw [show (begin s).lanes.get lane = r from rfl, shadows]
    rfl
  · rintro enabled idle rfl
    have entered := trimEnter_of_free (s := begin s) (n := 1) (k := .fine) rfl enabled idle
    refine next_of_answer enter (entered.trans ?_)
    rw [show (begin s).lanes.get lane = r from rfl, shadows]
    rfl
  · obtain ⟨k, code⟩ : ∃ k, TrimRange.ofCode range.toNat = some k := by
      interval_cases range.toNat
      · exact ⟨_, rfl⟩
      · exact ⟨_, rfl⟩
    exact refuses_of_plain enter (trimEnter_of_taken (s := begin s) code taken)
  · have steps_pos : -k.steps ≤ k.steps := by cases k <;> decide
    intro most t
    have most_eq : k.steps = most := by cases k <;> rfl
    have t_eq : clamp (-k.steps) k.steps steps.toInt * k.step = t := by cases k <;> rfl
    have done := trimSet_of_session (s := begin s) session low
    have exact : clamp (-most) most steps.toInt = steps.toInt ↔ -most ≤ steps.toInt ∧ steps.toInt ≤ most :=
      clamp_eq_iff (most_eq ▸ steps_pos)
    rw [t_eq, show (begin s).lanes.get lane = r from rfl, shadows, most_eq] at done
    simp only [exact] at done
    exact next_of_answer set done
  · exact refuses_of_plain set (trimSet_of_idle (s := begin s) (by omega) idle)
  · refine trimExit_of_lane.trans (if_neg ?_)
    rw [show ((begin s).lanes.get lane).session = none from idle]
    exact Bool.false_ne_true

/-! ## The queries -/

/-- Settles O36. -/
theorem laneQueriesAndRanges : Obligations.LaneQueriesAndRanges := by
  refine ⟨fun tag lane s free => ?_, fun tag n range steps s free beyond => ?_⟩
  · have knife := exec_knifeQuery tag (BitVec.ofNat 8 lane.code) s free
    have delivery := exec_deliveryQuery tag (BitVec.ofNat 8 lane.code) s free
    rw [lane_toNat] at knife delivery
    refine ⟨next_of_answer knife ?_, next_of_answer delivery ?_⟩
    · simp only [knifeQuery, Lane.ofCode_code]
      rfl
    · simp only [deliveryQuery, Lane.ofCode_code]
      rfl
  · have none : Lane.ofCode n.toNat = none := Lane.ofCode_of_beyond beyond
    refine ⟨refuses_of_plain (exec_trimEnter tag n range s free) ?_, refuses_of_plain (exec_trimSet tag n steps s free) ?_,
      refuses_of_plain (exec_trimExit tag n s free) ?_, refuses_of_plain (exec_knifeQuery tag n s free) ?_,
      refuses_of_plain (exec_stackEject tag n s free) ?_, refuses_of_plain (exec_stackerReset tag n s free) ?_,
      refuses_of_plain (exec_deliveryQuery tag n s free) ?_⟩
    · simp only [trimEnter, none]
    · simp only [trimSet, none]
    · simp only [trimExit, none]
    · simp only [knifeQuery, none]
    · simp only [stackEject, none]
    · simp only [stackerReset, none]
    · simp only [deliveryQuery, none]

/-! ## Stack changes -/

/-- A lane's delivery when a change is done: the fork becomes the bundle (R117). -/
def DeliveryRec.changed (d : DeliveryRec) : DeliveryRec :=
  { d with stacker := .stacking, bundle := d.fork, fork := none, cause := none, waiting := false, waitCause := none,
           timer := none }

section
variable {lane : Lane} {s : State}

theorem changeDone_of_idle (h : (s.delivery.get lane).stacker ≠ .changing) : changeDone lane s = s := by
  simp only [changeDone]
  split
  · rename_i state
    exact absurd state h
  · rfl
  · rfl

theorem changeDone_of_done (state : (s.delivery.get lane).stacker = .changing)
    (h : (s.delivery.get lane).waiting = false ∨ (s.delivery.get lane).fork = none) :
    changeDone lane s = setDelivery lane (s.delivery.get lane).changed s := by
  simp only [changeDone, state]
  split
  · rename_i waiting fork
    rcases h with none | none
    · exact absurd (none.symm.trans waiting) Bool.false_ne_true
    · cases none.symm.trans fork
  · rfl

/-- A waiting flag over a laid fork begins the next change at once (R117). -/
theorem changeDone_of_waiting {p : Pile} (state : (s.delivery.get lane).stacker = .changing)
    (waiting : (s.delivery.get lane).waiting = true) (fork : (s.delivery.get lane).fork = some p) :
    changeDone lane s =
      if bundleSize s p.order ≤ p.count then startChange lane .size (setDelivery lane (s.delivery.get lane).changed s)
      else setDelivery lane
        { (startChange lane .size (setDelivery lane (s.delivery.get lane).changed s)).delivery.get lane with
          cause := (s.delivery.get lane).waitCause.map fun w => if w = .eject then .eject else .closing }
        (startChange lane .size (setDelivery lane (s.delivery.get lane).changed s)) := by
  simp only [changeDone, state, waiting, fork, DeliveryRec.changed]
  cases (s.delivery.get lane).waitCause with
  | none => rfl
  | some w => cases w <;> rfl

theorem changeTimeout_of_idle (h : (s.delivery.get lane).stacker ≠ .changing ∨ (s.delivery.get lane).timer = none) :
    changeTimeout lane s = s := by
  simp only [changeTimeout]
  split
  · rename_i due state timer
    rcases h with other | none
    · exact absurd state other
    · cases none.symm.trans timer
  · rfl

theorem stackEject_of_stacking (state : (s.delivery.get lane).stacker = .stacking) : stackEject lane.code s =
    if (s.delivery.get lane).bundle.isSome then (startChange lane .eject s, .plain .ok) else (s, .plain .wrongState) := by
  simp only [stackEject, Lane.ofCode_code, state]

theorem stackEject_of_changing (state : (s.delivery.get lane).stacker = .changing) : stackEject lane.code s =
    (setDelivery lane { s.delivery.get lane with
        waiting := true
        waitCause := if (s.delivery.get lane).waitCause = some .closing then some .closing else some .eject } s,
      .plain .ok) := by
  simp only [stackEject, Lane.ofCode_code]
  split
  · rename_i other
    cases state.symm.trans other
  · rfl
  · rename_i other
    cases state.symm.trans other

end

/-- Settles O38. -/
theorem stackChangesAndRequests : Obligations.StackChangesAndRequests := by
  refine ⟨fun lane s => ?_, fun tag lane s free => ?_⟩
  · refine ⟨fun state h => exec_of_field rfl (changeDone_of_done (s := begin s) state h), fun p state waiting fork => ?_,
      fun other => ignored_of_field rfl (changeDone_of_idle (s := begin s) other), fun due state timer => exec_of_field rfl ?_,
      fun idle => ignored_of_field rfl (changeTimeout_of_idle (s := begin s) idle)⟩
    · refine ⟨_, exec_of_field rfl (changeDone_of_waiting (s := begin s) state waiting fork), ?_⟩
      simp only [settle_frame]
      by_cases full : bundleSize s p.order ≤ p.count
      · rw [if_pos full, if_pos (by exact full), startChange_delivery]
        simp [startChange, emit, DeliveryRec.changed]
      · rw [if_neg full, if_neg (by exact full), setDelivery_delivery, startChange_delivery]
        simp [startChange, emit, DeliveryRec.changed]
    · have running : ((begin s).delivery.get lane).stacker = .changing := state
      have timed : ((begin s).delivery.get lane).timer = some due := timer
      show changeTimeout lane (begin s) = _
      simp only [changeTimeout, running, timed]
      rfl
  · have eject := exec_stackEject tag (BitVec.ofNat 8 lane.code) s free
    have reset := exec_stackerReset tag (BitVec.ofNat 8 lane.code) s free
    rw [lane_toNat] at eject reset
    refine ⟨fun state held => ⟨_, next_of_answer eject ((stackEject_of_stacking (s := begin s) state).trans (if_pos held)), rfl⟩,
      fun state bare => refuses_of_plain eject ((stackEject_of_stacking (s := begin s) state).trans (if_neg ?_)),
      fun state => next_of_answer eject ?_, fun state => refuses_of_plain eject ?_, fun state => next_of_answer reset ?_,
      fun other => refuses_of_plain reset ?_⟩
    · rw [show ((begin s).delivery.get lane).bundle = none from bare]
      exact Bool.false_ne_true
    · exact stackEject_of_changing (s := begin s) state
    · have fault : ((begin s).delivery.get lane).stacker = .fault := state
      simp only [stackEject, Lane.ofCode_code, fault]
    · have fault : ((begin s).delivery.get lane).stacker = .fault := state
      simp only [stackerReset, Lane.ofCode_code, fault]
      rfl
    · have sound : ((begin s).delivery.get lane).stacker ≠ .fault := other
      simp only [stackerReset, Lane.ofCode_code]

end Sys2Proof.Machine
end

