-- ==== Sys2Proof/Proofs/GovernorEvents.lean ====
section
/-! PROOFS. The governor's own events and requests, the emergency stop, and the line's stops, restarts and rests. -/

namespace Sys2Proof.Machine

open Sys2Proof

/-! ## Time events -/

section
variable {x : Station} {s : State}

theorem rampExpiry_of_running {due : Nat} (h : s.gov.rampTimer = some due) : rampExpiry s =
    { s with now := max s.now due, gov := { s.gov with rampTimer := some (due + 20) }, evalDue := true } := by
  simp only [rampExpiry, h]
  rfl

theorem rampExpiry_of_stopped (h : s.gov.rampTimer = none) : rampExpiry s = s := by
  simp only [rampExpiry, h]

theorem estimateRunout_of_positioning {t : Nat} (state : (s.stations.get x).state = .positioning)
    (last : (s.stations.get x).lastOutput = some t) : estimateRunout x s =
      { s with now := max s.now (t + (s.stations.get x).estimate), evalDue := true } := by
  simp only [estimateRunout, state, last]
  rfl

theorem estimateRunout_of_idle (h : (s.stations.get x).state ≠ .positioning ∨ (s.stations.get x).lastOutput = none) :
    estimateRunout x s = s := by
  simp only [estimateRunout]
  split
  · rename_i t state last
    rcases h with other | none
    · exact absurd state other
    · cases none.symm.trans last
  · rfl

theorem hotPlateReading_of_range {z : Int} (h : 0 ≤ z ∧ z ≤ 2500) : hotPlateReading z s =
    { s with gov := { s.gov with temperature := some z.toNat, tempTime := some s.now, age := .fresh }, evalDue := true } :=
  if_pos h

theorem temperatureAging_of_fresh {t : Nat} (age : s.gov.age = .fresh) (taken : s.gov.tempTime = some t) :
    temperatureAging s = { s with now := max s.now (t + 5000), gov := { s.gov with age := .aging }, evalDue := true } := by
  simp only [temperatureAging]
  split
  · rename_i u _ same
    cases taken.symm.trans same
    rfl
  · rename_i none
    exact (none t age taken).elim

theorem temperatureAging_of_idle (h : s.gov.age ≠ .fresh ∨ s.gov.tempTime = none) : temperatureAging s = s := by
  simp only [temperatureAging]
  split
  · rename_i t age taken
    rcases h with other | none
    · exact absurd age other
    · cases none.symm.trans taken
  · rfl

theorem temperatureStale_of_aging {t : Nat} (age : s.gov.age = .aging) (taken : s.gov.tempTime = some t) :
    temperatureStale s = { s with now := max s.now (t + 30000), gov := { s.gov with age := .stale }, evalDue := true } := by
  simp only [temperatureStale]
  split
  · rename_i u _ same
    cases taken.symm.trans same
    rfl
  · rename_i none
    exact (none t age taken).elim

theorem temperatureStale_of_idle (h : s.gov.age ≠ .aging ∨ s.gov.tempTime = none) : temperatureStale s = s := by
  simp only [temperatureStale]
  split
  · rename_i t age taken
    rcases h with other | none
    · exact absurd age other
    · cases none.symm.trans taken
  · rfl

end

/-- Settles O41. -/
theorem governorTimeEventsEvaluate : Obligations.GovernorTimeEventsEvaluate := by
  intro x z s g r
  exact ⟨fun due running => exec_of_field rfl (rampExpiry_of_running (s := begin s) running),
    fun stopped => ignored_of_field rfl (rampExpiry_of_stopped (s := begin s) stopped),
    fun t state last => exec_of_field rfl (estimateRunout_of_positioning (s := begin s) state last),
    fun idle => ignored_of_field rfl (estimateRunout_of_idle (s := begin s) idle),
    fun low high => exec_of_field rfl (hotPlateReading_of_range (s := begin s) ⟨low, high⟩),
    fun beyond => ignored_of_field rfl (if_neg (by omega)),
    fun t age taken => exec_of_field rfl (temperatureAging_of_fresh (s := begin s) age taken),
    fun idle => ignored_of_field rfl (temperatureAging_of_idle (s := begin s) idle),
    fun t age taken => exec_of_field rfl (temperatureStale_of_aging (s := begin s) age taken),
    fun idle => ignored_of_field rfl (temperatureStale_of_idle (s := begin s) idle)⟩

/-! ## The reference after an evaluation -/

/-- An evaluation cuts the reference to DEMAND or LINE_MAX, and to 0 under the hold (R139, R140). -/
theorem evaluate_cut (s : State) :
    (s.gov.hold = true → (evaluate s).gov.reference = 0 ∧ (evaluate s).gov.segment = none) ∧
    (s.gov.hold = false → min s.gov.demand s.cfg.lineMax < s.gov.reference →
      (evaluate s).gov.reference = min s.gov.demand s.cfg.lineMax) := by
  obtain ⟨reference, segment, _⟩ := evaluate_reference s
  obtain ⟨ref, _, dem, hld, _⟩ := takeLimits_inputs s
  obtain ⟨held, cut, _⟩ := ceilingAndReference.2 (takeLimits s)
  rw [reference, segment]
  refine ⟨fun hold => ?_, fun free above => ?_⟩
  · rw [held (by rw [hld]; exact hold)]
    exact ⟨rfl, rfl⟩
  · have line : (takeLimits s).cfg.lineMax = s.cfg.lineMax := by simp
    have done := cut (by rw [hld]; exact free) (by rw [ref, dem, line]; exact above)
    rw [dem, line] at done
    exact done

theorem evaluate_demand (s : State) : (evaluate s).gov.demand = s.gov.demand := by
  obtain ⟨_, _, demand, _⟩ := evaluate_reference s
  exact demand

theorem evaluate_hold (s : State) : (evaluate s).gov.hold = s.gov.hold := by
  obtain ⟨_, _, _, hold, _⟩ := evaluate_reference s
  exact hold

theorem takeReference_hold (s : State) : (takeReference s).gov.hold = s.gov.hold := by
  simp only [takeReference]
  split <;> simp

theorem takeGlue_rampTimer (s : State) : (takeGlue s).gov.rampTimer = s.gov.rampTimer := by
  have unit : ∀ c u t, (issueGlue c u t).gov.rampTimer = t.gov.rampTimer := fun c u t => by
    simp only [issueGlue]
    split <;> split <;> simp
  simp only [takeGlue, unit]
  rfl

/-- Under the hold the ramp timer is stopped (R137). -/
theorem evaluate_rampTimer_of_hold (s : State) (h : s.gov.hold = true) : (evaluate s).gov.rampTimer = none := by
  obtain ⟨_, _, _, hold, _⟩ := takeLimits_inputs s
  have held : (takeReference (takeLimits s)).gov.hold = true := by rw [takeReference_hold, hold, h]
  have stopped : (takeRampTimer (takeReference (takeLimits s))).gov.rampTimer = none := by
    simp [takeRampTimer, held]
  simp only [evaluate, State.setEvalDue]
  rw [takeGlue_rampTimer, stopped]

/-- The governor after a request whose owner asks for an evaluation (R136). -/
theorem answered_gov_of_due (r : Request) (tag : Byte) (code : Result) (data : List Byte) (t : State) (h : t.evalDue = true) :
    ∃ u, (answered r tag code data t).gov = (evaluate u).gov ∧ u.gov = t.gov ∧ u.cfg = t.cfg := by
  refine ⟨_, (settle_gov _).trans (if_pos ?_), ?_, ?_⟩
  · simpa using h
  · simp
  · simp

/-- Settles O42. -/
theorem speedDemandSetsDemand : Obligations.SpeedDemandSetsDemand := by
  intro tag v s free demand
  have request : exec (.speedDemand tag v) s = _ := next_of_answer (exec_speedDemand tag v s free) rfl
  refine ⟨request, _, request, ?_⟩
  obtain ⟨u, gov, inputs, cfg⟩ := answered_gov_of_due .speedDemand tag (if v.toNat ≤ s.cfg.lineMax then .ok else .clamped)
    (uns 2 demand) (((begin s).setGov { s.gov with demand := demand }).setEvalDue true) rfl
  have governor := gov
  refine ⟨?_, ?_⟩
  · rw [show demand = u.gov.demand by rw [inputs]; rfl, ← evaluate_demand u, ← gov]
    rfl
  · by_cases le : s.gov.reference ≤ demand
    · exact .inl le
    cases hold : s.gov.hold with
    | true => exact .inr (.inl rfl)
    | false =>
      refine .inr (.inr ?_)
      have top : min u.gov.demand u.cfg.lineMax = demand := by
        rw [inputs, cfg]
        exact Nat.min_eq_left (Nat.min_le_right _ _)
      have above : min u.gov.demand u.cfg.lineMax < u.gov.reference := by
        rw [top, inputs]
        exact Nat.lt_of_not_le le
      have cut := (evaluate_cut u).2 (by rw [inputs]; exact hold) above
      rw [top, ← gov] at cut
      exact cut

/-! ## The queries -/

/-- Settles O43. -/
theorem governorAndLineQueries : Obligations.GovernorAndLineQueries := by
  refine ⟨fun tag s free => next_of_answer (exec_governorQuery tag s free) ?_, fun tag s free => ⟨sinceAdvance s, fun t last => ?_,
    next_of_answer (exec_lineQuery tag s free) rfl⟩⟩
  · simp only [governorQuery, begin_fields, Limits.members, List.flatMap_cons, List.flatMap_nil, List.append_nil]
    cases s.gov.segment
    · simp only [List.append_assoc]
      rfl
    · simp only [List.append_assoc]
  · simp only [sinceAdvance, last]

/-! ## Stops, restarts and rests -/

section
variable {s : State}

theorem lineRestart_of_ready (conf : s.store.configured = true) (whole : s.line.condition ≠ .brk)
    (released : s.emergencyStop = false) : lineRestart s = (setCondition .run s, .plain .ok) := by
  simp only [lineRestart, configured, conf, whole, released, Bool.not_true, Bool.false_eq_true, if_false]

theorem lineRestart_of_stopped (conf : s.store.configured = true) (h : s.line.condition = .brk ∨ s.emergencyStop = true) :
    lineRestart s = (s, .plain .wrongState) := by
  simp only [lineRestart, configured, conf, Bool.not_true, Bool.false_eq_true, if_false]
  split
  · rfl
  · rename_i whole
    exact if_pos (h.resolve_left whole)

theorem restExpiry_of_running {due : Nat} (h : s.rest.timer = .running due) :
    restExpiry s = { s with now := max s.now due, rest := { s.rest with timer := .expired } } := by
  simp only [restExpiry, h]
  rfl

theorem restExpiry_of_stopped (h : ∀ due, s.rest.timer ≠ .running due) : restExpiry s = s := by
  simp only [restExpiry]
  split
  · rename_i due running
    exact absurd running (h due)
  · rfl
  · rfl

end

/-- Settles O45. -/
theorem lineStopsRestartsAndRests : Obligations.LineStopsRestartsAndRests := by
  refine ⟨fun tag s free => ?_, fun s => ⟨fun due running => exec_of_field rfl (restExpiry_of_running (s := begin s) running),
    fun stopped => ignored_of_field rfl (restExpiry_of_stopped (s := begin s) stopped)⟩⟩
  have stop := exec_lineStop tag s free
  have restart := exec_lineRestart tag s free
  refine ⟨fun run => ?_, fun halt => next_of_answer stop ?_, fun purged => next_of_answer stop ?_,
    fun broken => refuses_of_plain stop ?_, fun bare => refuses_of_plain restart ?_,
    fun conf stopped => refuses_of_plain restart (lineRestart_of_stopped (s := begin s) conf stopped),
    fun conf whole released => ⟨_, next_of_answer restart (lineRestart_of_ready (s := begin s) conf whole released), rfl, by simp⟩⟩
  · have stopped : lineStop (begin s) = (setCondition .halt (begin s), { code := .ok, data := [1] }) := by
      simp only [lineStop, begin_fields, run]
      rfl
    exact ⟨_, next_of_answer stop stopped, rfl, by simp⟩
  · simp only [lineStop, begin_fields, halt]
    rfl
  · simp only [lineStop, begin_fields, purged]
    rfl
  · simp only [lineStop, begin_fields, broken]
  · simp [lineRestart, configured, bare]

end Sys2Proof.Machine
end

