-- ==== Sys2Proof/Proofs/Counters.lean ====
section
/-! PROOFS. The requests on the waste accounts and on the counter bank, and the millisecond. -/

namespace Sys2Proof.Machine

open Sys2Proof

/-! ## The waste accounts -/

theorem length_flatMap_uns {α : Type} (xs : List α) (f : α → List Byte) {n : Nat} (h : ∀ x ∈ xs, (f x).length = n) :
    (xs.flatMap f).length = xs.length * n := by
  rw [List.length_flatMap, List.map_congr_left h, List.map_const', List.sum_replicate, smul_eq_mul]

theorem length_six (p : Six Nat) : (p.toList.flatMap (uns 6)).length = 36 := by
  rw [length_flatMap_uns (n := 6) _ _ fun x _ => length_uns 6 x]
  rfl

theorem length_laneBytes (l : LaneAccounts) : l.bytes.length = 90 := by
  rw [LaneAccounts.bytes, List.length_append, length_flatMap_uns (n := 12) _ _ fun c _ => by simp, length_uns]
  rfl

/-- Settles O48. -/
theorem accountsReadAndClear : Obligations.AccountsReadAndClear := by
  intro tag s free a lane six
  refine ⟨⟨_, ?_, rfl, next_of_answer (exec_accountsRead tag s free) rfl⟩, next_of_answer (exec_accountsClear tag s free) rfl⟩
  have lanes : ∀ l, (lane l).length = 90 := length_laneBytes
  have sixes : ∀ p, (six p).length = 36 := length_six
  simp only [List.length_append, length_uns, lanes, sixes]

/-! ## The counter a request names -/

@[simp] theorem counter_toNat (i : Fin 8) : (BitVec.ofNat 8 i).toNat = i := by
  simp only [BitVec.toNat_ofNat]
  omega

/-! ## COUNTER_SETUP -/

theorem Source.ofCode_of_beyond {n : Nat} (h : 11 < n) : Source.ofCode n = none := by
  unfold Source.ofCode
  split
  any_goals omega
  rfl

theorem LaneFilter.ofCode_of_beyond {n : Nat} (h : 2 < n) : LaneFilter.ofCode n = none := by
  unfold LaneFilter.ofCode
  split
  any_goals omega
  rfl

theorem Family.ofCode_of_beyond {n : Nat} (h : 7 < n) : Family.ofCode n = none := by
  unfold Family.ofCode
  split
  any_goals omega
  rfl

/-- The condition sources are those from 7 on (Figure 9-5). -/
theorem isCondition_iff {n : Nat} {src : Source} : Source.ofCode n = some src → (src.isCondition = true ↔ 7 ≤ n) := by
  unfold Source.ofCode
  split <;> rintro ⟨⟩ <;> simp [Source.isCondition]

/-- The values of a COUNTER_SETUP that its range check looks at beside the three codes (R170). -/
def SetupRanged (en src mode inv fr cs : Nat) : Prop :=
  en ≤ 1 ∧ mode ≤ 1 ∧ inv ≤ 1 ∧ fr ≤ 1 ∧ cs ≤ 127 ∧ (src < 7 → mode = 0 ∧ inv = 0)

section
variable {en src mode inv fr lf om ok cs fam : Nat}

theorem counterConfig_of_codes {source : Source} {lanes : LaneFilter} {family : Family} (h : Source.ofCode src = some source)
    (hl : LaneFilter.ofCode lf = some lanes) (hf : Family.ofCode fam = some family)
    (ranged : SetupRanged en src mode inv fr cs) : counterConfig en src mode inv fr lf om ok cs fam = some
      { value := 0, overflow := false, enabled := en == 1, source := source, edge := mode == 1, invert := inv == 1,
        freeze := fr == 1, laneFilter := lanes, orderMatch := BitVec.ofNat 16 om, orderMask := BitVec.ofNat 16 ok,
        classSet := BitVec.ofNat 8 cs, family := family, lastSeen := false } := by
  obtain ⟨enable, edge, invert, freeze, classes, event⟩ := ranged
  have condition : source.isCondition = true ∨ mode = 0 ∧ inv = 0 := by
    rw [isCondition_iff h]
    omega
  simp [counterConfig, h, hl, hf, inRange, enable, edge, invert, freeze, classes, condition]

/-- A code beyond its figure, or a value out of its range, makes no configuration (R170, check 3). -/
theorem counterConfig_of_bad (bad : 11 < src ∨ 2 < lf ∨ 7 < fam ∨ ¬SetupRanged en src mode inv fr cs) :
    counterConfig en src mode inv fr lf om ok cs fam = none := by
  unfold counterConfig
  split
  · rename_i source lanes family h hl hf
    have ranged : ¬SetupRanged en src mode inv fr cs := by
      rcases bad with beyond | beyond | beyond | ranged
      · cases (Source.ofCode_of_beyond beyond).symm.trans h
      · cases (LaneFilter.ofCode_of_beyond beyond).symm.trans hl
      · cases (Family.ofCode_of_beyond beyond).symm.trans hf
      · exact ranged
    refine if_neg fun within => ranged ?_
    simp only [Bool.and_eq_true, Bool.or_eq_true, inRange_iff, isCondition_iff h, beq_iff_eq] at within
    simp only [SetupRanged]
    omega
  · rfl

variable {i : Fin 8} {n : Nat} {s : State}

theorem counterSetup_of_enabled (h : (s.bank.counters.get i).enabled = true) :
    counterSetup i en src mode inv fr lf om ok cs fam s = (s, .plain .wrongState) := by
  simp only [counterSetup, i.isLt, dif_pos, h, if_true]

theorem counterSetup_of_no_config (h : (s.bank.counters.get i).enabled = false)
    (none : counterConfig en src mode inv fr lf om ok cs fam = none) :
    counterSetup i en src mode inv fr lf om ok cs fam s = (s, .plain .outOfRange) := by
  simp only [counterSetup, i.isLt, dif_pos, h, none, Bool.false_eq_true, if_false]

theorem counterSetup_of_config {c : Counter} (h : (s.bank.counters.get i).enabled = false)
    (config : counterConfig en src mode inv fr lf om ok cs fam = some c) :
    counterSetup i en src mode inv fr lf om ok cs fam s =
      (updateCounter i (fun old => { c with value := old.value, overflow := old.overflow, lastSeen := tested s i c }) s,
        .plain .ok) := by
  simp only [counterSetup, i.isLt, dif_pos, h, config, Bool.false_eq_true, if_false]

theorem counterSetup_of_beyond (h : 7 < n) :
    counterSetup n en src mode inv fr lf om ok cs fam s = (s, .plain .outOfRange) := dif_neg (by omega)

/-! ## The other counter requests -/

theorem counterEnable_of_range (i : Fin 8) (h : en ≤ 1) :
    counterEnable i en s = (updateCounter i (fun c => { c with enabled := en == 1 }) s, .plain .ok) := by
  simp only [counterEnable, i.isLt, dif_pos, if_neg (Nat.not_lt.mpr h)]

theorem counterEnable_of_bad (h : 1 < en ∨ 7 < n) : counterEnable n en s = (s, .plain .outOfRange) := by
  unfold counterEnable
  split
  · rename_i slot
    exact if_pos (h.resolve_right (by omega))
  · rfl

theorem counterPreset_of_range (i : Fin 8) {v : Nat} (h : v < 2 ^ 40) :
    counterPreset i v s = (updateCounter i (fun c => { c with value := v }) s, .plain .ok) := by
  have fits : ¬Config.counterModulus ≤ v := Nat.not_le.mpr h
  simp only [counterPreset, i.isLt, dif_pos, if_neg fits]

theorem counterPreset_of_beyond {v : Nat} (h : 7 < n) : counterPreset n v s = (s, .plain .outOfRange) :=
  dif_neg (by omega)

theorem length_counterBytes (c : Counter) (band : Nat) : (c.bytes band).length = 16 := by
  simp [Counter.bytes]

end

theorem beq_one (b : Byte) : (b.toNat == 1) = (b == 1#8) := by
  rw [Bool.eq_iff_iff]
  simp only [beq_iff_eq]
  bv_omega

/-- Settles O49. -/
theorem counterRequests : Obligations.CounterRequests := by
  refine ⟨fun tag i en src mode inv fr lf om ok cs fam s free => ?_, fun tag n en clear i v s free => ?_⟩
  · intro c old ranged
    have request := exec_counterSetup tag (BitVec.ofNat 8 i) en src mode inv fr lf om ok cs fam s free
    rw [counter_toNat] at request
    have within : ranged ↔ SetupRanged en.toNat src.toNat mode.toNat inv.toNat fr.toNat cs.toNat := by
      simp only [ranged, SetupRanged]
      bv_omega
    refine ⟨fun enabled => refuses_of_plain request (counterSetup_of_enabled enabled), fun disabled bad => refuses_of_plain request
      (counterSetup_of_no_config disabled (counterConfig_of_bad (by rwa [← within]))),
      fun source lanes family disabled hs hl hf fits => next_of_answer request ?_⟩
    refine (counterSetup_of_config (s := begin s) disabled (counterConfig_of_codes hs hl hf (within.mp fits))).trans ?_
    simp only [beq_one, BitVec.ofNat_toNat, BitVec.setWidth_eq]
    rfl
  · have enable := exec_counterEnable tag (BitVec.ofNat 8 i) en s free
    have preset := exec_counterPreset tag (BitVec.ofNat 8 i) v s free
    have read := exec_counterRead tag clear s free
    rw [counter_toNat] at enable preset
    refine ⟨fun fits => next_of_answer enable ?_, fun bad => ?_, next_of_answer preset (counterPreset_of_range i v.isLt),
      fun beyond => ⟨refuses_of_plain (exec_counterPreset tag n v s free) (counterPreset_of_beyond beyond),
        fun src mode inv fr lf om ok cs fam => refuses_of_plain
          (exec_counterSetup tag n en src mode inv fr lf om ok cs fam s free) (counterSetup_of_beyond beyond)⟩,
      next_of_answer (exec_counterUnfreeze tag s free) rfl, fun beyond => refuses_of_plain read (if_pos beyond), fun fits => ⟨?_, ?_⟩⟩
    · rw [counterEnable_of_range i fits]
      simp only [beq_one]
      rfl
    · refine refuses_of_plain (exec_counterEnable tag _ en s free) (counterEnable_of_bad ?_)
      split
      · rename_i beyond
        exact .inl beyond
      · rename_i fits
        exact .inr (bad.resolve_left fits)
    · have records := length_flatMap_uns (n := 16) counterIds
        (fun j => (s.bank.counters.get j).bytes (s.cfg.band.get j)) fun j _ => length_counterBytes _ _
      rw [List.length_append, length_flag]
      exact congrArg (1 + ·) records
    · refine next_of_answer read ((if_neg (Nat.not_lt.mpr fits)).trans ?_)
      have set : clear.toNat = 1 ↔ clear = 1#8 := by bv_omega
      simp only [set]
      rfl

/-! ## The millisecond -/

/-- Without an evaluation due the close of an event touches the link alone. -/
theorem settle_of_quiet {s : State} (h : s.evalDue = false) : settle s = arbitrate s := by
  simp only [settle, h]
  rfl

theorem raise_eq (c : Counter) (k : Nat) : c.raise k =
    { c with value := (c.value + k) % 2 ^ 40, overflow := c.overflow || decide (2 ^ 40 ≤ c.value + k) } := rfl

/-- The millisecond's increment is 1 for a LEVEL counter whose condition holds (R166). -/
theorem levelIncrement_eq (c : Counter) (b : Bool) : (if c.enabled && !c.edge && b then 1 else 0) =
    if c.enabled = true ∧ c.edge = false ∧ b = true then 1 else 0 := by
  simp [and_assoc]

/-- Settles O50. -/
theorem millisecondRaisesLevelCounters : Obligations.MillisecondRaisesLevelCounters := by
  intro s
  have quiet : (countMillisecond ((begin s).setNow (s.now + 1))).evalDue = false := by simp
  have ends := settle_of_quiet quiet
  refine ⟨_, exec_of_field (c := .counterMillisecond) (t := countMillisecond ((begin s).setNow (s.now + 1))) rfl rfl, ?_⟩
  rw [ends]
  simp only [arbitrate_frame]
  refine ⟨by simp, fun frozen => ?_, fun free i => ?_, fun free fits => ?_, by simp, by simp, by simp, by simp, by simp, by simp,
    by simp, by simp, by simp, by simp⟩
  · rw [countMillisecond, handOff_frozen _ ((begin s).setNow (s.now + 1)) frozen]
    rfl
  · have raised := (handOff_bank (fun i c => if c.enabled && !c.edge && tested ((begin s).setNow (s.now + 1)) i c then 1 else 0)
      ((begin s).setNow (s.now + 1)) free).1 i
    rw [levelIncrement_eq, raise_eq] at raised
    exact raised
  · have froze := (handOff_bank (fun i c => if c.enabled && !c.edge && tested ((begin s).setNow (s.now + 1)) i c then 1 else 0)
      ((begin s).setNow (s.now + 1)) free).2
    refine froze.trans (exists_congr fun i => and_congr_right fun _ => ?_)
    have value : (s.bank.counters.get i).value < 2 ^ 40 := fits i
    show 2 ^ 40 ≤ (s.bank.counters.get i).value + _ ↔ _
    rw [levelIncrement_eq]
    constructor
    · intro wraps
      split at wraps
      · rename_i level
        exact ⟨level.1, level.2.1, level.2.2, wraps⟩
      · omega
    · rintro ⟨enabled, level, holds, wraps⟩
      rw [if_pos ⟨enabled, level, holds⟩]
      exact wraps

end Sys2Proof.Machine
end

