-- ==== Sys2Proof/Proofs/Settings.lean ====
section
/-! PROOFS. The settings store: SETTINGS_WRITE with its checks and effects, and the write of the image. -/

namespace Sys2Proof.Machine

open Sys2Proof

/-! ## SETTINGS_WRITE -/

section
variable {entries : List (Nat × Nat)} {s : State}

theorem settingsWrite_of_writing (h : s.store.writing.isSome = true) : settingsWrite entries s = (s, .plain .busy) := if_pos h

theorem settingsWrite_of_bad (h : s.store.writing = none) {pos : Nat} (bad : firstBad [] 1 entries = some pos) :
    settingsWrite entries s = (s, { code := .outOfRange, data := uns 1 pos }) := by
  simp only [settingsWrite, h, bad, Option.isSome_none, Bool.false_eq_true, if_false]

theorem settingsWrite_of_restricted (h : s.store.writing = none) (good : firstBad [] 1 entries = none)
    (restricted : ((itemsOf entries).any fun e => e.1.isRestricted) = true) (may : mayWriteRestricted s = false) :
    settingsWrite entries s = (s, .plain .wrongState) := by
  simp only [settingsWrite, h, good, restricted, may, Option.isSome_none, Bool.false_eq_true, if_false, Bool.not_false,
    Bool.and_self, if_true]

theorem not_refused_of_allowed
    (allowed : ((itemsOf entries).any fun e => e.1.isRestricted) = true → mayWriteRestricted s = true) :
    ((itemsOf entries).any (fun e => e.1.isRestricted) && !mayWriteRestricted s) = false := by
  cases restricted : (itemsOf entries).any fun e => e.1.isRestricted
  · rfl
  · simp [allowed restricted]

theorem settingsWrite_of_valid (h : s.store.writing = none) (good : firstBad [] 1 entries = none)
    (allowed : ((itemsOf entries).any fun e => e.1.isRestricted) = true → mayWriteRestricted s = true)
    (valid : validSettings (written s.cfg (itemsOf entries)) (plannedLengths s) = true) :
    settingsWrite entries s = (takeWrite (itemsOf entries) s, .plain .ok) := by
  have passes : ((crossChecks (written s.cfg (itemsOf entries)) (plannedLengths s)).find? fun k => !k.holds) = none := by
    simpa [validSettings] using valid
  simp only [settingsWrite, h, good, not_refused_of_allowed allowed, passes, Option.isSome_none, Bool.false_eq_true, if_false]

/-- Past the first three checks a set that is not valid fails at its first cross-check that fails (R185, step 4). -/
theorem settingsWrite_of_invalid (h : s.store.writing = none) (good : firstBad [] 1 entries = none)
    (allowed : ((itemsOf entries).any fun e => e.1.isRestricted) = true → mayWriteRestricted s = true)
    (invalid : validSettings (written s.cfg (itemsOf entries)) (plannedLengths s) = false) :
    ∃ data, settingsWrite entries s = (s, { code := .outOfRange, data := data }) := by
  obtain ⟨k, fails⟩ : ∃ k, ((crossChecks (written s.cfg (itemsOf entries)) (plannedLengths s)).find? fun k => !k.holds) = some k := by
    rw [← Option.isSome_iff_exists, List.find?_isSome]
    simpa [validSettings] using invalid
  simp only [settingsWrite, h, good, not_refused_of_allowed allowed, fails, Option.isSome_none, Bool.false_eq_true, if_false]
  exact ⟨_, rfl⟩

end

theorem mayWriteRestricted_iff (s : State) : mayWriteRestricted s = true ↔
    (s.line.condition = .halt ∨ s.line.condition = .purged) ∧ (s.rest.timer = .expired ∧ s.gov.reference = 0) ∧
      s.web.marks = [] := by
  simp [mayWriteRestricted, atRest, and_assoc]

theorem standsWritten_enc (old : Settings) (s : State) : (standsWritten old s).enc = s.enc := by
  simp

/-- A write moves the encoder selection, never the axis (R5). -/
theorem takeWrite_axis (items : List (Item × Nat)) (s : State) : (takeWrite items s).enc.axis = s.enc.axis := by
  unfold takeWrite
  extract_lets old has s1 s2 s3 s4
  have encoder : s2.enc.axis = s.enc.axis := by
    simp only [s2, s1]
    split <;> simp [encoderWritten, restartSilence]
  have idle : s4.enc = s2.enc := by
    simp only [s4, s3]
    split <;> simp
  have last : (if has Item.governorReads then needEvaluation s4 else s4).enc = s4.enc := by
    split <;> simp
  rw [last, idle, encoder]

/-- Settles O51. -/
theorem settingsWriteChecksAndReplaces : Obligations.SettingsWriteChecksAndReplaces := by
  intro tag es s free few c entries items restricted mayWrite
  have request := exec_settingsWrite tag es s (by omega) free
  refine ⟨fun busy => refuses_of_plain request (settingsWrite_of_writing busy), fun idle =>
    ⟨fun pos bad => next_of_answer request (settingsWrite_of_bad (s := begin s) idle bad), fun good => ?_⟩⟩
  have may : mayWrite ↔ mayWriteRestricted (begin s) = true := (mayWriteRestricted_iff (begin s)).symm
  refine ⟨fun limited stopped => refuses_of_plain request
    (settingsWrite_of_restricted (s := begin s) idle good limited (Bool.not_eq_true _ ▸ mt may.mpr stopped)), fun allowed => ?_⟩
  have allows := fun limited => may.mp (allowed limited)
  refine ⟨fun invalid => ?_, fun valid => ?_⟩
  · obtain ⟨data, refused⟩ := settingsWrite_of_invalid (s := begin s) idle good allows invalid
    exact ⟨data, next_of_answer request refused⟩
  · refine ⟨_, next_of_answer request (settingsWrite_of_valid (s := begin s) idle good allows valid), rfl, ?_⟩
    simp only [answered_fields, takeWrite_axis, takeWrite_cfg, takeWrite_frame, begin_fields, and_self, and_true]
    rfl

/-! ## The image -/

/-- Settles O52. -/
theorem imageWriteBeginsAndEnds : Obligations.ImageWriteBeginsAndEnds := by
  refine fun tag s => ⟨fun free busy => refuses_of_plain (exec_settingsCommit tag s free) (if_pos busy),
    fun free idle => next_of_answer (exec_settingsCommit tag s free) ?_, fun cause m writing => exec_of_field rfl ?_,
    fun cause m writing => exec_of_field rfl ?_, fun idle => ⟨ignored_of_field rfl ?_, ignored_of_field rfl ?_⟩⟩
  · refine if_neg ?_
    rw [show (begin s).store.writing = none from idle]
    exact Bool.false_ne_true
  · have begun : (begin s).store.writing = some (cause, m) := writing
    show imageWriteSuccess (begin s) = _
    simp only [imageWriteSuccess, begun]
    cases cause <;> rfl
  · have begun : (begin s).store.writing = some (cause, m) := writing
    show imageWriteFailure (begin s) = _
    simp only [imageWriteFailure, begun]
    rfl
  · have none : (begin s).store.writing = Option.none := idle
    show imageWriteSuccess (begin s) = _
    simp only [imageWriteSuccess, none]
  · have none : (begin s).store.writing = Option.none := idle
    show imageWriteFailure (begin s) = _
    simp only [imageWriteFailure, none]

end Sys2Proof.Machine
end

