-- ==== Sys2Proof/Proofs/Outputs.lean ====
section
/-! PROOFS. Outputs are only ever appended in a step: what an operation has issued stays issued to the close of the event. And with it
the emergency stop. -/

namespace Sys2Proof.Machine

open Sys2Proof

/-- The operation keeps every output issued before it, in order. -/
def Appends (f : State → State) : Prop := ∀ s, s.issued <+: (f s).issued

theorem Appends.foldl {α : Type} {f : State → α → State} (h : ∀ a, Appends fun s => f s a) (xs : List α) :
    Appends fun s => xs.foldl f s := by
  induction xs with
  | nil => exact fun s => List.prefix_rfl
  | cons x xs ih => exact fun s => (h x s).trans (ih (f s x))

theorem Appends.mem {f : State → State} (h : Appends f) {s : State} {o : Output} (issued : o ∈ s.issued) : o ∈ (f s).issued :=
  (h s).subset issued

theorem appends_emit (o : Output) : Appends (emit o) := fun s => by simp

/-! ## Closure and stack changes -/

theorem startChange_appends (lane : Lane) (c : ChangeCause) : Appends (startChange lane c) := fun s => by
  simp [startChange]

theorem closingChange_appends (o : Nat) (lane : Lane) : Appends (closingChange o lane) := by
  intro s
  simp only [closingChange]
  split
  · split
    · exact startChange_appends _ _ _
    · exact List.prefix_rfl
  · split <;> simp
  · exact List.prefix_rfl

theorem closeOrder_appends (r : OrderRec) : Appends (closeOrder r) := fun s => by
  refine .trans (.trans ?_ (closingChange_appends _ .u _)) (closingChange_appends _ .l _)
  simp

theorem closureTest_appends (o : Nat) : Appends (closureTest o) := by
  intro s
  simp only [closureTest]
  split
  · split
    · exact closeOrder_appends _ _
    · exact List.prefix_rfl
  · exact List.prefix_rfl

theorem closureTests_appends (os : List Nat) : Appends (closureTests os) := .foldl closureTest_appends os

theorem feedOrder_appends (o : Nat) : Appends (feedOrder o) := by
  intro s
  simp only [feedOrder]
  split
  · split
    · exact .trans (by simp) (closureTest_appends _ _)
    · exact List.prefix_rfl
  · exact List.prefix_rfl

theorem feedOrders_appends (os : List Nat) : Appends (feedOrders os) := .foldl feedOrder_appends os

/-! ## Planning and firing -/

theorem firingTest_appends (i : Fin 6) : Appends (firingTest i) := fun s => by
  rcases firingTest_cases i s with kept | ⟨_, _, _, fired⟩
  · rw [kept]
  · rw [fired]
    simp

theorem armingTest_appends (i : Fin 6) : Appends (armingTest i) := by
  intro s
  simp only [armingTest]
  split
  · split
    · exact .trans (by simp) (firingTest_appends _ _)
    · exact List.prefix_rfl
  · exact List.prefix_rfl

theorem planStand_appends (i : Fin 6) : Appends (planStand i) := by
  intro s
  simp only [planStand]
  split
  · exact .trans (by simp) (armingTest_appends _ _)
  · exact List.prefix_rfl

theorem replanAll_appends : Appends replanAll := .foldl planStand_appends slots

theorem raisePlanned_appends (k : Nat) : Appends (raisePlanned k) := by
  intro s
  simp only [raisePlanned]
  split
  · exact .trans (by simp) (replanAll_appends _)
  · exact List.prefix_rfl

/-! ## Marks and breaks -/

theorem enterReject_appends (m : Mark) : Appends (enterReject m) := by
  intro s
  simp only [enterReject]
  split
  · split
    · exact .trans (by simp) (raisePlanned_appends _ _)
    · simp
  · split <;> simp

theorem takeFinalLength_appends (len : Nat) : Appends (takeFinalLength len) := by
  intro s
  simp only [takeFinalLength]
  split
  · split
    · exact .trans (by simp) (raisePlanned_appends _ _)
    · simp
  · simp

theorem closeSensorDefect_appends : Appends closeSensorDefect := by
  intro s
  simp only [closeSensorDefect]
  split
  · split
    · split
      · simp
      · exact .trans (by simp) (takeFinalLength_appends _ _)
    · simp
  · exact List.prefix_rfl

theorem breakCause_appends (c : BreakCause) : Appends (breakCause c) := by
  intro s
  simp only [breakCause]
  split
  · simp
  · rw [(breakNotice_frame _ _ _ _).2.2.2.2.2.2.2.2.2.2.2.2.2.2.2.2.2.2.1]
    exact .trans (by simp) (enterReject_appends _ _)

/-! ## Stations -/

theorem positionOutput_appends (x : Station) (t : Setup) (r : StationRec) : Appends (positionOutput x t r) := fun s => by
  simp [positionOutput]

theorem loadAttempt_appends (x : Station) : Appends (loadAttempt x) := by
  intro s
  simp only [loadAttempt]
  split
  · split
    · split
      · rw [(beginLate_frame _ _ _).2.2.2.2.2.2.2.2.2.2.2.2.2.2.2.2.2.1]
        exact positionOutput_appends _ _ _ _
      · exact positionOutput_appends _ _ _ _
    · exact List.prefix_rfl
  · exact List.prefix_rfl

theorem loadAttempts_appends (x : Station) : Appends (loadAttempts x) := fun s =>
  ((loadAttempt_appends x s).trans (loadAttempt_appends x.other _)).trans (loadAttempt_appends x _)

theorem engageStation_appends (x : Station) : Appends (engageStation x) := fun s => by simp [engageStation]

theorem retractStation_appends (x : Station) (next : StationState) (p : Option Nat) : Appends (retractStation x next p) :=
  fun s => by simp [retractStation]

theorem abandonPattern_appends (x : Station) : Appends (abandonPattern x) := fun s => by simp [abandonPattern]

theorem recordArrival_appends (x : Station) (id : Nat) (o : ArrivalOutcome) : Appends (recordArrival x id o) := fun s => by
  simp [recordArrival]

theorem beginLate_appends (x : Station) (id : Nat) : Appends (beginLate x id) := fun s => by simp

theorem stationArrival_appends (x : Station) (id : Nat) : Appends (stationArrival x id) := by
  intro s
  simp only [stationArrival]
  split
  · split
    · exact .trans (engageStation_appends _ _) (recordArrival_appends _ _ _ _)
    · exact .trans (beginLate_appends _ _ _) (recordArrival_appends _ _ _ _)
    · exact .trans (beginLate_appends _ _ _) (recordArrival_appends _ _ _ _)
    · exact recordArrival_appends _ _ _ _
    · exact recordArrival_appends _ _ _ _
  · split
    · split
      · exact ((retractStation_appends _ _ _ _).trans (loadAttempts_appends _ _)).trans (recordArrival_appends _ _ _ _)
      · split
        · exact ((abandonPattern_appends _ _).trans (loadAttempts_appends _ _)).trans (recordArrival_appends _ _ _ _)
        · exact recordArrival_appends _ _ _ _
      · split
        · exact .trans (.trans (by simp) (loadAttempts_appends _ _)) (recordArrival_appends _ _ _ _)
        · exact recordArrival_appends _ _ _ _
      · exact recordArrival_appends _ _ _ _
      · exact recordArrival_appends _ _ _ _
    · exact recordArrival_appends _ _ _ _

theorem stationArrivals_appends (x : Station) (ids : List Nat) : Appends (stationArrivals x ids) :=
  .foldl (stationArrival_appends x) ids

theorem giveUpRetired_appends (id : Nat) (x : Station) : Appends (giveUpRetired id x) := by
  intro s
  simp only [giveUpRetired]
  split
  · split
    · exact (abandonPattern_appends _ _).trans (loadAttempts_appends _ _)
    · exact (abandonPattern_appends _ _).trans (loadAttempts_appends _ _)
    · exact (retractStation_appends _ _ _ _).trans (loadAttempts_appends _ _)
    · exact .trans (by simp) (loadAttempts_appends _ _)
    · exact List.prefix_rfl
  · exact List.prefix_rfl

/-! ## The schedule -/

theorem startSetup_appends (n : Nat) (head : Setup) (rest : List Setup) : Appends (startSetup n head rest) := by
  intro s
  unfold startSetup
  extract_lets former late overshoot marked sched moved active noticed counted fed
  have started : counted.issued = s.issued := by
    clear_value late
    simp only [counted]
    cases late <;> simp [noticed, active, moved, marked]
  exact started ▸ ((feedOrders_appends _ counted).trans (replanAll_appends fed)).trans (loadAttempts_appends .a _)

theorem startAttempt_appends (n : Nat) : Appends (startAttempt n) := by
  intro s
  simp only [startAttempt]
  split
  · exact List.prefix_rfl
  split
  · simp
  split
  · simp
  split
  · simp
  · exact startSetup_appends _ _ _ _

theorem retireRecord_appends (t : Setup) : Appends (retireRecord t) := fun s =>
  .trans (by simp) (closureTests_appends _ _)

theorem retireSetup_appends (t : Setup) : Appends (retireSetup t) := fun s =>
  ((retireRecord_appends t s).trans (giveUpRetired_appends _ .a _)).trans (giveUpRetired_appends _ .b _)

theorem retireAll_appends : Appends retireAll := fun s => Appends.foldl retireSetup_appends (dueForRetirement s s.sched.online) s

theorem carryForward_appends (o outs : Nat) (uncovered : Bool) : Appends (carryForward o outs uncovered) := by
  intro s
  simp only [carryForward]
  split
  · exact .trans (by simp) (replanAll_appends _)
  · exact List.prefix_rfl

/-! ## Delivery -/

theorem setGate_appends (lane : Lane) (g : Disposition) : Appends (setGate lane g) := by
  intro s
  simp only [setGate]
  split <;> simp

theorem layCut_appends (lane : Lane) (o outs : Nat) : Appends (layCut lane o outs) := fun s =>
  .trans (by simp) (setGate_appends _ _ _)

theorem divertGood_appends (lane : Lane) (o outs : Nat) : Appends (divertGood lane o outs) := fun s =>
  .trans (by simp) (setGate_appends _ _ _)

theorem offerFork_appends (lane : Lane) (o outs : Nat) : Appends (offerFork lane o outs) := by
  intro s
  simp only [offerFork]
  split
  · exact .trans (by simp) (layCut_appends _ _ _ _)
  · exact divertGood_appends _ _ _ _

theorem offerBundle_appends (lane : Lane) (o outs : Nat) : Appends (offerBundle lane o outs) := by
  intro s
  simp only [offerBundle]
  split
  · split
    · exact .trans (.trans (by simp) (layCut_appends _ _ _ _)) (startChange_appends _ _ _)
    · exact .trans (by simp) (layCut_appends _ _ _ _)
  · exact (startChange_appends _ _ _).trans (offerFork_appends _ _ _ _)

theorem deliverCut_appends (lane : Lane) (b : Batch) : Appends (deliverCut lane b) := by
  intro s
  simp only [deliverCut]
  split
  · split
    · exact offerBundle_appends _ _ _ _
    · exact offerFork_appends _ _ _ _
    · exact divertGood_appends _ _ _ _
  · exact setGate_appends _ _ _

theorem deliverFront_appends (lane : Lane) (b : Batch) (rest : List Batch) : Appends (deliverFront lane b rest) := by
  intro s
  simp only [deliverFront]
  split
  · refine .trans ?_ (closureTests_appends _ _)
    rw [(setDelivery_frame _ _ _).2.2.2.2.2.2.2.2.2.2.2.2.2.2.2.2.1]
    exact deliverCut_appends _ _ _
  · rw [(setDelivery_frame _ _ _).2.2.2.2.2.2.2.2.2.2.2.2.2.2.2.2.1]
    exact deliverCut_appends _ _ _

theorem deliverReached_appends (lane : Lane) (k : Nat) : Appends (deliverReached lane k) := by
  induction k with
  | zero => exact fun s => List.prefix_rfl
  | succ k ih =>
    intro s
    simp only [deliverReached]
    split
    · split
      · exact (deliverFront_appends _ _ _ _).trans (ih _)
      · exact List.prefix_rfl
    · exact List.prefix_rfl

theorem deliverLane_appends (lane : Lane) : Appends (deliverLane lane) := fun s => deliverReached_appends _ _ s

/-! ## Knives -/

theorem handCut_appends (lane : Lane) (cls : SheetClass) (o : Option Nat) (length : Nat) (uncovered : Bool) (axis : Nat) :
    Appends (handCut lane cls o length uncovered axis) := by
  intro s
  unfold handCut
  extract_lets order outs tallied queued carried la ca accounts charged
  have first : tallied.issued = s.issued := by
    clear_value order
    simp only [tallied]
    cases order with
    | none => rfl
    | some o =>
      dsimp only
      split <;> simp
  have second : queued.issued = tallied.issued := by simp [queued]
  have third : queued.issued <+: carried.issued := by
    clear_value order queued
    simp only [carried]
    cases order with
    | none => exact List.prefix_rfl
    | some o =>
      dsimp only
      split
      · exact carryForward_appends _ _ _ _
      · exact List.prefix_rfl
  rw [second, first] at third
  exact .trans (by simpa [charged, accounts] using third) (appends_emit _ _)

theorem takeShadow_appends (lane : Lane) : Appends (takeShadow lane) := by
  intro s
  simp only [takeShadow]
  split <;> simp

theorem stretch_appends (lane : Lane) (report : List Crossing) (axis a b : Nat) : Appends (stretch lane report axis a b) := by
  intro s
  simp only [stretch]
  split
  · exact List.prefix_rfl
  split
  · simp
  · refine .trans ?_ (takeShadow_appends _ _)
    rw [(setLane_frame _ _ _).2.2.2.2.2.2.2.2.2.2.2.2.2.2.2.2.2.2.1]
    exact handCut_appends _ _ _ _ _ _ _

theorem releaseOrder_appends (former : Option LaneJob) : Appends (releaseOrder former) := closureTests_appends _

theorem cutPiece_appends (lane : Lane) (r : LaneRec) (axis : Nat) : Appends (cutPiece lane r axis) := handCut_appends _ _ _ _ _ _

theorem knifeOvershoot_appends (lane : Lane) : Appends (knifeOvershoot lane) := fun s => by simp

theorem changeOver_appends (lane : Lane) (id : Nat) (run : LaneRun) (axis : Nat) : Appends (changeOver lane id run axis) := by
  intro s
  refine .trans (.trans (.trans ?_ (appends_emit _ _)) (knifeOvershoot_appends _ _)) (releaseOrder_appends _ _)
  rw [(setLane_frame _ _ _).2.2.2.2.2.2.2.2.2.2.2.2.2.2.2.2.2.2.1]
  split
  · exact cutPiece_appends _ _ _ _
  · exact List.prefix_rfl

theorem enableLane_appends (lane : Lane) (id : Nat) (run : LaneRun) : Appends (enableLane lane id run) := fun s =>
  .trans (.trans (by simp) (appends_emit _ _)) (knifeOvershoot_appends _ _)

theorem closeLane_appends (lane : Lane) (axis : Nat) : Appends (closeLane lane axis) := by
  intro s
  refine .trans (.trans ?_ (appends_emit _ _)) (releaseOrder_appends _ _)
  rw [(setLane_frame _ _ _).2.2.2.2.2.2.2.2.2.2.2.2.2.2.2.2.2.2.1]
  split
  · exact cutPiece_appends _ _ _ _
  · exact List.prefix_rfl

theorem laneArrival_appends (lane : Lane) (id axis : Nat) : Appends (laneArrival lane id axis) := by
  intro s
  simp only [laneArrival]
  split
  · exact List.prefix_rfl
  split
  · exact changeOver_appends _ _ _ _ _
  · exact enableLane_appends _ _ _ _
  · exact closeLane_appends _ _ _
  · exact List.prefix_rfl

theorem laneStretches_appends (lane : Lane) (report : List Crossing) (axis n : Nat) (points : List (Nat × Nat)) :
    ∀ a, Appends (laneStretches lane report axis n a points) := by
  induction points with
  | nil => exact fun a => stretch_appends _ _ _ _ _
  | cons p ps ih => exact fun a s => ((stretch_appends _ _ _ _ _ s).trans (laneArrival_appends _ _ _ _)).trans (ih _ _)

theorem laneAdvance_appends (lane : Lane) (report : List Crossing) (points : List (Nat × Nat)) (axis n : Nat) :
    Appends (laneAdvance lane report points axis n) := laneStretches_appends _ _ _ _ _ _

/-! ## The evaluation and the close of an event -/

theorem firingTests_appends : Appends firingTests := .foldl firingTest_appends slots

theorem takeLimits_appends : Appends takeLimits := fun s => by simp

theorem takeReference_appends : Appends takeReference := by
  intro s
  simp only [takeReference]
  split
  · simp
  · exact .trans (by simp) (firingTests_appends _)

theorem issueGlue_appends (changed : Bool) (u : GlueUnit) : Appends (issueGlue changed u) := by
  intro s
  simp only [issueGlue]
  split <;> split <;> simp

theorem takeGlue_appends : Appends takeGlue := fun s =>
  .trans (.trans (.trans (by simp) (issueGlue_appends _ .sf1 _)) (issueGlue_appends _ .sf2 _)) (issueGlue_appends _ .db _)

theorem evaluate_appends : Appends evaluate := fun s => by
  refine .trans (.trans (.trans (takeLimits_appends s) (takeReference_appends _)) ?_) (takeGlue_appends _)
  simp

theorem settle_appends : Appends settle := by
  intro s
  simp only [settle, arbitrate_frame]
  split
  · exact evaluate_appends s
  · exact List.prefix_rfl

/-! ## The stands after an advance -/

theorem placeJoint_appends (i : Fin 6) (source : JointSource) (pos widen : Nat) : Appends (placeJoint i source pos widen) := by
  intro s
  refine .trans ?_ (firingTest_appends _ _)
  rw [(setStand_frame _ _ _).2.2.2.2.2.2.2.2.2.2.2.2.2.2.2.2.1]
  refine .trans ?_ (enterReject_appends _ _)
  split <;> simp

theorem jointTest_appends (i : Fin 6) : Appends (jointTest i) := by
  intro s
  simp only [jointTest]
  split
  · split
    · split
      · exact .trans (by simp) (placeJoint_appends _ _ _ _ _)
      · exact List.prefix_rfl
    · split
      · exact placeJoint_appends _ _ _ _ _
      · exact List.prefix_rfl
  · exact List.prefix_rfl

theorem exhaustionTest_appends (i : Fin 6) : Appends (exhaustionTest i) := by
  intro s
  simp only [exhaustionTest]
  split
  · exact .trans (by simp) (breakCause_appends _ _)
  · exact List.prefix_rfl

theorem lowTest_appends (i : Fin 6) : Appends (lowTest i) := fun s => by simp

theorem standTests_appends (i : Fin 6) : Appends (standTests i) := fun s =>
  ((((lowTest_appends i s).trans (armingTest_appends i _)).trans (firingTest_appends i _)).trans
    (jointTest_appends i _)).trans (exhaustionTest_appends i _)

theorem allStandTests_appends : Appends allStandTests := .foldl standTests_appends slots

theorem defectLimitTest_appends : Appends defectLimitTest := by
  intro s
  simp only [defectLimitTest]
  split
  · exact .trans (closeSensorDefect_appends s) (by simp [setStuck])
  · exact List.prefix_rfl

/-! ## The emergency stop -/

theorem takeReference_issues {s : State} (h : (movedReference s).1 ≠ s.gov.reference) :
    Output.speedReference (movedReference s).1 ∈ (takeReference s).issued := by
  simp only [takeReference, h.symm, if_false]
  exact firingTests_appends.mem (by simp)

/-- A change of the reference is issued (R126). -/
theorem evaluate_issues {s : State} (h : (evaluate s).gov.reference ≠ s.gov.reference) :
    Output.speedReference (evaluate s).gov.reference ∈ (evaluate s).issued := by
  have reference := (evaluate_reference s).1
  have before := (takeLimits_inputs s).1
  rw [reference] at h ⊢
  have issued := takeReference_issues (s := takeLimits s) (by rw [before]; exact h)
  exact takeGlue_appends.mem (by simpa using issued)

/-- The emergency-stop input as it becomes active: RUN becomes HALT (R153). -/
def stopped (s : State) : State :=
  if s.line.condition = .run then setCondition .halt (s.setEmergencyStop true) else s.setEmergencyStop true

theorem stopped_fields (s : State) : (stopped s).emergencyStop = true ∧ (stopped s).gov = s.gov ∧ (stopped s).web = s.web ∧
    (stopped s).sched = s.sched ∧ (stopped s).enc = s.enc ∧ (stopped s).lanes = s.lanes ∧ (stopped s).delivery = s.delivery ∧
    (stopped s).stations = s.stations ∧ (stopped s).accounts = s.accounts ∧
    (stopped s).line = { s.line with condition := if s.line.condition = .run then .halt else s.line.condition } := by
  unfold stopped
  split
  · simp
  · simp

theorem emergencyStopActive_of_released {s : State} (h : s.emergencyStop = false) :
    emergencyStopActive s = needEvaluation ((stopped s).setGov { (stopped s).gov with hold := true }) := by
  simp only [emergencyStopActive, h, Bool.false_eq_true, if_false, stopped]

theorem settle_issued_of_due {s : State} (h : s.evalDue = true) : (settle s).issued = (evaluate s).issued := by
  simp [settle, h]

/-- Settles O44: the stop sets the hold and asks for the evaluation that cuts the reference to 0. -/
theorem emergencyStopHoldsReference : Obligations.EmergencyStopHoldsReference := by
  refine fun s => ⟨fun released => ?_, fun active => ignored_of_field rfl (if_pos active),
    fun active => exec_of_field rfl (if_pos active), fun released => ignored_of_field rfl (if_neg ?_)⟩
  · have event : fieldEvent .emergencyStopActive (begin s) = _ := emergencyStopActive_of_released (s := begin s) released
    refine ⟨_, exec_of_field rfl event, ?_⟩
    generalize held : needEvaluation ((stopped (begin s)).setGov { (stopped (begin s)).gov with hold := true }) = u
    have due : u.evalDue = true := by rw [← held]; rfl
    have hold : u.gov.hold = true := by rw [← held]; rfl
    have reference : u.gov.reference = s.gov.reference := by
      rw [← held]
      show (stopped (begin s)).gov.reference = s.gov.reference
      rw [(stopped_fields (begin s)).2.1]
      rfl
    obtain ⟨zero, segment⟩ := (evaluate_cut u).1 hold
    obtain ⟨active, _, web, sched, enc, lanes, delivery, stations, accounts, line⟩ := stopped_fields (begin s)
    have gov : (settle u).gov = (evaluate u).gov := (settle_gov u).trans (if_pos due)
    simp only [gov, settle_frame, zero, segment, evaluate_hold, hold, evaluate_rampTimer_of_hold u hold, settle_issued_of_due due,
      true_and]
    refine ⟨by rw [← held]; exact active, by rw [← held]; exact line, fun moving => ?_, ?_⟩
    · have issued := evaluate_issues (s := u) (by rw [zero, reference]; exact moving.symm)
      rwa [zero] at issued
    · rw [← held]
      exact ⟨web, sched, enc, lanes, delivery, stations, accounts⟩
  · rw [show (begin s).emergencyStop = false from released]
    exact Bool.false_ne_true

end Sys2Proof.Machine
end

