-- ==== Sys2Proof/Proofs/Limiters.lean ====
section
/-! PROOFS. The governor's limiters as functions of their inputs, the square root, the interpolation, and the glue outputs. -/

namespace Sys2Proof.Machine

open Sys2Proof

/-! ## The square root -/

/-- Each bit found keeps the root between r and r + 2 ^ k (00_scope.md, Arithmetic). -/
theorem isqrtFrom_spec (k n : Nat) : ∀ r, r ^ 2 ≤ n → n < (r + 2 ^ k) ^ 2 →
    isqrtFrom k n r ^ 2 ≤ n ∧ n < (isqrtFrom k n r + 1) ^ 2 := by
  induction k with
  | zero => exact fun r low high => ⟨low, high⟩
  | succ k ih =>
    intro r low high
    have double : 2 ^ (k + 1) = 2 ^ k + 2 ^ k := by ring
    simp only [isqrtFrom]
    split
    · rename_i fits
      refine ih _ (by rwa [sq]) ?_
      rwa [add_assoc, ← double]
    · rename_i beyond
      refine ih _ low ?_
      rw [sq]
      exact Nat.lt_of_not_le beyond

theorem isqrt_spec (n : Nat) : isqrt n ^ 2 ≤ n ∧ n < (isqrt n + 1) ^ 2 := by
  refine isqrtFrom_spec _ n 0 (Nat.zero_le n) ?_
  have below : n < 2 ^ (n.log2 + 1) := Nat.lt_log2_self
  refine below.trans_le ?_
  rw [Nat.zero_add, ← Nat.pow_mul]
  exact Nat.pow_le_pow_right (by decide) (by omega)

/-! ## Interpolation -/

/-- Between two points the interpolated value is not negative, so nothing is lost by reading it as a natural number (R144, R145). -/
theorem between_nonneg {a b x p q : Int} (ha : 0 ≤ a) (hb : 0 ≤ b) (low : p ≤ x) (high : x < q) :
    0 ≤ a + ((b - a) * (x - p)).tdiv (q - p) := by
  rcases le_total a b with up | down
  · have rise : 0 ≤ ((b - a) * (x - p)).tdiv (q - p) :=
      Int.tdiv_nonneg (mul_nonneg (by omega) (by omega)) (by omega)
    omega
  · have fall : (b - a) * (x - p) = -((a - b) * (x - p)) := by ring
    have part : ((a - b) * (x - p)).tdiv (q - p) ≤ a - b := by
      rw [Int.tdiv_eq_ediv_of_nonneg (mul_nonneg (by omega) (by omega))]
      refine Int.ediv_le_of_le_mul (by omega) ?_
      exact mul_le_mul_of_nonneg_left (by omega) (by omega)
    rw [fall, Int.neg_tdiv]
    omega

/-- The points of a table stand in strict order. -/
abbrev Ascending (ps : List (Nat × Nat)) : Prop := ps.Pairwise fun a b => a.1 < b.1

theorem interpolates_single (p : Nat × Nat) (x : Nat) : Interpolates [p] x p.2 := by
  refine ⟨fun q rest e _ => ?_, fun q e _ => ?_, fun before a b after e => ?_⟩
  · cases e
    rfl
  · cases e
    rfl
  · have lengths := congrArg List.length e
    simp at lengths
    omega

/-- In a table of strictly increasing points every pair but the first lies beyond the first two. -/
theorem pair_cases {p q a b : Nat × Nat} {rest before after : List (Nat × Nat)} (sorted : Ascending (p :: q :: rest))
    (e : p :: q :: rest = before ++ a :: b :: after) :
    (a = p ∧ b = q) ∨ (q.1 ≤ a.1 ∧ ∃ tail, q :: rest = tail ++ a :: b :: after) := by
  cases before with
  | nil =>
    simp only [List.nil_append, List.cons.injEq] at e
    exact .inl ⟨e.1.symm, e.2.1.symm⟩
  | cons c cs =>
    simp only [List.cons_append, List.cons.injEq] at e
    refine .inr ⟨?_, cs, e.2⟩
    have mem : a ∈ q :: rest := by rw [e.2]; simp
    rcases List.mem_cons.mp mem with rfl | later
    · exact le_rfl
    · exact (List.rel_of_pairwise_cons (List.Pairwise.of_cons sorted) later).le

theorem last_ge {p q l : Nat × Nat} {rest : List (Nat × Nat)} (sorted : Ascending (p :: q :: rest))
    (h : (p :: q :: rest).getLast? = some l) : q.1 ≤ l.1 ∧ (q :: rest).getLast? = some l := by
  have tail : (q :: rest).getLast? = some l := by simpa using h
  refine ⟨?_, tail⟩
  rcases List.mem_cons.mp (List.mem_of_getLast? tail) with rfl | later
  · exact le_rfl
  · exact (List.rel_of_pairwise_cons (List.Pairwise.of_cons sorted) later).le

theorem interpolates_interpolate : ∀ (ps : List (Nat × Nat)) (x : Nat), ps ≠ [] → Ascending ps →
    Interpolates ps x (interpolate ps x)
  | [], _, empty, _ => absurd rfl empty
  | [p], x, _, _ => interpolates_single p x
  | p :: q :: rest, x, _, sorted => by
    have step : p.1 < q.1 := List.rel_of_pairwise_cons sorted (List.mem_cons_self ..)
    have ih := interpolates_interpolate (q :: rest) x (List.cons_ne_nil _ _) (List.Pairwise.of_cons sorted)
    simp only [interpolate]
    split
    · rename_i first
      refine ⟨fun r tail e _ => ?_, fun l last le => ?_, fun before a b after e low high => ?_⟩
      · cases e
        rfl
      · have := (last_ge sorted last).1
        omega
      · rcases pair_cases sorted e with ⟨rfl, rfl⟩ | ⟨beyond, _⟩
        · have there : x = a.1 := by omega
          simp [there]
        · omega
    rename_i second
    split
    · rename_i inside
      refine ⟨fun r tail e le => ?_, fun l last le => ?_, fun before a b after e low high => ?_⟩
      · cases e
        omega
      · have := (last_ge sorted last).1
        omega
      · rcases pair_cases sorted e with ⟨rfl, rfl⟩ | ⟨beyond, _⟩
        · exact Int.toNat_of_nonneg (between_nonneg (by omega) (by omega) (by omega) (by omega))
        · omega
    · rename_i third
      obtain ⟨_, last', between⟩ := ih
      refine ⟨fun r tail e le => ?_, fun l last le => ?_, fun before a b after e low high => ?_⟩
      · cases e
        omega
      · exact last' l (last_ge sorted last).2 le
      · rcases pair_cases sorted e with ⟨rfl, rfl⟩ | ⟨_, tail, e⟩
        · omega
        · exact between tail a b after e low high

/-! ## The families -/

theorem held_eq (v : Nat) : held v = min 65535 v := Nat.min_comm _ _

theorem braking_eq (s : State) (vt d : Nat) :
    braking s vt d = min 65535 (isqrt (vt ^ 2 + 2 * s.cfg.decel * (d / 10 - s.cfg.reaction))) := held_eq _

theorem limits_splice (s : State) (i : Fin 6) : (computeLimits s).splice.get i = spliceLimit s i := by
  fin_cases i <;> rfl

theorem limits_knife (s : State) (lane : Lane) : (computeLimits s).knife.get lane = knifeLimit s lane := by cases lane <;> rfl
theorem limits_slitter (s : State) (x : Station) : (computeLimits s).slitter.get x = slitterLimit s x := by cases x <;> rfl
theorem limits_stacker (s : State) (lane : Lane) : (computeLimits s).stacker.get lane = stackerLimit s lane := by
  cases lane <;> rfl

/-- Outside RUN the STOP limiter, the first of all members, binds at 0 (R128, R135). -/
theorem binding_of_stop (l : Limits) (h : l.stop = some 0) : l.binding.2.2 = 0 ∧ l.binding.1 = .stop := by
  have first : l.members.head? = some (.stop, 0, some 0) := by simp [Limits.members, h]
  obtain ⟨least, before, after, e, above⟩ := binding_spec l
  have zero : l.binding.2.2 = 0 := Nat.le_zero.mp (least _ _ _ (List.mem_of_mem_head? first))
  refine ⟨zero, ?_⟩
  rw [e] at first
  cases before with
  | nil => exact congrArg Prod.fst (Option.some.inj first)
  | cons m ms =>
    cases Option.some.inj first
    exact absurd (above _ _ _ (List.mem_cons_self ..)) (by omega)

section
variable {s : State} {i : Fin 6} {lane : Lane} {x : Station}

theorem spliceLimit_of_absent (h : (s.cfg.stands.get i).isPresent = false) : spliceLimit s i = none := by
  simp [spliceLimit, h]

theorem spliceLimit_of_bare (h : (s.cfg.stands.get i).isPresent = true) (bare : (s.stands.get i).running = none) :
    spliceLimit s i = if (s.cfg.stands.get i).role = .spare then none else some 0 := by
  simp [spliceLimit, h, Stand.feeding, bare]

theorem spliceLimit_of_running {r : RunningReel} (h : (s.cfg.stands.get i).isPresent = true)
    (running : (s.stands.get i).running = some r) : spliceLimit s i =
      if (s.stands.get i).state = .ready ∨ (s.stands.get i).state = .armed ∨ (s.stands.get i).state = .firing then
        some (braking s (s.cfg.stands.get i).spliceSpeed (s.stands.get i).fireDistance)
      else some (braking s 0 r.usable) := by
  have usable : (s.stands.get i).usable = r.usable := by simp [Stand.usable, running]
  simp only [spliceLimit, h, Stand.feeding, running, usable, Option.isSome_some, Bool.not_true, Bool.false_eq_true, if_false]
  cases (s.stands.get i).state <;> simp

/-- A RUN_CHANGE mark below PK whose setup has the lane, and what it runs there (R130). -/
def ChangeAhead (s : State) (lane : Lane) (m : Mark) (o : LaneRun) : Prop :=
  m.pos < s.cfg.pk ∧ ∃ id j, m.kind = .runChange id ∧ findSetup s id = some j ∧ j.run lane = some o

/-- What the search for the nearest change finds at one mark. -/
def changeAt (s : State) (lane : Lane) (m : Mark) : Option (Nat × LaneRun) :=
  match m.kind with
  | .runChange id =>
    if m.pos < s.cfg.pk then ((findSetup s id).bind fun t => t.run lane).map fun run => (s.cfg.pk - m.pos, run) else none
  | _ => none

theorem nearestChange_eq (s : State) (lane : Lane) : nearestChange s lane = s.web.marks.findSome? (changeAt s lane) := rfl

theorem changeAt_of_ahead {m : Mark} {o : LaneRun} (h : ChangeAhead s lane m o) :
    changeAt s lane m = some (s.cfg.pk - m.pos, o) := by
  obtain ⟨below, id, j, kind, found, run⟩ := h
  simp [changeAt, kind, below, found, run]

theorem changeAt_of_not_ahead {m : Mark} (h : ∀ o, ¬ChangeAhead s lane m o) : changeAt s lane m = none := by
  unfold changeAt
  split
  · rename_i id kind
    split
    · rename_i below
      cases found : findSetup s id with
      | none => rfl
      | some j =>
        cases run : j.run lane with
        | none => simp [run]
        | some o => exact absurd ⟨below, id, j, kind, found, run⟩ (h o)
    · rfl
  · rfl

theorem changeTerm_of_none (h : ∀ m ∈ s.web.marks, ∀ o, ¬ChangeAhead s lane m o) : changeTerm s lane = none := by
  have none : s.web.marks.findSome? (changeAt s lane) = .none :=
    List.findSome?_eq_none_iff.mpr fun m mem => changeAt_of_not_ahead (h m mem)
  rw [changeTerm, nearestChange_eq, none]
  rfl

theorem changeTerm_of_first {before after : List Mark} {m : Mark} {o : LaneRun} (e : s.web.marks = before ++ m :: after)
    (earlier : ∀ q ∈ before, ∀ o, ¬ChangeAhead s lane q o) (h : ChangeAhead s lane m o) : changeTerm s lane =
      some (braking s (rateLimit s (trimmed (cutLength s o.order) (s.lanes.get lane).trim)) (s.cfg.pk - m.pos)) := by
  have none : before.findSome? (changeAt s lane) = .none :=
    List.findSome?_eq_none_iff.mpr fun q mem => changeAt_of_not_ahead (earlier q mem)
  rw [changeTerm, nearestChange_eq, e, List.findSome?_append, none, Option.none_or, List.findSome?_cons, changeAt_of_ahead h]
  rfl

theorem slitterLimit_of_past (h : ∀ id m, (s.stations.get x).pattern = some id → runMark s id = some m →
    stationPosition s x ≤ m.pos) : slitterLimit s x = none := by
  simp only [slitterLimit]
  split
  · rename_i m found
    obtain ⟨id, pattern, mark⟩ := Option.bind_eq_some_iff.mp found
    exact if_neg (Nat.not_lt.mpr (h id m pattern mark))
  · rfl

theorem slitterLimit_of_ahead {id : Nat} {m : Mark} (pattern : (s.stations.get x).pattern = some id)
    (mark : runMark s id = some m) (below : m.pos < stationPosition s x) :
    (∀ t, (s.stations.get x).state = .positioning → (s.stations.get x).lastOutput = some t → slitterLimit s x =
      if (s.stations.get x).estimate ≤ s.now - t then some s.cfg.creep
      else some (held ((stationPosition s x - m.pos) / 10 * 1000 / ((s.stations.get x).estimate - (s.now - t))))) ∧
    ((s.stations.get x).state = .fault → slitterLimit s x = some s.cfg.creep) ∧
    ((s.stations.get x).state ≠ .positioning → (s.stations.get x).state ≠ .fault → slitterLimit s x = none) := by
  have found : (s.stations.get x).pattern.bind (runMark s) = some m := by rw [pattern, Option.bind_some, mark]
  simp only [slitterLimit, found, below, if_true]
  refine ⟨fun t state last => by simp only [state, last, Option.getD_some], fun state => by simp only [state], fun moving broken => ?_⟩
  split
  · rename_i state
    exact absurd state moving
  · rename_i state
    exact absurd state broken
  · rfl
  · rfl
  · rfl

theorem stackerLimit_of_idle (h : (s.delivery.get lane).stacker = .fault ∨
    ((s.lanes.get lane).active.bind fun j => findOrder s j.order) = none) : stackerLimit s lane = none := by
  rcases h with fault | none
  · simp only [stackerLimit, fault]
  · simp only [stackerLimit, none]
    cases (s.delivery.get lane).stacker <;> rfl

theorem stackerLimit_of_order {o : OrderRec} (sound : (s.delivery.get lane).stacker ≠ .fault)
    (order : ((s.lanes.get lane).active.bind fun j => findOrder s j.order) = some o) : stackerLimit s lane =
      some (held (ceilDiv o.bundle o.outs * o.cut * 100 / (s.cfg.lanes.get lane).changeTime)) := by
  simp only [stackerLimit, order]

theorem bondLimit_of_unknown (h : s.gov.temperature = none ∨ s.gov.age = .stale) : bondLimit s = s.cfg.creep := by
  rcases h with none | stale
  · simp [bondLimit, none]
  · simp only [bondLimit, stale]
    cases s.gov.temperature <;> rfl

theorem bondLimit_of_known {theta : Nat} (temperature : s.gov.temperature = some theta) (age : s.gov.age ≠ .stale) :
    bondLimit s = bondSpeed s (governingGrade s) theta := by
  simp only [bondLimit, temperature]
  cases known : s.gov.age
  · rfl
  · rfl
  · exact absurd known age

end

/-! ## The glue outputs -/

/-- Two set points lie as far apart as their deadband (R146). -/
theorem apart_iff (a b c : Nat) : c ≤ apart a b ↔ a + c ≤ b ∨ b + c ≤ a := by
  simp only [apart]
  omega

/-- What a unit has issued after its glue outputs: each value outside its deadband, or both at a change of grade (R146). -/
def glueMove (changed : Bool) (u : GlueUnit) (s : State) : GapWrap :=
  let p := glueSetpoint s u s.gov.grade s.gov.reference
  let last := s.gov.issuedGlue.get u
  { gap := if changed || decide (5 ≤ apart p.gap last.gap) then p.gap else last.gap
    wrap := if changed || decide (10 ≤ apart p.wrap last.wrap) then p.wrap else last.wrap }

theorem issueGlue_gov (changed : Bool) (u : GlueUnit) (s : State) : (issueGlue changed u s).gov =
    { s.gov with issuedGlue := s.gov.issuedGlue.set u (glueMove changed u s) } := by
  simp only [issueGlue, glueMove]
  split <;> split <;> simp

theorem issueGlue_issues (changed : Bool) (u : GlueUnit) (s : State) :
    let p := glueSetpoint s u s.gov.grade s.gov.reference
    let last := s.gov.issuedGlue.get u
    ((changed || decide (5 ≤ apart p.gap last.gap)) = true → Output.glueGap u p.gap ∈ (issueGlue changed u s).issued) ∧
    ((changed || decide (10 ≤ apart p.wrap last.wrap)) = true → Output.preheatWrap u p.wrap ∈ (issueGlue changed u s).issued) := by
  intro p last
  refine ⟨fun out => ?_, fun out => ?_⟩
  · simp only [issueGlue]
    rw [if_pos out]
    split <;> simp [p]
  · simp only [issueGlue]
    rw [if_pos out]
    simp [p]

/-- A unit's set point turns on the tables, the grade and the reference (R145). -/
theorem glueSetpoint_congr {s t : State} (cfg : t.cfg = s.cfg) (u : GlueUnit) (grade v : Nat) :
    glueSetpoint t u grade v = glueSetpoint s u grade v := by
  simp only [glueSetpoint, cfg]

/-- The states between the units' glue outputs: the set points and the unit's own last values are as before the first. -/
def SameGlue (u : GlueUnit) (s t : State) : Prop :=
  t.cfg = s.cfg ∧ t.gov.grade = s.gov.grade ∧ t.gov.reference = s.gov.reference ∧
    t.gov.issuedGlue.get u = s.gov.issuedGlue.get u

theorem SameGlue.refl (u : GlueUnit) (s : State) : SameGlue u s s := ⟨rfl, rfl, rfl, rfl⟩

theorem SameGlue.move {u : GlueUnit} {s t : State} (h : SameGlue u s t) (changed : Bool) :
    glueMove changed u t = glueMove changed u s := by
  obtain ⟨cfg, grade, reference, last⟩ := h
  simp only [glueMove, glueSetpoint_congr cfg, grade, reference, last]

theorem PerUnit.get_set_ne {α : Type} (p : PerUnit α) (u w : GlueUnit) (v : α) (h : w ≠ u) : (p.set u v).get w = p.get w := by
  cases u <;> cases w <;> simp_all [PerUnit.set, PerUnit.get]

theorem PerUnit.get_set_self {α : Type} (p : PerUnit α) (u : GlueUnit) (v : α) : (p.set u v).get u = v := by
  cases u <;> rfl

theorem SameGlue.issue {u w : GlueUnit} {s t : State} (h : SameGlue u s t) (other : u ≠ w) (changed : Bool) :
    SameGlue u s (issueGlue changed w t) := by
  obtain ⟨cfg, grade, reference, last⟩ := h
  refine ⟨by simpa using cfg, ?_, ?_, ?_⟩
  · rw [issueGlue_gov]
    exact grade
  · rw [issueGlue_gov]
    exact reference
  · rw [issueGlue_gov]
    exact (PerUnit.get_set_ne _ _ _ _ other).trans last

/-- One unit's glue outputs, made in a state like the first and followed by operations that keep what it issued. -/
structure GlueDone (changed : Bool) (u : GlueUnit) (s t : State) : Prop where
  moved : t.gov.issuedGlue.get u = glueMove changed u s
  gap : (changed || decide (5 ≤ apart (glueSetpoint s u s.gov.grade s.gov.reference).gap (s.gov.issuedGlue.get u).gap)) = true →
    Output.glueGap u (glueSetpoint s u s.gov.grade s.gov.reference).gap ∈ t.issued
  wrap : (changed || decide (10 ≤ apart (glueSetpoint s u s.gov.grade s.gov.reference).wrap (s.gov.issuedGlue.get u).wrap)) = true →
    Output.preheatWrap u (glueSetpoint s u s.gov.grade s.gov.reference).wrap ∈ t.issued

theorem GlueDone.of_issue {changed : Bool} {u : GlueUnit} {s t : State} (h : SameGlue u s t) :
    GlueDone changed u s (issueGlue changed u t) := by
  have move := h.move changed
  obtain ⟨cfg, grade, reference, last⟩ := h
  obtain ⟨gap, wrap⟩ := issueGlue_issues changed u t
  rw [glueSetpoint_congr cfg, grade, reference, last] at gap wrap
  refine ⟨?_, gap, wrap⟩
  rw [issueGlue_gov, ← move]
  exact PerUnit.get_set_self _ _ _

theorem GlueDone.keep {changed : Bool} {u w : GlueUnit} {s t : State} (h : GlueDone changed u s t) (other : u ≠ w) :
    GlueDone changed u s (issueGlue changed w t) := by
  obtain ⟨moved, gap, wrap⟩ := h
  refine ⟨?_, fun out => (issueGlue_appends _ _).mem (gap out), fun out => (issueGlue_appends _ _).mem (wrap out)⟩
  rw [issueGlue_gov]
  exact (PerUnit.get_set_ne _ _ _ _ other).trans moved

theorem takeGlue_done (u : GlueUnit) (s : State) : GlueDone (s.gov.grade != governingGrade s) u
    (s.setGov { s.gov with grade := governingGrade s }) (takeGlue s) := by
  cases u
  · exact ((GlueDone.of_issue (.refl _ _)).keep (by decide)).keep (by decide)
  · exact (GlueDone.of_issue ((SameGlue.refl _ _).issue (by decide) _)).keep (by decide)
  · exact GlueDone.of_issue (((SameGlue.refl _ _).issue (by decide) _).issue (by decide) _)

/-- What the glue outputs of an evaluation leave for a unit whose set point is `p` (R145, R146). -/
theorem takeGlue_unit (u : GlueUnit) (s : State) {p : GapWrap}
    (point : glueSetpoint s u (governingGrade s) s.gov.reference = p) :
    let changed := s.gov.grade != governingGrade s
    let last := s.gov.issuedGlue.get u
    (takeGlue s).gov.issuedGlue.get u =
      { gap := if changed || decide (5 ≤ apart p.gap last.gap) then p.gap else last.gap
        wrap := if changed || decide (10 ≤ apart p.wrap last.wrap) then p.wrap else last.wrap } ∧
    ((changed || decide (5 ≤ apart p.gap last.gap)) = true → Output.glueGap u p.gap ∈ (takeGlue s).issued) ∧
    ((changed || decide (10 ≤ apart p.wrap last.wrap)) = true → Output.preheatWrap u p.wrap ∈ (takeGlue s).issued) := by
  obtain ⟨moved, gap, wrap⟩ := takeGlue_done u s
  subst point
  exact ⟨moved, gap, wrap⟩

theorem takeGlue_gov (s : State) : (takeGlue s).gov.grade = governingGrade s ∧ (takeGlue s).gov.reference = s.gov.reference := by
  simp [takeGlue, issueGlue_gov]

theorem takeLimits_glue (s : State) : (takeLimits s).gov.grade = s.gov.grade ∧
    (takeLimits s).gov.issuedGlue = s.gov.issuedGlue := by
  simp only [takeLimits]
  split <;> simp

theorem takeReference_glue (s : State) : (takeReference s).gov.grade = s.gov.grade ∧
    (takeReference s).gov.issuedGlue = s.gov.issuedGlue := by
  simp only [takeReference]
  split <;> simp

/-- The state in which an evaluation makes its glue outputs: the reference has moved, the glue is as before. -/
theorem evaluate_before_glue (s : State) : ∃ r, evaluate s = (takeGlue r).setEvalDue false ∧ r.cfg = s.cfg ∧
    governingGrade r = governingGrade s ∧ r.gov.grade = s.gov.grade ∧ r.gov.issuedGlue = s.gov.issuedGlue := by
  refine ⟨_, rfl, by simp, by simp [governingGrade], ?_, ?_⟩
  · simp [takeRampTimer, (takeReference_glue _).1, (takeLimits_glue _).1]
  · simp [takeRampTimer, (takeReference_glue _).2, (takeLimits_glue _).2]

/-- Settles O39: each family by its own equation, the interpolations by the order of their tables. -/
theorem limitersFollowTheirInputs : Obligations.LimitersFollowTheirInputs := by
  refine ⟨isqrt_spec, fun s => ?_⟩
  intro g l curve grade
  have limits : l = computeLimits s := (evaluate_limits s).1
  obtain ⟨r, evaluated, cfg, governing, oldGrade, oldGlue⟩ := evaluate_before_glue s
  have gov : g = (takeGlue r).gov := by
    show (evaluate s).gov = _
    rw [evaluated]
    rfl
  refine ⟨fun run => ?_, fun stop => ?_, ?_, ?_, fun i => ?_, fun lane => ?_, fun x => ?_, fun lane => ?_, fun unknown => ?_,
    fun theta p rest temperature age table sorted => ?_, ?_, fun u p rest table sorted => ?_⟩
  · rw [limits]
    exact if_pos run
  · have zero : (computeLimits s).stop = some 0 := if_neg stop
    obtain ⟨_, ceiling, family, _⟩ := evaluate_limits s
    rw [limits]
    exact ⟨zero, ceiling.trans (binding_of_stop _ zero).1, family.trans (binding_of_stop _ zero).2⟩
  · rw [limits]
    rfl
  · rw [limits]
    rfl
  · rw [limits, limits_splice]
    refine ⟨spliceLimit_of_absent, spliceLimit_of_bare, fun q present running => ?_⟩
    rw [spliceLimit_of_running present running, braking_eq, braking_eq]
    rfl
  · rw [limits, limits_knife]
    have run : ∀ j : Setup, (if lane = .u then some j.runU else j.runL) = j.run lane := fun j => by cases lane <;> rfl
    simp only [run]
    refine ⟨fun none => ?_, fun before m after o marks earlier ahead => ?_⟩
    · rw [knifeLimit, changeTerm_of_none none, ← held_eq]
      cases (s.lanes.get lane).enabled <;> rfl
    · rw [knifeLimit, changeTerm_of_first marks earlier ahead, braking_eq, held_eq]
      cases (s.lanes.get lane).enabled <;> rfl
  · rw [limits, limits_slitter]
    have position : stationPosition s x = if x = .a then s.cfg.psa else s.cfg.psb := by cases x <;> rfl
    rw [← position]
    refine ⟨slitterLimit_of_past, fun id m pattern mark below => ?_⟩
    obtain ⟨moving, broken, other⟩ := slitterLimit_of_ahead pattern mark below
    refine ⟨fun t state last => ?_, broken, other⟩
    rw [moving t state last, held_eq]
    split <;> rfl
  · rw [limits, limits_stacker]
    refine ⟨stackerLimit_of_idle, fun o sound order => ?_⟩
    rw [stackerLimit_of_order sound order, held_eq]
    rfl
  · rw [limits]
    exact bondLimit_of_unknown unknown
  · have bond : l.bond = bondSpeed s grade theta := by
      rw [limits]
      exact bondLimit_of_known temperature age
    rw [bond]
    simp only [bondSpeed, table]
    refine ⟨fun cold => if_pos cold, fun warm => ?_⟩
    rw [if_neg (Nat.not_lt.mpr warm)]
    exact interpolates_interpolate _ _ (by simp) (List.pairwise_map.mpr sorted)
  · rw [gov]
    exact (takeGlue_gov r).1.trans governing
  · have reference : g.reference = r.gov.reference := by rw [gov]; exact (takeGlue_gov r).2
    have issued : (evaluate s).issued = (takeGlue r).issued := by
      rw [evaluated]
      rfl
    have rows : (r.cfg.glue.get u).getD (governingGrade r) [] = p :: rest := by rw [cfg, governing]; exact table
    have point : glueSetpoint r u (governingGrade r) r.gov.reference =
        { gap := interpolate ((p :: rest).map fun q => (q.speed, q.gap)) g.reference
          wrap := interpolate ((p :: rest).map fun q => (q.speed, q.wrap)) g.reference } := by
      simp only [glueSetpoint, rows, reference]
    obtain ⟨moved, gapOut, wrapOut⟩ := takeGlue_unit u r point
    have out : ∀ c a b, (r.gov.grade != governingGrade r || decide (c ≤ apart a b)) = true ↔
        s.gov.grade ≠ grade ∨ (a + c ≤ b ∨ b + c ≤ a) := fun c a b => by
      rw [Bool.or_eq_true, bne_iff_ne, decide_eq_true_iff, apart_iff, oldGrade, governing]
      exact Iff.rfl
    refine ⟨_, _, interpolates_interpolate ((p :: rest).map fun q => (q.speed, q.gap)) g.reference (by simp)
      (List.pairwise_map.mpr sorted), interpolates_interpolate ((p :: rest).map fun q => (q.speed, q.wrap)) g.reference (by simp)
      (List.pairwise_map.mpr sorted), ?_⟩
    intro last far
    simp only [out, oldGlue] at moved gapOut wrapOut
    rw [issued, gov]
    rw [gov] at moved gapOut wrapOut
    exact ⟨moved, gapOut, wrapOut⟩

end Sys2Proof.Machine
end

