-- ==== Sys2Proof/Proofs/KnifeChanges.lean ====
section
/-! PROOFS. The knife: what a cut hands on (R97), and a run change at the knife (R98 to R102, R141). -/

namespace Sys2Proof.Machine
open Sys2Proof

/-! ## Orders that an operation keeps -/

theorem findOrder_congr {s t : State} (h : t.sched.orders = s.sched.orders) (o : Nat) : findOrder t o = findOrder s o := by
  simp only [findOrder, h]

@[simp] theorem creditSetup_orders (lane : Lane) (outs : Nat) (s : State) :
    (creditSetup lane outs s).sched.orders = s.sched.orders := by
  simp only [creditSetup]
  split <;> simp [updateSetup]

@[simp] theorem carryForward_orders (o outs : Nat) (uncovered : Bool) (s : State) :
    (carryForward o outs uncovered s).sched.orders = s.sched.orders := by
  simp only [carryForward]
  split <;> simp

/-! ## A cut -/

/-- The order a cut sheet carries: none when its class is UNASSIGNED or the order is not in the table (R96). -/
def cutOrder (s : State) (cls : SheetClass) (o : Option Nat) : Option Nat :=
  if cls = .unassigned then none else o.filter fun x => (findOrder s x).isSome

/-- The outs of a cut sheet (R97). -/
def cutOuts (s : State) (cls : SheetClass) (o : Option Nat) : Nat :=
  (((cutOrder s cls o).bind (findOrder s)).map OrderRec.outs).getD 1

/-- A class account charged with a cut (R160). -/
def ClassAccount.charge (a : ClassAccount) (sheets board : Nat) : ClassAccount :=
  { sheets := raised a.sheets sheets, board := raised a.board board }

theorem ClassAccount.charge_eq (a : ClassAccount) (sheets board : Nat) : a.charge sheets board =
    { sheets := min (2 ^ 48 - 1) (a.sheets + sheets), board := min (2 ^ 48 - 1) (a.board + board) } := by
  simp only [ClassAccount.charge, raised_eq]

/-- A lane's account charged with a cut of a class (R160). -/
def LaneAccounts.charge (a : LaneAccounts) (cls : SheetClass) (sheets board : Nat) : LaneAccounts :=
  { a with classes := a.classes.set cls ((a.classes.get cls).charge sheets board) }

/-- A cut's tallies before it joins the queue (R97). -/
def tallyCut (lane : Lane) (cls : SheetClass) (outs : Nat) (s : State) : Option Nat → State
  | some o =>
    let q := updateOrder o (fun r => r.raiseTally cls outs) s
    if cls = .good then creditSetup lane outs q else q
  | none => s

/-- The carry-forward of a cut that a queued setup's order takes (R97). -/
def carryCut (cls : SheetClass) (outs : Nat) (uncovered : Bool) (s : State) : Option Nat → State
  | some o => if rejectClass cls then carryForward o outs uncovered s else s
  | none => s

theorem tallyCut_fields (lane : Lane) (cls : SheetClass) (outs : Nat) (s : State) (o : Option Nat) :
    (tallyCut lane cls outs s o).delivery = s.delivery ∧ (tallyCut lane cls outs s o).accounts = s.accounts := by
  cases o with
  | none => exact ⟨rfl, rfl⟩
  | some o =>
    simp only [tallyCut]
    split <;> simp

theorem tallyCut_orders (lane : Lane) (cls : SheetClass) (outs : Nat) (s : State) (o : Option Nat) :
    (tallyCut lane cls outs s o).sched.orders =
      s.sched.orders.map fun q => if o = some q.id then q.raiseTally cls outs else q := by
  cases o with
  | none => simp [tallyCut]
  | some o =>
    simp only [tallyCut]
    split <;> simp [updateOrder, eq_comm (a := o)]

theorem carryCut_fields (cls : SheetClass) (outs : Nat) (uncovered : Bool) (s : State) (o : Option Nat) :
    (carryCut cls outs uncovered s o).delivery = s.delivery ∧ (carryCut cls outs uncovered s o).accounts = s.accounts ∧
    (carryCut cls outs uncovered s o).sched.orders = s.sched.orders := by
  cases o with
  | none => exact ⟨rfl, rfl, rfl⟩
  | some o =>
    simp only [carryCut]
    split <;> simp

section
variable (lane : Lane) (cls : SheetClass) (o : Option Nat) (length : Nat) (uncovered : Bool) (axis : Nat) (s : State)

/-- The record a cut adds to the delivery queue (R110). -/
def cutRecord : CutRec :=
  { order := cutOrder s cls o, cls := cls, length := length, outs := cutOuts s cls o, axis := axis % 2 ^ 48 }

/-- A cut in its four parts: the tallies, the queue, the carry-forward, and the charge with the counters and the output (R97). -/
theorem handCut_eq : handCut lane cls o length uncovered axis s =
    let s3 := carryCut cls (cutOuts s cls o) uncovered
      (enqueueCut lane (cutRecord cls o length axis s) (tallyCut lane cls (cutOuts s cls o) s (cutOrder s cls o)))
      (cutOrder s cls o)
    emit (.cut lane) (countCut lane (cutOrder s cls o) cls (cutOuts s cls o) length
      (s3.setAccounts { s3.accounts with
        lanes := s3.accounts.lanes.set lane ((s3.accounts.lanes.get lane).charge cls (cutOuts s cls o) length) })) := by
  have order : (if cls = .unassigned then none else o.filter fun x => (findOrder s x).isSome) = cutOrder s cls o := rfl
  simp only [handCut, cutRecord, cutOuts, order]
  cases cutOrder s cls o with
  | none => rfl
  | some x => cases known : findOrder s x <;> simp only [Option.bind_some, known] <;> rfl

theorem handCut_accounts : (handCut lane cls o length uncovered axis s).accounts =
    { s.accounts with
      lanes := s.accounts.lanes.set lane ((s.accounts.lanes.get lane).charge cls (cutOuts s cls o) length) } := by
  rw [handCut_eq]
  simp [carryCut_fields, tallyCut_fields]

theorem handCut_delivery : (handCut lane cls o length uncovered axis s).delivery =
    let d := s.delivery.get lane
    s.delivery.set lane { d with queue := joinQueue (cutRecord cls o length axis s) d.queue } := by
  rw [handCut_eq]
  simp [carryCut_fields, enqueueCut, tallyCut_fields]

theorem handCut_orders : (handCut lane cls o length uncovered axis s).sched.orders =
    s.sched.orders.map fun q => if cutOrder s cls o = some q.id then q.raiseTally cls (cutOuts s cls o) else q := by
  rw [handCut_eq]
  simp [carryCut_fields, tallyCut_orders]

theorem handCut_issues : (handCut lane cls o length uncovered axis s).issued.getLast? = some (.cut lane) := by
  rw [handCut_eq]
  simp

end

/-! ## The piece a lane holds at a run change -/

theorem LaneAccounts.charge_eq (a : LaneAccounts) (cls : SheetClass) (sheets board : Nat) : a.charge cls sheets board =
    { a with classes := a.classes.set cls ⟨min (2 ^ 48 - 1) ((a.classes.get cls).sheets + sheets),
        min (2 ^ 48 - 1) ((a.classes.get cls).board + board)⟩ } := by
  simp only [LaneAccounts.charge, ClassAccount.charge_eq]

/-- The class of the piece cut at a run change: TRANSITION at the least (R99, R101). -/
def pieceClass (r : LaneRec) : SheetClass :=
  match r.pendingClass with
  | some c => c.higher .transition
  | none => .transition

theorem pieceClass_assigned (r : LaneRec) : pieceClass r ≠ .unassigned := by
  simp only [pieceClass]
  split
  · rename_i c _
    cases c <;> decide
  · decide

theorem cutOuts_of_assigned {cls : SheetClass} (h : cls ≠ .unassigned) (s : State) (active : Option LaneJob) :
    cutOuts s cls (active.map LaneJob.order) = ((active.bind fun j => findOrder s j.order).map OrderRec.outs).getD 1 := by
  rw [cutOuts, cutOrder, if_neg h]
  cases active with
  | none => rfl
  | some j => cases known : findOrder s j.order <;> simp [Option.filter, known]

section
variable (lane : Lane) (r : LaneRec) (axis : Nat) (s : State)

/-- The lanes' accounts with a lane's held piece charged (R99, R101, R160). -/
def chargedPiece : PerLane LaneAccounts :=
  s.accounts.lanes.set lane ((s.accounts.lanes.get lane).charge (pieceClass r)
    (((r.active.bind fun j => findOrder s j.order).map OrderRec.outs).getD 1) r.since)

theorem cutPiece_accounts : (cutPiece lane r axis s).accounts = { s.accounts with lanes := chargedPiece lane r s } := by
  rw [chargedPiece, ← cutOuts_of_assigned (pieceClass_assigned r)]
  exact handCut_accounts _ _ _ _ _ _ _

theorem cutPiece_issues : Output.cut lane ∈ (cutPiece lane r axis s).issued := List.mem_of_getLast? (handCut_issues _ _ _ _ _ _ _)

end

/-! ## A lane at a run change -/

theorem setLane_issued (lane : Lane) (r : LaneRec) (s : State) : (setLane lane r s).issued = s.issued := by simp

theorem knifeOvershoot_accounts (lane : Lane) (s : State) : (knifeOvershoot lane s).accounts =
    { s.accounts with
      overshoots := if rateLimit s (s.lanes.get lane).length < s.gov.reference then
        raised s.accounts.overshoots 1 else s.accounts.overshoots } := by
  simp only [knifeOvershoot]
  split <;> simp

section
variable (lane : Lane) (id axis : Nat) (run : LaneRun) (s : State)

/-- The length a lane takes with a setup's run (R92, R99, R100). -/
def takenLength : Nat := trimmed (cutLength s run.order) (s.lanes.get lane).trim

/-- The lane's record with a setup's run (R99). -/
def takenRun : LaneRec :=
  { s.lanes.get lane with active := some { setup := id, order := run.order }, length := takenLength lane run s, shadow := none }

/-- A lane's record with nothing since its last cut (R99 to R101). -/
def LaneRec.fresh (r : LaneRec) : LaneRec := { r with since := 0, pendingClass := none, uncovered := false }

/-- The knife overshoots after a lane has taken a length (R141). -/
def overshootsAt (length : Nat) : Nat :=
  if length * s.cfg.maxRate / 600 < s.gov.reference then min (2 ^ 48 - 1) (s.accounts.overshoots + 1) else s.accounts.overshoots

/-- An overshoot test after a lane has taken its record, in a state with the times, the reference and the overshoots of another. -/
theorem overshoot_after (r : LaneRec) (o : Output) {t : State} (cfg : t.cfg = s.cfg) (gov : t.gov = s.gov)
    (overshoots : t.accounts.overshoots = s.accounts.overshoots) :
    (knifeOvershoot lane (emit o (setLane lane r t))).accounts =
      { t.accounts with overshoots := overshootsAt s r.length } := by
  rw [knifeOvershoot_accounts]
  simp [raised_eq, rateLimit, overshootsAt, cfg, gov, overshoots, PerLane.get_set_self]

/-- The boundary cut, where the piece is long enough, comes before the lane takes the setup (R99). -/
theorem changeOver_boundary
    (long : s.cfg.minSpacing ≤ (s.lanes.get lane).since ∨ takenLength lane run s ≤ (s.lanes.get lane).since) :
    changeOver lane id run axis s = releaseOrder (s.lanes.get lane).active (knifeOvershoot lane
      (emit (.knifeLength lane (takenLength lane run s))
        (setLane lane (takenRun lane id run s).fresh (cutPiece lane (s.lanes.get lane) axis s)))) := by
  have boundary : (decide (s.cfg.minSpacing ≤ (s.lanes.get lane).since) ||
      decide (trimmed (cutLength s run.order) (s.lanes.get lane).trim ≤ (s.lanes.get lane).since)) = true := by simpa [takenLength] using long
  simp only [changeOver, boundary]
  rfl

/-- A shorter piece goes on into the new setup (R99). -/
theorem changeOver_joined (short : (s.lanes.get lane).since < s.cfg.minSpacing)
    (shorter : (s.lanes.get lane).since < takenLength lane run s) :
    changeOver lane id run axis s = releaseOrder (s.lanes.get lane).active (knifeOvershoot lane
      (emit (.knifeLength lane (takenLength lane run s)) (setLane lane (takenRun lane id run s) s))) := by
  have joined : (decide (s.cfg.minSpacing ≤ (s.lanes.get lane).since) ||
      decide (trimmed (cutLength s run.order) (s.lanes.get lane).trim ≤ (s.lanes.get lane).since)) = false := by simpa [takenLength] using ⟨short, shorter⟩
  simp only [changeOver, joined]
  rfl

theorem changeOver_cuts
    (long : s.cfg.minSpacing ≤ (s.lanes.get lane).since ∨ takenLength lane run s ≤ (s.lanes.get lane).since) :
    let t := changeOver lane id run axis s
    t.lanes = s.lanes.set lane (takenRun lane id run s).fresh ∧ t.accounts.lanes = chargedPiece lane (s.lanes.get lane) s ∧
      t.accounts.overshoots = overshootsAt s (takenLength lane run s) ∧ Output.cut lane ∈ t.issued := by
  intro t
  have eq : t = _ := changeOver_boundary lane id axis run s long
  have accounts := overshoot_after lane s (takenRun lane id run s).fresh (.knifeLength lane (takenLength lane run s))
    (t := cutPiece lane (s.lanes.get lane) axis s) (by simp) (by simp) (by rw [cutPiece_accounts])
  rw [cutPiece_accounts] at accounts
  rw [eq]
  refine ⟨by simp, ?_, ?_, ?_⟩
  · rw [(releaseOrder_frame _ _).2.2.2.2.2.2.2.2.2.2.2.2.1, accounts]
  · rw [(releaseOrder_frame _ _).2.2.2.2.2.2.2.2.2.2.2.2.1, accounts]
    rfl
  · refine (releaseOrder_appends _).mem ((knifeOvershoot_appends _).mem ((appends_emit _).mem ?_))
    rw [setLane_issued]
    exact cutPiece_issues _ _ _ _

theorem changeOver_keeps (short : (s.lanes.get lane).since < s.cfg.minSpacing)
    (shorter : (s.lanes.get lane).since < takenLength lane run s) :
    let t := changeOver lane id run axis s
    t.lanes = s.lanes.set lane (takenRun lane id run s) ∧ t.accounts.lanes = s.accounts.lanes ∧
      t.accounts.overshoots = overshootsAt s (takenLength lane run s) := by
  intro t
  have eq : t = _ := changeOver_joined lane id axis run s short shorter
  have accounts := overshoot_after lane s (takenRun lane id run s) (.knifeLength lane (takenLength lane run s))
    (t := s) rfl rfl rfl
  rw [eq]
  refine ⟨by simp, ?_, ?_⟩
  · rw [(releaseOrder_frame _ _).2.2.2.2.2.2.2.2.2.2.2.2.1, accounts]
  · rw [(releaseOrder_frame _ _).2.2.2.2.2.2.2.2.2.2.2.2.1, accounts]
    rfl

theorem changeOver_issues : Output.knifeLength lane (takenLength lane run s) ∈ (changeOver lane id run axis s).issued := by
  by_cases long : s.cfg.minSpacing ≤ (s.lanes.get lane).since ∨ takenLength lane run s ≤ (s.lanes.get lane).since
  · rw [changeOver_boundary _ _ _ _ _ long]
    exact (releaseOrder_appends _).mem (by simp)
  · obtain ⟨short, shorter⟩ := not_or.mp long
    rw [changeOver_joined _ _ _ _ _ (Nat.not_le.mp short) (Nat.not_le.mp shorter)]
    exact (releaseOrder_appends _).mem (by simp)

theorem changeOver_overshoots : (changeOver lane id run axis s).accounts.overshoots = overshootsAt s (takenLength lane run s) := by
  by_cases long : s.cfg.minSpacing ≤ (s.lanes.get lane).since ∨ takenLength lane run s ≤ (s.lanes.get lane).since
  · exact (changeOver_cuts lane id axis run s long).2.2.1
  · obtain ⟨short, shorter⟩ := not_or.mp long
    exact (changeOver_keeps lane id axis run s (Nat.not_le.mp short) (Nat.not_le.mp shorter)).2.2

theorem enableLane_fields :
    let t := enableLane lane id run s
    t.lanes = s.lanes.set lane { (takenRun lane id run s).fresh with enabled := true } ∧
      t.accounts = { s.accounts with overshoots := overshootsAt s (takenLength lane run s) } ∧
      Output.knifeLength lane (takenLength lane run s) ∈ t.issued := by
  intro t
  have eq : t = knifeOvershoot lane (emit (.knifeLength lane (takenLength lane run s))
    (setLane lane { (takenRun lane id run s).fresh with enabled := true } s)) := rfl
  rw [eq]
  refine ⟨by simp, ?_, by simp⟩
  rw [overshoot_after lane s _ _ (t := s) rfl rfl rfl]
  rfl

/-- A lane's record after it has stopped (R101). -/
def stoppedLane : LaneRec :=
  { s.lanes.get lane with enabled := false, active := none, length := s.cfg.idleLength, shadow := none, since := 0,
                          pendingClass := none, uncovered := false, session := none }

theorem closeLane_fields :
    let t := closeLane lane axis s
    t.lanes = s.lanes.set lane (stoppedLane lane s) ∧ Output.knifeLength lane s.cfg.idleLength ∈ t.issued ∧
      (0 < (s.lanes.get lane).since → t.accounts.lanes = chargedPiece lane (s.lanes.get lane) s ∧ Output.cut lane ∈ t.issued) ∧
      ((s.lanes.get lane).since = 0 → t.accounts = s.accounts) := by
  intro t
  have eq : t = releaseOrder (s.lanes.get lane).active (emit (.knifeLength lane s.cfg.idleLength)
    (setLane lane (stoppedLane lane s)
      (if 0 < (s.lanes.get lane).since then cutPiece lane (s.lanes.get lane) axis s else s))) := rfl
  rw [eq]
  refine ⟨?_, (releaseOrder_appends _).mem (by simp), fun held => ⟨?_, (releaseOrder_appends _).mem ?_⟩, fun empty => ?_⟩
  · split <;> simp
  · simp [held, cutPiece_accounts]
  · rw [if_pos held]
    refine (appends_emit _).mem ?_
    rw [setLane_issued]
    exact cutPiece_issues _ _ _ _
  · simp [empty]

end

section
variable {lane : Lane} {id axis : Nat} {j : Setup} {s : State}

theorem laneArrival_change {run : LaneRun} (known : findSetup s id = some j) (has : j.run lane = some run)
    (enabled : (s.lanes.get lane).enabled = true) : laneArrival lane id axis s = changeOver lane id run axis s := by
  simp only [laneArrival, known, has, enabled]

theorem laneArrival_enable {run : LaneRun} (known : findSetup s id = some j) (has : j.run lane = some run)
    (disabled : (s.lanes.get lane).enabled = false) : laneArrival lane id axis s = enableLane lane id run s := by
  simp only [laneArrival, known, has, disabled]

theorem laneArrival_close (known : findSetup s id = some j) (lacks : j.run lane = none)
    (enabled : (s.lanes.get lane).enabled = true) : laneArrival lane id axis s = closeLane lane axis s := by
  simp only [laneArrival, known, lacks, enabled]

theorem laneArrival_idle (known : findSetup s id = some j) (lacks : j.run lane = none)
    (disabled : (s.lanes.get lane).enabled = false) : laneArrival lane id axis s = s := by
  simp only [laneArrival, known, lacks, disabled]

end

/-- Settles O34: the four cases of a lane at an arrival (R99 to R101). -/
theorem runChangesAtKnife : Obligations.RunChangesAtKnife := by
  refine ⟨fun lane report id q axis n s => ⟨rfl, rfl⟩, fun lane id axis j s known => ?_⟩
  intro r t run cls outs la ca charged pieceCharged
  have has : run = j.run lane := by cases lane <;> rfl
  have piece : pieceCharged = chargedPiece lane r s := by
    have class_eq : cls = pieceClass r := by
      simp only [cls, pieceClass]
      cases r.pendingClass <;> rfl
    have outs_eq : outs = ((r.active.bind fun j => findOrder s j.order).map OrderRec.outs).getD 1 := by
      simp only [outs]
      cases r.active.bind fun j => findOrder s j.order <;> rfl
    rw [chargedPiece, LaneAccounts.charge_eq, ← class_eq, ← outs_eq]
  rw [has, piece]
  refine ⟨fun o taking => ?_, fun lacks enabled => ?_, fun lacks disabled => laneArrival_idle known lacks disabled⟩
  · intro cut length fast taken fresh
    cases enabled : r.enabled with
    | true =>
      have change : t = changeOver lane id o axis s := laneArrival_change known taking enabled
      rw [change]
      refine ⟨changeOver_issues _ _ _ _ _, changeOver_overshoots _ _ _ _ _, fun _ long => ?_, fun _ short shorter => ?_,
        fun disabled => absurd disabled (by decide)⟩
      · obtain ⟨lanes, accounts, _, issued⟩ := changeOver_cuts lane id axis o s long
        exact ⟨lanes, accounts, issued⟩
      · obtain ⟨lanes, accounts, _⟩ := changeOver_keeps lane id axis o s short shorter
        exact ⟨lanes, accounts⟩
    | false =>
      have enable : t = enableLane lane id o s := laneArrival_enable known taking enabled
      obtain ⟨lanes, accounts, issued⟩ := enableLane_fields lane id o s
      rw [enable]
      refine ⟨issued, by rw [accounts]; rfl, fun absent => absurd absent (by decide), fun absent => absurd absent (by decide),
        fun _ => ⟨lanes, ?_⟩⟩
      rw [accounts]
  · have close : t = closeLane lane axis s := laneArrival_close known lacks enabled
    rw [close]
    exact closeLane_fields lane axis s

end Sys2Proof.Machine
end

