-- ==== Sys2Proof/Proofs/Cuts.lean ====
section
/-! PROOFS. The crossing report (R11), the classes of a sheet (R95, R96), a lane's stretch (R94), and the cuts of one report of
travel (R97, R110, R160). -/

namespace Sys2Proof.Machine
open Sys2Proof

/-! ## The crossing report -/

/-- The tenths a crossing covers are those of the mark's zone that cross PK in the advance (R11). -/
theorem crossingOf_covers (pk n : Nat) (m : Mark) (j : Nat) (pos : 1 ≤ j) (le : j ≤ n) :
    (∃ c, crossingOf pk n m = some c ∧ c.first ≤ j ∧ j ≤ c.last) ↔
      m.upEnd ≤ pk + n - j ∧ (pk : Int) + n - j ≤ m.downEnd := by
  simp only [crossingOf]
  split
  · rename_i crosses
    simp only [Option.some.injEq, exists_eq_left']
    omega
  · rename_i misses
    simp only [reduceCtorEq, false_and, exists_false, false_iff]
    omega

theorem crossingOf_class {pk n : Nat} {m : Mark} {c : Crossing} (h : crossingOf pk n m = some c) :
    c.uncovered = (m.isReject && !m.covered) ∧ c.cls = m.kind.sheetClass := by
  simp only [crossingOf] at h
  split at h
  · cases h
    exact ⟨rfl, rfl⟩
  · cases h

/-- A mark whose zone ends short of the knife crosses nothing (R11). -/
theorem crossingOf_short {pk : Nat} (n : Nat) {m : Mark} (short : m.downEnd < pk) : crossingOf pk n m = none := by
  simp only [crossingOf]
  rw [if_neg (by omega)]

/-! ## The classes that cover a sheet -/

/-- The crossing covers an offset of a sheet from a to b (R95). -/
def Crossing.Covers (a b : Nat) (c : Crossing) : Prop := c.first ≤ b ∧ a ≤ c.last

/-- A sheet takes the class of a zone that covers it (R95). -/
def Crossing.take (acc : Option SheetClass × Bool) (c : Crossing) : Option SheetClass × Bool :=
  (some (match acc.1 with | some d => d.higher c.cls | none => c.cls), acc.2 || c.uncovered)

theorem takeClasses_of_hit {a b : Nat} {c : Crossing} (hit : c.Covers a b) (rest : List Crossing)
    (acc : Option SheetClass × Bool) : takeClasses (c :: rest) a b acc = takeClasses rest a b (c.take acc) :=
  congrArg (takeClasses rest a b) (if_pos hit)

theorem takeClasses_of_miss {a b : Nat} {c : Crossing} (miss : ¬c.Covers a b) (rest : List Crossing)
    (acc : Option SheetClass × Bool) : takeClasses (c :: rest) a b acc = takeClasses rest a b acc :=
  congrArg (takeClasses rest a b) (if_neg miss)

theorem SheetClass.higher_cases (c d : SheetClass) : (c.higher d = c ∧ c.rank ≤ d.rank) ∨ (c.higher d = d ∧ d.rank ≤ c.rank) := by
  simp only [SheetClass.higher]
  split
  · exact .inr ⟨rfl, Nat.le_of_lt ‹_›⟩
  · exact .inl ⟨rfl, Nat.not_lt.mp ‹_›⟩

/-- Of a sheet's class so far and a zone's, it takes the higher (R95). -/
theorem Crossing.take_spec (acc : Option SheetClass × Bool) (c : Crossing) :
    ∃ d, c.take acc = (some d, acc.2 || c.uncovered) ∧ (acc.1 = some d ∨ c.cls = d) ∧ d.rank ≤ c.cls.rank ∧
      ∀ e, acc.1 = some e → d.rank ≤ e.rank := by
  obtain ⟨old, bare⟩ := acc
  cases old with
  | none => exact ⟨c.cls, rfl, .inr rfl, Nat.le_refl _, fun _ absurd => nomatch absurd⟩
  | some e =>
    refine ⟨e.higher c.cls, rfl, ?_⟩
    simp only [Option.some.injEq, forall_eq']
    rcases SheetClass.higher_cases e c.cls with ⟨keeps, le⟩ | ⟨takes, le⟩
    · rw [keeps]
      exact ⟨.inl rfl, le, Nat.le_refl _⟩
    · rw [takes]
      exact ⟨.inr rfl, Nat.le_refl _, le⟩

/-- What a sheet takes from a report: a class of what covers it or the class it had, the highest of them, and whether any of it is
uncovered (R95). -/
structure TakenClasses (report : List Crossing) (a b : Nat) (old p : Option SheetClass × Bool) : Prop where
  none_iff : p.1 = none ↔ old.1 = none ∧ ∀ c ∈ report, ¬c.Covers a b
  source : ∀ d, p.1 = some d → old.1 = some d ∨ ∃ c ∈ report, c.Covers a b ∧ c.cls = d
  highest : ∀ d, p.1 = some d → ∀ c ∈ report, c.Covers a b → d.rank ≤ c.cls.rank
  above : ∀ d c, p.1 = some d → old.1 = some c → d.rank ≤ c.rank
  uncovered : p.2 = true ↔ old.2 = true ∨ ∃ c ∈ report, c.Covers a b ∧ c.uncovered = true

theorem TakenClasses.nil (a b : Nat) (old : Option SheetClass × Bool) : TakenClasses [] a b old old where
  none_iff := by simp
  source := fun _ taken => .inl taken
  highest := by simp
  above := fun d c taken had => by
    rw [taken] at had
    cases had
    exact Nat.le_refl _
  uncovered := by simp

section
variable {c : Crossing} {rest : List Crossing} {a b : Nat} {old p : Option SheetClass × Bool}

theorem TakenClasses.miss (h : TakenClasses rest a b old p) (miss : ¬c.Covers a b) : TakenClasses (c :: rest) a b old p where
  none_iff := by simp [h.none_iff, miss]
  source := by simpa [miss] using h.source
  highest := by simpa [miss] using h.highest
  above := h.above
  uncovered := by simp [h.uncovered, miss]

theorem TakenClasses.hit (h : TakenClasses rest a b (c.take old) p) (hit : c.Covers a b) :
    TakenClasses (c :: rest) a b old p := by
  obtain ⟨d, taken, source, higher, least⟩ := c.take_spec old
  rw [taken] at h
  refine ⟨?_, fun e he => ?_, fun e he => ?_, fun e f he hf => ?_, ?_⟩
  · rw [h.none_iff]
    simp [hit]
  · rcases h.source e he with same | ⟨q, mem, covers, cls⟩
    · cases same
      exact source.imp id fun own => ⟨c, by simp, hit, own⟩
    · exact .inr ⟨q, by simp [mem], covers, cls⟩
  · simp only [List.mem_cons, forall_eq_or_imp]
    exact ⟨fun _ => Nat.le_trans (h.above e d he rfl) higher, h.highest e he⟩
  · exact Nat.le_trans (h.above e d he rfl) (least f hf)
  · rw [h.uncovered]
    simp [hit, or_assoc]

end

theorem takeClasses_taken (report : List Crossing) (a b : Nat) :
    ∀ old, TakenClasses report a b old (takeClasses report a b old) := by
  induction report with
  | nil => exact TakenClasses.nil a b
  | cons c rest ih =>
    intro old
    by_cases hit : c.Covers a b
    · rw [takeClasses_of_hit hit]
      exact (ih _).hit hit
    · rw [takeClasses_of_miss hit]
      exact (ih _).miss hit

/-! ## The class of a sheet -/

section
variable {s : State} {active : Option LaneJob} {o : OrderRec}

theorem classify_of_absent (absent : (active.bind fun j => findOrder s j.order) = none) :
    classify s active none = .unassigned := by
  simp only [classify, absent]

theorem classify_of_order (order : (active.bind fun j => findOrder s j.order) = some o) : classify s active none =
    if o.cancel = true ∨ (o.wanted ≤ o.good ∧ o.wanted + o.overrun < o.good + o.outs) then .surplus else .good := by
  simp only [classify, order]
  cases o.cancel <;> simp

theorem classify_congr {s t : State} (orders : t.sched.orders = s.sched.orders) (active : Option LaneJob)
    (pending : Option SheetClass) : classify t active pending = classify s active pending := by
  simp only [classify, findOrder_congr orders]

end

/-! ## A stretch of an advance -/

section
variable {lane : Lane} {report : List Crossing} {axis a b : Nat} {s : State}

theorem stretch_of_disabled (disabled : (s.lanes.get lane).enabled = false) : stretch lane report axis a b s = s := by
  simp [stretch, disabled]

theorem stretch_of_count (enabled : (s.lanes.get lane).enabled = true) (le : a ≤ b)
    (short : (s.lanes.get lane).since + (b + 1 - a) < (s.lanes.get lane).length) :
    let r := s.lanes.get lane
    let p := takeClasses report a b (r.pendingClass, r.uncovered)
    stretch lane report axis a b s =
      setLane lane { r with since := r.since + (b + 1 - a), pendingClass := p.1, uncovered := p.2 } s := by
  simp only [stretch, enabled, Nat.not_lt.mpr le]
  rw [if_neg (by simp), if_pos (by omega)]

/-- A stretch that reaches the lane's length cuts there (R94). -/
theorem stretch_of_cut (enabled : (s.lanes.get lane).enabled = true) (le : a ≤ b)
    (below : (s.lanes.get lane).since < (s.lanes.get lane).length)
    (reaches : (s.lanes.get lane).length ≤ (s.lanes.get lane).since + (b + 1 - a)) :
    let r := s.lanes.get lane
    let c := a + (r.length - r.since) - 1
    let p := takeClasses report a c (r.pendingClass, r.uncovered)
    let q := takeClasses report (c + 1) b (none, false)
    stretch lane report axis a b s = takeShadow lane (setLane lane
      { r with since := r.since + (b + 1 - a) - r.length, pendingClass := q.1, uncovered := q.2 }
      (handCut lane (classify s r.active p.1) (r.active.map LaneJob.order) r.length p.2 (axis + c) s)) := by
  intro r c p q
  have whole : (s.lanes.get lane).since + ((s.lanes.get lane).length - (s.lanes.get lane).since) = (s.lanes.get lane).length :=
    Nat.add_sub_cancel' (Nat.le_of_lt below)
  have rest : b - c = r.since + (b + 1 - a) - r.length := by
    simp only [c, r]
    omega
  rw [← rest]
  simp only [stretch]
  rw [if_neg (by simp [enabled, le]), if_neg (by omega), whole]

theorem stretch_cut_fields (enabled : (s.lanes.get lane).enabled = true) (le : a ≤ b)
    (below : (s.lanes.get lane).since < (s.lanes.get lane).length)
    (reaches : (s.lanes.get lane).length ≤ (s.lanes.get lane).since + (b + 1 - a)) :
    let r := s.lanes.get lane
    let t := stretch lane report axis a b s
    let c := a + (r.length - r.since) - 1
    let p := takeClasses report a c (r.pendingClass, r.uncovered)
    let q := takeClasses report (c + 1) b (none, false)
    t.lanes = s.lanes.set lane { r with since := r.since + (b + 1 - a) - r.length, pendingClass := q.1, uncovered := q.2,
                                        length := r.shadow.getD r.length, shadow := none } ∧
    t.accounts = (handCut lane (classify s r.active p.1) (r.active.map LaneJob.order) r.length p.2 (axis + c) s).accounts ∧
    t.delivery = (handCut lane (classify s r.active p.1) (r.active.map LaneJob.order) r.length p.2 (axis + c) s).delivery ∧
    Output.cut lane ∈ t.issued := by
  intro r t c p q
  have eq : t = _ := stretch_of_cut enabled le below reaches
  rw [eq]
  refine ⟨?_, ?_, ?_, (takeShadow_appends _).mem ?_⟩
  · simp only [takeShadow_lanes, setLane_lanes, handCut_frame, PerLane.get_set_self, PerLane.set_set]
    rfl
  · simp only [takeShadow_frame, setLane_frame]
    rfl
  · simp only [takeShadow_frame, setLane_frame]
    rfl
  · rw [setLane_issued]
    exact List.mem_of_getLast? (handCut_issues _ _ _ _ _ _ _)

end

/-! ## What a board advance keeps before and after the knives -/

/-- The class accounts of a lane (R160). -/
def cutAccounts (s : State) (lane : Lane) : PerClass ClassAccount := (s.accounts.lanes.get lane).classes

theorem cutAccounts_congr {s t : State} (h : t.accounts.lanes = s.accounts.lanes) : cutAccounts t = cutAccounts s := by
  funext lane
  simp only [cutAccounts, h]

theorem divertGood_cutAccounts (lane : Lane) (o outs : Nat) (s : State) : cutAccounts (divertGood lane o outs s) = cutAccounts s := by
  funext lane'
  simp only [cutAccounts, divertGood, setGate_frame, countDiverted_frame, State.setAccounts_fields, updateOrder_frame]
  by_cases same : lane' = lane
  · subst same
    rw [PerLane.get_set_self]
  · rw [PerLane.get_set_ne _ _ _ _ same]

theorem offerFork_cutAccounts (lane : Lane) (o outs : Nat) (s : State) : cutAccounts (offerFork lane o outs s) = cutAccounts s := by
  simp only [offerFork]
  split
  · exact cutAccounts_congr (by simp)
  · exact divertGood_cutAccounts _ _ _ _

theorem offerBundle_cutAccounts (lane : Lane) (o outs : Nat) (s : State) :
    cutAccounts (offerBundle lane o outs s) = cutAccounts s := by
  simp only [offerBundle]
  split
  · split <;> exact cutAccounts_congr (by simp)
  · exact (offerFork_cutAccounts _ _ _ _).trans (cutAccounts_congr (by simp))

theorem deliverCut_cutAccounts (lane : Lane) (b : Batch) (s : State) : cutAccounts (deliverCut lane b s) = cutAccounts s := by
  simp only [deliverCut]
  split
  · split
    · exact offerBundle_cutAccounts _ _ _ _
    · exact offerFork_cutAccounts _ _ _ _
    · exact divertGood_cutAccounts _ _ _ _
  · exact cutAccounts_congr (by simp)

theorem deliverFront_cutAccounts (lane : Lane) (b : Batch) (rest : List Batch) (s : State) :
    cutAccounts (deliverFront lane b rest s) = cutAccounts s := by
  refine Eq.trans ?_ (deliverCut_cutAccounts lane b s)
  simp only [deliverFront]
  split <;> exact cutAccounts_congr (by simp)

theorem deliverReached_cutAccounts (lane : Lane) (k : Nat) : ∀ s, cutAccounts (deliverReached lane k s) = cutAccounts s := by
  induction k with
  | zero => exact fun s => rfl
  | succ k ih =>
    intro s
    simp only [deliverReached]
    split
    · split
      · exact (ih _).trans (deliverFront_cutAccounts _ _ _ _)
      · rfl
    · rfl

theorem startAttempt_laneAccounts (n : Nat) (s : State) : (startAttempt n s).accounts.lanes = s.accounts.lanes := by
  have episode : ∀ d s, (beginEpisode d s).accounts.lanes = s.accounts.lanes := fun d s => by
    simp only [beginEpisode]
    split
    · rfl
    · cases d <;> simp
  have deferred : ∀ d, (deferStart n d s).accounts.lanes = s.accounts.lanes := fun d => by
    refine Eq.trans ?_ (episode d s)
    simp only [deferStart]
    split <;> simp [countOverrun]
  simp only [startAttempt]
  split
  · rfl
  · split
    · exact deferred _
    · split
      · exact deferred _
      · split
        · exact deferred _
        · simp only [startSetup]
          split
          · rename_i cur _
            cases decide (cur.planned ≤ cur.produced - n) <;> simp [countOverrun]
          · simp

theorem enterReject_laneAccounts (m : Mark) (s : State) : (enterReject m s).accounts.lanes = s.accounts.lanes := by
  simp only [enterReject]
  split
  · split <;> simp
  · split <;> simp

theorem placeJoint_laneAccounts (i : Fin 6) (source : JointSource) (pos widen : Nat) (s : State) :
    (placeJoint i source pos widen s).accounts.lanes = s.accounts.lanes := by
  simp only [placeJoint, firingTest_frame, setStand_frame, enterReject_laneAccounts]
  split <;> simp

theorem breakCause_laneAccounts (c : BreakCause) (s : State) : (breakCause c s).accounts.lanes = s.accounts.lanes := by
  simp only [breakCause]
  split <;> simp [enterReject_laneAccounts]

theorem standTests_laneAccounts (i : Fin 6) (s : State) : (standTests i s).accounts.lanes = s.accounts.lanes := by
  have joint : ∀ s : State, (jointTest i s).accounts.lanes = s.accounts.lanes := fun s => by
    simp only [jointTest]
    (repeat' split) <;> simp [placeJoint_laneAccounts]
  have exhausted : ∀ s : State, (exhaustionTest i s).accounts.lanes = s.accounts.lanes := fun s => by
    simp only [exhaustionTest]
    split <;> simp [breakCause_laneAccounts]
  simp [standTests, joint, exhausted]

theorem allStandTests_laneAccounts (s : State) : (allStandTests s).accounts.lanes = s.accounts.lanes :=
  foldl_keeps (fun s : State => s.accounts.lanes) (fun s i => standTests i s) (fun s i => standTests_laneAccounts i s) slots s

theorem raisePlanned_orders (k : Nat) (s : State) : (raisePlanned k s).sched.orders = s.sched.orders := by
  simp only [raisePlanned]
  split <;> simp

theorem closeSensorDefect_orders (s : State) : (closeSensorDefect s).sched.orders = s.sched.orders := by
  have final : ∀ len (s : State), (takeFinalLength len s).sched.orders = s.sched.orders := fun len s => by
    simp only [takeFinalLength]
    split
    · split <;> simp [raisePlanned_orders]
    · rfl
  simp only [closeSensorDefect]
  (repeat' split) <;> simp [final]

theorem defectLimitTest_orders (s : State) : (defectLimitTest s).sched.orders = s.sched.orders := by
  simp only [defectLimitTest]
  split <;> simp [closeSensorDefect_orders]

theorem removeMarks_orders (s : State) : (removeMarks s).sched.orders = s.sched.orders := by
  have pass : ∀ (s : State) m, (passKnife m s).sched.orders = s.sched.orders := fun s m => by
    simp only [passKnife]
    split <;> simp [updateSetup]
  exact foldl_keeps (fun s : State => s.sched.orders) (fun s m => passKnife m s) pass _ _

/-! ## A board advance around the knives -/

/-- The state in which every block has moved its lengths (R3). -/
def travelled (n : Nat) (s : State) : State := advanceStands n (advanceProduced n (advanceTracker n (restartRest s)))

/-- The state in which a board advance reaches the knives. -/
def atKnives (n : Nat) (s : State) : State :=
  let moved := travelled n s
  let toA := (arrivals moved moved.cfg.psa n).map Prod.fst
  let toB := (arrivals moved moved.cfg.psb n).map Prod.fst
  stationArrivals .b toB (stationArrivals .a toA (lateAdvance n .b (lateAdvance n .a (defectLimitTest (removeMarks moved)))))

/-- The state in which a board advance has made its cuts. -/
def afterKnives (n : Nat) (s : State) : State :=
  let moved := travelled n s
  let report := crossingReport moved n
  let points := pointsOf n (arrivals moved moved.cfg.pk n)
  laneAdvance .l report points s.enc.axis n (laneAdvance .u report points s.enc.axis n (atKnives n s))

theorem boardAdvance_knives (n : Nat) (s : State) : boardAdvance n s = evaluate (allStandTests (restartMark (startAttempt n
    (deliverLane .l (deliverLane .u (retireAll (afterKnives n s))))))) := rfl

theorem atKnives_fields (n : Nat) (s : State) : (atKnives n s).cfg = s.cfg ∧ (atKnives n s).lanes = s.lanes ∧
    (atKnives n s).delivery = s.delivery ∧ (atKnives n s).accounts.lanes = s.accounts.lanes ∧
    (atKnives n s).sched.orders = s.sched.orders := by
  refine ⟨by simp [atKnives, travelled], by simp [atKnives, travelled], by simp [atKnives, travelled],
    by simp [atKnives, travelled, advanceStands], ?_⟩
  simp only [atKnives, stationArrivals_frame, lateAdvance_frame, defectLimitTest_orders, removeMarks_orders]
  simp [travelled, advanceProduced]

theorem boardAdvance_after_knives (n : Nat) (s : State) : (boardAdvance n s).lanes = (afterKnives n s).lanes ∧
    cutAccounts (boardAdvance n s) = cutAccounts (afterKnives n s) ∧
    ∀ o ∈ (afterKnives n s).issued, o ∈ (boardAdvance n s).issued := by
  rw [boardAdvance_knives]
  refine ⟨by simp, ?_, fun o issued => ?_⟩
  · have delivered : cutAccounts (deliverLane .l (deliverLane .u (retireAll (afterKnives n s)))) = cutAccounts (afterKnives n s) :=
      (deliverReached_cutAccounts _ _ _).trans ((deliverReached_cutAccounts _ _ _).trans (cutAccounts_congr (by simp)))
    refine (cutAccounts_congr ?_).trans delivered
    simp [allStandTests_laneAccounts, startAttempt_laneAccounts]
  · refine (evaluate_appends).mem ((allStandTests_appends).mem ?_)
    rw [(restartMark_frame _).2.2.2.2.2.2.2.2.2.2.2.2.2.2.2.2.1]
    exact (startAttempt_appends _).mem ((deliverLane_appends _).mem ((deliverLane_appends _).mem ((retireAll_appends).mem issued)))

/-! ## A report of travel that no zone crosses -/

/-- Every mark's zone stays short of the knife in an advance of n. -/
def ShortOfKnife (n : Nat) (s : State) : Prop := ∀ m ∈ s.web.marks, m.pos + m.lead + n < s.cfg.pk

theorem travelled_marks (n : Nat) (s : State) :
    (travelled n s).web.marks = s.web.marks.map (Mark.advance n (defectGrowth s.web.sensorDefect n)) := by
  simp [travelled, advanceTracker]

theorem Mark.advance_pos_le (n g : Nat) (m : Mark) : (m.advance n g).pos ≤ m.pos + n := Nat.min_le_left _ _

theorem travelled_short {n : Nat} {s : State} (short : ShortOfKnife n s) :
    ∀ m ∈ (travelled n s).web.marks, m.pos + m.lead < s.cfg.pk := by
  simp only [travelled_marks, List.mem_map, forall_exists_index, and_imp, forall_apply_eq_imp_iff₂]
  intro m mem
  have moved := m.advance_pos_le n (defectGrowth s.web.sensorDefect n)
  have lead : (m.advance n (defectGrowth s.web.sensorDefect n)).lead = m.lead := rfl
  have bound := short m mem
  omega

theorem crossingReport_short {n : Nat} {s : State} (short : ShortOfKnife n s) : crossingReport (travelled n s) n = [] := by
  refine List.filterMap_eq_nil_iff.mpr fun m mem => crossingOf_short n ?_
  have cfg : (travelled n s).cfg = s.cfg := by simp [travelled]
  have bound := travelled_short short m mem
  rw [cfg]
  simp only [Mark.downEnd]
  omega

theorem arrivals_short {n : Nat} {s : State} (short : ShortOfKnife n s) :
    arrivals (travelled n s) (travelled n s).cfg.pk n = [] := by
  refine List.filterMap_eq_nil_iff.mpr fun m mem => ?_
  have cfg : (travelled n s).cfg = s.cfg := by simp [travelled]
  have bound := travelled_short short m mem
  rw [cfg]
  split
  · exact if_neg (by omega)
  · rfl

theorem afterKnives_short {n : Nat} {s : State} (short : ShortOfKnife n s) :
    afterKnives n s = stretch .l [] s.enc.axis 1 n (stretch .u [] s.enc.axis 1 n (atKnives n s)) := by
  simp only [afterKnives, crossingReport_short short, arrivals_short short]
  rfl

/-- A lane whose next cut lies beyond the advance, or that is stopped, cuts nothing. -/
def Counts (n : Nat) (r : LaneRec) : Prop := r.enabled = false ∨ r.since + n < r.length

section
variable {lane : Lane} {axis n : Nat} {s : State}

/-- A stretch of one lane leaves the other lane's record and class accounts alone. -/
theorem stretch_other {report : List Crossing} {a b : Nat} {other : Lane} (h : other ≠ lane) :
    (stretch lane report axis a b s).lanes.get other = s.lanes.get other ∧
      cutAccounts (stretch lane report axis a b s) other = cutAccounts s other := by
  simp only [stretch]
  split
  · exact ⟨rfl, rfl⟩
  · split
    · simp [PerLane.get_set_ne _ _ _ _ h, cutAccounts]
    · simp [PerLane.get_set_ne _ _ _ _ h, cutAccounts, handCut_accounts]

/-- A stretch that cuts nothing only counts (R94). -/
theorem stretch_counts {report : List Crossing} (pos : 0 < n) (counts : Counts n (s.lanes.get lane)) :
    let t := stretch lane report axis 1 n s
    t.sched = s.sched ∧ t.accounts = s.accounts ∧ t.delivery = s.delivery ∧ t.cfg = s.cfg := by
  rcases counts with disabled | below
  · rw [stretch_of_disabled disabled]
    exact ⟨rfl, rfl, rfl, rfl⟩
  · cases enabled : (s.lanes.get lane).enabled with
    | false =>
      rw [stretch_of_disabled enabled]
      exact ⟨rfl, rfl, rfl, rfl⟩
    | true =>
      rw [stretch_of_count enabled pos (by simpa using below)]
      simp

theorem cutOuts_eq (s : State) (cls : SheetClass) (active : Option LaneJob) : cutOuts s cls (active.map LaneJob.order) =
    ((if cls = .unassigned then none else active.bind fun j => findOrder s j.order).map OrderRec.outs).getD 1 := by
  split
  · rename_i unassigned
    simp [cutOuts, cutOrder, unassigned]
  · rename_i assigned
    exact cutOuts_of_assigned assigned s active

/-- What a lane's stretch over a whole advance does where no zone crosses: it counts on, or cuts at its length (R94, R97). -/
theorem stretch_bare (pos : 0 < n) (enabled : (s.lanes.get lane).enabled = true)
    (below : (s.lanes.get lane).since < (s.lanes.get lane).length) :
    let r := s.lanes.get lane
    let t := stretch lane [] axis 1 n s
    let cls := classify s r.active r.pendingClass
    let order := if cls = .unassigned then none else r.active.bind fun j => findOrder s j.order
    (r.since + n < r.length → t.lanes.get lane = { r with since := r.since + n } ∧ cutAccounts t lane = cutAccounts s lane) ∧
    (r.length ≤ r.since + n →
      t.lanes.get lane = { r with since := r.since + n - r.length, pendingClass := none, uncovered := false,
                                  length := r.shadow.getD r.length, shadow := none } ∧
      cutAccounts t lane = (cutAccounts s lane).set cls
        (((cutAccounts s lane).get cls).charge ((order.map OrderRec.outs).getD 1) r.length) ∧
      Output.cut lane ∈ t.issued) := by
  intro r t cls order
  refine ⟨fun counts => ?_, fun reaches => ?_⟩
  · have eq : t = setLane lane _ s := stretch_of_count enabled pos counts
    rw [eq]
    refine ⟨?_, congrFun (cutAccounts_congr (by simp)) lane⟩
    rw [setLane_lanes, PerLane.get_set_self]
    rfl
  · obtain ⟨lanes, accounts, _, issued⟩ := stretch_cut_fields (report := []) (axis := axis) (a := 1) enabled pos below reaches
    refine ⟨?_, ?_, issued⟩
    · rw [lanes, PerLane.get_set_self]
      rfl
    · have charged : t.accounts = _ := accounts
      show (t.accounts.lanes.get lane).classes = _
      rw [charged, handCut_accounts]
      simp only [cutOuts_eq, PerLane.get_set_self]
      rfl

end

/-- The state in which a lane makes its stretch of an advance that no zone crosses is, to that lane, the state before; what it
leaves of the lane stands at the close of the advance. -/
theorem boardAdvance_stretch {lane : Lane} {n : Nat} {s : State} (pos : 0 < n) (short : ShortOfKnife n s)
    (earlier : lane = .l → Counts n s.lanes.u) :
    ∃ u, u.lanes.get lane = s.lanes.get lane ∧ u.sched.orders = s.sched.orders ∧ cutAccounts u lane = cutAccounts s lane ∧
      let v := stretch lane [] s.enc.axis 1 n u
      let t := boardAdvance n s
      t.lanes.get lane = v.lanes.get lane ∧ cutAccounts t lane = cutAccounts v lane ∧ ∀ o ∈ v.issued, o ∈ t.issued := by
  obtain ⟨_, lanes, _, accounts, orders⟩ := atKnives_fields n s
  obtain ⟨lanesAfter, accountsAfter, issuedAfter⟩ := boardAdvance_after_knives n s
  have knives := afterKnives_short short
  cases lane with
  | u =>
    obtain ⟨keptLane, keptAccounts⟩ := stretch_other (lane := .l) (axis := s.enc.axis) (report := []) (a := 1) (b := n)
      (s := stretch .u [] s.enc.axis 1 n (atKnives n s)) (other := .u) (by decide)
    refine ⟨atKnives n s, by rw [lanes], orders, congrFun (cutAccounts_congr accounts) _, ?_, ?_, fun o issued => ?_⟩
    · rw [lanesAfter, knives, keptLane]
    · rw [accountsAfter, knives, keptAccounts]
    · refine issuedAfter o ?_
      rw [knives]
      exact (stretch_appends _ _ _ _ _).mem issued
  | l =>
    obtain ⟨keptLane, keptAccounts⟩ := stretch_other (lane := .u) (axis := s.enc.axis) (report := []) (a := 1) (b := n)
      (s := atKnives n s) (other := .l) (by decide)
    have counts : Counts n ((atKnives n s).lanes.get .u) := by
      rw [lanes]
      exact earlier rfl
    obtain ⟨sched, _⟩ := stretch_counts (axis := s.enc.axis) (report := []) pos counts
    refine ⟨stretch .u [] s.enc.axis 1 n (atKnives n s), by rw [keptLane, lanes], by rw [sched, orders],
      by rw [keptAccounts, cutAccounts_congr accounts], ?_, ?_, fun o issued => issuedAfter o ?_⟩
    · rw [lanesAfter, knives]
    · rw [accountsAfter, knives]
    · rw [knives]
      exact issued

/-- A lane's count or cut in an advance that no zone crosses (R94, R97). -/
theorem boardAdvance_bare {lane : Lane} {n : Nat} {s : State} (pos : 0 < n) (short : ShortOfKnife n s)
    (earlier : lane = .l → Counts n s.lanes.u) (enabled : (s.lanes.get lane).enabled = true)
    (below : (s.lanes.get lane).since < (s.lanes.get lane).length) :
    let r := s.lanes.get lane
    let t := boardAdvance n s
    let cls := classify s r.active r.pendingClass
    let order := if cls = .unassigned then none else r.active.bind fun j => findOrder s j.order
    (r.since + n < r.length → t.lanes.get lane = { r with since := r.since + n } ∧ cutAccounts t lane = cutAccounts s lane) ∧
    (r.length ≤ r.since + n →
      t.lanes.get lane = { r with since := r.since + n - r.length, pendingClass := none, uncovered := false,
                                  length := r.shadow.getD r.length, shadow := none } ∧
      cutAccounts t lane = (cutAccounts s lane).set cls
        (((cutAccounts s lane).get cls).charge ((order.map OrderRec.outs).getD 1) r.length) ∧
      Output.cut lane ∈ t.issued) := by
  obtain ⟨u, record, orders, accounts, lanes, charged, issued⟩ := boardAdvance_stretch pos short earlier
  rw [← record] at enabled below
  obtain ⟨counts, cuts⟩ := stretch_bare (axis := s.enc.axis) pos enabled below
  rw [record] at counts cuts
  simp only [classify_congr orders, findOrder_congr orders, accounts] at counts cuts
  intro r t cls order
  rw [lanes, charged]
  refine ⟨counts, fun reaches => ?_⟩
  obtain ⟨lane, accounts, cut⟩ := cuts reaches
  exact ⟨lane, accounts, issued _ cut⟩

/-- A report of at most one advance is one board advance (R3). -/
theorem deliverTravel_one {k : Nat} (pos : 0 < k) (le : k ≤ 1000) (s : State) : deliverTravel k s = boardAdvance k s := by
  have delivered : deliverTravel k s = if k % 1000 = 0 then fullAdvances (k / 1000) s
      else boardAdvance (k % 1000) (fullAdvances (k / 1000) s) := rfl
  rcases Nat.lt_or_eq_of_le le with below | rfl
  · rw [delivered, Nat.div_eq_of_lt below, Nat.mod_eq_of_lt below, if_neg (Nat.pos_iff_ne_zero.mp pos)]
    rfl
  · rfl

/-- The state a report of the selected encoder finds for its travel: the silence watch is restarted (R4). -/
def reported (s : State) : State := if s.enc.fallback then begin s else restartSilence (begin s)

theorem reported_frame (s : State) : (reported s).cfg = s.cfg ∧ (reported s).web = s.web ∧ (reported s).sched = s.sched ∧
    (reported s).lanes = s.lanes ∧ (reported s).delivery = s.delivery ∧ (reported s).accounts = s.accounts ∧
    (reported s).enc.axis = s.enc.axis := by
  simp only [reported]
  split <;> simp [restartSilence]

theorem exec_selected {k : Nat} (pos : 0 < k) (le : k ≤ 1000) (s : State) :
    exec (.encoderReport s.enc.selected k) s = .next (settle (boardAdvance k (reported s))) := by
  rw [exec_encoderReport, ← deliverTravel_one pos le]
  exact congrArg (fun t => Host.Outcome.next (settle t)) (encoderReport_selected k (begin s) pos)

theorem PerClass.set_self_charge (p : PerClass ClassAccount) (c : SheetClass) (outs length : Nat) :
    p.set c ((p.get c).charge outs length) =
      p.set c ⟨min (2 ^ 48 - 1) ((p.get c).sheets + outs), min (2 ^ 48 - 1) ((p.get c).board + length)⟩ := by
  rw [ClassAccount.charge_eq]

theorem tally_eq (n k : Nat) : tally n k = min 16777215 (n + k) := Nat.min_comm _ _

/-- Settles O37. -/
theorem cutsAreMadeClassifiedAndCharged : Obligations.CutsAreMadeClassifiedAndCharged := by
  refine ⟨fun lane cls o length axis uncovered s => ?_, fun pk n m => ⟨crossingOf_covers pk n m, fun c taken => ?_⟩,
    fun report a b old bare => ?_, fun lane report axis a b s le => ?_, fun s active o c => ?_, ?_⟩
  · intro order outs t la ca d charged record more
    refine ⟨?_, handCut_delivery _ _ _ _ _ _ _, ?_, handCut_issues _ _ _ _ _ _ _, by simp [t], by simp [t], by simp [t],
      by simp [t]⟩
    · rw [← LaneAccounts.charge_eq]
      exact handCut_accounts _ _ _ _ _ _ _
    · refine (handCut_orders _ _ _ _ _ _ _).trans (List.map_congr_left fun q _ => ?_)
      have raise : ∀ v, tally v outs = more v := fun v => tally_eq v outs
      show (if order = some q.id then q.raiseTally cls outs else q) = _
      cases cls <;> simp only [OrderRec.raiseTally, raise]
  · obtain ⟨bare, cls⟩ := crossingOf_class taken
    refine ⟨bare, cls.trans ?_⟩
    cases m.kind <;> rfl
  · intro covers p
    obtain ⟨none_iff, source, highest, above, uncovered⟩ := takeClasses_taken report a b (old, bare)
    have covers_iff : ∀ c, covers c ↔ c ∈ report ∧ c.Covers a b := fun c => Iff.rfl
    simp only [covers_iff, not_and, and_assoc]
    exact ⟨none_iff, source, fun d c taken covered => highest d taken c covered.1 covered.2, above, uncovered⟩
  · exact ⟨stretch_of_disabled, fun enabled short => stretch_of_count enabled le short,
      fun enabled below reaches => stretch_cut_fields enabled le below reaches⟩
  · intro order spent
    refine ⟨rfl, classify_of_absent, fun known surplus => (classify_of_order known).trans (if_pos surplus),
      fun known live unspent => (classify_of_order known).trans (if_neg ?_)⟩
    simp only [live, Bool.false_eq_true, false_or]
    exact unspent
  · rintro e k lane s rfl pos le marks earlier r cls order ca enabled below
    obtain ⟨cfg, web, sched, lanes, _, accounts, _⟩ := reported_frame s
    have short : ShortOfKnife k (reported s) := by
      simp only [ShortOfKnife, web, cfg]
      exact marks
    obtain ⟨counts, cuts⟩ := boardAdvance_bare (lane := lane) pos short (by rw [lanes]; exact earlier)
      (by rw [lanes]; exact enabled) (by rw [lanes]; exact below)
    have orders : (reported s).sched.orders = s.sched.orders := by rw [sched]
    have charges : cutAccounts (reported s) = cutAccounts s := cutAccounts_congr (by rw [accounts])
    simp only [lanes, classify_congr orders, findOrder_congr orders, charges, PerClass.set_self_charge] at counts cuts
    refine ⟨_, exec_selected pos le s, fun short => ?_, fun reaches => ?_⟩
    · rw [(settle_frame _).2.2.2.2.2.2.2.1, (settle_frame _).2.2.2.2.2.2.2.2.2.2.2.2.1]
      exact counts short
    · rw [(settle_frame _).2.2.2.2.2.2.2.1, (settle_frame _).2.2.2.2.2.2.2.2.2.2.2.2.1]
      obtain ⟨record, charged, issued⟩ := cuts reaches
      exact ⟨record, charged, settle_appends.mem issued⟩

end Sys2Proof.Machine
end

