-- ==== Sys2Proof/Proofs/Deliveries.lean ====
section
/-! PROOFS. Delivery (R111 to R118): what a delivered cut does, and the cuts of one report of travel that reach the stacker. -/

namespace Sys2Proof.Machine
open Sys2Proof

/-! ## What a cut does at the stacker -/

/-- The schedule with one order's record changed. -/
def Schedule.withOrder (d : Schedule) (o : Nat) (f : OrderRec → OrderRec) : Schedule :=
  { d with orders := d.orders.map fun q => if q.id = o then f q else q }

theorem updateOrder_sched (o : Nat) (f : OrderRec → OrderRec) (s : State) :
    (updateOrder o f s).sched = s.sched.withOrder o f := by
  simp [updateOrder, Schedule.withOrder]

/-- The order of a laid cut (R112). -/
def OrderRec.laid (outs : Nat) (q : OrderRec) : OrderRec := { q with stacked := min 16777215 (q.stacked + outs) }

/-- The order of a diverted cut (R112). -/
def OrderRec.lost (outs : Nat) (q : OrderRec) : OrderRec :=
  { q with good := q.good - outs, diverted := min 16777215 (q.diverted + outs) }

/-- The accounts with a lane's diverted sheets raised (R161). -/
def Accounts.divert (a : Accounts) (lane : Lane) (outs : Nat) : Accounts :=
  { a with
    lanes := a.lanes.set lane
      { a.lanes.get lane with diverted := min (2 ^ 48 - 1) ((a.lanes.get lane).diverted + outs) } }

/-- A pile takes a cut of an order when it is empty or the order's (R114, R116). -/
def Accepts (p : Option Pile) (o : Nat) : Prop := p = none ∨ p.map Pile.order = some o

theorem accepts_iff (p : Option Pile) (o : Nat) : (p.isNone || Pile.holds p o) = true ↔ Accepts p o := by
  cases p <;> simp [Accepts, Pile.holds]

/-- The record of a lane that begins a change (R115, R118). -/
def DeliveryRec.change (d : DeliveryRec) (cause : ChangeCause) (due : Nat) : DeliveryRec :=
  { d with stacker := .changing, cause := some cause, timer := some due }

section
variable (lane : Lane) (o outs : Nat) (s : State)

theorem layCut_fields : (layCut lane o outs s).sched = s.sched.withOrder o (OrderRec.laid outs) ∧
    (layCut lane o outs s).accounts = s.accounts ∧
    (layCut lane o outs s).delivery = s.delivery.set lane { s.delivery.get lane with divert := .stack } := by
  have laid : (fun q : OrderRec => { q with stacked := tally q.stacked outs }) = OrderRec.laid outs := by
    funext q
    rw [tally_eq]
    rfl
  simp [layCut, laid, updateOrder_sched]

theorem divertGood_fields : (divertGood lane o outs s).sched = s.sched.withOrder o (OrderRec.lost outs) ∧
    (divertGood lane o outs s).accounts = s.accounts.divert lane outs ∧
    (divertGood lane o outs s).delivery = s.delivery.set lane { s.delivery.get lane with divert := .divert } := by
  have lost : (fun q : OrderRec => { q with good := q.good - outs, diverted := tally q.diverted outs }) = OrderRec.lost outs := by
    funext q
    rw [tally_eq]
    rfl
  simp [divertGood, lost, updateOrder_sched, raised_eq, Accounts.divert]

/-- The due time of a change begun now (R118). -/
def changeDue : Nat := s.now + (s.cfg.lanes.get lane).changeTimeout

theorem startChange_change (cause : ChangeCause) :
    (startChange lane cause s).delivery = s.delivery.set lane ((s.delivery.get lane).change cause (changeDue lane s)) :=
  startChange_delivery lane cause s

/-- The sheets of a pile. -/
def pileCount (p : Option Pile) : Nat := (p.map Pile.count).getD 0

/-- A lane's record with a cut on its fork (R116). -/
def forked : DeliveryRec :=
  let d := s.delivery.get lane
  { d with fork := some { order := o, count := pileCount d.fork + outs }, divert := .stack,
           waiting := d.waiting || decide (bundleSize s o ≤ pileCount d.fork + outs) }

theorem offerFork_of_room (accepts : Accepts (s.delivery.get lane).fork o)
    (room : pileCount (s.delivery.get lane).fork + outs ≤ (s.cfg.lanes.get lane).forkCapacity) :
    (offerFork lane o outs s).sched = s.sched.withOrder o (OrderRec.laid outs) ∧
    (offerFork lane o outs s).accounts = s.accounts ∧
    (offerFork lane o outs s).delivery = s.delivery.set lane (forked lane o outs s) := by
  have taken := (accepts_iff _ _).mpr accepts
  simp only [offerFork]
  rw [if_pos (by rw [taken]; exact decide_eq_true room)]
  obtain ⟨sched, accounts, delivery⟩ := layCut_fields lane o outs (setDelivery lane
    { s.delivery.get lane with
        fork := some { order := o, count := pileCount (s.delivery.get lane).fork + outs }
        waiting := (s.delivery.get lane).waiting || decide (bundleSize s o ≤ pileCount (s.delivery.get lane).fork + outs) } s)
  refine ⟨sched.trans (by simp), accounts.trans (by simp), delivery.trans ?_⟩
  rw [setDelivery_delivery, PerLane.set_set, PerLane.get_set_self]
  rfl

theorem offerFork_of_full
    (full : ¬Accepts (s.delivery.get lane).fork o ∨
      (s.cfg.lanes.get lane).forkCapacity < pileCount (s.delivery.get lane).fork + outs) :
    offerFork lane o outs s = divertGood lane o outs s := by
  simp only [offerFork]
  refine if_neg ?_
  rw [Bool.and_eq_true, accepts_iff, decide_eq_true_iff, not_and_or, Nat.not_le]
  exact full

/-- A lane's record with a cut on its bundle (R114). -/
def bundled : DeliveryRec :=
  let d := s.delivery.get lane
  { d with bundle := some { order := o, count := pileCount d.bundle + outs }, divert := .stack }

/-- The state with a cut on a lane's bundle (R114). -/
def bundledState : State := layCut lane o outs (setDelivery lane
  { s.delivery.get lane with bundle := some { order := o, count := pileCount (s.delivery.get lane).bundle + outs } } s)

theorem bundledState_fields : (bundledState lane o outs s).sched = s.sched.withOrder o (OrderRec.laid outs) ∧
    (bundledState lane o outs s).accounts = s.accounts ∧
    (bundledState lane o outs s).delivery = s.delivery.set lane (bundled lane o outs s) := by
  obtain ⟨sched, accounts, delivery⟩ := layCut_fields lane o outs (setDelivery lane
    { s.delivery.get lane with bundle := some { order := o, count := pileCount (s.delivery.get lane).bundle + outs } } s)
  rw [setDelivery_delivery, PerLane.set_set, PerLane.get_set_self] at delivery
  exact ⟨sched.trans (by simp), accounts.trans (by simp), delivery⟩

theorem offerBundle_of_accepted (accepts : Accepts (s.delivery.get lane).bundle o) :
    (offerBundle lane o outs s).sched = s.sched.withOrder o (OrderRec.laid outs) ∧
    (offerBundle lane o outs s).accounts = s.accounts ∧
    (offerBundle lane o outs s).delivery = s.delivery.set lane
      (if bundleSize s o ≤ pileCount (s.delivery.get lane).bundle + outs then
        (bundled lane o outs s).change .size (changeDue lane s) else bundled lane o outs s) := by
  have eq : offerBundle lane o outs s = if bundleSize s o ≤ pileCount (s.delivery.get lane).bundle + outs then
      startChange lane .size (bundledState lane o outs s) else bundledState lane o outs s :=
    if_pos ((accepts_iff _ _).mpr accepts)
  obtain ⟨sched, accounts, delivery⟩ := bundledState_fields lane o outs s
  rw [eq]
  split
  · refine ⟨by simpa using sched, by simpa using accounts, ?_⟩
    have due : changeDue lane (bundledState lane o outs s) = changeDue lane s := by simp [changeDue, bundledState]
    rw [startChange_change, delivery, PerLane.set_set, PerLane.get_set_self, due]
  · exact ⟨sched, accounts, delivery⟩

theorem offerBundle_of_other (other : ¬Accepts (s.delivery.get lane).bundle o) :
    offerBundle lane o outs s = offerFork lane o outs (startChange lane .order s) := by
  simp only [offerBundle]
  exact if_neg (fun taken => other ((accepts_iff _ _).mp taken))

theorem startChange_record (cause : ChangeCause) :
    (startChange lane cause s).delivery.get lane = (s.delivery.get lane).change cause (changeDue lane s) := by
  rw [startChange_change, PerLane.get_set_self]

/-- A cut of another order than the bundle's begins a change and is laid on the empty fork (R114, R116). -/
theorem offerBundle_of_other_room (other : ¬Accepts (s.delivery.get lane).bundle o) (bare : (s.delivery.get lane).fork = none)
    (room : outs ≤ (s.cfg.lanes.get lane).forkCapacity) :
    let d := s.delivery.get lane
    (offerBundle lane o outs s).sched = s.sched.withOrder o (OrderRec.laid outs) ∧
    (offerBundle lane o outs s).accounts = s.accounts ∧
    (offerBundle lane o outs s).delivery = s.delivery.set lane
      (DeliveryRec.change { d with fork := some { order := o, count := pileCount none + outs }, divert := .stack
                                   waiting := d.waiting || decide (bundleSize s o ≤ outs) } .order (changeDue lane s)) := by
  have fork : ((startChange lane .order s).delivery.get lane).fork = none := by
    rw [startChange_record]
    exact bare
  have fits : pileCount ((startChange lane .order s).delivery.get lane).fork + outs ≤
      ((startChange lane .order s).cfg.lanes.get lane).forkCapacity := by simpa [fork, pileCount] using room
  have size : bundleSize (startChange lane .order s) o = bundleSize s o := by simp [bundleSize, findOrder]
  have empty : pileCount none + outs = outs := Nat.zero_add _
  obtain ⟨sched, accounts, delivery⟩ := offerFork_of_room lane o outs (startChange lane .order s) (.inl fork) fits
  rw [offerBundle_of_other lane o outs s other]
  refine ⟨by simpa using sched, by simpa using accounts, delivery.trans ?_⟩
  rw [forked, fork, size, startChange_record, startChange_change, PerLane.set_set]
  simp only [empty]
  rfl

/-- A cut of another order that the fork cannot hold is diverted, and the change begins all the same (R114, R116). -/
theorem offerBundle_of_other_full (other : ¬Accepts (s.delivery.get lane).bundle o) (bare : (s.delivery.get lane).fork = none)
    (full : (s.cfg.lanes.get lane).forkCapacity < outs) :
    let d := s.delivery.get lane
    (offerBundle lane o outs s).sched = s.sched.withOrder o (OrderRec.lost outs) ∧
    (offerBundle lane o outs s).accounts = s.accounts.divert lane outs ∧
    (offerBundle lane o outs s).delivery = s.delivery.set lane
      (DeliveryRec.change { d with divert := .divert } .order (changeDue lane s)) := by
  have fork : ((startChange lane .order s).delivery.get lane).fork = none := by
    rw [startChange_record]
    exact bare
  have overfull : ((startChange lane .order s).cfg.lanes.get lane).forkCapacity <
      pileCount ((startChange lane .order s).delivery.get lane).fork + outs := by simpa [fork, pileCount] using full
  obtain ⟨sched, accounts, delivery⟩ := divertGood_fields lane o outs (startChange lane .order s)
  rw [offerBundle_of_other lane o outs s other, offerFork_of_full lane o outs (startChange lane .order s) (.inr overfull)]
  refine ⟨by simpa using sched, by simpa using accounts, delivery.trans ?_⟩
  rw [startChange_record, startChange_change, PerLane.set_set]
  rfl

end

/-! ## A delivered cut -/

section
variable {lane : Lane} {b : Batch} {s : State}

theorem deliverCut_of_reject (h : b.cls ≠ .good ∨ b.order = none) : deliverCut lane b s = setGate lane .divert s := by
  simp only [deliverCut]
  split
  · rename_i good order
    simp_all
  · rfl

theorem deliverCut_of_good {o : Nat} (good : b.cls = .good) (order : b.order = some o) :
    ((s.delivery.get lane).stacker = .stacking → deliverCut lane b s = offerBundle lane o b.outs s) ∧
    ((s.delivery.get lane).stacker = .changing → deliverCut lane b s = offerFork lane o b.outs s) ∧
    ((s.delivery.get lane).stacker = .fault → deliverCut lane b s = divertGood lane o b.outs s) := by
  simp only [deliverCut, good, order]
  refine ⟨fun h => ?_, fun h => ?_, fun h => ?_⟩ <;> simp only [h]

theorem setGate_issued (lane : Lane) (g : Disposition) (s : State) : (setGate lane g s).issued =
    s.issued ++ (if (s.delivery.get lane).divert = g then [] else [.divertGate lane g]) := by
  simp only [setGate]
  split <;> simp

end

/-! ## Closures keep the queues, the bundles and the stacked tallies -/

/-- What a closure leaves of a lane's delivery: its queue and its bundle (R122). -/
def heldOf (s : State) (lane : Lane) : List Batch × Option Pile := ((s.delivery.get lane).queue, (s.delivery.get lane).bundle)

theorem heldOf_set {s t : State} {lane : Lane} {d : DeliveryRec} (h : t.delivery = s.delivery.set lane d)
    (queue : d.queue = (s.delivery.get lane).queue) (bundle : d.bundle = (s.delivery.get lane).bundle) : heldOf t = heldOf s := by
  funext other
  simp only [heldOf, h]
  by_cases same : other = lane
  · subst same
    rw [PerLane.get_set_self, queue, bundle]
  · rw [PerLane.get_set_ne _ _ _ _ same]

theorem heldOf_congr {s t : State} (h : t.delivery = s.delivery) : heldOf t = heldOf s := by
  funext lane
  simp only [heldOf, h]

/-- The stacked tally of every order in the table (R112). -/
def stackedTallies (s : State) : List (Nat × Nat) := s.sched.orders.map fun q => (q.id, q.stacked)

theorem stackedTallies_congr {s t : State} (h : t.sched.orders = s.sched.orders) : stackedTallies t = stackedTallies s := by
  simp only [stackedTallies, h]

theorem findOrder_stacked (s : State) (o : Nat) :
    (findOrder s o).map OrderRec.stacked = ((stackedTallies s).find? fun p => p.1 == o).map Prod.snd := by
  simp only [findOrder, stackedTallies, List.find?_map, Option.map_map]
  rfl

theorem stackedTallies_update (o : Nat) (f : OrderRec → OrderRec) (keeps : ∀ q, (f q).id = q.id ∧ (f q).stacked = q.stacked)
    (s : State) : stackedTallies (updateOrder o f s) = stackedTallies s := by
  simp only [stackedTallies, updateOrder_sched, Schedule.withOrder, List.map_map]
  refine List.map_congr_left fun q _ => ?_
  simp only [Function.comp_apply]
  split
  · rw [(keeps q).1, (keeps q).2]
  · rfl

theorem closingChange_held (o : Nat) (lane : Lane) (s : State) : heldOf (closingChange o lane s) = heldOf s := by
  simp only [closingChange]
  split
  · split
    · exact heldOf_set (startChange_delivery _ _ _) rfl rfl
    · rfl
  · split
    · exact heldOf_set (setDelivery_delivery _ _ _) rfl rfl
    · rfl
  · rfl

theorem closeOrder_held (r : OrderRec) (s : State) : heldOf (closeOrder r s) = heldOf s := by
  refine (closingChange_held _ _ _).trans ((closingChange_held _ _ _).trans (heldOf_congr ?_))
  simp

theorem closeOrder_tallies (r : OrderRec) (s : State) : stackedTallies (closeOrder r s) = stackedTallies s := by
  refine Eq.trans (stackedTallies_congr ?_)
    (stackedTallies_update r.id (fun q => { q with state := .closed, outcome := some (closureOutcome r) }) (fun _ => ⟨rfl, rfl⟩) s)
  simp [closeOrder]

theorem closureTest_keeps (o : Nat) (s : State) :
    heldOf (closureTest o s) = heldOf s ∧ stackedTallies (closureTest o s) = stackedTallies s := by
  simp only [closureTest]
  split
  · split
    · exact ⟨closeOrder_held _ _, closeOrder_tallies _ _⟩
    · exact ⟨rfl, rfl⟩
  · exact ⟨rfl, rfl⟩

theorem closureTests_keeps (os : List Nat) (s : State) :
    heldOf (closureTests os s) = heldOf s ∧ stackedTallies (closureTests os s) = stackedTallies s :=
  ⟨foldl_keeps heldOf (fun s o => closureTest o s) (fun s o => (closureTest_keeps o s).1) os s,
    foldl_keeps stackedTallies (fun s o => closureTest o s) (fun s o => (closureTest_keeps o s).2) os s⟩

/-! ## The deliveries of a lane -/

theorem deliverCut_queue (lane : Lane) (b : Batch) (s : State) :
    ((deliverCut lane b s).delivery.get lane).queue = (s.delivery.get lane).queue := by
  have diverted : ∀ o (s : State), ((divertGood lane o b.outs s).delivery.get lane).queue = (s.delivery.get lane).queue := fun o s => by
    rw [(divertGood_fields _ _ _ _).2.2, PerLane.get_set_self]
  have fork : ∀ o (s : State), ((offerFork lane o b.outs s).delivery.get lane).queue = (s.delivery.get lane).queue := fun o s => by
    by_cases taken : Accepts (s.delivery.get lane).fork o ∧
        pileCount (s.delivery.get lane).fork + b.outs ≤ (s.cfg.lanes.get lane).forkCapacity
    · rw [(offerFork_of_room lane o b.outs s taken.1 taken.2).2.2, PerLane.get_set_self]
      rfl
    · rw [offerFork_of_full lane o b.outs s (by rw [not_and_or, Nat.not_le] at taken; exact taken)]
      exact diverted o s
  have bundle : ∀ o, ((offerBundle lane o b.outs s).delivery.get lane).queue = (s.delivery.get lane).queue := fun o => by
    by_cases taken : Accepts (s.delivery.get lane).bundle o
    · rw [(offerBundle_of_accepted lane o b.outs s taken).2.2, PerLane.get_set_self]
      split <;> rfl
    · rw [offerBundle_of_other lane o b.outs s taken, fork, startChange_delivery, PerLane.get_set_self]
  by_cases reject : b.cls ≠ .good ∨ b.order = none
  · rw [deliverCut_of_reject reject, setGate_delivery, PerLane.get_set_self]
  · obtain ⟨good, some⟩ := not_or.mp reject
    obtain ⟨o, order⟩ := Option.ne_none_iff_exists'.mp some
    obtain ⟨stacking, changing, fault⟩ := deliverCut_of_good (lane := lane) (s := s) (not_not.mp good) order
    cases state : (s.delivery.get lane).stacker with
    | stacking => rw [stacking state, bundle]
    | changing => rw [changing state, fork]
    | fault => rw [fault state, diverted]

theorem deliverFront_of_last {lane : Lane} {b : Batch} (last : b.cuts ≤ b.delivered + 1) (rest : List Batch) (s : State) :
    deliverFront lane b rest s = closureTests b.order.toList
      (setDelivery lane { (deliverCut lane b s).delivery.get lane with queue := rest } (deliverCut lane b s)) := if_pos last

theorem deliverFront_of_more {lane : Lane} {b : Batch} (more : b.delivered + 1 < b.cuts) (rest : List Batch) (s : State) :
    deliverFront lane b rest s = setDelivery lane
      { (deliverCut lane b s).delivery.get lane with queue := { b with delivered := b.delivered + 1 } :: rest }
      (deliverCut lane b s) := if_neg (Nat.not_le.mpr more)

theorem deliverFront_queue (lane : Lane) (b : Batch) (rest : List Batch) (s : State) :
    ((deliverFront lane b rest s).delivery.get lane).queue =
      if b.cuts ≤ b.delivered + 1 then rest else { b with delivered := b.delivered + 1 } :: rest := by
  split
  · rename_i last
    rw [deliverFront_of_last last]
    refine (congrArg Prod.fst (congrFun (closureTests_keeps _ _).1 lane)).trans ?_
    simp only [heldOf, setDelivery_delivery, PerLane.get_set_self]
  · rename_i more
    rw [deliverFront_of_more (Nat.not_le.mp more), setDelivery_delivery, PerLane.get_set_self]

/-- A delivery takes one cut from the front of the queue (R111). -/
theorem heldCuts_deliverFront {lane : Lane} {b : Batch} {rest : List Batch} {s : State}
    (front : (s.delivery.get lane).queue = b :: rest) : heldCuts s lane = heldCuts (deliverFront lane b rest s) lane + 1 := by
  simp only [heldCuts, deliverFront_queue, front]
  split <;> simp only [List.map_cons, List.sum_cons] <;> omega

section
variable {lane : Lane} {s : State}

theorem deliverReached_of_empty (empty : (s.delivery.get lane).queue = []) (k : Nat) : deliverReached lane k s = s := by
  cases k with
  | zero => rfl
  | succ k => simp only [deliverReached, empty]

theorem deliverLane_of_empty (empty : (s.delivery.get lane).queue = []) : deliverLane lane s = s :=
  deliverReached_of_empty empty _

variable {b : Batch} {rest : List Batch}

theorem deliverLane_of_short (front : (s.delivery.get lane).queue = b :: rest) (short : frontReached s lane b = false) :
    deliverLane lane s = s := by
  rw [deliverLane, heldCuts_deliverFront front]
  simp only [deliverReached, front, short]
  rfl

theorem deliverLane_of_reached (front : (s.delivery.get lane).queue = b :: rest) (reached : frontReached s lane b = true) :
    deliverLane lane s = deliverLane lane (deliverFront lane b rest s) := by
  rw [deliverLane, heldCuts_deliverFront front]
  simp only [deliverReached, front, reached]
  rfl

end

/-! ## The deliveries of a report of travel -/

/-- Both stackers stack with nothing on the bundle, so that no closure begins a change (R122). -/
def Unstacked (s : State) : Prop := ∀ lane, (s.delivery.get lane).stacker = .stacking ∧ (s.delivery.get lane).bundle = none

theorem closingChange_unstacked (o : Nat) (lane : Lane) {s : State} (h : Unstacked s) : closingChange o lane s = s := by
  obtain ⟨stacking, empty⟩ := h lane
  simp [closingChange, stacking, empty, Pile.holds]

theorem closeOrder_unstacked (r : OrderRec) {s : State} (h : Unstacked s) : (closeOrder r s).delivery = s.delivery := by
  have noticed : ∀ kind data f, Unstacked (notice kind data (updateOrder r.id f s)) := fun kind data f lane => by
    simpa using h lane
  simp only [closeOrder]
  rw [closingChange_unstacked r.id .u (noticed _ _ _), closingChange_unstacked r.id .l (noticed _ _ _)]
  simp

theorem closureTests_unstacked (os : List Nat) : ∀ {s : State}, Unstacked s → (closureTests os s).delivery = s.delivery := by
  induction os with
  | nil => exact fun _ => rfl
  | cons o os ih =>
    intro s h
    have first : (closureTest o s).delivery = s.delivery := by
      simp only [closureTest]
      split
      · split
        · exact closeOrder_unstacked _ h
        · rfl
      · rfl
    have still : Unstacked (closureTest o s) := fun lane => by
      rw [first]
      exact h lane
    exact (ih still).trans first

theorem retireSetup_keeps (t : Setup) {s : State} (h : Unstacked s) :
    (retireSetup t s).delivery = s.delivery ∧ stackedTallies (retireSetup t s) = stackedTallies s := by
  have record : (retireRecord t s).delivery = s.delivery ∧ stackedTallies (retireRecord t s) = stackedTallies s := by
    simp only [retireRecord]
    refine ⟨(closureTests_unstacked _ ?_).trans (by simp), (closureTests_keeps _ _).2.trans (stackedTallies_congr (by simp))⟩
    exact fun lane => by simpa using h lane
  exact ⟨by simpa [retireSetup] using record.1, (stackedTallies_congr (by simp [retireSetup])).trans record.2⟩

theorem retireAll_keeps {s : State} (h : Unstacked s) :
    (retireAll s).delivery = s.delivery ∧ stackedTallies (retireAll s) = stackedTallies s := by
  suffices kept : ∀ (ts : List Setup) (u : State), u.delivery = s.delivery → stackedTallies u = stackedTallies s →
      (ts.foldl (fun s t => retireSetup t s) u).delivery = s.delivery ∧
        stackedTallies (ts.foldl (fun s t => retireSetup t s) u) = stackedTallies s from kept _ s rfl rfl
  intro ts
  induction ts with
  | nil => exact fun u delivery tallies => ⟨delivery, tallies⟩
  | cons t ts ih =>
    intro u delivery tallies
    have unstacked : Unstacked u := fun lane => by
      rw [delivery]
      exact h lane
    obtain ⟨keptDelivery, keptTallies⟩ := retireSetup_keeps t unstacked
    exact ih _ (keptDelivery.trans delivery) (keptTallies.trans tallies)

theorem feedOrder_keeps (o : Nat) (s : State) :
    heldOf (feedOrder o s) = heldOf s ∧ stackedTallies (feedOrder o s) = stackedTallies s := by
  simp only [feedOrder]
  split
  · split
    · obtain ⟨held, tallies⟩ := closureTest_keeps o (updateOrder o (fun q => { q with state := .fed }) s)
      exact ⟨held.trans (heldOf_congr (by simp)), tallies.trans
        (stackedTallies_update o (fun q => { q with state := .fed }) (fun _ => ⟨rfl, rfl⟩) s)⟩
    · exact ⟨rfl, rfl⟩
  · exact ⟨rfl, rfl⟩

theorem feedOrders_keeps (os : List Nat) (s : State) :
    heldOf (feedOrders os s) = heldOf s ∧ stackedTallies (feedOrders os s) = stackedTallies s :=
  ⟨foldl_keeps heldOf (fun s o => feedOrder o s) (fun s o => (feedOrder_keeps o s).1) os s,
    foldl_keeps stackedTallies (fun s o => feedOrder o s) (fun s o => (feedOrder_keeps o s).2) os s⟩

theorem activate_tallies (was : OrderState) (os : List Nat) (s : State) :
    stackedTallies (activate was os s) = stackedTallies s := by
  simp only [stackedTallies, activate, State.setSched_fields, List.map_map]
  refine List.map_congr_left fun q _ => ?_
  simp only [Function.comp_apply]
  split <;> rfl

theorem startSetup_keeps (n : Nat) (head : Setup) (rest : List Setup) (s : State) :
    heldOf (startSetup n head rest s) = heldOf s ∧ stackedTallies (startSetup n head rest s) = stackedTallies s := by
  unfold startSetup
  extract_lets former late overshoot s1 d s2 s3 s4 s5 s6
  have overrun : (if late = true then countOverrun n s4 else s4).sched = s4.sched ∧
      (if late = true then countOverrun n s4 else s4).delivery = s4.delivery := by
    split <;> simp
  have noticed : s4.sched = s3.sched ∧ s4.delivery = s.delivery := by simp [s4, s3, s2, s1]
  have counted : s5.sched = s3.sched ∧ s5.delivery = s.delivery := by
    refine ⟨?_, ?_⟩
    · simp only [s5, countEvent_frame, overrun.1, noticed.1]
    · simp only [s5, countEvent_frame, overrun.2, noticed.2]
  have activated : stackedTallies s3 = stackedTallies s := by
    refine Eq.trans (activate_tallies .queued head.orderIds s2) (stackedTallies_congr ?_)
    simp [s2, d, s1]
  have held : heldOf s5 = heldOf s := heldOf_congr counted.2
  have tallies : stackedTallies s5 = stackedTallies s := (stackedTallies_congr (by rw [counted.1])).trans activated
  obtain ⟨fedHeld, fedTallies⟩ := feedOrders_keeps ((former.map Setup.orderIds).getD []) s5
  refine ⟨(heldOf_congr ?_).trans (fedHeld.trans held), (stackedTallies_congr ?_).trans (fedTallies.trans tallies)⟩
  · simp [stationsTakeQueue, s6]
  · simp [stationsTakeQueue, s6]

theorem deferStart_keeps (n : Nat) (d : Deferral) (s : State) :
    (deferStart n d s).delivery = s.delivery ∧ (deferStart n d s).sched.orders = s.sched.orders := by
  have episode : (beginEpisode d s).delivery = s.delivery ∧ (beginEpisode d s).sched.orders = s.sched.orders := by
    simp only [beginEpisode]
    split
    · exact ⟨rfl, rfl⟩
    · cases d <;> simp
  simp only [deferStart]
  split
  · simpa using episode
  · exact episode

theorem startAttempt_keeps (n : Nat) (s : State) :
    heldOf (startAttempt n s) = heldOf s ∧ stackedTallies (startAttempt n s) = stackedTallies s := by
  have deferred : ∀ d, heldOf (deferStart n d s) = heldOf s ∧ stackedTallies (deferStart n d s) = stackedTallies s := fun d =>
    ⟨heldOf_congr (deferStart_keeps n d s).1, stackedTallies_congr (deferStart_keeps n d s).2⟩
  simp only [startAttempt]
  split
  · exact ⟨rfl, rfl⟩
  · split
    · exact deferred _
    · split
      · exact deferred _
      · split
        · exact deferred _
        · exact startSetup_keeps _ _ _ _

theorem enterReject_orders (m : Mark) (s : State) : (enterReject m s).sched.orders = s.sched.orders := by
  have extension : ∀ q (s : State), (noteExtension m q s).sched.orders = s.sched.orders := fun q s => by
    simp only [noteExtension]
    split <;> simp
  simp only [enterReject]
  split
  · split <;> simp [raisePlanned_orders, extension]
  · split <;> simp

theorem standTests_orders (i : Fin 6) (s : State) : (standTests i s).sched.orders = s.sched.orders := by
  have placed : ∀ source pos widen (s : State), (placeJoint i source pos widen s).sched.orders = s.sched.orders :=
    fun source pos widen s => by
      simp only [placeJoint, firingTest_frame, setStand_frame, enterReject_orders]
      split <;> simp
  have joint : ∀ s : State, (jointTest i s).sched.orders = s.sched.orders := fun s => by
    simp only [jointTest]
    (repeat' split) <;> simp [placed]
  have broken : ∀ c (s : State), (breakCause c s).sched.orders = s.sched.orders := fun c s => by
    simp only [breakCause]
    split <;> simp [enterReject_orders]
  have exhausted : ∀ s : State, (exhaustionTest i s).sched.orders = s.sched.orders := fun s => by
    simp only [exhaustionTest]
    split <;> simp [broken]
  simp [standTests, joint, exhausted]

theorem allStandTests_orders (s : State) : (allStandTests s).sched.orders = s.sched.orders :=
  foldl_keeps (fun s : State => s.sched.orders) (fun s i => standTests i s) (fun s i => standTests_orders i s) slots s

theorem restartMark_orders (s : State) : (restartMark s).sched.orders = s.sched.orders := by
  simp only [restartMark]
  split
  · split <;> simp
  · rfl

/-- After its deliveries a board advance keeps the queues, the bundles and the stacked tallies. -/
theorem boardAdvance_after_delivery (n : Nat) (s : State) :
    let d := deliverLane .l (deliverLane .u (retireAll (afterKnives n s)))
    heldOf (boardAdvance n s) = heldOf d ∧ stackedTallies (boardAdvance n s) = stackedTallies d := by
  intro d
  obtain ⟨held, tallies⟩ := startAttempt_keeps n d
  rw [boardAdvance_knives]
  refine ⟨(heldOf_congr ?_).trans held, (stackedTallies_congr ?_).trans tallies⟩
  · simp [d]
  · simp [allStandTests_orders, restartMark_orders, d]

/-- A report's advance reaches the deliveries with the queues as they were where no lane cuts. -/
theorem afterKnives_counts {n : Nat} {s : State} (pos : 0 < n) (short : ShortOfKnife n s)
    (counts : ∀ lane, Counts n (s.lanes.get lane)) :
    (afterKnives n s).delivery = s.delivery ∧ (afterKnives n s).cfg = s.cfg ∧
      (afterKnives n s).sched.orders = s.sched.orders ∧ (afterKnives n s).enc.axis = (s.enc.axis + n) % 2 ^ 48 := by
  obtain ⟨cfg, lanes, delivery, _, orders⟩ := atKnives_fields n s
  have axis : (atKnives n s).enc.axis = (s.enc.axis + n) % 2 ^ 48 := by
    simp only [atKnives, stationArrivals_frame, lateAdvance_frame, defectLimitTest_frame, removeMarks_frame]
    simp [travelled, advanceTracker, Config.axisModulus]
  obtain ⟨sched, _, upper, cfgU⟩ := stretch_counts (lane := .u) (axis := s.enc.axis) (report := []) (s := atKnives n s) pos
    (by rw [lanes]; exact counts .u)
  have other := (stretch_other (lane := .u) (axis := s.enc.axis) (report := []) (a := 1) (b := n) (s := atKnives n s)
    (other := .l) (by decide)).1
  obtain ⟨sched', _, lower, cfgL⟩ := stretch_counts (lane := .l) (axis := s.enc.axis) (report := [])
    (s := stretch .u [] s.enc.axis 1 n (atKnives n s)) pos (by rw [other, lanes]; exact counts .l)
  rw [afterKnives_short short, sched', sched, lower, upper, cfgL, cfgU]
  exact ⟨delivery, cfg, orders, by simpa using axis⟩

theorem findOrder_withOrder {s t : State} {o : Nat} {f : OrderRec → OrderRec} (keeps : ∀ q, (f q).id = q.id)
    (h : t.sched = s.sched.withOrder o f) : findOrder t o = (findOrder s o).map f := by
  have same : ((fun q : OrderRec => q.id == o) ∘ fun q => if q.id = o then f q else q) = fun q => q.id == o := by
    funext q
    simp only [Function.comp_apply]
    split
    · rw [keeps]
    · rfl
  simp only [findOrder, h, Schedule.withOrder, List.find?_map, same]
  cases found : s.sched.orders.find? fun q => q.id == o with
  | none => rfl
  | some q => simp [show q.id = o by simpa using List.find?_some found]

section
variable {lane : Lane} {b : Batch} {o : Nat} {s : State}

/-- The last cut of a lane's only batch is laid on its empty bundle (R111, R112, R114). -/
theorem deliverFront_of_only (good : b.cls = .good) (order : b.order = some o) (last : b.cuts = b.delivered + 1)
    (stacking : (s.delivery.get lane).stacker = .stacking) (empty : (s.delivery.get lane).bundle = none) :
    let t := deliverFront lane b [] s
    heldOf t lane = ([], some { order := o, count := b.outs }) ∧ (∀ other, other ≠ lane → heldOf t other = heldOf s other) ∧
      (findOrder t o).map OrderRec.stacked =
        (findOrder s o).map fun q => min 16777215 (q.stacked + b.outs) := by
  intro t
  have front : t = _ := deliverFront_of_last (Nat.le_of_eq last) [] s
  obtain ⟨sched, _, delivery⟩ := offerBundle_of_accepted lane o b.outs s (.inl empty)
  rw [← (deliverCut_of_good good order).1 stacking] at sched delivery
  obtain ⟨held, tallies⟩ := closureTests_keeps b.order.toList
    (setDelivery lane { (deliverCut lane b s).delivery.get lane with queue := [] } (deliverCut lane b s))
  rw [← front] at held tallies
  refine ⟨?_, fun other ne => ?_, ?_⟩
  · rw [held]
    simp only [heldOf, setDelivery_delivery, PerLane.get_set_self, delivery]
    split <;> simp [bundled, DeliveryRec.change, empty, pileCount]
  · rw [held]
    simp only [heldOf, setDelivery_delivery, delivery, PerLane.get_set_ne _ _ _ _ ne]
  · have orders := findOrder_withOrder (f := OrderRec.laid b.outs) (fun _ => rfl) sched
    have cut : stackedTallies t = stackedTallies (deliverCut lane b s) := tallies.trans (stackedTallies_congr (by simp))
    rw [findOrder_stacked, cut, ← findOrder_stacked, orders, Option.map_map]
    rfl

/-- The deliveries of both lanes when one holds a single cut that has reached its stacker. -/
theorem deliverLanes_of_only (good : b.cls = .good) (order : b.order = some o) (last : b.cuts = b.delivered + 1)
    (unstacked : Unstacked s) (queue : (s.delivery.get lane).queue = [b])
    (others : ∀ other, other ≠ lane → (s.delivery.get other).queue = []) (reached : frontReached s lane b = true) :
    deliverLane .l (deliverLane .u s) = deliverFront lane b [] s := by
  obtain ⟨stacking, empty⟩ := unstacked lane
  obtain ⟨held, kept, _⟩ := deliverFront_of_only good order last stacking empty
  have this : deliverLane lane s = deliverFront lane b [] s :=
    (deliverLane_of_reached queue reached).trans (deliverLane_of_empty (congrArg Prod.fst held))
  cases lane with
  | u =>
    rw [this]
    exact deliverLane_of_empty ((congrArg Prod.fst (kept .l (by decide))).trans (others .l (by decide)))
  | l => rw [deliverLane_of_empty (others .u (by decide)), this]

end

theorem frontReached_iff (s : State) (lane : Lane) (b : Batch) : frontReached s lane b = true ↔
    (s.cfg.lanes.get lane).transit ≤
      (s.enc.axis + 2 ^ 48 - (b.firstAxis + b.delivered * b.length) % 2 ^ 48) % 2 ^ 48 := decide_eq_true_iff

theorem reached_of_axis_mod (a m c t : Nat) (h : t ≤ (a + m - c % m) % m) (pos : 0 < m) : t ≤ (a % m + m - c % m) % m := by
  have le : c % m ≤ m := Nat.le_of_lt (Nat.mod_lt c pos)
  rw [Nat.add_sub_assoc le] at h ⊢
  rwa [Nat.mod_add_mod]

/-- Settles O12. -/
theorem deliveriesAreLaidOrDiverted : Obligations.DeliveriesAreLaidOrDiverted := by
  refine ⟨fun lane s => ?_, fun lane b s => ?_, fun lane b o s good order => ?_, ?_⟩
  · intro reached
    have iff : ∀ b, frontReached s lane b = true ↔ reached b := frontReached_iff s lane
    refine ⟨deliverLane_of_empty, fun b rest front => ⟨fun short => ?_, fun far => ⟨?_, deliverFront_queue _ _ _ _, fun more =>
      ⟨_, deliverFront_of_more more rest s⟩⟩⟩⟩
    · exact deliverLane_of_short front (by rw [← Bool.not_eq_true, iff]; exact short)
    · exact deliverLane_of_reached front ((iff b).mpr far)
  · intro d t reject
    have gate : t = setGate lane .divert s := deliverCut_of_reject reject
    rw [gate]
    exact ⟨setGate_delivery _ _ _, by simp, by simp, setGate_issued _ _ _⟩
  · intro d t size held accepts pile laid la diverted changing room
    obtain ⟨onBundle, onFork, lost⟩ := deliverCut_of_good (lane := lane) (s := s) good order
    refine ⟨fun stacking taken => ?_, fun stacking other bare => ⟨fun fits => ?_, fun full => ?_⟩,
      fun moving => ⟨fun taken fits => ?_, fun full => ?_⟩, fun fault => ?_⟩
    · obtain ⟨sched, accounts, delivery⟩ := offerBundle_of_accepted lane o b.outs s taken
      rw [← onBundle stacking] at sched accounts delivery
      exact ⟨⟨sched, accounts⟩, delivery⟩
    · obtain ⟨sched, accounts, delivery⟩ := offerBundle_of_other_room lane o b.outs s other bare fits
      rw [← onBundle stacking] at sched accounts delivery
      exact ⟨⟨sched, accounts⟩, delivery⟩
    · obtain ⟨sched, accounts, delivery⟩ := offerBundle_of_other_full lane o b.outs s other bare full
      rw [← onBundle stacking] at sched accounts delivery
      exact ⟨⟨sched, accounts⟩, delivery⟩
    · obtain ⟨sched, accounts, delivery⟩ := offerFork_of_room lane o b.outs s taken fits
      rw [← onFork moving] at sched accounts delivery
      exact ⟨⟨sched, accounts⟩, delivery⟩
    · obtain ⟨sched, accounts, delivery⟩ := divertGood_fields lane o b.outs s
      rw [← offerFork_of_full lane o b.outs s full, ← onFork moving] at sched accounts delivery
      exact ⟨⟨sched, accounts⟩, delivery⟩
    · obtain ⟨sched, accounts, delivery⟩ := divertGood_fields lane o b.outs s
      rw [← lost fault] at sched accounts delivery
      exact ⟨⟨sched, accounts⟩, delivery⟩
  · rintro e k lane b o q s rfl pos le marks counts delivery good order last found reached
    obtain ⟨cfg, web, sched, lanes, deliveries, _, axis⟩ := reported_frame s
    have short : ShortOfKnife k (reported s) := by
      simp only [ShortOfKnife, web, marks, List.not_mem_nil, false_implies, implies_true]
    obtain ⟨kept, keptCfg, keptOrders, keptAxis⟩ := afterKnives_counts pos short (by rw [lanes]; exact counts)
    rw [deliveries, delivery] at kept
    rw [cfg] at keptCfg
    rw [axis] at keptAxis
    have own : (afterKnives k (reported s)).delivery.get lane = { DeliveryRec.initial with queue := [b] } := by
      rw [kept, PerLane.get_set_self]
    have others : ∀ other, other ≠ lane → (afterKnives k (reported s)).delivery.get other = DeliveryRec.initial :=
      fun other ne => by
        rw [kept, PerLane.get_set_ne _ _ _ _ ne]
        cases other <;> rfl
    have unstacked : Unstacked (afterKnives k (reported s)) := fun other => by
      by_cases same : other = lane
      · rw [same, own]
        exact ⟨rfl, rfl⟩
      · rw [others other same]
        exact ⟨rfl, rfl⟩
    obtain ⟨retired, tallies⟩ := retireAll_keeps unstacked
    have far : frontReached (retireAll (afterKnives k (reported s))) lane b = true := by
      rw [frontReached_iff]
      simp only [retireAll_frame, keptCfg, keptAxis]
      exact reached_of_axis_mod _ _ _ _ reached (by decide)
    have only := deliverLanes_of_only good order last (s := retireAll (afterKnives k (reported s))) (lane := lane)
      (fun other => by rw [retired]; exact unstacked other) (by rw [retired, own])
      (fun other ne => by rw [retired, others other ne]; rfl) far
    obtain ⟨held, _, stacked⟩ := deliverFront_of_only (lane := lane) (s := retireAll (afterKnives k (reported s))) good order last
      (by rw [retired, own]; rfl) (by rw [retired, own]; rfl)
    rw [← only] at held stacked
    obtain ⟨advanced, advancedTallies⟩ := boardAdvance_after_delivery k (reported s)
    refine ⟨_, exec_selected pos le s, ?_, ?_, ?_⟩
    · rw [(settle_frame _).2.2.2.2.2.2.2.2.1]
      exact (congrArg Prod.fst (congrFun advanced lane)).trans (congrArg Prod.fst held)
    · rw [(settle_frame _).2.2.2.2.2.2.2.2.1]
      exact (congrArg Prod.snd (congrFun advanced lane)).trans (congrArg Prod.snd held)
    · have before : (findOrder (retireAll (afterKnives k (reported s))) o).map OrderRec.stacked = some q.stacked := by
        rw [findOrder_stacked, tallies, ← findOrder_stacked, findOrder_congr keptOrders,
          findOrder_congr (s := s) (by rw [sched]), found]
        rfl
      have after : (findOrder (settle (boardAdvance k (reported s))) o).map OrderRec.stacked =
          ((findOrder (retireAll (afterKnives k (reported s))) o).map OrderRec.stacked).map
            fun v => min 16777215 (v + b.outs) := by
        rw [findOrder_congr (by simp : _ = (boardAdvance k (reported s)).sched.orders), findOrder_stacked, advancedTallies,
          ← findOrder_stacked, stacked, Option.map_map]
        rfl
      rw [after, before]
      rfl

end Sys2Proof.Machine
end

