-- ==== Sys2Proof/Proofs/Purge.lean ====
section
/-! PROOFS. PURGE (R22, R46, R70, R89, R107, R157): the stands unlock and plan, the stations give up their patterns, the lanes
release their orders, and the setups on the web are restated. -/

namespace Sys2Proof.Machine
open Sys2Proof

/-! ## The stands -/

/-- What planning keeps of a stand: the running reel, the standby reel, the pending joint, the late watch, the count of refused
readings and the reload flag. -/
def Stand.kept (st : Stand) : Option RunningReel × Option StandbyReel × Option Int × Bool × Nat × Bool :=
  (st.running, st.standby, st.joint, st.late, st.refused, st.reloaded)

/-- A stand with its joint and its late watch dropped (R70, R71). -/
def Stand.dropped (st : Stand) : Stand := { st with joint := none, late := false }

theorem firingTest_kept (i j : Fin 6) (s : State) : ((firingTest i s).stands.get j).kept = (s.stands.get j).kept := by
  by_cases same : j = i
  · subst same
    rcases firingTest_cases j s with e | ⟨_, _, _, e⟩ <;> rw [e]
    simp [Stand.kept]
  · rw [firingTest_other _ _ _ same]

theorem setStand_kept (i j : Fin 6) (st : Stand) (s : State) (h : st.kept = (s.stands.get i).kept) :
    ((setStand i st s).stands.get j).kept = (s.stands.get j).kept := by
  by_cases same : j = i
  · subst same
    simpa using h
  · simp [Six.get_set_ne _ _ _ _ same]

theorem planStand_kept (i j : Fin 6) (s : State) : ((planStand i s).stands.get j).kept = (s.stands.get j).kept := by
  have arm : ∀ s : State, ((armingTest i s).stands.get j).kept = (s.stands.get j).kept := fun s => by
    simp only [armingTest]
    split
    · split
      · exact (firingTest_kept _ _ _).trans (setStand_kept _ _ _ _ rfl)
      · rfl
    · rfl
  simp only [planStand]
  split
  · exact (arm _).trans (setStand_kept _ _ _ _ rfl)
  · rfl

/-- A plan turns on the setting, the schedule and the stand's own reel (R57). -/
theorem computePlan_congr {s t : State} {i : Fin 6} (cfg : t.cfg = s.cfg) (current : t.sched.current = s.sched.current)
    (queued : t.sched.queued = s.sched.queued) (stand : (t.stands.get i).running = (s.stands.get i).running) :
    computePlan t i = computePlan s i := by
  have usable : (t.stands.get i).usable = (s.stands.get i).usable := by simp only [Stand.usable, stand]
  unfold computePlan
  rw [cfg, current, queued, usable]

/-- A stand that has taken a plan and made its arming test (R56, R58). -/
def Planned (p : SplicePlan) (arm : Nat) (st : Stand) : Prop :=
  st.plan = some p ∧ (st.state = .ready ∨ st.state = .armed ∨ st.state = .firing) ∧ (st.state = .ready ↔ arm < p.fire)

theorem Planned.fired {s : State} {i : Fin 6} {p : SplicePlan} {arm : Nat} {old new : Stand} (h : Planned p arm old)
    (settled : FiredOrKept s i old new) : Planned p arm new := by
  rcases settled with rfl | ⟨armed, _, _, rfl⟩
  · exact h
  · obtain ⟨plan, _, waits⟩ := h
    refine ⟨plan, .inr (.inr rfl), ?_⟩
    rw [← waits, armed]
    simp

theorem FiredOrKept.kept {s : State} {i : Fin 6} {old new : Stand} (h : FiredOrKept s i old new) : new.kept = old.kept := by
  rcases h with rfl | ⟨_, _, _, rfl⟩ <;> rfl

theorem FiredOrKept.same {s : State} {i : Fin 6} {old new : Stand} (h : FiredOrKept s i old new) (waits : old.state ≠ .armed) :
    new = old := by
  rcases h with rfl | ⟨armed, _⟩
  · rfl
  · exact absurd armed waits

/-- The inputs of a stand's plan outside the stand. -/
def SameInputs (s t : State) : Prop :=
  t.cfg = s.cfg ∧ t.sched = s.sched

/-- Every stand slot stands once in the order of the slots. -/
theorem slots_split (i : Fin 6) : ∃ before after, slots = before ++ i :: after ∧ i ∉ before ∧ i ∉ after := by
  obtain ⟨before, after, split⟩ := List.append_of_mem (by revert i; decide : i ∈ slots)
  have once : slots.Nodup := by decide
  rw [split, List.nodup_append] at once
  obtain ⟨_, tail, apart⟩ := once
  exact ⟨before, after, split, fun mem => apart i mem i List.mem_cons_self rfl, (List.nodup_cons.mp tail).1⟩

/-- A pass over the stands in which each step changes its own stand alone: a stand after it is that stand after its own step. -/
theorem foldl_stands {f : State → Fin 6 → State} (other : ∀ s i j, j ≠ i → (f s i).stands.get j = s.stands.get j)
    (inputs : ∀ s i, SameInputs s (f s i)) (i : Fin 6) (s : State) :
    ∃ u, SameInputs s u ∧ u.stands.get i = s.stands.get i ∧ (slots.foldl f s).stands.get i = (f u i).stands.get i := by
  obtain ⟨before, after, split, first, last⟩ := slots_split i
  have away : ∀ (js : List (Fin 6)) (s : State), i ∉ js → SameInputs s (js.foldl f s) ∧
      (js.foldl f s).stands.get i = s.stands.get i := by
    intro js
    induction js with
    | nil => exact fun s _ => ⟨⟨rfl, rfl⟩, rfl⟩
    | cons j js ih =>
      intro s absent
      obtain ⟨⟨cfg, sched⟩, kept⟩ := ih (f s j) (fun mem => absent (List.mem_cons_of_mem _ mem))
      obtain ⟨cfg', sched'⟩ := inputs s j
      exact ⟨⟨cfg.trans cfg', sched.trans sched'⟩,
        kept.trans (other _ _ _ fun same => absent (same ▸ List.mem_cons_self ..))⟩
  obtain ⟨same, kept⟩ := away before s first
  refine ⟨before.foldl f s, same, kept, ?_⟩
  rw [split, List.foldl_append, List.foldl_cons, (away after _ last).2]

theorem unlockStand_of_armed {i : Fin 6} {s : State} (armed : (s.stands.get i).state = .armed) : unlockStand i s =
    planStand i (setStand i { s.stands.get i with state := .ready, joint := none, late := false } s) := if_pos armed

theorem unlockStand_of_other {i : Fin 6} {s : State} (other : (s.stands.get i).state ≠ .armed) : unlockStand i s =
    setStand i { s.stands.get i with joint := none, late := false } s := if_neg other

theorem unlockStand_other (s : State) (i j : Fin 6) (h : j ≠ i) : (unlockStand i s).stands.get j = s.stands.get j := by
  by_cases armed : (s.stands.get i).state = .armed
  · rw [unlockStand_of_armed armed, planStand_other _ _ _ h, setStand_stands, Six.get_set_ne _ _ _ _ h]
  · rw [unlockStand_of_other armed, setStand_stands, Six.get_set_ne _ _ _ _ h]

/-- A stand after the unlocking: its joint and late watch are gone; one that was ARMED has planned, any other keeps its record (R70). -/
theorem unlockStands_stand (i : Fin 6) (s : State) :
    let old := s.stands.get i
    let new := (unlockStands s).stands.get i
    new.kept = old.dropped.kept ∧
    (old.state ≠ .armed → new = old.dropped) ∧
    (old.state = .armed → Planned (computePlan s i) (s.cfg.stands.get i).armDistance new) := by
  intro old new
  obtain ⟨u, ⟨cfg, sched⟩, stand, result⟩ := foldl_stands (f := fun s i => unlockStand i s)
    (fun s i j h => unlockStand_other s i j h) (fun s i => ⟨by simp, by simp⟩) i s
  have eq : new = (unlockStand i u).stands.get i := result
  rw [eq]
  by_cases armed : (u.stands.get i).state = .armed
  · rw [unlockStand_of_armed armed]
    refine ⟨?_, fun other => absurd ((congrArg Stand.state stand).symm.trans armed) other, fun _ => ?_⟩
    · rw [planStand_kept, setStand_stands, Six.get_set_self, stand]
      rfl
    · have planned := planStand_of_ready i
        (setStand i { u.stands.get i with state := .ready, joint := none, late := false } u) (by simp)
      have plan : computePlan (setStand i { u.stands.get i with state := .ready, joint := none, late := false } u) i =
          computePlan s i := computePlan_congr (by simpa using cfg) (by simp [sched]) (by simp [sched]) (by simp [stand])
      rw [plan] at planned
      simp only [setStand_frame, cfg] at planned
      exact planned
  · rw [unlockStand_of_other armed, setStand_stands, Six.get_set_self, stand]
    exact ⟨rfl, fun _ => rfl, fun was => absurd (by rw [stand]; exact was) armed⟩

/-- A stand after a replan: a READY one has planned, any other keeps its record (R56). -/
theorem replanAll_stand (i : Fin 6) (s : State) :
    let old := s.stands.get i
    let new := (replanAll s).stands.get i
    new.kept = old.kept ∧ (old.state ≠ .ready → new = old) ∧
    (old.state = .ready → Planned (computePlan s i) (s.cfg.stands.get i).armDistance new) := by
  intro old new
  obtain ⟨u, ⟨cfg, sched⟩, stand, result⟩ := foldl_stands (f := fun s i => planStand i s)
    (fun s i j h => planStand_other i j s h) (fun s i => ⟨by simp, by simp⟩) i s
  have eq : new = (planStand i u).stands.get i := result
  refine ⟨?_, replanAll_keeps i s, fun ready => ?_⟩
  · rw [eq, planStand_kept, stand]
  · have planned := planStand_of_ready i u (stand ▸ ready)
    rw [← eq, cfg, computePlan_congr cfg (by rw [sched]) (by rw [sched]) (by rw [stand])] at planned
    exact planned

/-- A stand after the unlocking and a replan: one that was ARMED or READY has planned, any other keeps its record (R70, R71). -/
theorem replannedStand (i : Fin 6) (s : State) :
    let old := s.stands.get i
    let new := (replanAll (unlockStands s)).stands.get i
    new.kept = old.dropped.kept ∧ (old.state ≠ .armed → old.state ≠ .ready → new = old.dropped) ∧
    (old.state = .armed ∨ old.state = .ready → Planned (computePlan s i) (s.cfg.stands.get i).armDistance new) := by
  intro old new
  obtain ⟨kept, idle, armed⟩ := unlockStands_stand i s
  obtain ⟨rekept, keeps, plans⟩ := replanAll_stand i (unlockStands s)
  have running : ((unlockStands s).stands.get i).running = old.running := congrArg Prod.fst kept
  have plan : computePlan (unlockStands s) i = computePlan s i := computePlan_congr (by simp) (by simp) (by simp) running
  rw [plan, (unlockStands_frame s).2.1] at plans
  refine ⟨rekept.trans kept, fun other notReady => ?_, fun h => ?_⟩
  · have unlocked := idle other
    exact (keeps (by rw [unlocked]; exact notReady)).trans unlocked
  · by_cases ready : ((unlockStands s).stands.get i).state = .ready
    · exact plans ready
    · rcases h with was | was
      · rw [show new = _ from keeps ready]
        exact armed was
      · have unlocked := idle (by rw [was]; decide)
        exact absurd (by rw [unlocked]; exact was) ready

/-- The stands of a purge: unlocked, and planned again where a CURRENT setup's length is restated (R70, log 33). -/
theorem purgedStand (i : Fin 6) (s : State) :
    let old := s.stands.get i
    let new := (replanRestated (unlockStands s)).stands.get i
    new.kept = old.dropped.kept ∧
    (old.state ≠ .armed → (old.state = .ready → s.sched.current = none) → new = old.dropped) ∧
    (old.state = .armed ∨ (old.state = .ready ∧ s.sched.current.isSome = true) →
      Planned (computePlan s i) (s.cfg.stands.get i).armDistance new) := by
  intro old new
  cases present : s.sched.current with
  | none =>
    have eq : new = (unlockStands s).stands.get i := by simp [new, replanRestated, present]
    obtain ⟨kept, idle, armed⟩ := unlockStands_stand i s
    rw [eq]
    refine ⟨kept, fun other _ => idle other, fun h => ?_⟩
    rcases h with was | ⟨_, absurd⟩
    · exact armed was
    · cases absurd
  | some cur =>
    have eq : new = (replanAll (unlockStands s)).stands.get i := by simp [new, replanRestated, present]
    obtain ⟨kept, idle, plans⟩ := replannedStand i s
    rw [eq]
    refine ⟨kept, fun other ready => idle other fun is => ?_, fun h => plans (Or.imp id And.left h)⟩
    cases ready is

/-! ## The stations -/

/-- A station without a late engagement that is not ENGAGED. -/
def Idle (r : StationRec) : Prop := r.late = none ∧ r.state ≠ .engaged

theorem setStation_get (x : Station) (r : StationRec) (s : State) : (setStation x r s).stations.get x = r := by
  rw [setStation_stations, PerStation.get_set_self]

theorem setStation_get_ne {x y : Station} (h : y ≠ x) (r : StationRec) (s : State) :
    (setStation x r s).stations.get y = s.stations.get y := by
  rw [setStation_stations, PerStation.get_set_ne _ _ _ _ h]

/-- The station holds the CURRENT setup's pattern (R89). -/
def holdsCurrent (x : Station) (s : State) : Bool :=
  match s.sched.current, (s.stations.get x).pattern with
  | some cur, some id => cur.id == id
  | _, _ => false

section
variable {x : Station} {s : State}

theorem purgeStation_of_engaged (h : (s.stations.get x).state = .engaged) : purgeStation x s =
    retractStation x (if holdsCurrent x s then .ready else .free) (if holdsCurrent x s then (s.stations.get x).pattern else none)
      (setStation x { s.stations.get x with late := none } s) := by
  simp only [purgeStation, h]
  rfl

theorem purgeStation_of_fault (h : (s.stations.get x).state = .fault) : purgeStation x s =
    setStation x { s.stations.get x with
      late := none, pattern := if holdsCurrent x s then (s.stations.get x).pattern else none } s := by
  have eq : purgeStation x s = setStation x { s.stations.get x with
      late := none, state := .fault, pattern := if holdsCurrent x s then (s.stations.get x).pattern else none } s := by
    simp only [purgeStation, h]
    rfl
  rw [eq, ← h]

theorem purgeStation_of_waiting (h : (s.stations.get x).state ≠ .engaged) (h' : (s.stations.get x).state ≠ .fault) :
    purgeStation x s = setStation x (if holdsCurrent x s then { s.stations.get x with late := none } else
      { s.stations.get x with late := none, state := .free, pattern := none, timer := none }) s := by
  simp only [purgeStation]
  split
  · rename_i engaged
    exact absurd engaged h
  · rename_i fault
    exact absurd fault h'
  all_goals rfl

theorem purgeStation_other {y : Station} (h : y ≠ x) : (purgeStation x s).stations.get y = s.stations.get y := by
  by_cases engaged : (s.stations.get x).state = .engaged
  · rw [purgeStation_of_engaged engaged]
    simp [retractStation, PerStation.get_set_ne _ _ _ _ h]
  · by_cases fault : (s.stations.get x).state = .fault
    · rw [purgeStation_of_fault fault, setStation_get_ne h]
    · rw [purgeStation_of_waiting engaged fault, setStation_get_ne h]

end

theorem purgeStation_idle (x : Station) (s : State) : Idle ((purgeStation x s).stations.get x) := by
  by_cases engaged : (s.stations.get x).state = .engaged
  · rw [purgeStation_of_engaged engaged, retractStation, setStation_get]
    refine ⟨by simp, ?_⟩
    dsimp only
    split
    · decide
    · split <;> decide
  · by_cases fault : (s.stations.get x).state = .fault
    · rw [purgeStation_of_fault fault, setStation_get]
      exact ⟨rfl, engaged⟩
    · rw [purgeStation_of_waiting engaged fault, setStation_get]
      split
      · exact ⟨rfl, engaged⟩
      · exact ⟨rfl, by simp⟩

/-- Without marks a load attempt keeps the web map, and a station it positions has no late engagement (R75). -/
theorem loadAttempt_idle (x : Station) {s : State} (empty : s.web.marks = []) (idle : ∀ y, Idle (s.stations.get y)) :
    (loadAttempt x s).web = s.web ∧ ∀ y, Idle ((loadAttempt x s).stations.get y) := by
  simp only [loadAttempt]
  split
  · split
    · rename_i t _
      have gone : markBeyond s t.id x = false := by simp [markBeyond, runMark, empty]
      rw [gone, Bool.and_false]
      refine ⟨by simp, fun y => ?_⟩
      by_cases same : y = x
      · subst same
        exact ⟨by simpa [positionOutput] using (idle y).1, by simp [positionOutput]⟩
      · simpa [positionOutput, PerStation.get_set_ne _ _ _ _ same] using idle y
    · exact ⟨rfl, idle⟩
  · exact ⟨rfl, idle⟩

theorem purgeStations_idle {s : State} (empty : s.web.marks = []) :
    (purgeStations s).web = s.web ∧ ∀ y, Idle ((purgeStations s).stations.get y) := by
  have purged : ∀ y, Idle ((purgeStation .b (purgeStation .a s)).stations.get y) := fun y => by
    cases y with
    | a =>
      rw [purgeStation_other (by decide)]
      exact purgeStation_idle .a s
    | b => exact purgeStation_idle .b _
  obtain ⟨web, first⟩ := loadAttempt_idle .a (s := purgeStation .b (purgeStation .a s)) (by simpa using empty) purged
  obtain ⟨web', second⟩ := loadAttempt_idle .b (s := loadAttempt .a (purgeStation .b (purgeStation .a s)))
    (by rw [web]; simpa using empty) first
  obtain ⟨web'', third⟩ := loadAttempt_idle .a
    (s := loadAttempt .b (loadAttempt .a (purgeStation .b (purgeStation .a s)))) (by rw [web', web]; simpa using empty) second
  exact ⟨web''.trans (web'.trans (web.trans (by simp))), third⟩

/-! ## The schedule -/

/-- Closures change the orders of the schedule alone (R122). -/
theorem closureTests_sched (os : List Nat) (s : State) : ∃ orders, (closureTests os s).sched = { s.sched with orders := orders } := by
  induction os generalizing s with
  | nil => exact ⟨_, rfl⟩
  | cons o os ih =>
    have first : ∃ orders, (closureTest o s).sched = { s.sched with orders := orders } := by
      simp only [closureTest]
      split
      · split
        · exact ⟨_, closeOrder_sched _ _⟩
        · exact ⟨_, rfl⟩
      · exact ⟨_, rfl⟩
    obtain ⟨orders, eq⟩ := first
    obtain ⟨orders', eq'⟩ := ih (closureTest o s)
    exact ⟨orders', eq'.trans (by rw [eq])⟩

/-- The cut length and the outs of every order in the table. -/
def cutTable (s : State) : List (Nat × Nat × Nat) := s.sched.orders.map fun q => (q.id, q.cut, q.outs)

theorem laneLength_congr {s t : State} (h : cutTable t = cutTable s) (o sheets : Nat) : laneLength t o sheets = laneLength s o sheets := by
  have view : ∀ u : State, laneLength u o sheets =
      (((cutTable u).find? fun p => p.1 == o).map fun p => ceilDiv sheets p.2.2 * p.2.1).getD 0 := fun u => by
    simp only [laneLength, cutTable, List.find?_map, Option.map_map]
    change (match u.sched.orders.find? fun r => r.id == o with | some r => _ | none => _) = _
    cases found : u.sched.orders.find? fun r => r.id == o <;> simp only [Function.comp_def, found] <;> rfl
  rw [view, view, h]

theorem closureTests_cutTable (os : List Nat) (s : State) : cutTable (closureTests os s) = cutTable s := by
  refine foldl_keeps cutTable (fun s o => closureTest o s) (fun s o => ?_) os s
  simp only [closureTest]
  split
  · split
    · simp only [cutTable, closeOrder_sched, List.map_map]
      refine List.map_congr_left fun q _ => ?_
      simp only [Function.comp_apply]
      split <;> rfl
    · rfl
  · rfl

theorem retireOnline_keeps (s : State) : (retireOnline s).sched.queued = s.sched.queued ∧
    (retireOnline s).sched.current = s.sched.current ∧ cutTable (retireOnline s) = cutTable s ∧ heldOf (retireOnline s) = heldOf s := by
  have step : ∀ (s : State) t, (retireRecord t s).sched.queued = s.sched.queued ∧ (retireRecord t s).sched.current = s.sched.current ∧
      cutTable (retireRecord t s) = cutTable s ∧ heldOf (retireRecord t s) = heldOf s := fun s t => by
    simp only [retireRecord]
    obtain ⟨orders, eq⟩ := closureTests_sched t.orderIds
      (notice 0xC3#8 (uns 1 t.id) (s.setSched { s.sched with online := s.sched.online.filter fun q => q.id != t.id }))
    rw [eq, closureTests_cutTable, (closureTests_keeps _ _).1]
    exact ⟨by simp, by simp, by simp [cutTable], heldOf_congr (by simp)⟩
  refine ⟨?_, ?_, ?_, ?_⟩
  · exact foldl_keeps (fun s : State => s.sched.queued) (fun s t => retireRecord t s) (fun s t => (step s t).1) _ s
  · exact foldl_keeps (fun s : State => s.sched.current) (fun s t => retireRecord t s) (fun s t => (step s t).2.1) _ s
  · exact foldl_keeps cutTable (fun s t => retireRecord t s) (fun s t => (step s t).2.2.1) _ s
  · exact foldl_keeps heldOf (fun s t => retireRecord t s) (fun s t => (step s t).2.2.2) _ s

/-- The CURRENT setup a purge restates: PENDING, with nothing produced and its planned length from the sheets that remain (R46). -/
def restated (s : State) (q : Setup) : Setup :=
  { q with planned := fit48 (max s.cfg.minSetup (q.waste + remainingLength s q)), produced := 0, markState := some .pending }

theorem remainingLength_congr {s t : State} (h : cutTable t = cutTable s) (q : Setup) : remainingLength t q = remainingLength s q := by
  simp only [remainingLength, laneLength_congr h]

theorem remainingLength_eq (s : State) (q : Setup) :
    let remaining := fun r : LaneRun => laneLength s r.order (r.target - r.credited)
    remainingLength s q = max (remaining q.runU) ((q.runL.map remaining).getD 0) := by
  cases lower : q.runL <;> simp [remainingLength, Setup.runs, lower]

theorem purgeSchedule_sched (s : State) : (purgeSchedule s).sched.queued = s.sched.queued ∧
    (purgeSchedule s).sched.current = s.sched.current.map (restated s) ∧ (purgeSchedule s).sched.episode = none ∧
    heldOf (purgeSchedule s) = heldOf s := by
  obtain ⟨queued, current, table, held⟩ := retireOnline_keeps s
  refine ⟨by simpa [purgeSchedule] using queued, ?_, by simp [purgeSchedule], (heldOf_congr (by simp [purgeSchedule])).trans held⟩
  simp only [purgeSchedule, State.setSched_fields, current, remainingLength_congr table, retireOnline_frame]
  rfl

/-! ## The lanes -/

theorem purgeLane_other {lane other : Lane} (h : other ≠ lane) (s : State) :
    (purgeLane lane s).lanes.get other = s.lanes.get other := by
  simp only [purgeLane, releaseOrder_frame]
  split <;> simp [PerLane.get_set_ne _ _ _ _ h]

theorem purgeLane_lane (lane : Lane) (s : State) :
    let old := s.lanes.get lane
    let new := (purgeLane lane s).lanes.get lane
    new.active = none ∧ new.since = 0 ∧ new.shadow = none ∧ new.enabled = old.enabled ∧ new.trim = old.trim := by
  simp only [purgeLane, releaseOrder_frame]
  split <;> simp

theorem purgeLane_keeps (lane : Lane) (s : State) : ∃ orders, (purgeLane lane s).sched = { s.sched with orders := orders } ∧
    heldOf (purgeLane lane s) = heldOf s := by
  simp only [purgeLane, releaseOrder]
  obtain ⟨orders, eq⟩ := closureTests_sched ((s.lanes.get lane).active.map LaneJob.order).toList
    (if (s.lanes.get lane).enabled then emit (.knifeLength lane s.cfg.idleLength) (setLane lane { s.lanes.get lane with
      active := none, shadow := none, since := 0, uncovered := false, length := s.cfg.idleLength,
      pendingClass := some .unassigned } s) else setLane lane { s.lanes.get lane with
      active := none, shadow := none, since := 0, uncovered := false, pendingClass := none } s)
  refine ⟨orders, eq.trans ?_, (closureTests_keeps _ _).1.trans (heldOf_congr ?_)⟩
  · split <;> simp
  · split <;> simp

/-! ## A whole purge -/

theorem purgeTracker_web (s : State) : (purgeTracker s).web = { s.web with marks := [], sensorDefect := none } := by
  simp only [purgeTracker, restartSilenceUnlessFallen, restartSilence]
  split <;> simp

theorem purgeTracker_enc (s : State) : (purgeTracker s).enc.axis = s.enc.axis ∧
    (purgeTracker s).enc.selected = s.enc.selected ∧ (purgeTracker s).enc.fallback = s.enc.fallback := by
  simp only [purgeTracker, restartSilenceUnlessFallen, restartSilence]
  split <;> simp

/-- The state in which a purge has planned its stands. -/
def purgedStands (s : State) : State := replanRestated (unlockStands (purgeSchedule (purgeTracker s)))

theorem purgeAll_eq (s : State) : purgeAll s =
    let u := setCondition .purged (purgeLane .l (purgeLane .u (purgeStations (purgedStands s))))
    u.setLine { u.line with rethread := true } := by
  simp only [purgeAll, purgedStands]

theorem purgeAll_line (s : State) : (purgeAll s).line = { s.line with condition := .purged, rethread := true } := by
  simp [purgeAll_eq, purgedStands]

theorem purgedStands_web (s : State) : (purgedStands s).web = { s.web with marks := [], sensorDefect := none } := by
  simp [purgedStands, purgeTracker_web]

theorem purgeAll_web (s : State) : (purgeAll s).web = { s.web with marks := [], sensorDefect := none } := by
  have stations := (purgeStations_idle (s := purgedStands s) (by rw [purgedStands_web])).1
  simp [purgeAll_eq, stations, purgedStands_web]

theorem purgeAll_stations (s : State) (x : Station) : Idle ((purgeAll s).stations.get x) := by
  have idle := (purgeStations_idle (s := purgedStands s) (by rw [purgedStands_web])).2 x
  simpa [purgeAll_eq] using idle

theorem purgeAll_enc (s : State) : (purgeAll s).enc.axis = s.enc.axis ∧
    (purgeAll s).enc.selected = s.enc.selected ∧ (purgeAll s).enc.fallback = s.enc.fallback := by
  have enc : (purgeAll s).enc = (purgeTracker s).enc := by simp [purgeAll_eq, purgedStands]
  rw [enc]
  exact purgeTracker_enc s

/-- After its hand-off a purge changes the orders of the schedule alone. -/
theorem purgeAll_schedule (s : State) : ∃ orders,
    (purgeAll s).sched = { (purgeSchedule (purgeTracker s)).sched with orders := orders } := by
  obtain ⟨orders, upper, _⟩ := purgeLane_keeps .u (purgeStations (purgedStands s))
  obtain ⟨orders', lower, _⟩ := purgeLane_keeps .l (purgeLane .u (purgeStations (purgedStands s)))
  refine ⟨orders', ?_⟩
  have eq : (purgeAll s).sched = (purgeLane .l (purgeLane .u (purgeStations (purgedStands s)))).sched := by simp [purgeAll_eq]
  rw [eq, lower, upper]
  simp [purgedStands]

theorem purgeAll_sched (s : State) : (purgeAll s).sched.queued = s.sched.queued ∧
    (purgeAll s).sched.current = s.sched.current.map (restated s) ∧ (purgeAll s).sched.episode = none ∧
    heldOf (purgeAll s) = heldOf s := by
  obtain ⟨queued, current, episode, held⟩ := purgeSchedule_sched (purgeTracker s)
  obtain ⟨_, _, heldU⟩ := purgeLane_keeps .u (purgeStations (purgedStands s))
  obtain ⟨_, _, heldL⟩ := purgeLane_keeps .l (purgeLane .u (purgeStations (purgedStands s)))
  obtain ⟨orders, sched⟩ := purgeAll_schedule s
  have table : cutTable (purgeTracker s) = cutTable s := by simp [cutTable]
  have restating : restated (purgeTracker s) = restated s := by
    funext q
    simp only [restated, remainingLength_congr table, purgeTracker_frame]
  rw [sched]
  refine ⟨by simpa using queued, ?_, episode, ?_⟩
  · rw [restating] at current
    simpa using current
  · refine (heldOf_congr (by simp [purgeAll_eq])).trans (heldL.trans (heldU.trans ?_))
    exact (heldOf_congr (by simp [purgedStands])).trans (held.trans (heldOf_congr (by simp)))

theorem purgeAll_lane (s : State) (lane : Lane) :
    let old := s.lanes.get lane
    let new := (purgeAll s).lanes.get lane
    new.active = none ∧ new.since = 0 ∧ new.shadow = none ∧ new.enabled = old.enabled ∧ new.trim = old.trim := by
  have lanes : (purgeAll s).lanes = (purgeLane .l (purgeLane .u (purgeStations (purgedStands s)))).lanes := by simp [purgeAll_eq]
  have before : (purgeStations (purgedStands s)).lanes = s.lanes := by simp [purgedStands]
  rw [lanes]
  cases lane with
  | u =>
    rw [purgeLane_other (by decide), ← before]
    exact purgeLane_lane .u _
  | l =>
    have own := purgeLane_lane .l (purgeLane .u (purgeStations (purgedStands s)))
    rw [purgeLane_other (lane := .u) (by decide), before] at own
    exact own

theorem purgeAll_stands (s : State) : (purgeAll s).stands = (purgedStands s).stands := by simp [purgeAll_eq]

/-- A stand after an answered request is as the request left it, or has fired (R126). -/
theorem answered_stand (r : Request) (tag : Byte) (code : Result) (data : List Byte) (t : State) (i : Fin 6) :
    ∃ u, FiredOrKept u i (t.stands.get i) ((answered r tag code data t).stands.get i) := by
  obtain ⟨⟨_, _, _, _, _, _, _, _, _, _, _, _, _, _, _, _, stands⟩, _⟩ := endOfEventKeepsBlocks
    ((breakSequence r t).setLink { (breakSequence r t).link with
      reply := some { kind := BitVec.ofNat 8 (r.code + 0x80), tag := tag, payload := uns 1 code.code ++ data } })
  have same : (breakSequence r t).stands = t.stands := by
    simp only [breakSequence]
    split <;> simp
  have fired := stands i
  rw [(State.setLink_fields _ _).2.2.2.2.2.1, same] at fired
  exact ⟨_, fired⟩

theorem atRest_iff (s : State) : atRest s = true ↔ s.rest.timer = .expired ∧ s.gov.reference = 0 := by
  simp [atRest]

/-- Settles O46. -/
theorem purgeEmptiesBoard : Obligations.PurgeEmptiesBoard := by
  intro tag s free rest
  have request := exec_purge tag s free
  have atRest' : atRest (begin s) = true ↔ rest := atRest_iff (begin s)
  refine ⟨fun refused => refuses_of_plain request (if_neg ?_), fun condition resting => ?_⟩
  · rintro ⟨condition, resting⟩
    rcases refused with run | purged | moving
    · rcases condition with h | h <;> cases run.symm.trans h
    · rcases condition with h | h <;> cases purged.symm.trans h
    · exact moving (atRest'.mp resting)
  have taken : purge (begin s) = _ := if_pos ⟨condition, atRest'.mpr resting⟩
  have code : uns 1 Condition.purged.code = [3] := by decide
  simp only [taken, answer, code, begin_fields] at request
  obtain ⟨axis, selected, fallback⟩ := purgeAll_enc (begin s)
  obtain ⟨queued, current, episode, held⟩ := purgeAll_sched (begin s)
  obtain ⟨_, tCfg, tEnc, tWeb, tSched, tStations, tLanes, tDelivery, tLine, tRest, tStop, tAccounts, tStore, _, tRemap⟩ :=
    answered_fields .purge tag .ok (uns 1 s.web.marks.length ++ uns 1 s.sched.online.length ++ [3]) (purgeAll (begin s))
  have tHeld := heldOf_congr tDelivery
  have fired := answered_stand .purge tag .ok (uns 1 s.web.marks.length ++ uns 1 s.sched.online.length ++ [3]) (purgeAll (begin s))
  rw [← tEnc] at axis selected fallback
  rw [← tSched] at queued episode current
  rw [held] at tHeld
  generalize answered .purge tag .ok (uns 1 s.web.marks.length ++ uns 1 s.sched.online.length ++ [3])
    (purgeAll (begin s)) = t at *
  have shown : ∀ i, (purgeAll (begin s)).stands.get i = (purgedStands (begin s)).stands.get i := fun i => by rw [purgeAll_stands]
  have stands := fun i => purgedStand i (purgeSchedule (purgeTracker (begin s)))
  obtain ⟨_, schedule⟩ := purgeAll_schedule (begin s)
  rw [schedule] at tSched
  simp only [(purgeSchedule_sched (purgeTracker (begin s))).2.1, purgeSchedule_frame, purgeTracker_frame, begin_fields,
    Option.map_eq_none_iff, Option.isSome_map] at stands
  refine ⟨t, request, rfl, by rw [tLine, purgeAll_line]; rfl, by rw [tWeb, purgeAll_web]; rfl, axis, selected, fallback,
    queued, episode, ?_, ?_, tRemap, fun i => ?_, fun i => ?_, fun x => ?_, fun lane => ?_, ?_, ?_, ?_, ?_, ?_⟩
  · rw [current, Option.map_map]
    rfl
  · intro remaining
    rw [current, Option.map_map]
    have lane : ∀ r : LaneRun, laneLength (begin s) r.order (r.target - r.credited) = remaining r := fun r => rfl
    refine Option.map_congr fun q _ => ?_
    simp only [Function.comp_apply, restated, remainingLength_eq, lane]
    rfl
  · obtain ⟨u, ended⟩ := fired i
    obtain ⟨kept, _⟩ := stands i
    have all : (t.stands.get i).kept = (s.stands.get i).dropped.kept :=
      ended.kept.trans ((congrArg Stand.kept (shown i)).trans kept)
    simp only [Stand.kept, Stand.dropped, Prod.mk.injEq] at all
    obtain ⟨running, standby, joint, late, _⟩ := all
    exact ⟨joint, late, running, standby⟩
  · obtain ⟨u, ended⟩ := fired i
    obtain ⟨kept, idle, plans⟩ := stands i
    rw [shown i] at ended
    have running : (t.stands.get i).running = (s.stands.get i).running := congrArg Prod.fst (ended.kept.trans kept)
    have plan : computePlan t i = computePlan (purgeSchedule (purgeTracker (begin s))) i :=
      computePlan_congr (by rw [tCfg]; simp) (by rw [tSched]) (by rw [tSched]) (by simpa using running)
    intro old new plan'
    refine ⟨fun other waits => ?_, fun h => ?_⟩
    · have eq := idle other waits
      exact (ended.same (by rw [purgedStands, eq]; exact other)).trans eq
    · have planned := (plans h).fired ended
      rw [← plan] at planned
      exact planned
  · rw [tStations]
    exact purgeAll_stations (begin s) x
  · obtain ⟨active, since, shadow, enabled, trim⟩ := purgeAll_lane (begin s) lane
    rw [← tLanes] at active since shadow enabled trim
    exact ⟨active, since, shadow, enabled, trim, congrArg Prod.fst (congrFun tHeld lane)⟩
  · rw [tAccounts]
    simp
  · rw [tCfg]
    simp
  · rw [tStore]
    simp
  · rw [tRest]
    simp
  · rw [tStop]
    simp

end Sys2Proof.Machine
end

