-- ==== Sys2Proof/Proofs/Clear.lean ====
section
/-! PROOFS. PRODUCTION_CLEAR (R23, R47, R71, R90, R108, R125, R148, R163, R189): what its hand-offs may change of the counter bank, and
the values every block starts afresh with. -/

namespace Sys2Proof.Machine
open Sys2Proof

/-! ## What a change handed to the bank may change -/

/-- The counters keep their configuration, and a value changes only in an enabled EDGE counter of a bank that is not frozen (R166). -/
def Counted (s t : State) : Prop :=
  CountersHold s → CountersHold t ∧ (s.bank.frozen = true → t.bank.frozen = true) ∧
    ∀ i, let old := s.bank.counters.get i
      let new := t.bank.counters.get i
      new = { old with value := new.value, overflow := new.overflow, lastSeen := new.lastSeen } ∧
        (old.enabled = false ∨ old.edge = false ∨ s.bank.frozen = true → new.value = old.value ∧ new.overflow = old.overflow)

theorem Counted.of_bank {s t : State} (h : t.bank = s.bank) : Counted s t := by
  intro hold
  rw [CountersHold, h]
  exact ⟨hold, id, fun i => ⟨rfl, fun _ => ⟨rfl, rfl⟩⟩⟩

theorem Counted.trans {s t u : State} (h : Counted s t) (h' : Counted t u) : Counted s u := by
  intro hold
  obtain ⟨hold', frozen, counters⟩ := h hold
  obtain ⟨hold'', frozen', counters'⟩ := h' hold'
  refine ⟨hold'', fun was => frozen' (frozen was), fun i => ?_⟩
  obtain ⟨config, same⟩ := counters i
  obtain ⟨config', same'⟩ := counters' i
  have kept : (t.bank.counters.get i).enabled = (s.bank.counters.get i).enabled ∧
      (t.bank.counters.get i).edge = (s.bank.counters.get i).edge := by
    rw [config]
    exact ⟨rfl, rfl⟩
  refine ⟨?_, fun idle => ?_⟩
  · rw [config', config]
  · obtain ⟨value, overflow⟩ := same idle
    obtain ⟨value', overflow'⟩ := same' (by
      rw [kept.1, kept.2]
      exact idle.imp id (Or.imp id frozen))
    exact ⟨value'.trans value, overflow'.trans overflow⟩

theorem handOff_counted (inc : Fin 8 → Counter → Nat) (edge : ∀ i c, c.enabled = false ∨ c.edge = false → inc i c = 0) (s : State) :
    Counted s (handOff inc s) := by
  cases frozen : s.bank.frozen with
  | true => exact .of_bank (by rw [handOff_frozen inc s frozen])
  | false =>
    intro hold
    obtain ⟨counters, _⟩ := handOff_bank inc s frozen
    refine ⟨fun i => ?_, fun was => absurd (frozen.symm.trans was) (by decide), fun i => ?_⟩
    · rw [counters i]
      exact Nat.mod_lt _ (by decide)
    · rw [counters i]
      refine ⟨rfl, fun idle => ?_⟩
      have none : inc i (s.bank.counters.get i) = 0 := edge i _ (by
        rw [frozen] at idle
        simpa using idle)
      have below : (s.bank.counters.get i).value < Config.counterModulus := hold i
      rw [none]
      simp only [Counter.raise, Nat.add_zero, Nat.mod_eq_of_lt below, decide_eq_false (Nat.not_le.mpr below), Bool.or_false,
        and_self]

theorem conditionsChanged_counted (s : State) : Counted s (conditionsChanged s) := by
  have entries := handOff_counted (fun i c => if c.enabled && c.edge && !c.lastSeen && tested s i c then 1 else 0)
    (fun i c idle => by rcases idle with off | level <;> simp [*]) s
  refine entries.trans fun hold => ⟨fun i => ?_, fun frozen => ?_, fun i => ?_⟩
  · simpa [conditionsChanged] using hold i
  · simpa [conditionsChanged] using frozen
  · simp [conditionsChanged]

/-- The operation counts nothing but the entries of EDGE counters. -/
def KeepsCounts (f : State → State) : Prop := ∀ s, Counted s (f s)

/-- A further operation counts on. -/
theorem Counted.next {f : State → State} (h : KeepsCounts f) {s t : State} (before : Counted s t) : Counted s (f t) :=
  before.trans (h t)

/-- A further operation that leaves the bank alone counts nothing. -/
theorem Counted.leave {s t u : State} (before : Counted s t) (h : u.bank = t.bank) : Counted s u := before.trans (.of_bank h)

theorem KeepsCounts.foldl {α : Type} {f : State → α → State} (h : ∀ a, KeepsCounts fun s => f s a) (xs : List α) :
    KeepsCounts fun s => xs.foldl f s := by
  induction xs with
  | nil => exact fun s => .of_bank rfl
  | cons x xs ih => exact fun s => (h x s).trans (ih (f s x))

theorem setStand_counted (i : Fin 6) (st : Stand) : KeepsCounts (setStand i st) := by
  intro s
  simp only [setStand]
  split
  · exact .of_bank (by simp)
  · exact Counted.trans (.of_bank (by simp)) (conditionsChanged_counted _)

theorem setDelivery_counted (lane : Lane) (d : DeliveryRec) : KeepsCounts (setDelivery lane d) := by
  intro s
  simp only [setDelivery]
  split
  · exact .of_bank (by simp)
  · exact Counted.trans (.of_bank (by simp)) (conditionsChanged_counted _)

theorem firingTest_counted (i : Fin 6) : KeepsCounts (firingTest i) := by
  intro s
  rcases firingTest_cases i s with e | ⟨_, _, _, e⟩ <;> rw [e]
  · exact .of_bank rfl
  · exact Counted.trans (.of_bank (by simp)) (setStand_counted _ _ _)

theorem armingTest_counted (i : Fin 6) : KeepsCounts (armingTest i) := by
  intro s
  simp only [armingTest]
  split
  · split
    · exact .next (firingTest_counted i) (setStand_counted i _ s)
    · exact .of_bank rfl
  · exact .of_bank rfl

theorem planStand_counted (i : Fin 6) : KeepsCounts (planStand i) := by
  intro s
  simp only [planStand]
  split
  · refine .next (armingTest_counted i) (setStand_counted i _ s)
  · exact .of_bank rfl

theorem replanAll_counted : KeepsCounts replanAll := KeepsCounts.foldl planStand_counted slots

theorem unlockStand_counted (i : Fin 6) : KeepsCounts (unlockStand i) := by
  intro s
  by_cases armed : (s.stands.get i).state = .armed
  · rw [unlockStand_of_armed armed]
    exact (setStand_counted _ _ s).trans (planStand_counted _ _)
  · rw [unlockStand_of_other armed]
    exact setStand_counted _ _ s

theorem unlockStands_counted : KeepsCounts unlockStands := KeepsCounts.foldl unlockStand_counted slots

theorem takeLimits_counted : KeepsCounts takeLimits := by
  intro s
  simp only [takeLimits]
  split
  · exact .of_bank (by simp)
  · exact .next conditionsChanged_counted (.of_bank (by simp))

theorem takeReference_counted : KeepsCounts takeReference := by
  intro s
  simp only [takeReference]
  split
  · exact .of_bank (by simp)
  · exact .next (KeepsCounts.foldl firingTest_counted slots) (.next conditionsChanged_counted (.of_bank (by simp)))

theorem evaluate_counted : KeepsCounts evaluate := fun s =>
  (Counted.next takeReference_counted (takeLimits_counted s)).leave (by simp [evaluate])

theorem settle_counted : KeepsCounts settle := by
  intro s
  simp only [settle]
  split
  · exact (evaluate_counted s).leave (by simp)
  · exact .of_bank (by simp)

theorem clearDelivery_counted (lane : Lane) : KeepsCounts (clearDelivery lane) := fun s =>
  (setDelivery_counted lane DeliveryRec.initial s).leave (by simp [clearDelivery])

/-- The state in which a production clear has planned its stands. -/
def clearedStands (s : State) : State := replanAll (unlockStands (clearSchedule (clearTracker s)))

/-- The state in which a production clear has cleared the stations and the lanes. -/
def clearedLanes (s : State) : State := clearLanes (clearStation .b (clearStation .a (clearedStands s)))

theorem clearAll_eq (s : State) : clearAll s = needEvaluation
    (((clearDelivery .l (clearDelivery .u (clearedLanes s))).setAccounts Accounts.zero).setRemap .none) := by
  simp only [clearAll, clearedLanes, clearedStands]

theorem clearAll_counted : KeepsCounts clearAll := by
  intro s
  have tables : Counted s (clearSchedule (clearTracker s)) := .of_bank (by simp [clearSchedule])
  have stands : Counted s (clearedStands s) := .next replanAll_counted (.next unlockStands_counted tables)
  have lanes : Counted s (clearedLanes s) := stands.leave (by simp [clearedLanes])
  have deliveries := Counted.next (clearDelivery_counted .l) (Counted.next (clearDelivery_counted .u) lanes)
  exact deliveries.leave (by simp [clearAll_eq])

theorem breakSequence_keeps (r : Request) (t : State) : (breakSequence r t).bank = t.bank ∧ (breakSequence r t).gov = t.gov ∧
    (breakSequence r t).cfg = t.cfg ∧ (breakSequence r t).sched = t.sched ∧ (breakSequence r t).line = t.line ∧
    (breakSequence r t).evalDue = t.evalDue := by
  simp only [breakSequence]
  split <;> simp

theorem answered_counted (r : Request) (tag : Byte) (code : Result) (data : List Byte) : KeepsCounts (answered r tag code data) :=
  fun t => Counted.next settle_counted (.of_bank (breakSequence_keeps r t).1)

/-! ## The evaluation that ends the clear -/

/-- The close of a request that asks for an evaluation makes it in a state with the request's inputs (R126, R136). -/
theorem answered_evaluates (r : Request) (tag : Byte) (code : Result) (data : List Byte) {t : State} (due : t.evalDue = true) :
    ∃ u, u.gov = t.gov ∧ u.cfg = t.cfg ∧ u.sched = t.sched ∧ u.line = t.line ∧
      (answered r tag code data t).gov = (evaluate u).gov ∧ (answered r tag code data t).issued = (evaluate u).issued := by
  obtain ⟨_, gov, cfg, sched, line, asks⟩ := breakSequence_keeps r t
  have settled : ∃ k, answered r tag code data t = settle ((breakSequence r t).setLink k) := ⟨_, rfl⟩
  obtain ⟨k, settled⟩ := settled
  have still : ((breakSequence r t).setLink k).evalDue = true := asks.trans due
  rw [settled]
  exact ⟨(breakSequence r t).setLink k, gov, cfg, sched, line, (settle_gov _).trans (if_pos still), settle_issued_of_due still⟩

theorem evaluate_grade (s : State) : (evaluate s).gov.grade = governingGrade s := by
  obtain ⟨r, eq, _, grade, _⟩ := evaluate_before_glue s
  rw [eq, ← grade]
  exact (takeGlue_gov r).1

/-- A change of grade issues both values of every glue unit (R146). -/
theorem evaluate_glue_of_change {s : State} (change : s.gov.grade ≠ governingGrade s) (u : GlueUnit) :
    Output.glueGap u ((evaluate s).gov.issuedGlue.get u).gap ∈ (evaluate s).issued ∧
      Output.preheatWrap u ((evaluate s).gov.issuedGlue.get u).wrap ∈ (evaluate s).issued := by
  obtain ⟨r, eq, _, grade, old, _⟩ := evaluate_before_glue s
  have changed : (r.gov.grade != governingGrade r) = true := by
    rw [old, grade]
    simpa using change
  obtain ⟨moved, gap, wrap⟩ := takeGlue_unit u r rfl
  simp only [changed, Bool.true_or, if_true, forall_const] at moved gap wrap
  have gov : (evaluate s).gov = (takeGlue r).gov := by rw [eq]; simp
  have issued : (evaluate s).issued = (takeGlue r).issued := by rw [eq]; simp
  rw [gov, issued, moved]
  exact ⟨gap, wrap⟩

/-- A reference of 0 stays 0 while the line does not run (R128, R135, R138). -/
theorem evaluate_stays_at_rest {s : State} (stopped : s.line.condition ≠ .run) (zero : s.gov.reference = 0) :
    (evaluate s).gov.reference = 0 := by
  obtain ⟨_, outside, _⟩ := limitersFollowTheirInputs.2 s
  obtain ⟨_, ceiling, _⟩ := outside stopped
  have ceiling' : (takeLimits s).gov.ceiling = 0 := by
    rw [(takeLimits_inputs s).2.2.2.2, ← (evaluate_limits s).2.1]
    exact ceiling
  have reference : (takeLimits s).gov.reference = 0 := by rw [(takeLimits_inputs s).1, zero]
  obtain ⟨held, _, still, _⟩ := ceilingAndReference.2 (takeLimits s)
  rw [(evaluate_reference s).1]
  cases hold : (takeLimits s).gov.hold with
  | true => rw [held hold]
  | false => rw [still hold (by rw [reference]; exact Nat.zero_le _) (by rw [reference, ceiling']), reference]

/-! ## What a clear leaves of each block -/

theorem clearTracker_web (s : State) : (clearTracker s).web =
    { marks := [], nextEntry := 0, sensorDefect := none, sensorStuck := s.web.sensorStuck } := by
  simp [clearTracker, purgeTracker_web]

theorem clearTracker_enc (s : State) : (clearTracker s).enc.axis = 0 ∧
    (clearTracker s).enc.selected = s.enc.selected ∧ (clearTracker s).enc.fallback = s.enc.fallback := by
  obtain ⟨axis, selected, fallback⟩ := purgeTracker_enc ((s.setEnc { s.enc with axis := 0 }).setWeb { s.web with nextEntry := 0 })
  exact ⟨axis, selected, fallback⟩

theorem clearAll_tables (s : State) : (clearAll s).web = (clearTracker s).web ∧ (clearAll s).enc = (clearTracker s).enc ∧
    (clearAll s).sched = { orders := [], queued := [], current := none, online := [], episode := none, openExtension := none } ∧
    (clearAll s).stands = (clearedStands s).stands ∧ (clearAll s).gov = s.gov ∧ (clearAll s).line = s.line ∧
    (clearAll s).accounts = Accounts.zero ∧ (clearAll s).remap = .none ∧ (clearAll s).evalDue = true := by
  simp [clearAll_eq, clearedLanes, clearedStands, clearSchedule, needEvaluation]

/-- A station's record after a production clear (R90). -/
def clearedStation (r : StationRec) : StationRec :=
  { r with state := .free, pattern := none, timer := none, late := none, faultPending := false, lastArrival := none }

theorem clearStation_stations (x : Station) (s : State) :
    (clearStation x s).stations = s.stations.set x (clearedStation (s.stations.get x)) := by
  simp only [clearStation, setStation_stations]
  split <;> simp [clearedStation]

theorem clearAll_station (x : Station) (s : State) : (clearAll s).stations.get x = clearedStation (s.stations.get x) := by
  have stations : (clearAll s).stations = (clearStation .b (clearStation .a (clearedStands s))).stations := by
    simp [clearAll_eq, clearedLanes]
  have before : (clearedStands s).stations = s.stations := by simp [clearedStands]
  rw [stations, clearStation_stations, clearStation_stations, before]
  cases x <;> rfl

theorem clearAll_lanes (s : State) : (clearAll s).lanes =
    ⟨{ LaneRec.initial true s.cfg.idleLength with trim := s.lanes.u.trim },
      { LaneRec.initial false s.cfg.idleLength with trim := s.lanes.l.trim }⟩ := by
  simp [clearAll_eq, clearedLanes, clearedStands, clearLanes, PerLane.set]

theorem clearAll_delivery (s : State) : (clearAll s).delivery = ⟨DeliveryRec.initial, DeliveryRec.initial⟩ := by
  simp [clearAll_eq, clearDelivery, PerLane.set]

/-- Settles O47. -/
theorem productionClearStartsAfresh : Obligations.ProductionClearStartsAfresh := by
  intro tag s free rest
  have request := exec_productionClear tag s free
  have resting_iff : atRest (begin s) = true ↔ rest := atRest_iff (begin s)
  refine ⟨fun refused => refuses_of_plain request (if_neg ?_), fun condition resting => ?_⟩
  · rintro ⟨condition, resting⟩
    rcases refused with run | broken | moving
    · rcases condition with h | h <;> cases run.symm.trans h
    · rcases condition with h | h <;> cases broken.symm.trans h
    · exact moving (resting_iff.mp resting)
  have taken : productionClear (begin s) = _ := if_pos ⟨condition, resting_iff.mpr resting⟩
  simp only [taken, answer, Answer.plain] at request
  obtain ⟨web, enc, sched, stands, gov, line, accounts, remap, due⟩ := clearAll_tables (begin s)
  obtain ⟨axis, selected, fallback⟩ := clearTracker_enc (begin s)
  obtain ⟨_, tCfg, tEnc, tWeb, tSched, tStations, tLanes, tDelivery, tLine, tRest, tStop, tAccounts, tStore, _, tRemap⟩ :=
    answered_fields .productionClear tag .ok [] (clearAll (begin s))
  obtain ⟨u, uGov, uCfg, uSched, uLine, tGov, tIssued⟩ := answered_evaluates .productionClear tag .ok [] due
  have counted : Counted s (answered .productionClear tag .ok [] (clearAll (begin s))) :=
    .next (answered_counted _ _ _ _) (.next clearAll_counted (.of_bank rfl))
  have fired := answered_stand .productionClear tag .ok [] (clearAll (begin s))
  generalize answered .productionClear tag .ok [] (clearAll (begin s)) = t at *
  have shown : ∀ i, (clearAll (begin s)).stands.get i = (clearedStands (begin s)).stands.get i := fun i => by rw [stands]
  have plans := fun i => replannedStand i (clearSchedule (clearTracker (begin s)))
  have before : (clearSchedule (clearTracker (begin s))).stands = s.stands := by simp [clearSchedule]
  have settings : (clearSchedule (clearTracker (begin s))).cfg = s.cfg := by simp [clearSchedule]
  simp only [before, settings] at plans
  have empty : t.sched.current = none := by rw [tSched, sched]
  have grade : governingGrade u = 0 := by simp [governingGrade, uSched, sched]
  have notRun : s.line.condition ≠ .run := by
    rcases condition with h | h <;> simp [h]
  refine ⟨t, request, rfl, by rw [tEnc, enc]; exact axis, by rw [tEnc, enc]; exact selected, by rw [tEnc, enc]; exact fallback,
    by rw [tWeb, web, clearTracker_web]; rfl, by rw [tSched, sched], fun i => ?_, fun i => ?_, fun x => ?_,
    by rw [tLanes, clearAll_lanes]; rfl, by rw [tDelivery, clearAll_delivery], by rw [tAccounts, accounts], tRemap,
    ⟨?_, ?_, ?_, ?_, ?_, ?_, ?_, fun was unit => ?_⟩, fun hold => (counted hold).2.2, by rw [tLine, line]; rfl, ?_, ?_, ?_, ?_⟩
  · obtain ⟨v, ended⟩ := fired i
    obtain ⟨kept, _⟩ := plans i
    have all : (t.stands.get i).kept = (s.stands.get i).dropped.kept :=
      ended.kept.trans ((congrArg Stand.kept (shown i)).trans kept)
    simp only [Stand.kept, Stand.dropped, Prod.mk.injEq] at all
    obtain ⟨running, standby, joint, late, refused, reloaded⟩ := all
    exact ⟨joint, late, running, standby, refused, reloaded⟩
  · obtain ⟨v, ended⟩ := fired i
    obtain ⟨_, idle, planned⟩ := plans i
    rw [shown i] at ended
    have reserve : computePlan (clearSchedule (clearTracker (begin s))) i =
        { kind := .reserve, fire := ((s.stands.get i).running.map RunningReel.usable).getD 0 } := by
      rw [computePlan_of_no_pair (.inl rfl), before]
      rfl
    rw [reserve] at planned
    intro old new usable
    refine ⟨fun notArmed notReady => ?_, fun h => (planned h).fired ended⟩
    have eq := idle notArmed notReady
    exact (ended.same (by rw [clearedStands, eq]; exact notArmed)).trans eq
  · rw [tStations, clearAll_station]
    exact ⟨rfl, rfl, rfl, rfl, rfl, rfl, rfl, rfl⟩
  · rw [tGov, evaluate_grade, grade]
  · rw [tGov, (evaluate_reference u).2.2.1, uGov, gov]
    rfl
  · rw [tGov, (evaluate_reference u).2.2.2.2.1, uGov, gov]
    rfl
  · rw [tGov, (evaluate_reference u).2.2.2.2.2.1, uGov, gov]
    rfl
  · rw [tGov, (evaluate_reference u).2.2.2.2.2.2, uGov, gov]
    rfl
  · rw [tGov, (evaluate_reference u).2.2.2.1, uGov, gov]
    rfl
  · rw [tGov]
    exact evaluate_stays_at_rest (by rw [uLine, line]; exact notRun) (by rw [uGov, gov]; exact resting.2)
  · rw [tGov, tIssued]
    exact evaluate_glue_of_change (by rw [grade, uGov, gov]; exact was) unit
  · rw [tCfg]
    simp
  · rw [tStore]
    simp
  · rw [tRest]
    simp
  · rw [tStop]
    simp

end Sys2Proof.Machine
end

