-- ==== Sys2Proof/Proofs/PowerOn.lean ====
section
/-! PROOFS. POWER_ON (R1, R5, R23, R72, R90, R108, R125, R149, R150, R156, R163, R174, R184, R188). -/

namespace Sys2Proof.Machine
open Sys2Proof

/-- Power-on makes the reset state of a part with a blank image and retained memory never written. -/
theorem powerOn_reset : exec (.powerOn false false false) State.reset = .next State.reset := rfl

/-- START_UP as power-on queues it (R188, R191). -/
def startUp (configured : Bool) (rate : Nat) : Frame :=
  { kind := 0xC0#8, tag := 0, payload := [0] ++ (flag configured ++ uns 1 (if configured then 0 else 1) ++ uns 3 rate) }

/-- The transmitter is free at power-on and takes START_UP (R182, log 5). -/
theorem exec_powerOn (h l e : Bool) (s : State) : exec (.powerOn h l e) s =
    .next (sendNotice (startUp (loadedImage s).isSome (strapRate h l)) [] (powerOn h l e (begin s))) := rfl

theorem strapRate_eq (h l : Bool) :
    strapRate h l = if h then (if l then 115200 else 921600) else if l then 460800 else 115200 := by
  cases h <;> cases l <;> rfl

theorem startUp_payload (configured h l : Bool) : (startUp configured (strapRate h l)).payload =
    [0, if configured then 1 else 0, if configured then 0 else 1] ++ le 3 (strapRate h l) := by
  have rate : uns 3 (strapRate h l) = le 3 (strapRate h l) := uns_of_lt (by cases h <;> cases l <;> decide)
  rw [startUp, rate]
  cases configured <;> rfl

theorem powerOn_heads (p : PerGroup HeadSet) (hard : PerGroup Nat) (g : HeadGroup) :
    (headsAtPowerOn p hard).get g = if hard.get g = 0 then { p.get g with mapping := .none }
      else { p.get g with retired := (p.get g).retired ||| headBit (hard.get g), mapping := .hard (hard.get g) } := by
  cases g <;> rfl

/-- Settles O4. -/
theorem powerOnValues : Obligations.PowerOnValues := by
  refine ⟨powerOn_reset, fun h l e s => ⟨_, exec_powerOn h l e s, ?_⟩⟩
  intro image rate
  have straps : rate = strapRate h l := (strapRate_eq h l).symm
  rw [straps]
  refine ⟨rfl, rfl, rfl, rfl, rfl, fun i => ?_, rfl, rfl, rfl, ⟨rfl, rfl, rfl, rfl, rfl, rfl, rfl, rfl, rfl, rfl⟩, rfl, rfl, rfl, rfl,
    rfl, rfl, rfl, ?_, fun x => ?_, ?_, ?_, ?_⟩
  · exact Six.get_replicate _ i
  · rw [← startUp_payload]
    rfl
  · cases x <;> exact ⟨rfl, rfl, rfl, rfl, rfl, rfl, rfl, fun g => powerOn_heads _ _ g⟩
  · exact .head _
  · exact .tail _ (.head _)
  · exact .tail _ (.tail _ (.tail _ (.tail _ (.tail _ (.head _)))))

end Sys2Proof.Machine
end

