-- ==== Sys2Proof/Proofs/StationArrivals.lean ====
section
/-! PROOFS. The slitter stations: load attempts (R74, R75), the arrival of a RUN_CHANGE mark (R78), late engagement (R79), and an
engagement in a report of travel. -/

namespace Sys2Proof.Machine
open Sys2Proof

/-! ## Load attempts -/

section
variable {x y : Station} {s : State}

theorem loadAttempt_of_busy (busy : (s.stations.get x).state ≠ .free) : loadAttempt x s = s := by
  simp only [loadAttempt]

theorem loadAttempt_of_none (absent : candidate s x = none) : loadAttempt x s = s := by
  simp only [loadAttempt]
  split
  · simp only [absent]
  · rfl

theorem loadAttempt_of_candidate {t : Setup} (free : (s.stations.get x).state = .free) (found : candidate s x = some t) :
    loadAttempt x s =
      let s1 := positionOutput x t { s.stations.get x with pattern := some t.id } s
      if (s.stations.get x).late.isNone && markBeyond s t.id x then beginLate x t.id s1 else s1 := by
  simp only [loadAttempt, free, found]

theorem beginLate_of_mark {id : Nat} {m : Mark} (mark : runMark s id = some m) : beginLate x id s =
    setStation x { s.stations.get x with
      late := some { setup := id, slack := ((stationPosition s x : Int) - m.upEnd).toNat } }
      (growRunMark id (m.upEnd - (stationPosition s x : Int)).toNat s) := by
  simp only [beginLate, mark]

/-- A late engagement changes nothing of the station but its late record (R79). -/
theorem beginLate_stations (x : Station) (id : Nat) (s : State) :
    ∃ late, (beginLate x id s).stations = s.stations.set x { s.stations.get x with late := late } := by
  cases mark : runMark s id with
  | none =>
    refine ⟨(s.stations.get x).late, ?_⟩
    simp only [beginLate, mark]
    cases x <;> rfl
  | some m =>
    rw [beginLate_of_mark mark]
    exact ⟨_, setStation_stations _ _ _⟩

theorem positionOutput_stations (x : Station) (t : Setup) (r : StationRec) (s : State) :
    (positionOutput x t r s).stations = s.stations.set x { r with
      state := .positioning, timer := some (s.now + (s.cfg.stations.get x).timeout), lastOutput := some s.now
      estimate := (s.cfg.stations.get x).estimate } := by
  simp [positionOutput]

/-- A station that a load attempt has positioned for a setup of the queue (R75). -/
def Positioned (s : State) (r : StationRec) : Prop :=
  r.state = .positioning ∧ ∃ c ∈ setupOrder s, r.pattern = some c.id ∧ r.lastOutput = some s.now

theorem candidate_mem {t : Setup} (found : candidate s x = some t) : t ∈ setupOrder s := by
  have follows : ∀ id (ts : List Setup), follower id ts = some t → t ∈ ts := fun id ts h => by
    simp only [follower] at h
    split at h
    · rename_i q u _ cut
      cases h
      have mem : t ∈ ts.dropWhile fun u => u.id != id := by rw [cut]; simp
      exact (List.dropWhile_suffix _).mem mem
    · cases h
  simp only [candidate] at found
  split at found
  · exact List.mem_of_find?_eq_some found
  · split at found
    · exact follows _ _ found
    · have mem := List.mem_of_find?_eq_some found
      rw [setupOrder, List.append_assoc]
      exact List.mem_append_right _ mem

theorem loadAttempt_self (x : Station) (s : State) :
    (loadAttempt x s).stations.get x = s.stations.get x ∨ Positioned s ((loadAttempt x s).stations.get x) := by
  by_cases busy : (s.stations.get x).state = .free
  · cases found : candidate s x with
    | none => exact .inl (by rw [loadAttempt_of_none found])
    | some t =>
      refine .inr ?_
      rw [loadAttempt_of_candidate busy found]
      have positioned : ∀ late, Positioned s
          { s.stations.get x with
            pattern := some t.id, state := .positioning, timer := some (s.now + (s.cfg.stations.get x).timeout)
            lastOutput := some s.now, estimate := (s.cfg.stations.get x).estimate, late := late } :=
        fun late => ⟨rfl, t, candidate_mem found, rfl, rfl⟩
      dsimp only
      split
      · obtain ⟨late, eq⟩ := beginLate_stations x t.id (positionOutput x t { s.stations.get x with pattern := some t.id } s)
        rw [eq, PerStation.get_set_self, positionOutput_stations, PerStation.get_set_self]
        exact positioned late
      · rw [positionOutput_stations, PerStation.get_set_self]
        exact positioned (s.stations.get x).late
  · exact .inl (by rw [loadAttempt_of_busy busy])

theorem loadAttempt_other (h : y ≠ x) (s : State) : (loadAttempt x s).stations.get y = s.stations.get y := by
  by_cases busy : (s.stations.get x).state = .free
  · cases found : candidate s x with
    | none => rw [loadAttempt_of_none found]
    | some t =>
      rw [loadAttempt_of_candidate busy found]
      dsimp only
      split
      · obtain ⟨late, eq⟩ := beginLate_stations x t.id (positionOutput x t { s.stations.get x with pattern := some t.id } s)
        rw [eq, PerStation.get_set_ne _ _ _ _ h, positionOutput_stations, PerStation.get_set_ne _ _ _ _ h]
      · rw [positionOutput_stations, PerStation.get_set_ne _ _ _ _ h]
  · rw [loadAttempt_of_busy busy]

/-- An attempt of any station leaves a station alone that is not FREE. -/
theorem loadAttempt_busy (x y : Station) (busy : (s.stations.get x).state ≠ .free) :
    (loadAttempt y s).stations.get x = s.stations.get x := by
  by_cases same : x = y
  · subst same
    rw [loadAttempt_of_busy busy]
  · exact loadAttempt_other same s

theorem loadAttempts_busy (x y : Station) (busy : (s.stations.get x).state ≠ .free) :
    (loadAttempts y s).stations.get x = s.stations.get x := by
  have first := loadAttempt_busy x y busy
  have second := loadAttempt_busy x y.other (s := loadAttempt y s) (by rw [first]; exact busy)
  have third := loadAttempt_busy x y (s := loadAttempt y.other (loadAttempt y s)) (by rw [second, first]; exact busy)
  exact third.trans (second.trans first)

/-- After the attempts that follow a change, the station stands as it did or has been positioned (R75). -/
theorem loadAttempts_self (x : Station) (s : State) :
    (loadAttempts x s).stations.get x = s.stations.get x ∨ Positioned s ((loadAttempts x s).stations.get x) := by
  have step : ∀ y (u : State), (u.now = s.now ∧ u.sched = s.sched) →
      (u.stations.get x = s.stations.get x ∨ Positioned s (u.stations.get x)) →
      ((loadAttempt y u).stations.get x = s.stations.get x ∨ Positioned s ((loadAttempt y u).stations.get x)) := by
    intro y u ⟨now, sched⟩ was
    by_cases same : x = y
    · subst same
      rcases loadAttempt_self x u with kept | ⟨state, c, mem, pattern, last⟩
      · rw [kept]
        exact was
      · refine .inr ⟨state, c, ?_, pattern, by rw [last, now]⟩
        simpa only [setupOrder, sched] using mem
    · rw [loadAttempt_other same]
      exact was
  have frame : ∀ y (u : State), (loadAttempt y u).now = u.now ∧ (loadAttempt y u).sched = u.sched := fun y u => by simp
  exact step x _ (by simp) (step x.other _ (by simp) (step x s ⟨rfl, rfl⟩ (.inl rfl)))

theorem PerStation.set_get (p : PerStation StationRec) (x : Station) : p.set x (p.get x) = p := by
  cases x <;> rfl

end

/-! ## The arrival of a mark -/

section
variable {x : Station} {id : Nat} {s : State}

theorem recordArrival_stations (x : Station) (id : Nat) (o : ArrivalOutcome) (s : State) :
    (recordArrival x id o s).stations = s.stations.set x { s.stations.get x with lastArrival := some (id, o) } :=
  setStation_stations _ _ _

theorem recordArrival_get (x : Station) (id : Nat) (o : ArrivalOutcome) (s : State) :
    (recordArrival x id o s).stations.get x = { s.stations.get x with lastArrival := some (id, o) } := by
  rw [recordArrival_stations, PerStation.get_set_self]

theorem stationArrival_engages (own : (s.stations.get x).pattern = some id) (ready : (s.stations.get x).state = .ready) :
    stationArrival x id s = recordArrival x id .engaged (engageStation x s) := by
  simp only [stationArrival, own, ready, if_true]

theorem stationArrival_late (own : (s.stations.get x).pattern = some id)
    (waits : (s.stations.get x).state = .positioning ∨ (s.stations.get x).state = .fault) :
    stationArrival x id s = recordArrival x id .late (beginLate x id s) := by
  rcases waits with state | state <;> simp only [stationArrival, own, state, if_true]

theorem stationArrival_again (own : (s.stations.get x).pattern = some id)
    (other : (s.stations.get x).state = .engaged ∨ (s.stations.get x).state = .free) :
    stationArrival x id s = recordArrival x id .none s := by
  rcases other with state | state <;> simp only [stationArrival, own, state, if_true]

theorem stationArrival_empty (empty : (s.stations.get x).pattern = none) : stationArrival x id s = recordArrival x id .none s := by
  simp [stationArrival, empty]

variable {other : Nat}

theorem stationArrival_retracts (held : (s.stations.get x).pattern = some other) (ne : other ≠ id)
    (engaged : (s.stations.get x).state = .engaged) :
    stationArrival x id s = recordArrival x id .retracted (loadAttempts x (retractStation x .free none s)) := by
  simp [stationArrival, held, ne, engaged]

theorem stationArrival_abandons (held : (s.stations.get x).pattern = some other) (ne : other ≠ id)
    (positioning : (s.stations.get x).state = .positioning) (late : (s.stations.get x).late.isSome = true) :
    stationArrival x id s = recordArrival x id .retracted (loadAttempts x (abandonPattern x s)) := by
  simp [stationArrival, held, ne, positioning, late]

theorem stationArrival_drops (held : (s.stations.get x).pattern = some other) (ne : other ≠ id)
    (fault : (s.stations.get x).state = .fault) (late : (s.stations.get x).late.isSome = true) :
    stationArrival x id s = recordArrival x id .none
      (loadAttempts x.other (setStation x { s.stations.get x with pattern := none, late := none } s)) := by
  simp [stationArrival, held, ne, fault, late]

theorem stationArrival_passes (held : (s.stations.get x).pattern = some other) (ne : other ≠ id)
    (late : (s.stations.get x).late = none) (waits : (s.stations.get x).state = .positioning ∨
      (s.stations.get x).state = .ready ∨ (s.stations.get x).state = .fault) :
    stationArrival x id s = recordArrival x id .none s := by
  rcases waits with state | state | state <;> simp [stationArrival, held, ne, state, late]

end

/-! ## What a load attempt issues -/

/-- The operation issues position outputs alone. -/
def OnlyPositions (f : State → State) : Prop :=
  ∀ s, ∃ new, (f s).issued = s.issued ++ new ∧ ∀ y, Output.retract y ∉ new

theorem loadAttempt_positions (x : Station) : OnlyPositions (loadAttempt x) := by
  intro s
  by_cases busy : (s.stations.get x).state = .free
  · cases found : candidate s x with
    | none => exact ⟨[], by rw [loadAttempt_of_none found]; simp⟩
    | some t =>
      rw [loadAttempt_of_candidate busy found]
      refine ⟨[.position x t.deckle t.slits t.scores (servicePattern (s.stations.get x).groups)], ?_, by simp⟩
      dsimp only
      split <;> simp [positionOutput]
  · exact ⟨[], by rw [loadAttempt_of_busy busy]; simp⟩

theorem OnlyPositions.comp {f g : State → State} (h : OnlyPositions f) (h' : OnlyPositions g) : OnlyPositions fun s => g (f s) := by
  intro s
  obtain ⟨new, issued, none⟩ := h s
  obtain ⟨new', issued', none'⟩ := h' (f s)
  refine ⟨new ++ new', by rw [issued', issued, List.append_assoc], fun y mem => ?_⟩
  rcases List.mem_append.mp mem with mem | mem
  · exact none y mem
  · exact none' y mem

theorem loadAttempts_positions (x : Station) : OnlyPositions (loadAttempts x) :=
  ((loadAttempt_positions x).comp (loadAttempt_positions x.other)).comp (loadAttempt_positions x)

/-! ## The zones that grow -/

theorem growRunMark_web (id k : Nat) (s : State) : (growRunMark id k s).web = { s.web with
    marks := s.web.marks.map fun q =>
      if q.kind = .runChange id then { q with trail := min (2 ^ 32 - 1) (q.trail + k) } else q } := by
  have grow : ∀ e, grown e k = min (2 ^ 32 - 1) (e + k) := fun e => Nat.min_comm _ _
  simp [growRunMark, grow]

theorem lateAdvance_of_late {n : Nat} {x : Station} {s : State} {le : LateEngagement} (late : (s.stations.get x).late = some le) :
    lateAdvance n x s = setStation x { s.stations.get x with late := some { le with slack := le.slack - n } }
      (growRunMark le.setup (n - le.slack) s) := by
  simp only [lateAdvance, late]

theorem lateAdvance_of_none {n : Nat} {x : Station} {s : State} (late : (s.stations.get x).late = none) : lateAdvance n x s = s := by
  simp only [lateAdvance, late]

/-! ## An engagement in a report of travel -/

/-- A station that an operation leaves alone while it is not FREE. -/
def LeavesBusy (x : Station) (f : State → State) : Prop :=
  ∀ s, (s.stations.get x).state ≠ .free → (f s).stations.get x = s.stations.get x

theorem stationArrival_other {x y : Station} (h : x ≠ y) (id : Nat) : LeavesBusy x (stationArrival y id) := by
  intro s busy
  have record : ∀ o (u : State), (recordArrival y id o u).stations.get x = u.stations.get x := fun o u => by
    rw [recordArrival_stations, PerStation.get_set_ne _ _ _ _ h]
  have loads : ∀ z (u : State), u.stations.get x = s.stations.get x → (loadAttempts z u).stations.get x = s.stations.get x :=
    fun z u same => (loadAttempts_busy x z (by rw [same]; exact busy)).trans same
  have away : ∀ r (u : State), (setStation y r u).stations.get x = u.stations.get x := fun r u => setStation_get_ne h r u
  obtain ⟨late, begins⟩ := beginLate_stations y id s
  have begun : (beginLate y id s).stations.get x = s.stations.get x := by rw [begins, PerStation.get_set_ne _ _ _ _ h]
  have emitted : ∀ o, (emit o s).stations.get x = s.stations.get x := fun o => by simp
  simp only [stationArrival]
  (repeat' split) <;> rw [record]
  · exact (away _ _).trans (emitted _)
  · exact begun
  · exact begun
  · exact loads _ _ ((away _ _).trans (emitted _))
  · exact loads _ _ ((away _ _).trans (emitted _))
  · exact loads _ _ (away _ _)

theorem LeavesBusy.foldl {α : Type} {x : Station} {f : State → α → State} (h : ∀ a, LeavesBusy x fun s => f s a) (as : List α) :
    LeavesBusy x fun s => as.foldl f s := by
  induction as with
  | nil => exact fun s _ => rfl
  | cons a as ih =>
    intro s busy
    have first := h a s busy
    exact (ih (f s a) (by rw [show (f s a).stations.get x = _ from first]; exact busy)).trans first

/-- A station ENGAGED on a setup. -/
def EngagedOn (id : Nat) (r : StationRec) : Prop := r.state = .engaged ∧ r.pattern = some id ∧ r.late = none

theorem stationArrivals_engage {x : Station} {id : Nat} {ids : List Nat} (all : ∀ i ∈ ids, i = id) (some' : ids ≠ []) {s : State}
    (own : (s.stations.get x).pattern = some id) (ready : (s.stations.get x).state = .ready) :
    EngagedOn id ((stationArrivals x ids s).stations.get x) ∧ Output.engage x ∈ (stationArrivals x ids s).issued := by
  have again : ∀ (is : List Nat) (u : State), (∀ i ∈ is, i = id) → EngagedOn id (u.stations.get x) →
      Output.engage x ∈ u.issued → EngagedOn id ((stationArrivals x is u).stations.get x) ∧
        Output.engage x ∈ (stationArrivals x is u).issued := by
    intro is
    induction is with
    | nil => exact fun u _ engaged issued => ⟨engaged, issued⟩
    | cons i is ih =>
      intro u all ⟨state, pattern, late⟩ issued
      have eq : i = id := all i List.mem_cons_self
      subst eq
      refine ih (stationArrival x i u) (fun j mem => all j (List.mem_cons_of_mem _ mem)) ?_
        ((stationArrival_appends x i).mem issued)
      rw [stationArrival_again pattern (.inl state), recordArrival_get]
      exact ⟨state, pattern, late⟩
  cases ids with
  | nil => exact absurd rfl some'
  | cons i is =>
    have eq : i = id := all i List.mem_cons_self
    subst eq
    refine again is (stationArrival x i s) (fun j mem => all j (List.mem_cons_of_mem _ mem)) ?_ ?_
    · rw [stationArrival_engages own ready, recordArrival_get, engageStation, setStation_get]
      exact ⟨rfl, own, rfl⟩
    · rw [stationArrival_engages own ready]
      simp [recordArrival, engageStation]

theorem lateAdvance_holds (n : Nat) (x y : Station) (s : State) :
    ((lateAdvance n y s).stations.get x).state = (s.stations.get x).state ∧
      ((lateAdvance n y s).stations.get x).pattern = (s.stations.get x).pattern := by
  cases late : (s.stations.get y).late with
  | none => rw [lateAdvance_of_none late]; exact ⟨rfl, rfl⟩
  | some le =>
    rw [lateAdvance_of_late late]
    by_cases same : x = y
    · subst same
      rw [setStation_get]
      exact ⟨rfl, rfl⟩
    · rw [setStation_get_ne same]
      simp [growRunMark]

/-- The position of a station among the cumulative positions of the web (R2). -/
theorem mem_arrivals {s : State} {x n i : Nat} : i ∈ (arrivals s x n).map Prod.fst ↔
    ∃ m ∈ s.web.marks, m.kind = .runChange i ∧ x ≤ m.pos ∧ m.pos < x + n := by
  simp only [arrivals, List.mem_map, List.mem_filterMap]
  constructor
  · rintro ⟨⟨a, q⟩, ⟨m, mem, found⟩, rfl⟩
    split at found
    · rename_i id kind
      split at found
      · rename_i inside
        cases found
        exact ⟨m, mem, kind, inside.1, inside.2⟩
      · cases found
    · cases found
  · rintro ⟨m, mem, kind, le, lt⟩
    refine ⟨(i, m.pos - x), ⟨m, mem, ?_⟩, rfl⟩
    simp only [kind]
    exact if_pos ⟨le, lt⟩

/-! ## How many setups are on the web behind the CURRENT one -/

theorem updateSetup_online (id : Nat) (f : Setup → Setup) (s : State) :
    (updateSetup id f s).sched.online.length = s.sched.online.length := by
  simp [updateSetup]

theorem handCut_online (lane : Lane) (cls : SheetClass) (o : Option Nat) (length : Nat) (uncovered : Bool) (axis : Nat) (s : State) :
    (handCut lane cls o length uncovered axis s).sched.online.length = s.sched.online.length := by
  have credit : ∀ outs (u : State), (creditSetup lane outs u).sched.online.length = u.sched.online.length := fun outs u => by
    simp only [creditSetup]
    split
    · exact updateSetup_online _ _ _
    · rfl
  have tallied : ∀ outs o, (tallyCut lane cls outs s o).sched.online.length = s.sched.online.length := fun outs o => by
    cases o with
    | none => rfl
    | some o =>
      simp only [tallyCut]
      split <;> simp [credit, updateOrder]
  have carried : ∀ outs (u : State) o, (carryCut cls outs uncovered u o).sched.online = u.sched.online := fun outs u o => by
    cases o with
    | none => rfl
    | some o =>
      simp only [carryCut, carryForward]
      (repeat' split) <;> simp
  rw [handCut_eq]
  simp [carried, tallied]

theorem stretch_online (lane : Lane) (report : List Crossing) (axis a b : Nat) (s : State) :
    (stretch lane report axis a b s).sched.online.length = s.sched.online.length := by
  simp only [stretch]
  split
  · rfl
  · split <;> simp [handCut_online]

theorem releaseOrder_online (former : Option LaneJob) (s : State) : (releaseOrder former s).sched.online = s.sched.online := by
  obtain ⟨orders, eq⟩ := closureTests_sched (former.map LaneJob.order).toList s
  rw [releaseOrder, eq]

theorem laneArrival_online (lane : Lane) (id axis : Nat) (s : State) :
    (laneArrival lane id axis s).sched.online.length = s.sched.online.length := by
  have piece : ∀ r, (cutPiece lane r axis s).sched.online.length = s.sched.online.length := fun r => handCut_online _ _ _ _ _ _ _
  simp only [laneArrival]
  split
  · rfl
  · split
    · simp only [changeOver, releaseOrder_online, knifeOvershoot_frame, emit_frame, setLane_frame]
      split
      · exact piece _
      · rfl
    · simp [enableLane]
    · simp only [closeLane, releaseOrder_online, emit_frame, setLane_frame]
      split
      · exact piece _
      · rfl
    · rfl

theorem laneAdvance_online (lane : Lane) (report : List Crossing) (points : List (Nat × Nat)) (axis n : Nat) (s : State) :
    (laneAdvance lane report points axis n s).sched.online.length = s.sched.online.length := by
  suffices h : ∀ a (s : State), (laneStretches lane report axis n a points s).sched.online.length = s.sched.online.length from h 1 s
  induction points with
  | nil => exact fun a s => stretch_online _ _ _ _ _ _
  | cons p ps ih => exact fun a s => (ih _ _).trans ((laneArrival_online _ _ _ _).trans (stretch_online _ _ _ _ _ _))

theorem defectLimitTest_online (s : State) : (defectLimitTest s).sched.online = s.sched.online := by
  have planned : ∀ k (u : State), (raisePlanned k u).sched.online = u.sched.online := fun k u => by
    simp only [raisePlanned]
    split <;> simp
  have final : ∀ len (u : State), (takeFinalLength len u).sched.online = u.sched.online := fun len u => by
    simp only [takeFinalLength]
    split
    · split <;> simp [planned]
    · rfl
  have closed : (closeSensorDefect s).sched.online = s.sched.online := by
    simp only [closeSensorDefect]
    (repeat' split) <;> simp [final]
  simp only [defectLimitTest]
  split <;> simp [closed]

theorem atKnives_online (n : Nat) (s : State) : (atKnives n s).sched.online.length = s.sched.online.length := by
  have passed : ∀ u : State, (removeMarks u).sched.online.length = u.sched.online.length := fun u => by
    refine foldl_keeps (fun s : State => s.sched.online.length) (fun s m => passKnife m s) (fun s m => ?_) _ _
    simp only [passKnife]
    split
    · exact updateSetup_online _ _ _
    · rfl
  simp [atKnives, defectLimitTest_online, passed, travelled, advanceProduced]

/-- With no setup on the web behind CURRENT a board advance retires none (R36). -/
theorem retireAll_of_none {s : State} (none : s.sched.online.length = 0) : retireAll s = s := by
  have empty : s.sched.online = [] := List.length_eq_zero_iff.mp none
  simp [retireAll, empty, dueForRetirement]

theorem startSetup_busy (x : Station) (n : Nat) (head : Setup) (rest : List Setup) : LeavesBusy x (startSetup n head rest) := by
  intro s busy
  unfold startSetup
  extract_lets former late overshoot s1 d s2 s3 s4 s5 s6
  have overrun : (if late = true then countOverrun n s4 else s4).stations = s4.stations := by
    split <;> simp
  have noticed : s4.stations = s.stations := by simp [s4, s3, s2, s1]
  have fed : (replanAll s6).stations = s.stations := by
    simp only [s6, s5, replanAll_frame, feedOrders_frame, countEvent_frame, overrun, noticed]
  rw [stationsTakeQueue, loadAttempts_busy x .a (by rw [fed]; exact busy), fed]

theorem startAttempt_busy (x : Station) (n : Nat) : LeavesBusy x (startAttempt n) := by
  intro s busy
  have deferred : ∀ d, (deferStart n d s).stations = s.stations := fun d => by simp
  simp only [startAttempt]
  split
  · rfl
  · split
    · rw [deferred]
    · split
      · rw [deferred]
      · split
        · rw [deferred]
        · exact startSetup_busy x n _ _ s busy

/-- A station that is not FREE at the knives stands so at the close of an advance that retires no setup. -/
theorem boardAdvance_busy {n : Nat} {s : State} {x : Station} (none : s.sched.online.length = 0)
    (busy : ((atKnives n s).stations.get x).state ≠ .free) :
    (boardAdvance n s).stations.get x = (atKnives n s).stations.get x := by
  have count : (afterKnives n s).sched.online.length = 0 := by
    simp only [afterKnives, laneAdvance_online, atKnives_online, none]
  have before : (deliverLane .l (deliverLane .u (retireAll (afterKnives n s)))).stations = (atKnives n s).stations := by
    rw [retireAll_of_none count]
    simp [afterKnives]
  rw [boardAdvance_knives]
  simp only [evaluate_frame, allStandTests_frame, restartMark_frame]
  rw [startAttempt_busy x n _ (by rw [before]; exact busy), before]

/-- The state of an advance before the arrivals at the stations. -/
def beforeArrivals (n : Nat) (s : State) : State :=
  lateAdvance n .b (lateAdvance n .a (defectLimitTest (removeMarks (travelled n s))))

/-- The setups whose marks arrive at a station in an advance (R10). -/
def arrivingAt (x : Station) (n : Nat) (s : State) : List Nat :=
  (arrivals (travelled n s) (stationPosition s x) n).map Prod.fst

theorem atKnives_arrivals (n : Nat) (s : State) : atKnives n s =
    stationArrivals .b (arrivingAt .b n s) (stationArrivals .a (arrivingAt .a n s) (beforeArrivals n s)) := by
  have cfg : (travelled n s).cfg = s.cfg := by simp [travelled]
  simp only [atKnives, arrivingAt, beforeArrivals, stationPosition, cfg]

theorem beforeArrivals_holds (n : Nat) (x : Station) (s : State) :
    ((beforeArrivals n s).stations.get x).state = (s.stations.get x).state ∧
      ((beforeArrivals n s).stations.get x).pattern = (s.stations.get x).pattern := by
  have tracked : (defectLimitTest (removeMarks (travelled n s))).stations = s.stations := by simp [travelled]
  obtain ⟨stateA, patternA⟩ := lateAdvance_holds n x .a (defectLimitTest (removeMarks (travelled n s)))
  obtain ⟨stateB, patternB⟩ := lateAdvance_holds n x .b (lateAdvance n .a (defectLimitTest (removeMarks (travelled n s))))
  rw [stateA, tracked] at stateB
  rw [patternA, tracked] at patternB
  exact ⟨stateB, patternB⟩

/-- A READY station whose setup's mark alone arrives is ENGAGED when the advance reaches the knives (R78). -/
theorem atKnives_engaged {n : Nat} {x : Station} {id : Nat} {s : State} (all : ∀ i ∈ arrivingAt x n s, i = id)
    (some' : arrivingAt x n s ≠ []) (own : (s.stations.get x).pattern = some id) (ready : (s.stations.get x).state = .ready) :
    EngagedOn id ((atKnives n s).stations.get x) ∧ Output.engage x ∈ (atKnives n s).issued := by
  obtain ⟨state, pattern⟩ := beforeArrivals_holds n x s
  rw [own] at pattern
  rw [ready] at state
  rw [atKnives_arrivals]
  cases x with
  | a =>
    obtain ⟨engaged, issued⟩ := stationArrivals_engage all some' pattern state
    have kept := LeavesBusy.foldl (x := .a) (f := fun s id => stationArrival .b id s)
      (fun id => stationArrival_other (by decide) id) (arrivingAt .b n s)
      (stationArrivals .a (arrivingAt .a n s) (beforeArrivals n s)) (by rw [engaged.1]; decide)
    refine ⟨?_, (stationArrivals_appends .b _).mem issued⟩
    rw [show (stationArrivals .b _ _).stations.get .a = _ from kept]
    exact engaged
  | b =>
    have kept := LeavesBusy.foldl (x := .b) (f := fun s id => stationArrival .a id s)
      (fun id => stationArrival_other (by decide) id) (arrivingAt .a n s) (beforeArrivals n s) (by rw [state]; decide)
    have before : (stationArrivals .a (arrivingAt .a n s) (beforeArrivals n s)).stations.get .b =
        (beforeArrivals n s).stations.get .b := kept
    exact stationArrivals_engage all some' (by rw [before, pattern]) (by rw [before, state])

/-- The marks that arrive at a position are those the advance carries to it or past it (R9, R10). -/
theorem mem_arrivingAt {n i : Nat} {x : Station} {s : State} (bound : stationPosition s x + n < 2 ^ 32) :
    i ∈ arrivingAt x n s ↔ ∃ m ∈ s.web.marks, m.kind = .runChange i ∧ m.pos < stationPosition s x ∧
      stationPosition s x ≤ m.pos + n := by
  have carried : ∀ m : Mark, (stationPosition s x ≤ (m.advance n (defectGrowth s.web.sensorDefect n)).pos ∧
      (m.advance n (defectGrowth s.web.sensorDefect n)).pos < stationPosition s x + n) ↔
      m.pos < stationPosition s x ∧ stationPosition s x ≤ m.pos + n := fun m => by
    have pos : (m.advance n (defectGrowth s.web.sensorDefect n)).pos = min (m.pos + n) (2 ^ 32 - 1) := rfl
    rw [pos]
    omega
  rw [arrivingAt, mem_arrivals, travelled_marks]
  simp only [List.mem_map, exists_exists_and_eq_and, carried]
  rfl

/-- A station that has given up its setup stands FREE, or positioned for a setup of the queue (R75, R78). -/
def GivenUp (s : State) (r : StationRec) : Prop := (r.state = .free ∧ r.pattern = none) ∨ Positioned s r

/-- A station that gives up its setup and makes its load attempts (R75). -/
theorem loadAttempts_givenUp {x : Station} {s u : State} (sched : u.sched = s.sched) (now : u.now = s.now)
    (free : (u.stations.get x).state = .free) (empty : (u.stations.get x).pattern = none) :
    GivenUp s ((loadAttempts x u).stations.get x) := by
  rcases loadAttempts_self x u with kept | ⟨state, c, mem, pattern, last⟩
  · rw [kept]
    exact .inl ⟨free, empty⟩
  · refine .inr ⟨state, c, ?_, pattern, by rw [last, now]⟩
    simpa only [setupOrder, sched] using mem

/-- A station that holds another setup when a mark arrives retracts, and its load attempts follow (R78). -/
theorem retracted_of_moving {x : Station} {id other : Nat} {s : State} (held : (s.stations.get x).pattern = some other)
    (ne : other ≠ id) (moving : (s.stations.get x).state = .engaged ∨
      ((s.stations.get x).state = .positioning ∧ (s.stations.get x).late.isSome = true)) :
    let r := s.stations.get x
    let t := stationArrival x id s
    (t.stations.get x).lastArrival = some (id, .retracted) ∧ Output.retract x ∈ t.issued ∧
      (r.state = .engaged → r.faultPending = true → (t.stations.get x).state = .fault ∧ (t.stations.get x).pattern = none) ∧
      (r.state = .positioning ∨ r.faultPending = false → GivenUp s (t.stations.get x)) := by
  intro r t
  have outcome : ∀ u : State, t = recordArrival x id .retracted (loadAttempts x u) → Output.retract x ∈ u.issued →
      (t.stations.get x).lastArrival = some (id, .retracted) ∧ Output.retract x ∈ t.issued := fun u eq issued => by
    have loaded := (loadAttempts_appends x).mem issued
    rw [eq]
    exact ⟨by rw [recordArrival_get], by simpa [recordArrival] using loaded⟩
  have record : ∀ u : State, t = recordArrival x id .retracted (loadAttempts x u) →
      t.stations.get x = { (loadAttempts x u).stations.get x with lastArrival := some (id, .retracted) } := fun u eq => by
    rw [eq, recordArrival_get]
  rcases moving with engaged | ⟨positioning, late⟩
  · have eq := stationArrival_retracts held ne engaged
    have own : (retractStation x .free none s).stations.get x =
        { r with state := if r.faultPending then .fault else .free, pattern := none, faultPending := false } := by
      rw [retractStation, setStation_get]
    obtain ⟨last, issued⟩ := outcome _ eq (by simp [retractStation])
    refine ⟨last, issued, fun _ pending => ?_, fun clear => ?_⟩
    · have kept := loadAttempts_busy x x (s := retractStation x .free none s) (by rw [own]; simp [pending])
      rw [record _ eq, kept, own]
      simp [pending]
    · have quiet : r.faultPending = false := clear.resolve_left (by rw [show r.state = _ from engaged]; decide)
      have given : GivenUp s ((loadAttempts x (retractStation x .free none s)).stations.get x) :=
        loadAttempts_givenUp (by simp) (by simp) (by rw [own]; simp [quiet]) (by rw [own])
      rw [record _ eq]
      exact given
  · have eq := stationArrival_abandons held ne positioning late
    have own : (abandonPattern x s).stations.get x = { r with state := .free, pattern := none, timer := none, late := none } := by
      rw [abandonPattern, setStation_get]
    obtain ⟨last, issued⟩ := outcome _ eq (by simp [abandonPattern])
    refine ⟨last, issued, fun engaged => absurd (positioning.symm.trans engaged) (by decide), fun _ => ?_⟩
    have given : GivenUp s ((loadAttempts x (abandonPattern x s)).stations.get x) :=
      loadAttempts_givenUp (by simp) (by simp) (by rw [own]) (by rw [own])
    rw [record _ eq]
    exact given

/-- Settles O9. -/
theorem stationsMeetRunChangeMarks : Obligations.StationsMeetRunChangeMarks := by
  refine ⟨fun x id s => ?_, fun x n s => ?_, ?_⟩
  · intro r t pos records
    have position : (stationPosition s x : Int) = pos := by cases x <;> rfl
    refine ⟨fun own ready => ?_, fun m own waits mark => ?_, fun other held ne moving => ?_, fun other held ne fault late => ?_,
      fun other held ne late waits => ?_, fun empty => ?_⟩
    · have eq : t = _ := stationArrival_engages own ready
      rw [eq]
      refine ⟨?_, by simp [recordArrival, engageStation], by simp [recordArrival, engageStation]⟩
      rw [recordArrival_stations, engageStation, setStation_get, setStation_stations, PerStation.set_set]
      simp [r]
    · have eq : t = _ := stationArrival_late own waits
      rw [eq, beginLate_of_mark mark]
      intro up
      refine ⟨?_, ?_, by simp [recordArrival, growRunMark]⟩
      · rw [recordArrival_stations, setStation_get, setStation_stations, PerStation.set_set]
        simp only [position]
        rfl
      · rw [position]
        refine Eq.trans (?_ : _ = (growRunMark id (m.upEnd - (pos : Int)).toNat s).web) (growRunMark_web _ _ _)
        simp [recordArrival]
    · exact retracted_of_moving held ne moving
    · have eq : t = _ := stationArrival_drops held ne fault late
      have busy : ((setStation x { r with pattern := none, late := none } s).stations.get x).state ≠ .free := by
        rw [setStation_get]
        simp [fault]
      obtain ⟨new, issued, silent⟩ := loadAttempts_positions x.other (setStation x { r with pattern := none, late := none } s)
      rw [eq]
      refine ⟨?_, ?_⟩
      · rw [recordArrival_get, loadAttempts_busy x x.other busy, setStation_get]
      · have appended : (recordArrival x id .none (loadAttempts x.other
            (setStation x { r with pattern := none, late := none } s))).issued = s.issued ++ new := by
          simpa [recordArrival] using issued
        rw [appended, List.drop_left]
        exact silent x
    · have eq : t = _ := stationArrival_passes held ne late waits
      show t.stations = _ ∧ t.web = s.web ∧ t.issued = s.issued
      rw [eq]
      exact ⟨recordArrival_stations _ _ _ _, by simp [recordArrival], by simp [recordArrival]⟩
    · have eq : t = _ := stationArrival_empty empty
      show t.stations = _ ∧ t.web = s.web ∧ t.issued = s.issued
      rw [eq]
      exact ⟨recordArrival_stations _ _ _ _, by simp [recordArrival], by simp [recordArrival]⟩
  · refine ⟨lateAdvance_of_none, fun le late => ?_⟩
    rw [lateAdvance_of_late late]
    exact ⟨by simp [growRunMark], by simp [growRunMark_web]⟩
  · rintro e k x id m s rfl pos le position mem kind before reaches bound alone own ready offline
    have place : position = stationPosition s x := by cases x <;> rfl
    obtain ⟨cfg, web, sched, _⟩ := reported_frame s
    have same : stationPosition (reported s) x = stationPosition s x := by cases x <;> simp only [stationPosition, cfg]
    have stations : (reported s).stations = s.stations := by
      simp only [reported]
      split <;> simp [restartSilence]
    have arrives : ∀ i, i ∈ arrivingAt x k (reported s) ↔ ∃ m ∈ s.web.marks, m.kind = .runChange i ∧ m.pos < position ∧
        position ≤ m.pos + k := fun i => by
      rw [mem_arrivingAt (by rw [same, ← place]; omega), same, web, ← place]
    obtain ⟨engaged, issued⟩ := atKnives_engaged (n := k) (x := x) (id := id) (s := reported s)
      (fun i mem => by
        obtain ⟨q, mem, kind, before, reaches⟩ := (arrives i).mp mem
        exact alone q mem i kind before reaches)
      (List.ne_nil_of_mem ((arrives id).mpr ⟨m, mem, kind, before, reaches⟩)) (by rw [stations]; exact own)
      (by rw [stations]; exact ready)
    have kept := boardAdvance_busy (n := k) (s := reported s) (x := x) (by rw [sched, offline]; rfl)
      (by rw [engaged.1]; decide)
    obtain ⟨state, pattern, late⟩ := engaged
    rw [← kept] at state pattern late
    refine ⟨_, exec_selected pos le s, by simpa using state, by simpa using pattern, by simpa using late, ?_⟩
    refine settle_appends.mem ((boardAdvance_after_knives k (reported s)).2.2 _ ?_)
    exact (laneAdvance_appends _ _ _ _ _).mem ((laneAdvance_appends _ _ _ _ _).mem issued)

end Sys2Proof.Machine
end

