-- ==== Sys2Proof/Proofs/StandTravel.lean ====
section
/-! PROOFS. The reel stands in board travel (R54, R58, R59, R64, R66, R67): what every operation of an advance keeps of a stand, and what
a report of travel makes of it. -/

namespace Sys2Proof.Machine
open Sys2Proof

/-! ## What the operations of an advance keep of a stand -/

/-- The stand holds its plan over `k` more tenths of board: in FIRING, or in ARMED with more usable web than that (R64). -/
def Stand.HoldsFor (k : Nat) (a : Stand) : Prop :=
  a.state = .firing ∨ (a.state = .armed ∧ ∃ r, a.running = some r ∧ k < r.usable)

theorem Stand.HoldsFor.not_ready {k : Nat} {a : Stand} (h : a.HoldsFor k) : a.state ≠ .ready := by
  rcases h with h | ⟨h, _⟩ <;> rw [h] <;> decide

/-- The stand keeps its running reel, its joint and its late watch; and the plan that it holds. -/
structure Steady (a b : Stand) : Prop where
  running : b.running = a.running
  joint : b.joint = a.joint
  late : b.late = a.late
  plan : ∀ k, a.HoldsFor k → b.plan = a.plan ∧ b.HoldsFor k

theorem Steady.refl (a : Stand) : Steady a a := ⟨rfl, rfl, rfl, fun _ h => ⟨rfl, h⟩⟩

theorem Steady.trans {a b c : Stand} (h : Steady a b) (h' : Steady b c) : Steady a c where
  running := h'.running.trans h.running
  joint := h'.joint.trans h.joint
  late := h'.late.trans h.late
  plan := fun k holds =>
    have ⟨plan, holds'⟩ := h.plan k holds
    have ⟨plan', holds''⟩ := h'.plan k holds'
    ⟨plan'.trans plan, holds''⟩

theorem Steady.of_eq {a b : Stand} (h : b = a) : Steady a b := h ▸ .refl a

/-- The operation keeps every stand steady. -/
def KeepsSteady (f : State → State) : Prop := ∀ s i, Steady (s.stands.get i) ((f s).stands.get i)

theorem KeepsSteady.comp {f g : State → State} (h : KeepsSteady f) (h' : KeepsSteady g) : KeepsSteady fun s => g (f s) :=
  fun s i => (h s i).trans (h' (f s) i)

theorem KeepsSteady.foldl {α : Type} {f : State → α → State} (h : ∀ a, KeepsSteady fun s => f s a) (xs : List α) :
    KeepsSteady fun s => xs.foldl f s := by
  induction xs with
  | nil => exact fun s i => .refl _
  | cons x xs ih => exact fun s i => (h x s i).trans (ih (f s x) i)

/-- A further operation keeps a stand steady. -/
theorem Steady.next {f : State → State} (h : KeepsSteady f) {a : Stand} {s : State} {i : Fin 6} (before : Steady a (s.stands.get i)) :
    Steady a ((f s).stands.get i) := before.trans (h s i)

/-- An operation that leaves the stands alone keeps a stand steady. -/
theorem Steady.leave {a : Stand} {s t : State} {i : Fin 6} (before : Steady a (s.stands.get i)) (h : t.stands = s.stands) :
    Steady a (t.stands.get i) := by
  rw [h]
  exact before

theorem setStand_steady {i : Fin 6} {st : Stand} {s : State} (h : Steady (s.stands.get i) st) (j : Fin 6) :
    Steady (s.stands.get j) ((setStand i st s).stands.get j) := by
  rw [setStand_stands]
  by_cases same : j = i
  · subst same
    rw [Six.get_set_self]
    exact h
  · rw [Six.get_set_ne _ _ _ _ same]
    exact .refl _

theorem FiredOrKept.steady {s : State} {i : Fin 6} {a b : Stand} (h : FiredOrKept s i a b) : Steady a b := by
  rcases h with rfl | ⟨_, _, _, rfl⟩
  · exact .refl _
  · exact ⟨rfl, rfl, rfl, fun _ _ => ⟨rfl, .inl rfl⟩⟩

theorem firingTest_steady (i : Fin 6) : KeepsSteady (firingTest i) := by
  intro s j
  rcases firingTest_cases i s with e | ⟨_, _, _, e⟩ <;> rw [e]
  · exact .refl _
  · refine (setStand_steady (s := emit (.spliceFire i) s) ?_ j)
    exact ⟨rfl, rfl, rfl, fun _ _ => ⟨rfl, .inl rfl⟩⟩

/-- Planning changes a READY stand alone (R56). -/
theorem planStand_steady (i : Fin 6) : KeepsSteady (planStand i) := by
  intro s j
  have kept := planStand_kept i j s
  simp only [Stand.kept, Prod.mk.injEq] at kept
  obtain ⟨running, _, joint, late, _⟩ := kept
  refine ⟨running, joint, late, fun k holds => ?_⟩
  rw [planStand_keeps j i s holds.not_ready]
  exact ⟨rfl, holds⟩

theorem replanAll_steady : KeepsSteady replanAll := KeepsSteady.foldl planStand_steady slots

theorem armingTest_steady (i : Fin 6) : KeepsSteady (armingTest i) := by
  intro s j
  simp only [armingTest]
  split
  · rename_i ready _
    split
    · have armed : ∀ p, Steady (s.stands.get i) { s.stands.get i with state := .armed, plan := p } := fun p =>
        ⟨rfl, rfl, rfl, fun _ holds => absurd ready holds.not_ready⟩
      exact .next (firingTest_steady i) (setStand_steady (armed _) j)
    · exact .refl _
  · exact .refl _

theorem lowTest_steady (i : Fin 6) : KeepsSteady (lowTest i) := by
  intro s j
  have flagged : ∀ b, Steady (s.stands.get j) ((setStand i { s.stands.get i with lowWarned := b } s).stands.get j) := fun b =>
    have low : Steady (s.stands.get i) { s.stands.get i with lowWarned := b } := ⟨rfl, rfl, rfl, fun _ holds => ⟨rfl, holds⟩⟩
    setStand_steady low j
  simp only [lowTest]
  split
  · split
    · split
      · exact flagged false
      · exact .refl _
    · split
      · exact (flagged true).leave (by simp)
      · exact .refl _
  · exact .refl _

theorem raisePlanned_steady (k : Nat) : KeepsSteady (raisePlanned k) := by
  intro s j
  simp only [raisePlanned]
  split
  · exact .next replanAll_steady (.of_eq rfl)
  · exact .refl _

theorem enterReject_steady (m : Mark) : KeepsSteady (enterReject m) := by
  intro s j
  simp only [enterReject]
  split
  · split
    · exact .next (raisePlanned_steady _) (.of_eq (by simp))
    · exact .of_eq (by simp)
  · split <;> exact .of_eq (by simp)

theorem defectLimitTest_steady : KeepsSteady defectLimitTest := by
  intro s j
  have final : ∀ len, KeepsSteady (takeFinalLength len) := fun len s j => by
    simp only [takeFinalLength]
    split
    · split
      · exact .next (raisePlanned_steady _) (.of_eq rfl)
      · exact .of_eq rfl
    · exact .of_eq rfl
  have closed : KeepsSteady closeSensorDefect := fun s j => by
    simp only [closeSensorDefect]
    split
    · split
      · split
        · exact .of_eq rfl
        · exact .next (final _) (.of_eq rfl)
      · exact .of_eq rfl
    · exact .refl _
  simp only [defectLimitTest]
  split
  · exact (closed s j).leave (by simp)
  · exact .refl _

theorem handCut_steady (lane : Lane) (cls : SheetClass) (o : Option Nat) (length : Nat) (uncovered : Bool) (axis : Nat) :
    KeepsSteady (handCut lane cls o length uncovered axis) := by
  intro s j
  have tallied : (tallyCut lane cls (cutOuts s cls o) s (cutOrder s cls o)).stands = s.stands := by
    cases cutOrder s cls o with
    | none => rfl
    | some x =>
      simp only [tallyCut]
      split <;> simp
  have carried : ∀ o', KeepsSteady fun u => carryCut cls (cutOuts s cls o) uncovered u o' := fun o' u j => by
    cases o' with
    | none => exact .refl _
    | some x =>
      simp only [carryCut, carryForward]
      split
      · split
        · exact .next replanAll_steady (.of_eq rfl)
        · exact .refl _
      · exact .refl _
  have queued : (enqueueCut lane (cutRecord cls o length axis s) (tallyCut lane cls (cutOuts s cls o) s (cutOrder s cls o))).stands =
      s.stands := by simp only [enqueueCut_frame, tallied]
  have cut := carried (cutOrder s cls o)
    (enqueueCut lane (cutRecord cls o length axis s) (tallyCut lane cls (cutOuts s cls o) s (cutOrder s cls o))) j
  rw [queued] at cut
  simp only [handCut_eq, emit_frame, countCut_frame]
  exact cut

theorem stretch_steady (lane : Lane) (report : List Crossing) (axis a b : Nat) : KeepsSteady (stretch lane report axis a b) := by
  intro s j
  simp only [stretch]
  split
  · exact .refl _
  · split
    · exact .of_eq (by simp)
    · simp only [takeShadow_frame, setLane_frame]
      exact handCut_steady _ _ _ _ _ _ s j

theorem laneArrival_steady (lane : Lane) (id axis : Nat) : KeepsSteady (laneArrival lane id axis) := by
  intro s j
  have piece : ∀ r, Steady (s.stands.get j) ((cutPiece lane r axis s).stands.get j) := fun r => handCut_steady _ _ _ _ _ _ s j
  simp only [laneArrival]
  split
  · exact .refl _
  · split
    · simp only [changeOver, releaseOrder_frame, knifeOvershoot_frame, emit_frame, setLane_frame]
      split
      · exact piece _
      · exact .refl _
    · exact .of_eq (by simp)
    · simp only [closeLane, releaseOrder_frame, emit_frame, setLane_frame]
      split
      · exact piece _
      · exact .refl _
    · exact .refl _

theorem laneAdvance_steady (lane : Lane) (report : List Crossing) (points : List (Nat × Nat)) (axis n : Nat) :
    KeepsSteady (laneAdvance lane report points axis n) := by
  suffices h : ∀ a, KeepsSteady (laneStretches lane report axis n a points) from h 1
  induction points with
  | nil => exact fun a => stretch_steady _ _ _ _ _
  | cons p ps ih => exact fun a => ((stretch_steady _ _ _ _ _).comp (laneArrival_steady _ _ _)).comp (ih _)

theorem startSetup_steady (n : Nat) (head : Setup) (rest : List Setup) : KeepsSteady (startSetup n head rest) := by
  intro s j
  unfold startSetup
  extract_lets former late overshoot s1 d s2 s3 s4 s5 s6
  have noticed : s4.stands = s.stands := by simp [s4, s3, s2, s1]
  have overrun : (if late = true then countOverrun n s4 else s4).stands = s4.stands := by
    split <;> simp
  have fed : s6.stands = s.stands := by
    simp only [s6, s5, feedOrders_frame, countEvent_frame, overrun, noticed]
  rw [stationsTakeQueue]
  simp only [loadAttempts_frame]
  exact .next replanAll_steady (.of_eq (congrArg (·.get j) fed))

theorem startAttempt_steady (n : Nat) : KeepsSteady (startAttempt n) := by
  intro s j
  have deferred : ∀ d, Steady (s.stands.get j) ((deferStart n d s).stands.get j) := fun d => .of_eq (by simp)
  simp only [startAttempt]
  split
  · exact .refl _
  · split
    · exact deferred _
    · split
      · exact deferred _
      · split
        · exact deferred _
        · exact startSetup_steady n _ _ s j

theorem breakCause_steady (c : BreakCause) : KeepsSteady (breakCause c) := by
  intro s j
  simp only [breakCause]
  split
  · simp only [breakNotice_frame]
    exact .refl _
  · have broken : (setCondition .brk (s.setLine { s.line with lastBreak := some c })).stands = s.stands := by simp
    simp only [breakNotice_frame]
    exact .next (enterReject_steady breakMark) (.of_eq (congrArg (·.get j) broken))

theorem evaluate_steady : KeepsSteady evaluate := fun s i => (evaluate_firedOrKept i s).steady

theorem settle_steady : KeepsSteady settle := by
  intro s i
  simp only [settle, arbitrate_frame]
  split
  · exact evaluate_steady s i
  · exact .refl _

/-! ## The tests of the stands (R64, R66, R67) -/

/-- The joint of a stand in board travel: it runs down, and at `due` it is placed, and watched for where a joint sensor stands. -/
structure Rides (due : Int) (sensor : Bool) (k : Nat) (a b : Stand) : Prop where
  running : b.running = a.running.map fun r => { r with usable := r.usable - k }
  bare : a.joint = none → b.joint = none
  pending : ∀ r, a.joint = some r → due < r - k → b.joint = some (r - k)
  placed : ∀ r, a.joint = some r → r - k ≤ due → b.joint = none ∧ (sensor = true → b.late = true)
  late : a.late = true → b.late = true
  plan : ∀ m, a.HoldsFor (k + m) → b.plan = a.plan.map (fun p => { p with fire := p.fire - k }) ∧ b.HoldsFor m

section
variable {due : Int} {sensor : Bool} {k : Nat} {a b c : Stand}

theorem Rides.trans {m : Nat} (h : Rides due sensor k a b) (h' : Rides due sensor m b c) : Rides due sensor (k + m) a c where
  running := by
    rw [h'.running, h.running, Option.map_map]
    simp only [Function.comp_def, Nat.sub_sub]
  bare := fun none => h'.bare (h.bare none)
  pending := fun r at' above => by
    have first := h.pending r at' (by omega)
    rw [h'.pending _ first (by omega)]
    exact congrArg some (by omega)
  placed := fun r at' reached => by
    by_cases early : r - k ≤ due
    · obtain ⟨gone, watched⟩ := h.placed r at' early
      exact ⟨h'.bare gone, fun fitted => h'.late (watched fitted)⟩
    · exact h'.placed _ (h.pending r at' (by omega)) (by omega)
  late := fun watched => h'.late (h.late watched)
  plan := fun d holds => by
    obtain ⟨plan, holds'⟩ := h.plan (m + d) (by rw [← Nat.add_assoc]; exact holds)
    obtain ⟨plan', holds''⟩ := h'.plan d holds'
    rw [plan', plan, Option.map_map]
    exact ⟨by simp only [Function.comp_def, Nat.sub_sub], holds''⟩

theorem Rides.after_steady (h : Steady a b) (h' : Rides due sensor k b c) : Rides due sensor k a c where
  running := by rw [h'.running, h.running]
  bare := fun none => h'.bare (h.joint.trans none)
  pending := fun r at' => h'.pending r (h.joint.trans at')
  placed := fun r at' => h'.placed r (h.joint.trans at')
  late := fun watched => h'.late (h.late.trans watched)
  plan := fun m holds => by
    obtain ⟨plan, holds'⟩ := h.plan _ holds
    rw [← plan]
    exact h'.plan m holds'

theorem Rides.then_steady (h : Rides due sensor k a b) (h' : Steady b c) : Rides due sensor k a c where
  running := by rw [h'.running, h.running]
  bare := fun none => h'.joint.trans (h.bare none)
  pending := fun r at' above => h'.joint.trans (h.pending r at' above)
  placed := fun r at' reached => by
    rw [h'.joint, h'.late]
    exact h.placed r at' reached
  late := fun watched => h'.late.trans (h.late watched)
  plan := fun m holds => by
    obtain ⟨plan, holds'⟩ := h.plan m holds
    rw [← plan]
    exact h'.plan m holds'

/-- A stand that has run down and then passes the tests has ridden the advance. -/
theorem Rides.of_advance (h : Rides due sensor 0 (a.advance k) b) : Rides due sensor k a b where
  running := by
    rw [h.running]
    simp [Stand.advance, Function.comp_def]
  bare := fun none => h.bare (by simp [Stand.advance, none])
  pending := fun r at' above => by
    rw [h.pending (r - k) (by simp [Stand.advance, at']) (by omega)]
    exact congrArg some (by omega)
  placed := fun r at' reached => h.placed (r - k) (by simp [Stand.advance, at']) (by omega)
  late := h.late
  plan := fun m holds => by
    have advanced : (a.advance k).HoldsFor (0 + m) := by
      rcases holds with firing | ⟨armed, r, fed, more⟩
      · exact .inl firing
      · exact .inr ⟨armed, { r with usable := r.usable - k }, by simp [Stand.advance, fed], by simp only; omega⟩
    obtain ⟨plan, holds'⟩ := h.plan m advanced
    rw [plan]
    simp [Stand.advance, Function.comp_def, holds']

end

/-- R57's place of a joint mark: at the knife, or the tolerance of the joint sensor later (R66, R67). -/
def jointDue (c : StandCfg) : Int := if c.jointSensor then -(c.tolerance : Int) else 0

/-- A pending joint that is not yet due rides on. -/
theorem Rides.of_waiting {due : Int} {sensor : Bool} {a : Stand} (waits : ∀ r, a.joint = some r → due < r) : Rides due sensor 0 a a where
  running := by simp
  bare := id
  pending := fun r at' _ => by simpa using at'
  placed := fun r at' reached => absurd (waits r at') (by omega)
  late := id
  plan := fun m holds => ⟨by simp, by rwa [Nat.zero_add] at holds⟩

section
variable (i : Fin 6)

/-- Placing the joint of a stand takes the joint from that stand alone (R57, R66). -/
theorem placeJoint_steady (source : JointSource) (pos widen : Nat) {s : State} {j : Fin 6} (apart : j ≠ i) :
    Steady (s.stands.get j) ((placeJoint i source pos widen s).stands.get j) := by
  simp only [placeJoint]
  refine .next (firingTest_steady i) ?_
  rw [setStand_stands, Six.get_set_ne _ _ _ _ apart]
  refine .next (enterReject_steady _) (.of_eq ?_)
  split <;> rfl

theorem placeJoint_takes (source : JointSource) (pos widen : Nat) (s : State) :
    ((placeJoint i source pos widen s).stands.get i).joint = none ∧ Steady (s.stands.get i)
      { (placeJoint i source pos widen s).stands.get i with joint := (s.stands.get i).joint } := by
  unfold placeJoint
  extract_lets cfg m a counted entered
  have placed : Steady (s.stands.get i) (entered.stands.get i) := by
    refine .next (enterReject_steady m) (.of_eq ?_)
    simp only [counted]
    split <;> rfl
  have fired : Steady { entered.stands.get i with joint := none }
      ((firingTest i (setStand i { entered.stands.get i with joint := none } entered)).stands.get i) := by
    have taken : (setStand i { entered.stands.get i with joint := none } entered).stands.get i =
        { entered.stands.get i with joint := none } := by
      rw [setStand_stands, Six.get_set_self]
    have test := firingTest_steady i (setStand i { entered.stands.get i with joint := none } entered) i
    rwa [taken] at test
  exact ⟨fired.joint, placed.trans ⟨fired.running, placed.joint.symm, fired.late, fired.plan⟩⟩

theorem jointTest_steady {s : State} {j : Fin 6} (apart : j ≠ i) : Steady (s.stands.get j) ((jointTest i s).stands.get j) := by
  simp only [jointTest]
  split
  · split
    · split
      · refine .trans (.of_eq ?_) (placeJoint_steady i _ _ _ apart)
        rw [setStand_stands, Six.get_set_ne _ _ _ _ apart]
      · exact .refl _
    · split
      · exact placeJoint_steady i _ _ _ apart
      · exact .refl _
  · exact .refl _

/-- A joint that is due is taken from the stand and, where a joint sensor stands, watched for (R66, R67). -/
theorem Rides.of_taken {due : Int} {sensor watch : Bool} {a b : Stand} {r : Int} (at' : a.joint = some r) (reached : r ≤ due)
    (gone : b.joint = none) (rest : Steady { a with late := watch } { b with joint := a.joint })
    (fitted : sensor = true → watch = true) (late : a.late = true → watch = true) : Rides due sensor 0 a b where
  running := by simpa using rest.running
  bare := fun _ => gone
  pending := fun r' is above => absurd (Option.some.inj (is.symm.trans at')) (by omega)
  placed := fun _ _ _ => ⟨gone, fun sensor => rest.late.trans (fitted sensor)⟩
  late := fun was => rest.late.trans (late was)
  plan := fun m holds => by
    rw [Nat.zero_add] at holds
    have ⟨plan, holds'⟩ := rest.plan m holds
    exact ⟨by simpa using plan, holds'⟩

theorem jointTest_of_waiting {s : State} (waits : ∀ r, (s.stands.get i).joint = some r → jointDue (s.cfg.stands.get i) < r) :
    jointTest i s = s := by
  simp only [jointTest]
  split
  · rename_i r at'
    have above := waits r at'
    split
    · rename_i sensor
      rw [jointDue, if_pos sensor] at above
      exact if_neg (by omega)
    · rename_i sensor
      rw [jointDue, if_neg sensor] at above
      exact if_neg (by omega)
  · rfl

/-- A joint that is due is placed; where a joint sensor stands the late watch begins first (R66, R67). -/
theorem jointTest_of_due {s : State} {r : Int} (at' : (s.stands.get i).joint = some r) (reached : r ≤ jointDue (s.cfg.stands.get i)) :
    ∃ watch widen u, ((s.cfg.stands.get i).jointSensor = true → watch = true) ∧ ((s.stands.get i).late = true → watch = true) ∧
      u.stands.get i = { s.stands.get i with late := watch } ∧ jointTest i s = placeJoint i .computed (-r).toNat widen u := by
  have tested : jointTest i s = if (s.cfg.stands.get i).jointSensor then
      if r ≤ -((s.cfg.stands.get i).tolerance : Int) then
        placeJoint i .computed (-r).toNat (s.cfg.stands.get i).tolerance (setStand i { s.stands.get i with late := true } s)
      else s
    else if r ≤ 0 then placeJoint i .computed (-r).toNat 0 s else s := by
    unfold jointTest
    rw [at']
  rw [tested]
  by_cases sensor : (s.cfg.stands.get i).jointSensor = true
  · rw [jointDue, if_pos sensor] at reached
    refine ⟨true, (s.cfg.stands.get i).tolerance, setStand i { s.stands.get i with late := true } s, fun _ => rfl, fun _ => rfl, ?_, ?_⟩
    · rw [setStand_stands, Six.get_set_self]
    · rw [if_pos sensor, if_pos reached]
  · rw [jointDue, if_neg sensor] at reached
    exact ⟨(s.stands.get i).late, 0, s, fun fitted => absurd fitted sensor, id, rfl, by rw [if_neg sensor, if_pos reached]⟩

theorem jointTest_rides (s : State) : Rides (jointDue (s.cfg.stands.get i)) (s.cfg.stands.get i).jointSensor 0 (s.stands.get i)
    ((jointTest i s).stands.get i) := by
  by_cases due : ∃ r, (s.stands.get i).joint = some r ∧ r ≤ jointDue (s.cfg.stands.get i)
  · obtain ⟨r, at', reached⟩ := due
    obtain ⟨watch, widen, u, fitted, late, watched, placed⟩ := jointTest_of_due i at' reached
    obtain ⟨gone, rest⟩ := placeJoint_takes i .computed (-r).toNat widen u
    rw [watched] at rest
    rw [placed]
    exact .of_taken at' reached gone rest fitted late
  · have waits : ∀ r, (s.stands.get i).joint = some r → jointDue (s.cfg.stands.get i) < r := fun r at' =>
      Int.not_le.mp fun reached => due ⟨r, at', reached⟩
    rw [jointTest_of_waiting i waits]
    exact .of_waiting waits

theorem exhaustionTest_steady : KeepsSteady (exhaustionTest i) := by
  intro s j
  simp only [exhaustionTest]
  split
  · rename_i empty
    obtain ⟨_, usable, tests⟩ := empty
    have out : Steady (s.stands.get i) { s.stands.get i with state := .exhausted, plan := none, reloaded := false } := by
      refine ⟨rfl, rfl, rfl, fun k holds => ?_⟩
      rcases holds with firing | ⟨_, r, fed, more⟩
      · rw [firing] at tests
        cases tests
      · simp only [Stand.usable, fed, Option.map_some, Option.getD_some] at usable
        omega
    exact .next (breakCause_steady _) (setStand_steady out j)
  · exact .refl _

theorem standTests_steady {s : State} {j : Fin 6} (apart : j ≠ i) : Steady (s.stands.get j) ((standTests i s).stands.get j) := by
  have before := ((lowTest_steady i).comp ((armingTest_steady i).comp (firingTest_steady i))) s j
  exact .next (exhaustionTest_steady i) (before.trans (jointTest_steady i apart))

theorem standTests_rides (s : State) : Rides (jointDue (s.cfg.stands.get i)) (s.cfg.stands.get i).jointSensor 0 (s.stands.get i)
    ((standTests i s).stands.get i) := by
  have before := ((lowTest_steady i).comp ((armingTest_steady i).comp (firingTest_steady i))) s i
  have joint := jointTest_rides i (firingTest i (armingTest i (lowTest i s)))
  simp only [firingTest_frame, armingTest_frame, lowTest_frame] at joint
  exact (joint.after_steady before).then_steady (exhaustionTest_steady i _ i)

theorem allStandTests_rides (s : State) : Rides (jointDue (s.cfg.stands.get i)) (s.cfg.stands.get i).jointSensor 0 (s.stands.get i)
    ((allStandTests s).stands.get i) := by
  have away : ∀ (js : List (Fin 6)) (s : State), i ∉ js → Steady (s.stands.get i)
      ((js.foldl (fun s j => standTests j s) s).stands.get i) ∧ (js.foldl (fun s j => standTests j s) s).cfg = s.cfg := by
    intro js
    induction js with
    | nil => exact fun s _ => ⟨.refl _, rfl⟩
    | cons j js ih =>
      intro s absent
      obtain ⟨steady, cfg⟩ := ih (standTests j s) fun mem => absent (List.mem_cons_of_mem _ mem)
      have apart : i ≠ j := fun same => absent (same ▸ List.mem_cons_self)
      exact ⟨(standTests_steady j apart).trans steady, cfg.trans (by simp)⟩
  obtain ⟨before, after, split, first, last⟩ := slots_split i
  simp only [allStandTests, split, List.foldl_append, List.foldl_cons]
  obtain ⟨steady, cfg⟩ := away before s first
  have own := standTests_rides i (before.foldl (fun s j => standTests j s) s)
  rw [cfg] at own
  exact (own.after_steady steady).then_steady (away after _ last).1

end

/-! ## A report of travel -/

theorem advanceStands_get (n : Nat) (s : State) (i : Fin 6) : (advanceStands n s).stands.get i = (s.stands.get i).advance n := by
  match i with
  | 0 | 1 | 2 | 3 | 4 | 5 => rfl

theorem atKnives_steady (n : Nat) (s : State) (i : Fin 6) : Steady ((s.stands.get i).advance n) ((atKnives n s).stands.get i) := by
  have moved : (removeMarks (travelled n s)).stands.get i = (s.stands.get i).advance n := by
    simp only [removeMarks_frame, travelled, advanceStands_get, advanceProduced_frame, advanceTracker_frame, restartRest_frame]
  simp only [atKnives, stationArrivals_frame, lateAdvance_frame]
  rw [← moved]
  exact defectLimitTest_steady _ i

/-- The state in which an advance makes the tests of the stands. -/
def beforeStandTests (n : Nat) (s : State) : State :=
  restartMark (startAttempt n (deliverLane .l (deliverLane .u (retireAll (afterKnives n s)))))

theorem boardAdvance_tests (n : Nat) (s : State) : boardAdvance n s = evaluate (allStandTests (beforeStandTests n s)) := rfl

theorem beforeStandTests_steady (n : Nat) (s : State) (i : Fin 6) :
    Steady ((s.stands.get i).advance n) ((beforeStandTests n s).stands.get i) := by
  have cut : Steady ((s.stands.get i).advance n) ((afterKnives n s).stands.get i) :=
    .next (laneAdvance_steady .l _ _ _ _) (.next (laneAdvance_steady .u _ _ _ _) (atKnives_steady n s i))
  simp only [beforeStandTests, restartMark_frame]
  refine .next (startAttempt_steady n) ?_
  simp only [deliverLane_frame, retireAll_frame]
  exact cut

/-- The stand has ridden `k` tenths under the joint configuration of the state. -/
def RidesIn (i : Fin 6) (k : Nat) (s t : State) : Prop :=
  Rides (jointDue (s.cfg.stands.get i)) (s.cfg.stands.get i).jointSensor k (s.stands.get i) (t.stands.get i)

theorem boardAdvance_rides (i : Fin 6) (n : Nat) (s : State) : RidesIn i n s (boardAdvance n s) := by
  have tested := allStandTests_rides i (beforeStandTests n s)
  have cfg : (beforeStandTests n s).cfg = s.cfg := by simp [beforeStandTests, afterKnives, atKnives_fields]
  rw [cfg] at tested
  rw [RidesIn, boardAdvance_tests]
  exact .of_advance ((tested.after_steady (beforeStandTests_steady n s i)).then_steady (evaluate_steady _ i))

theorem fullAdvances_rides (i : Fin 6) (q : Nat) : ∀ s, RidesIn i (1000 * (q + 1)) s (fullAdvances (q + 1) s) := by
  induction q with
  | zero => exact fun s => boardAdvance_rides i 1000 s
  | succ q ih =>
    intro s
    have rest := ih (boardAdvance 1000 s)
    have first := boardAdvance_rides i 1000 s
    simp only [RidesIn, boardAdvance_frame] at rest first ⊢
    have both := first.trans rest
    rwa [show 1000 + 1000 * (q + 1) = 1000 * (q + 1 + 1) by omega] at both

theorem deliverTravel_rides (i : Fin 6) {k : Nat} (pos : 0 < k) (s : State) : RidesIn i k s (deliverTravel k s) := by
  have whole : 1000 * (k / 1000) + k % 1000 = k := Nat.div_add_mod k 1000
  have delivered : deliverTravel k s = if k % 1000 = 0 then fullAdvances (k / 1000) s
      else boardAdvance (k % 1000) (fullAdvances (k / 1000) s) := rfl
  rw [delivered]
  cases full : k / 1000 with
  | zero =>
    have short : k % 1000 = k := by omega
    rw [short, if_neg (by omega)]
    exact boardAdvance_rides i k s
  | succ q =>
    rw [full] at whole
    have long := fullAdvances_rides i q s
    split
    · rwa [show 1000 * (q + 1) = k by omega] at long
    · have last := boardAdvance_rides i (k % 1000) (fullAdvances (q + 1) s)
      simp only [RidesIn, fullAdvances_frame] at last long ⊢
      have both := long.trans last
      rwa [whole] at both

/-- A report of the selected encoder moves every stand by its travel. -/
theorem encoderReport_rides (i : Fin 6) {k : Nat} (pos : 0 < k) (s : State) :
    RidesIn i k s (settle (encoderReport s.enc.selected k (begin s))) := by
  have travel := encoderReport_selected k (begin s) pos
  have kept : (if (begin s).enc.fallback then begin s else restartSilence (begin s)).stands = s.stands ∧
      (if (begin s).enc.fallback then begin s else restartSilence (begin s)).cfg = s.cfg := by
    split <;> exact ⟨rfl, rfl⟩
  have rides := deliverTravel_rides i pos (if (begin s).enc.fallback then begin s else restartSilence (begin s))
  rw [← travel, RidesIn, kept.1, kept.2] at rides
  exact rides.then_steady (settle_steady _ i)

end Sys2Proof.Machine
end

