-- ==== Sys2Proof/Proofs/CurrentSetup.lean ====
section
/-! PROOFS. The CURRENT setup in board travel (R12, R13, R36): what an advance keeps of its course, and its produced length. -/

namespace Sys2Proof.Machine
open Sys2Proof

/-- What a setup has made: its id, its produced length and where its mark is. -/
def Setup.made (t : Setup) : Nat × Nat × Option MarkState := (t.id, t.produced, t.markState)

/-- A setup's course: what it has made, and its planned length. -/
def Setup.course (t : Setup) : Nat × (Nat × Nat × Option MarkState) := (t.planned, t.made)

/-- The course of the CURRENT setup, and how many setups wait behind it. -/
def Schedule.course (d : Schedule) : Option (Nat × (Nat × Nat × Option MarkState)) × Nat := (d.current.map Setup.course, d.queued.length)

/-- What the CURRENT setup has made, and how many setups wait behind it. -/
def Schedule.made (d : Schedule) : Option (Nat × Nat × Option MarkState) × Nat := (d.current.map Setup.made, d.queued.length)

theorem Schedule.made_of_course {d e : Schedule} (h : e.course = d.course) : e.made = d.made := by
  have made : ∀ d : Schedule, d.made = (d.course.1.map Prod.snd, d.course.2) := fun d => by
    simp only [Schedule.made, Schedule.course, Option.map_map]
    rfl
  rw [made, made, h]

/-! ## What the cuts and the marks leave of the course -/

theorem updateSetup_course (id : Nat) {f : Setup → Setup} (h : ∀ t, (f t).course = t.course) (s : State) :
    (updateSetup id f s).sched.course = s.sched.course := by
  have each : Setup.course ∘ (fun t : Setup => if t.id == id then f t else t) = Setup.course := by
    funext t
    simp only [Function.comp_apply]
    split
    · exact h t
    · rfl
  refine Prod.ext ?_ (List.length_map _)
  exact (Option.map_map _ _ _).trans (congrArg (Option.map · s.sched.current) each)

theorem carryInto_length (s : State) (o outs : Nat) (ts : List Setup) : (carryInto s o outs ts).length = ts.length := by
  induction ts with
  | nil => rfl
  | cons t rest ih =>
    simp only [carryInto]
    split <;> simp [ih]

theorem handCut_course (lane : Lane) (cls : SheetClass) (o : Option Nat) (length : Nat) (uncovered : Bool) (axis : Nat) (s : State) :
    (handCut lane cls o length uncovered axis s).sched.course = s.sched.course := by
  have credit : ∀ outs (u : State), (creditSetup lane outs u).sched.course = u.sched.course := fun outs u => by
    simp only [creditSetup]
    split
    · exact updateSetup_course _ (fun t => by cases lane <;> rfl) _
    · rfl
  have tallied : ∀ outs o, (tallyCut lane cls outs s o).sched.course = s.sched.course := fun outs o => by
    cases o with
    | none => rfl
    | some o =>
      simp only [tallyCut]
      split
      · rw [credit]
        rfl
      · rfl
  have carried : ∀ outs (u : State) o, (carryCut cls outs uncovered u o).sched.course = u.sched.course := fun outs u o => by
    cases o with
    | none => rfl
    | some o =>
      simp only [carryCut, carryForward]
      split
      · split
        · simp [Schedule.course, carryInto_length]
        · rfl
      · rfl
  rw [handCut_eq]
  simp [carried, tallied]

theorem stretch_course (lane : Lane) (report : List Crossing) (axis a b : Nat) (s : State) :
    (stretch lane report axis a b s).sched.course = s.sched.course := by
  simp only [stretch]
  split
  · rfl
  · split <;> simp [handCut_course]

theorem closureTests_course (os : List Nat) (s : State) : (closureTests os s).sched.course = s.sched.course := by
  obtain ⟨orders, eq⟩ := closureTests_sched os s
  rw [eq]
  rfl

theorem laneArrival_course (lane : Lane) (id axis : Nat) (s : State) : (laneArrival lane id axis s).sched.course = s.sched.course := by
  have piece : ∀ r, (cutPiece lane r axis s).sched.course = s.sched.course := fun r => handCut_course _ _ _ _ _ _ _
  simp only [laneArrival]
  split
  · rfl
  · split
    · simp only [changeOver, releaseOrder, closureTests_course, knifeOvershoot_frame, emit_frame, setLane_frame]
      split
      · exact piece _
      · rfl
    · simp [enableLane]
    · simp only [closeLane, releaseOrder, closureTests_course, emit_frame, setLane_frame]
      split
      · exact piece _
      · rfl
    · rfl

theorem laneAdvance_course (lane : Lane) (report : List Crossing) (points : List (Nat × Nat)) (axis n : Nat) (s : State) :
    (laneAdvance lane report points axis n s).sched.course = s.sched.course := by
  suffices h : ∀ a (s : State), (laneStretches lane report axis n a points s).sched.course = s.sched.course from h 1 s
  induction points with
  | nil => exact fun a s => stretch_course _ _ _ _ _ _
  | cons p ps ih => exact fun a s => (ih _ _).trans ((laneArrival_course _ _ _ _).trans (stretch_course _ _ _ _ _ _))

theorem retireAll_course (s : State) : (retireAll s).sched.course = s.sched.course := by
  refine foldl_keeps (fun s : State => s.sched.course) (fun s t => retireSetup t s) (fun s t => ?_) _ _
  simp only [retireSetup, retireRecord, giveUpRetired_frame, closureTests_course, notice_frame]
  rfl

theorem deliverCut_course (lane : Lane) (b : Batch) (s : State) : (deliverCut lane b s).sched.course = s.sched.course := by
  have laid : ∀ o outs (u : State), (layCut lane o outs u).sched.course = u.sched.course := fun o outs u => by
    simp only [layCut, setGate_frame]
    rfl
  have diverted : ∀ o outs (u : State), (divertGood lane o outs u).sched.course = u.sched.course := fun o outs u => by
    simp only [divertGood, setGate_frame, countDiverted_frame]
    rfl
  have fork : ∀ o outs (u : State), (offerFork lane o outs u).sched.course = u.sched.course := fun o outs u => by
    simp only [offerFork]
    split
    · simp [laid]
    · exact diverted _ _ _
  have bundle : ∀ o outs (u : State), (offerBundle lane o outs u).sched.course = u.sched.course := fun o outs u => by
    simp only [offerBundle]
    split
    · split <;> simp [laid]
    · simp [fork]
  simp only [deliverCut]
  split
  · split
    · exact bundle _ _ _
    · exact fork _ _ _
    · exact diverted _ _ _
  · simp

theorem deliverLane_course (lane : Lane) (s : State) : (deliverLane lane s).sched.course = s.sched.course := by
  have front : ∀ b rest (u : State), (deliverFront lane b rest u).sched.course = u.sched.course := fun b rest u => by
    simp only [deliverFront]
    split <;> simp [closureTests_course, deliverCut_course]
  suffices h : ∀ k (s : State), (deliverReached lane k s).sched.course = s.sched.course from h _ s
  intro k
  induction k with
  | zero => exact fun s => rfl
  | succ k ih =>
    intro s
    simp only [deliverReached]
    split
    · split
      · rw [ih, front]
      · rfl
    · rfl

/-! ## What the reject marks leave of what the CURRENT setup has made -/

theorem raisePlanned_made (k : Nat) (s : State) : (raisePlanned k s).sched.made = s.sched.made := by
  simp only [raisePlanned]
  split
  · rename_i cur current
    simp [Schedule.made, Setup.made, current]
  · rfl

theorem defectLimitTest_made (s : State) : (defectLimitTest s).sched.made = s.sched.made := by
  have final : ∀ len (u : State), (takeFinalLength len u).sched.made = u.sched.made := fun len u => by
    simp only [takeFinalLength]
    split
    · split
      · rw [raisePlanned_made]
        rfl
      · rfl
    · rfl
  have closed : (closeSensorDefect s).sched.made = s.sched.made := by
    simp only [closeSensorDefect]
    split
    · split
      · split
        · rfl
        · rw [final]
          rfl
      · rfl
    · rfl
  simp only [defectLimitTest]
  split
  · simp [closed]
  · rfl

theorem enterReject_made (m : Mark) (s : State) : (enterReject m s).sched.made = s.sched.made := by
  have extension : ∀ q (u : State), (noteExtension m q u).sched.made = u.sched.made := fun q u => by
    simp only [noteExtension]
    split <;> rfl
  simp only [enterReject]
  split
  · split
    · simp [raisePlanned_made, extension]
    · simp [extension]
  · split <;> simp

theorem placeJoint_made (i : Fin 6) (source : JointSource) (pos widen : Nat) (s : State) :
    (placeJoint i source pos widen s).sched.made = s.sched.made := by
  simp only [placeJoint, firingTest_frame, setStand_frame, enterReject_made]
  split <;> rfl

theorem breakCause_made (c : BreakCause) (s : State) : (breakCause c s).sched.made = s.sched.made := by
  simp only [breakCause]
  split
  · simp
  · simp [enterReject_made]

theorem allStandTests_made (s : State) : (allStandTests s).sched.made = s.sched.made := by
  refine foldl_keeps (fun s : State => s.sched.made) (fun s i => standTests i s) (fun s i => ?_) _ _
  have joint : ∀ u : State, (jointTest i u).sched.made = u.sched.made := fun u => by
    simp only [jointTest]
    (repeat' split) <;> simp [placeJoint_made]
  have exhausted : ∀ u : State, (exhaustionTest i u).sched.made = u.sched.made := fun u => by
    simp only [exhaustionTest]
    split
    · simp [breakCause_made]
    · rfl
  simp [standTests, exhausted, joint]

/-! ## The produced length (R12) -/

/-- The lengths are growing: the setup's RUN_CHANGE mark is on the board, at or past the knife (R12). -/
abbrev Setup.InRun (t : Setup) : Prop := t.markState = some .onBoard ∨ t.markState = some .pastKnife

/-- A setup that runs goes on running. -/
def Continues (a b : Setup) : Prop := b.id = a.id ∧ b.produced = a.produced ∧ b.planned = a.planned ∧ b.InRun

/-- The CURRENT setup is `a` or goes on as it does, with `n` setups queued behind it. -/
def RunsOn (a : Setup) (n : Nat) (s : State) : Prop :=
  (∃ b, s.sched.current = some b ∧ Continues a b) ∧ s.sched.queued.length = n

theorem passKnife_runsOn {a : Setup} {n : Nat} {s : State} (m : Mark) (h : RunsOn a n s) : RunsOn a n (passKnife m s) := by
  obtain ⟨⟨b, current, id, produced, planned, runs⟩, length⟩ := h
  simp only [passKnife]
  split
  · rename_i passed _
    refine ⟨⟨if b.id == passed then { b with markState := some .pastKnife } else b, ?_, ?_⟩, (List.length_map _).trans length⟩
    · exact congrArg (Option.map _) current
    · split
      · exact ⟨id, produced, planned, .inr rfl⟩
      · exact ⟨id, produced, planned, runs⟩
  · exact ⟨⟨b, current, id, produced, planned, runs⟩, length⟩

/-- The marks that leave may take the mark of the CURRENT setup past the knife, and nothing else of it (R10). -/
theorem removeMarks_runsOn {a : Setup} {n : Nat} {s : State} (h : RunsOn a n s) : RunsOn a n (removeMarks s) := by
  have passed : ∀ (ms : List Mark) (u : State), RunsOn a n u → RunsOn a n (passKnifeAll ms u) := by
    intro ms
    induction ms with
    | nil => exact fun u h => h
    | cons m ms ih => exact fun u h => ih _ (passKnife_runsOn m h)
  exact passed _ _ h

theorem travelled_current {n : Nat} {s : State} {cur : Setup} (current : s.sched.current = some cur) (runs : cur.InRun) :
    (travelled n s).sched = { s.sched with current := some { cur with produced := fit48 (cur.produced + n) } } := by
  have grown : (travelled n s).sched = { s.sched with current := s.sched.current.map fun t =>
      if t.InRun then { t with produced := fit48 (t.produced + n) } else t } := rfl
  rw [grown, current, Option.map_some, if_pos runs]

/-- The state in which an advance makes its start attempt. -/
def beforeStart (n : Nat) (s : State) : State := deliverLane .l (deliverLane .u (retireAll (afterKnives n s)))

theorem beforeStart_course (n : Nat) (s : State) :
    (beforeStart n s).sched.course = (defectLimitTest (removeMarks (travelled n s))).sched.course := by
  simp only [beforeStart, deliverLane_course, retireAll_course, afterKnives, laneAdvance_course]
  simp [atKnives]

theorem beforeStart_made (n : Nat) (s : State) : (beforeStart n s).sched.made = (removeMarks (travelled n s)).sched.made := by
  rw [Schedule.made_of_course (beforeStart_course n s), defectLimitTest_made]

theorem defectLimitTest_of_none {s : State} (none : s.web.sensorDefect = none) : defectLimitTest s = s := by
  simp [defectLimitTest, none]

/-- A setup with planned length to run makes no start attempt due (R36). -/
theorem startAttempt_of_short (n : Nat) {s : State} {cur : Setup} (current : s.sched.current = some cur)
    (more : cur.produced < cur.planned) : startAttempt n s = s := by
  have none : attemptDue s = false := by
    simp only [attemptDue, current, decide_eq_false (Nat.not_le.mpr more), Bool.and_false]
  simp [startAttempt, none]

theorem restartMark_of_not_pending {s : State} (h : ∀ c, s.sched.current = some c → c.markState ≠ some .pending) :
    restartMark s = s := by
  simp only [restartMark]
  split
  · rename_i cur current
    exact if_neg fun ⟨_, pending, _⟩ => h cur current pending
  · rfl

theorem deferStart_made (n : Nat) (d : Deferral) (s : State) : (deferStart n d s).sched.made = s.sched.made := by
  have begun : (beginEpisode d s).sched.made = s.sched.made := by
    simp only [beginEpisode]
    split
    · rfl
    · cases d <;> simp <;> rfl
  simp only [deferStart]
  split <;> simp [begun]

/-- With no setup queued a start attempt starts none (R38). -/
theorem startAttempt_of_dry (n : Nat) {s : State} (dry : s.sched.made.2 = 0) : (startAttempt n s).sched.made = s.sched.made := by
  have empty : s.sched.queued = [] := List.length_eq_zero_iff.mp dry
  simp only [startAttempt, empty]
  split
  · rfl
  · exact deferStart_made _ _ _

/-- The start attempt of an advance starts none: none is queued, or the CURRENT setup has planned length to run (R36, R38). -/
theorem startAttempt_beforeStart {n : Nat} {s : State} {a : Setup} (runs : RunsOn a s.sched.queued.length (removeMarks (travelled n s)))
    (stays : s.sched.queued = [] ∨ (s.web.sensorDefect = .none ∧ a.produced < a.planned)) :
    (startAttempt n (beforeStart n s)).sched.made = (removeMarks (travelled n s)).sched.made := by
  obtain ⟨⟨b, present, _, produced, planned, _⟩, length⟩ := runs
  rw [← beforeStart_made]
  rcases stays with dry | ⟨idle, more⟩
  · refine startAttempt_of_dry n ?_
    rw [beforeStart_made, Schedule.made, length, dry]
    rfl
  · have idle' : (removeMarks (travelled n s)).web.sensorDefect = .none := by
      simp [removeMarks, travelled, advanceTracker, idle]
    have course : (beforeStart n s).sched.current.map Setup.course = some b.course := by
      have eq := congrArg Prod.fst (beforeStart_course n s)
      rw [defectLimitTest_of_none idle'] at eq
      simpa [Schedule.course, present] using eq
    obtain ⟨c, present', same⟩ := Option.map_eq_some_iff.mp course
    simp only [Setup.course, Setup.made, Prod.mk.injEq] at same
    obtain ⟨planned', _, produced', _⟩ := same
    rw [startAttempt_of_short n present' (by rw [produced', planned', produced, planned]; exact more)]

/-- A setup that runs through an advance without a start attempt grows by the advance (R12). -/
theorem boardAdvance_made {n : Nat} {s : State} {cur : Setup} (current : s.sched.current = some cur) (runs : cur.InRun)
    (stays : s.sched.queued = [] ∨ (s.web.sensorDefect = .none ∧ fit48 (cur.produced + n) < cur.planned)) :
    (boardAdvance n s).sched.current.map (fun t => (t.id, t.produced)) = some (cur.id, fit48 (cur.produced + n)) := by
  have moved : RunsOn { cur with produced := fit48 (cur.produced + n) } s.sched.queued.length (travelled n s) := by
    rw [RunsOn, travelled_current current runs]
    exact ⟨⟨_, rfl, rfl, rfl, rfl, runs⟩, rfl⟩
  have passed := removeMarks_runsOn moved
  have started := startAttempt_beforeStart passed stays
  obtain ⟨⟨b, present, id, produced, _, runs'⟩, _⟩ := passed
  simp only [Schedule.made, present, Option.map_some, Prod.mk.injEq] at started
  obtain ⟨made, _⟩ := started
  obtain ⟨c, present', same⟩ := Option.map_eq_some_iff.mp made
  have restarted : restartMark (startAttempt n (beforeStart n s)) = startAttempt n (beforeStart n s) := by
    refine restartMark_of_not_pending fun c' present'' pending => ?_
    cases present'.symm.trans present''
    simp only [Setup.made, Prod.mk.injEq] at same
    obtain ⟨_, _, state⟩ := same
    rcases runs' with on | past
    · cases on.symm.trans (state.symm.trans pending)
    · cases past.symm.trans (state.symm.trans pending)
  have tested : (boardAdvance n s).sched.current.map Setup.made = some b.made := by
    have before : beforeStandTests n s = restartMark (startAttempt n (beforeStart n s)) := rfl
    have eq := congrArg Prod.fst (allStandTests_made (startAttempt n (beforeStart n s)))
    simp only [Schedule.made] at eq
    rw [boardAdvance_tests, before, restarted]
    simp only [evaluate_frame]
    exact eq.trans made
  obtain ⟨d, last, same'⟩ := Option.map_eq_some_iff.mp tested
  simp only [Setup.made, Prod.mk.injEq] at same'
  obtain ⟨id', produced', _⟩ := same'
  rw [last, Option.map_some, id', produced', id, produced]

end Sys2Proof.Machine
end

