-- ==== Sys2Proof/Proofs/MarkTravel.lean ====
section
/-! PROOFS. The marks in board travel (R9, R12, R18, R19, R35): the reject marks of an advance that meets no joint and no exhaustion, and
what a report of travel makes of the marks. -/

namespace Sys2Proof.Machine
open Sys2Proof

/-! ## Stands that test nothing out -/

/-- A stand without a joint on its way and without a reel that has run out. -/
def Stand.Quiet (a : Stand) : Prop := a.joint = none ∧ ∀ r, a.running = some r → 0 < r.usable

theorem Steady.quiet {a b : Stand} (h : Steady a b) (quiet : a.Quiet) : b.Quiet := by
  obtain ⟨joint, running⟩ := quiet
  exact ⟨h.joint.trans joint, fun r fed => running r (h.running.symm.trans fed)⟩

theorem exhaustionTest_of_quiet {i : Fin 6} {s : State} (quiet : (s.stands.get i).Quiet) : exhaustionTest i s = s := by
  simp only [exhaustionTest]
  refine if_neg fun ⟨feeding, empty, _⟩ => ?_
  obtain ⟨r, fed⟩ := Option.isSome_iff_exists.mp feeding
  have more := quiet.2 r fed
  simp only [Stand.usable, fed, Option.map_some, Option.getD_some] at empty
  omega

/-- The tests of a quiet stand are those of its plan (R54, R56, R58). -/
theorem standTests_of_quiet {i : Fin 6} {s : State} (quiet : (s.stands.get i).Quiet) :
    standTests i s = firingTest i (armingTest i (lowTest i s)) := by
  have tested : ((firingTest i (armingTest i (lowTest i s))).stands.get i).Quiet :=
    (((lowTest_steady i).comp ((armingTest_steady i).comp (firingTest_steady i))) s i).quiet quiet
  have joint : jointTest i (firingTest i (armingTest i (lowTest i s))) = firingTest i (armingTest i (lowTest i s)) :=
    jointTest_of_waiting i fun r at' => absurd (tested.1.symm.trans at') (by simp)
  rw [standTests, joint, exhaustionTest_of_quiet tested]

/-- The tests of quiet stands enter no mark, stop no line and count nothing. -/
theorem allStandTests_of_quiet {s : State} (quiet : ∀ i, (s.stands.get i).Quiet) :
    (allStandTests s).web = s.web ∧ (allStandTests s).sched = s.sched ∧ (allStandTests s).line = s.line ∧
      (allStandTests s).accounts = s.accounts := by
  rw [allStandTests]
  generalize slots = is
  induction is generalizing s with
  | nil => exact ⟨rfl, rfl, rfl, rfl⟩
  | cons i is ih =>
    have own := standTests_of_quiet (quiet i)
    have quiet' : ∀ j, ((standTests i s).stands.get j).Quiet := fun j => by
      rw [own]
      exact (((lowTest_steady i).comp ((armingTest_steady i).comp (firingTest_steady i))) s j).quiet (quiet j)
    have rest := ih quiet'
    rw [own] at rest
    rw [List.foldl_cons, own]
    simpa using rest

/-! ## Stations without a pattern -/

/-- Neither station holds a pattern or a late engagement. -/
def Unpatterned (s : State) : Prop := ∀ x, (s.stations.get x).late = none ∧ (s.stations.get x).pattern = none

/-- The operation leaves the mark map alone, and stations without a pattern. -/
def LeavesMap (f : State → State) : Prop := ∀ s, Unpatterned s → (f s).web = s.web ∧ Unpatterned (f s)

theorem LeavesMap.foldl {α : Type} {f : State → α → State} (h : ∀ a, LeavesMap fun s => f s a) (xs : List α) :
    LeavesMap fun s => xs.foldl f s := by
  induction xs with
  | nil => exact fun s bare => ⟨rfl, bare⟩
  | cons x xs ih =>
    intro s bare
    obtain ⟨web, bare'⟩ := h x s bare
    obtain ⟨web', bare''⟩ := ih _ bare'
    exact ⟨web'.trans web, bare''⟩

theorem LeavesMap.comp {f g : State → State} (h : LeavesMap f) (h' : LeavesMap g) : LeavesMap fun s => g (f s) := by
  intro s bare
  obtain ⟨web, bare'⟩ := h s bare
  obtain ⟨web', bare''⟩ := h' _ bare'
  exact ⟨web'.trans web, bare''⟩

/-- An operation on other parts of the state leaves the mark map and the stations alone. -/
theorem LeavesMap.of_frame {f : State → State} (h : ∀ s, (f s).web = s.web ∧ (f s).stations = s.stations) : LeavesMap f := by
  intro s bare
  obtain ⟨web, stations⟩ := h s
  refine ⟨web, fun x => ?_⟩
  rw [stations]
  exact bare x

theorem stationArrival_leavesMap (x : Station) (id : Nat) : LeavesMap (stationArrival x id) := by
  intro s bare
  rw [stationArrival_empty (bare x).2]
  refine ⟨by simp, fun y => ?_⟩
  by_cases same : y = x
  · subst same
    rw [recordArrival_get]
    exact bare y
  · rw [recordArrival_stations, PerStation.get_set_ne _ _ _ _ same]
    exact bare y

theorem lateAdvance_leavesMap (n : Nat) (x : Station) : LeavesMap (lateAdvance n x) := by
  intro s bare
  rw [lateAdvance_of_none (bare x).1]
  exact ⟨rfl, bare⟩

theorem retireAll_leavesMap : LeavesMap retireAll := by
  have givesUp : ∀ id x, LeavesMap (giveUpRetired id x) := fun id x s bare => by
    have none : giveUpRetired id x s = s := by
      simp [giveUpRetired, (bare x).2]
    rw [none]
    exact ⟨rfl, bare⟩
  have recorded : ∀ t, LeavesMap (retireRecord t) := fun t => .of_frame fun s => by simp
  have retired : ∀ t, LeavesMap fun s => retireSetup t s := fun t =>
    ((recorded t).comp (givesUp t.id .a)).comp (givesUp t.id .b)
  exact fun s => LeavesMap.foldl (f := fun s t => retireSetup t s) retired _ s

/-- From the tracker to the start attempt nothing but the marks' own travel changes the map when no station holds a pattern. -/
theorem beforeStart_web {n : Nat} {s : State} (bare : Unpatterned s) :
    (beforeStart n s).web = (defectLimitTest (removeMarks (travelled n s))).web ∧ Unpatterned (beforeStart n s) := by
  have moved : Unpatterned (defectLimitTest (removeMarks (travelled n s))) := fun x => by
    have kept : (defectLimitTest (removeMarks (travelled n s))).stations = s.stations := by simp [travelled]
    rw [kept]
    exact bare x
  have arrivals : ∀ x ids, LeavesMap (stationArrivals x ids) := fun x ids =>
    .foldl (f := fun s id => stationArrival x id s) (fun id => stationArrival_leavesMap x id) ids
  have lanes : ∀ lane report points axis, LeavesMap (laneAdvance lane report points axis n) := fun lane report points axis =>
    .of_frame fun u => by simp
  have delivers : ∀ lane, LeavesMap (deliverLane lane) := fun lane => .of_frame fun u => by simp
  obtain ⟨knives, atKnives'⟩ := ((((lateAdvance_leavesMap n .a).comp (lateAdvance_leavesMap n .b)).comp (arrivals .a _)).comp
    (arrivals .b _)) _ moved
  obtain ⟨after, bare'⟩ := (((((lanes .u _ _ _).comp (lanes .l _ _ _)).comp retireAll_leavesMap).comp (delivers .u)).comp
    (delivers .l)) _ atKnives'
  exact ⟨after.trans knives, bare'⟩

/-! ## The marks of an advance -/

theorem travelled_web (n : Nat) (s : State) : (travelled n s).web = { s.web with
    marks := s.web.marks.map (Mark.advance n (defectGrowth s.web.sensorDefect n))
    sensorDefect := s.web.sensorDefect.map fun len => len + defectGrowth s.web.sensorDefect n } := rfl

theorem removeMarks_web (s : State) :
    (removeMarks s).web = { s.web with marks := s.web.marks.filter fun m => !leaves s.cfg.pk m } := by
  simp [removeMarks]

/-- A sensor defect of 50,000 tenths closes, and the sensor is stuck (R19). -/
theorem defectLimitTest_web (s : State) : (defectLimitTest s).web =
    if s.web.sensorDefect = some 50000 then { s.web with
      marks := s.web.marks.map fun m => { m with openSensor := false }
      sensorDefect := none
      sensorStuck := true }
    else s.web := by
  have limit : Config.defectLimit = 50000 := rfl
  simp only [defectLimitTest, limit]
  split
  · rename_i defect
    simp [setStuck, closeSensorDefect_web (s := s) (by simp [defect])]
  · rfl

/-! ## A setup that is not there -/

theorem removeMarks_current_none {s : State} (none : s.sched.current = .none) : (removeMarks s).sched.current = .none := by
  refine (foldl_keeps (fun s : State => s.sched.current = .none) (fun s m => passKnife m s) (fun s m => ?_) _ _).mpr none
  simp only [passKnife]
  split
  · simp [updateSetup]
  · rfl

theorem beforeStart_current_none {n : Nat} {s : State} (none : s.sched.current = .none) : (beforeStart n s).sched.current = .none := by
  have moved : (travelled n s).sched.current = .none := by
    simp [travelled, advanceProduced, none]
  have made := congrArg Prod.fst (beforeStart_made n s)
  simpa [Schedule.made, removeMarks_current_none moved] using made

/-- With no CURRENT setup and no line in RUN the advance starts none (R36, R40). -/
theorem startAttempt_of_none {n : Nat} {s : State} (none : s.sched.current = .none) (stopped : s.line.condition ≠ .run) :
    startAttempt n s = s := by
  have due : attemptDue s = false := by simp [attemptDue, none, stopped]
  simp [startAttempt, due]

/-- An advance with no CURRENT setup, the line stopped, the stations without a pattern and the stands quiet moves the marks alone. -/
theorem boardAdvance_web {n : Nat} {s : State} (none : s.sched.current = .none) (stopped : s.line.condition ≠ .run)
    (bare : Unpatterned s) (quiet : ∀ i, ((s.stands.get i).advance n).Quiet) :
    (boardAdvance n s).web = (defectLimitTest (removeMarks (travelled n s))).web := by
  have absent := beforeStart_current_none (n := n) none
  have line : (beforeStart n s).line = s.line := by simp [beforeStart, afterKnives, atKnives, travelled]
  have waits : startAttempt n (beforeStart n s) = beforeStart n s := startAttempt_of_none absent (by rw [line]; exact stopped)
  have before : beforeStandTests n s = beforeStart n s := by
    have started : beforeStandTests n s = restartMark (startAttempt n (beforeStart n s)) := rfl
    rw [started, waits]
    exact restartMark_of_not_pending fun c current => absurd (absent.symm.trans current) (by simp)
  have tested := (allStandTests_of_quiet fun i => (beforeStandTests_steady n s i).quiet (quiet i)).1
  rw [boardAdvance_tests]
  simp only [evaluate_frame]
  rw [tested, before, (beforeStart_web bare).1]

/-- A stand that holds more web than an advance, and no joint, is quiet after it. -/
theorem Stand.quiet_advance {a : Stand} {n : Nat} (bare : a.joint = none) (more : ∀ r, a.running = some r → n < r.usable) :
    (a.advance n).Quiet := by
  refine ⟨by simp [Stand.advance, bare], fun r fed => ?_⟩
  obtain ⟨r', fed', rfl⟩ := Option.map_eq_some_iff.mp fed
  exact Nat.sub_pos_of_lt (more r' fed')

theorem leaves_eq_false (pk : Nat) (m : Mark) : leaves pk m = false ↔ m.pos < pk + m.trail := by
  rw [leaves, decide_eq_false_iff_not, Mark.upEnd]
  omega

/-- The map after an advance that moves the marks alone; `g` is the growth of an open sensor defect (R9, R12, R19, R35). -/
theorem tracked_web (n : Nat) (s : State) {g : Nat} (growth : g = defectGrowth s.web.sensorDefect n) :
    let grow := fun v n : Nat => min (2 ^ 32 - 1) (v + n)
    let closes := s.web.sensorDefect.any fun len => len + g == 50000
    let moved := fun m : Mark => { m with
      pos := grow m.pos n, trail := if m.openBreak then grow m.trail n else if m.openSensor then grow m.trail g else m.trail }
    let left := (s.web.marks.map moved).filter fun m => decide (m.pos < s.cfg.pk + m.trail)
    (defectLimitTest (removeMarks (travelled n s))).web = { s.web with
      marks := if closes then left.map fun m => { m with openSensor := false } else left
      sensorDefect := if closes then none else s.web.sensorDefect.map fun len => len + g
      sensorStuck := closes || s.web.sensorStuck } := by
  intro grow closes moved left
  have cfg : (travelled n s).cfg = s.cfg := by simp [travelled]
  have advance : Mark.advance n g = moved := by
    funext m
    have grew : ∀ v k, grown v k = grow v k := fun v k => Nat.min_comm _ _
    simp only [Mark.advance, grew, moved]
  have stay : (fun m => !leaves s.cfg.pk m) = fun m => decide (m.pos < s.cfg.pk + m.trail) := by
    funext m
    rw [Bool.eq_iff_iff, Bool.not_eq_true', decide_eq_true_eq, leaves_eq_false]
  have reaches : (s.web.sensorDefect.map fun len => len + g) = some 50000 ↔ closes = true := by
    simp only [closes]
    cases s.web.sensorDefect <;> simp
  simp only [defectLimitTest_web, removeMarks_web, travelled_web, cfg, ← growth, advance, stay, reaches]
  split
  · rename_i full
    simp [full, left]
  · rename_i short
    simp [short, left]

/-- Settles O5: the stands ride every advance of the report; in a report of one advance the CURRENT setup runs on, or the marks alone
move. -/
theorem travelMovesMarksSetupAndReels : Obligations.TravelMovesMarksSetupAndReels := by
  rintro e k s rfl pos
  have one : k ≤ 1000 → settle (encoderReport s.enc.selected k (begin s)) = settle (boardAdvance k (reported s)) := fun le =>
    Host.Outcome.next.inj ((exec_encoderReport _ k s).symm.trans (exec_selected pos le s))
  have kept : (reported s).stands = s.stands ∧ (reported s).stations = s.stations ∧ (reported s).line = s.line := by
    simp only [reported]
    split <;> exact ⟨rfl, rfl, rfl⟩
  obtain ⟨stands, stations, line⟩ := kept
  obtain ⟨cfg, web, sched, _⟩ := reported_frame s
  refine ⟨_, exec_encoderReport _ k s, fun i => ?_, fun le cur current runs stays => ?_, fun le none stopped bare quiet => ?_⟩
  · obtain ⟨running, joint, pending, placed, _, plan⟩ := encoderReport_rides i pos s
    refine ⟨running, joint, pending, placed, fun p planned holds => ?_⟩
    obtain ⟨plan, holds'⟩ := plan 0 holds
    rw [planned] at plan
    exact ⟨plan, holds'.symm.imp And.left id⟩
  · rw [one le]
    simp only [settle_frame]
    exact boardAdvance_made (by rw [sched]; exact current) runs (by rw [sched, web]; exact stays)
  · rw [one le]
    simp only [settle_frame]
    rw [boardAdvance_web (by rw [sched]; exact none) (by rw [line]; exact stopped) (by rw [Unpatterned, stations]; exact bare)
      (fun i => by rw [stands]; exact Stand.quiet_advance (quiet i).1 (quiet i).2)]
    have tracked := tracked_web k (reported s) rfl
    rw [web, cfg] at tracked
    exact tracked

end Sys2Proof.Machine
end

