-- ==== Sys2Proof/Proofs/StartAttempts.lean ====
section
/-! PROOFS. The start attempt (R36, R37, R38), what a start leaves of the orders and of the mark map (R26, R75, R79), and the restart
mark of a setup kept by a purge (R158). -/

namespace Sys2Proof.Machine
open Sys2Proof

/-! ## The attempt is due, or not (R36) -/

/-- R36: a CURRENT setup that runs has reached its planned length, or none is CURRENT and the line runs. -/
def StartDue (s : State) : Prop :=
  (∃ c, s.sched.current = some c ∧ c.InRun ∧ c.planned ≤ c.produced) ∨ (s.sched.current = none ∧ s.line.condition = .run)

theorem attemptDue_iff (s : State) : attemptDue s = true ↔ StartDue s := by
  simp only [attemptDue, StartDue]
  cases s.sched.current <;> simp

section
variable {n : Nat} {s : State} {head : Setup} {rest : List Setup}

theorem startAttempt_of_not_due (due : ¬StartDue s) : startAttempt n s = s := by
  have none : attemptDue s = false := Bool.eq_false_iff.mpr fun h => due ((attemptDue_iff s).mp h)
  simp [startAttempt, none]

theorem startAttempt_of_empty (due : StartDue s) (empty : s.sched.queued = []) : startAttempt n s = deferStart n .dry s := by
  simp [startAttempt, (attemptDue_iff s).mpr due, empty]

theorem startAttempt_of_queued (due : StartDue s) (queued : s.sched.queued = head :: rest) : startAttempt n s =
    if head.held then deferStart n .held s
    else if freeRecords s ≤ Config.poolReserve then deferStart n .starved s
    else startSetup n head rest s := by
  simp [startAttempt, (attemptDue_iff s).mpr due, queued]

theorem startAttempt_of_held (due : StartDue s) (queued : s.sched.queued = head :: rest) (held : head.held = true) :
    startAttempt n s = deferStart n .held s := by
  rw [startAttempt_of_queued due queued, if_pos held]

theorem freeRecords_le_iff (s : State) : freeRecords s ≤ Config.poolReserve ↔ 120 ≤ s.web.marks.length := by
  have size : Config.poolSize = 128 := rfl
  have reserve : Config.poolReserve = 8 := rfl
  rw [freeRecords, size, reserve]
  omega

theorem startAttempt_of_starved (due : StartDue s) (queued : s.sched.queued = head :: rest) (released : head.held = false)
    (full : 120 ≤ s.web.marks.length) : startAttempt n s = deferStart n .starved s := by
  rw [startAttempt_of_queued due queued, if_neg (by simp [released]), if_pos ((freeRecords_le_iff s).mpr full)]

theorem startAttempt_of_head (due : StartDue s) (queued : s.sched.queued = head :: rest) (released : head.held = false)
    (room : s.web.marks.length < 120) : startAttempt n s = startSetup n head rest s := by
  have free : ¬freeRecords s ≤ Config.poolReserve := fun full => absurd ((freeRecords_le_iff s).mp full) (by omega)
  rw [startAttempt_of_queued due queued, if_neg (by simp [released]), if_neg free]

end

/-! ## A deferral (R38) -/

/-- The state of a deferral before its notice: the episode, the accounts of its beginning, and the overrun of the advance. -/
def deferred (n : Nat) (d : Deferral) (s : State) : State :=
  { s with
    sched := { s.sched with episode := some d }
    accounts := { s.accounts with
      heldDry := if s.sched.episode ≠ some d ∧ d ≠ .starved then min (2 ^ 48 - 1) (s.accounts.heldDry + 1) else s.accounts.heldDry
      starvation := if s.sched.episode ≠ some d ∧ d = .starved then min (2 ^ 48 - 1) (s.accounts.starvation + 1)
        else s.accounts.starvation
      overrun := (s.sched.current.map fun c => min (2 ^ 48 - 1)
        (s.accounts.overrun + if c.produced - n < c.planned then c.produced - c.planned else n)).getD s.accounts.overrun } }

/-- The accounts of a deferral's beginning (R38). -/
def episodeAccounts (d : Deferral) (a : Accounts) : Accounts :=
  match d with
  | .starved => { a with starvation := raised a.starvation 1 }
  | .dry | .held => { a with heldDry := raised a.heldDry 1 }

theorem beginEpisode_of_fresh {d : Deferral} {s : State} (fresh : s.sched.episode ≠ some d) : beginEpisode d s =
    countEvent .deferrals ((deferralNotice d (s.setSched { s.sched with episode := some d })).setAccounts
      (episodeAccounts d s.accounts)) := by
  simp only [beginEpisode, if_neg fresh]
  cases d <;> rfl

theorem deferStart_of_old {n : Nat} {d : Deferral} {s : State} (old : s.sched.episode = some d) : deferStart n d s = deferred n d s := by
  have same : ({ s.sched with episode := some d } : Schedule) = s.sched := by rw [← old]
  simp only [deferStart, beginEpisode, deferred, same, old, ne_eq, not_true, false_and, if_false, if_true]
  cases s.sched.current with
  | none => rfl
  | some c => simp [countOverrun, excessRun, raised_eq, State.setAccounts]

theorem deferred_of_fresh {n : Nat} {d : Deferral} {s : State} (fresh : s.sched.episode ≠ some d) : deferred n d s =
    (s.setSched { s.sched with episode := some d }).setAccounts
      { episodeAccounts d s.accounts with overrun := (deferred n d s).accounts.overrun } := by
  cases d <;> simp [deferred, episodeAccounts, fresh, State.setAccounts, State.setSched, raised_eq]

/-- A deferral begins with its notice and with the event that the counters take (R38, R177). -/
theorem deferStart_of_fresh {n : Nat} {d : Deferral} {s : State} (fresh : s.sched.episode ≠ some d) :
    deferStart n d s = countEvent .deferrals (deferralNotice d (deferred n d s)) := by
  have moved : ∀ (u : State) (a : Accounts), deferralNotice d (u.setAccounts a) = (deferralNotice d u).setAccounts a := fun u a => by
    cases d <;> rfl
  rw [deferred_of_fresh fresh, moved, countEvent, handOff_setAccounts]
  simp only [deferStart, beginEpisode_of_fresh fresh, countEvent, handOff_setAccounts]
  cases current : s.sched.current with
  | none =>
    have overrun : (deferred n d s).accounts.overrun = (episodeAccounts d s.accounts).overrun := by
      cases d <;> simp [deferred, current, episodeAccounts]
    rw [overrun]
  | some c =>
    have overrun : (deferred n d s).accounts.overrun = raised (episodeAccounts d s.accounts).overrun (excessRun n c) := by
      cases d <;> simp [deferred, current, episodeAccounts, raised_eq, excessRun]
    rw [overrun]
    rfl

/-! ## The orders at a start (R26) -/

/-- An order that a setup ON_LINE names does not close. -/
theorem closureTest_of_online {o : Nat} {s : State} (named : s.sched.online.any (fun t => t.names o) = true) : closureTest o s = s := by
  simp only [closureTest]
  split
  · rename_i r found
    have id := findOrder_id found
    refine if_neg ?_
    simp [mayClose, id, named]
  · rfl

/-- The order as its last naming setup leaves the lists ahead: ACTIVE, it is FED (R26). -/
def OrderRec.leave (ahead : Bool) (r : OrderRec) : OrderRec :=
  if r.state = .active ∧ ahead = false then { r with state := .fed } else r

theorem OrderRec.leave_leave (ahead : Bool) (r : OrderRec) : (r.leave ahead).leave ahead = r.leave ahead := by
  simp only [OrderRec.leave]
  split <;> simp_all

/-- The orders of a list, changed each by itself, are found as they were. -/
theorem find_map_orders {f : OrderRec → OrderRec} (keeps : ∀ r, (f r).id = r.id) (orders : List OrderRec) (x : Nat) :
    (orders.map f).find? (fun r => r.id == x) = (orders.find? fun r => r.id == x).map f := by
  have same : ((fun r : OrderRec => r.id == x) ∘ f) = fun r => r.id == x := by
    funext r
    simp only [Function.comp_apply, keeps]
  rw [List.find?_map, same]

section
variable {s t : State} {os : List Nat}

/-- The orders of `os` have left the lists ahead, and the rest of the schedule is as it was. -/
def Left (os : List Nat) (s t : State) : Prop :=
  (∃ orders, t.sched = { s.sched with orders := orders }) ∧
    ∀ x, findOrder t x = (findOrder s x).map fun r => if x ∈ os then r.leave (namedAhead s x) else r

theorem feedOrder_left {o : Nat} (named : s.sched.online.any (fun t => t.names o) = true) : Left [o] s (feedOrder o s) := by
  have unchanged : (∀ r, findOrder s o = some r → r.leave (namedAhead s o) = r) → Left [o] s s := fun same => by
    refine ⟨⟨_, rfl⟩, fun x => ?_⟩
    cases found : findOrder s x with
    | none => rfl
    | some r =>
      simp only [List.mem_singleton, Option.map_some]
      split
      · rename_i at'
        subst at'
        rw [same r found]
      · rfl
  simp only [feedOrder]
  split
  · rename_i r found
    split
    · rename_i leaves
      simp only [Bool.and_eq_true, beq_iff_eq, Bool.not_eq_true'] at leaves
      obtain ⟨active, last⟩ := leaves
      have stays : ∀ f, closureTest o (updateOrder o f s) = updateOrder o f s := fun f => closureTest_of_online named
      rw [stays]
      refine ⟨⟨_, rfl⟩, fun x => ?_⟩
      have updated : findOrder (updateOrder o (fun q => { q with state := .fed }) s) x =
          (findOrder s x).map fun q => if q.id == o then { q with state := .fed } else q :=
        find_map_orders (fun q => by split <;> rfl) _ _
      rw [updated]
      cases found' : findOrder s x with
      | none => rfl
      | some q =>
        have id := findOrder_id found'
        simp only [Option.map_some, id, beq_iff_eq, List.mem_singleton]
        split
        · rename_i at'
          subst at'
          cases found.symm.trans found'
          simp [OrderRec.leave, active, last, id]
        · rfl
    · rename_i stays
      refine unchanged fun q found' => if_neg fun ⟨active, last⟩ => stays ?_
      cases found.symm.trans found'
      simp [active, last]
  · rename_i absent
    exact unchanged fun q found => absurd (absent.symm.trans found) (by simp)

/-- The orders of a setup that has gone ON_LINE: FED where no setup ahead names them (R26). -/
theorem feedOrders_left (os : List Nat) : ∀ {s : State}, (∀ o ∈ os, s.sched.online.any (fun t => t.names o) = true) →
    Left os s (feedOrders os s) := by
  induction os with
  | nil =>
    intro s _
    refine ⟨⟨_, rfl⟩, fun x => ?_⟩
    cases found : findOrder s x <;> simp [feedOrders, found]
  | cons o os ih =>
    intro s named
    obtain ⟨⟨orders, sched⟩, found⟩ := feedOrder_left (named o List.mem_cons_self)
    obtain ⟨⟨orders', sched'⟩, found'⟩ := ih (s := feedOrder o s) fun x mem => by
      rw [sched]
      exact named x (List.mem_cons_of_mem _ mem)
    have ahead : ∀ x, namedAhead (feedOrder o s) x = namedAhead s x := fun x => by
      simp only [namedAhead, sched]
    have rest : feedOrders (o :: os) s = feedOrders os (feedOrder o s) := rfl
    rw [rest]
    refine ⟨⟨orders', by rw [sched', sched]⟩, fun x => ?_⟩
    rw [found', found, Option.map_map, ahead]
    refine congrArg (Option.map · (findOrder s x)) (funext fun r => ?_)
    by_cases later : x ∈ os
    · by_cases first : x = o <;> simp [first, later, OrderRec.leave_leave]
    · simp [later]

end

/-! ## The mark map at a start (R75, R79) -/

/-- The map without its trailing extents. -/
def WebMap.bare (w : WebMap) : WebMap := { w with marks := w.marks.map fun m : Mark => { m with trail := 0 } }

theorem growRunMark_bare (id k : Nat) (s : State) : (growRunMark id k s).web.bare = s.web.bare := by
  have each : (fun m : Mark => ({ m with trail := 0 } : Mark)) ∘ (fun q : Mark =>
      if q.kind = .runChange id then { q with trail := min (2 ^ 32 - 1) (q.trail + k) } else q) = fun m => { m with trail := 0 } := by
    funext m
    simp only [Function.comp_apply]
    split <;> rfl
  simp only [growRunMark_web, WebMap.bare, List.map_map, each]

theorem beginLate_bare (x : Station) (id : Nat) (s : State) : (beginLate x id s).web.bare = s.web.bare := by
  cases mark : runMark s id with
  | none => simp only [beginLate, mark]
  | some m =>
    rw [beginLate_of_mark mark]
    simp [growRunMark_bare]

theorem loadAttempt_bare (x : Station) (s : State) : (loadAttempt x s).web.bare = s.web.bare := by
  simp only [loadAttempt]
  split
  · split
    · split <;> simp [beginLate_bare]
    · rfl
  · rfl

theorem loadAttempts_bare (x : Station) (s : State) : (loadAttempts x s).web.bare = s.web.bare := by
  simp only [loadAttempts, loadAttempt_bare]

/-- No RUN_CHANGE mark stands at or past a FREE station. -/
def Ahead (s : State) : Prop :=
  ∀ x, (s.stations.get x).state = .free → ∀ m ∈ s.web.marks, m.isReject = true ∨ m.pos < stationPosition s x

theorem markBeyond_of_ahead {s : State} {x : Station} (ahead : Ahead s) (free : (s.stations.get x).state = .free) (id : Nat) :
    markBeyond s id x = false := by
  simp only [markBeyond]
  split
  · rename_i m found
    have kind := List.find?_some found
    simp only [beq_iff_eq] at kind
    rcases ahead x free m (List.mem_of_find?_eq_some found) with reject | short
    · simp [Mark.isReject, kind] at reject
    · exact decide_eq_false (by omega)
  · rfl

/-- A FREE station that loads a setup in time grows no mark (R75). -/
theorem loadAttempt_ahead {s : State} (ahead : Ahead s) (x : Station) : (loadAttempt x s).web = s.web ∧ Ahead (loadAttempt x s) := by
  have web : (loadAttempt x s).web = s.web := by
    by_cases free : (s.stations.get x).state = .free
    · cases found : candidate s x with
      | none => rw [loadAttempt_of_none found]
      | some t =>
        rw [loadAttempt_of_candidate free found]
        simp [markBeyond_of_ahead ahead free]
    · rw [loadAttempt_of_busy free]
  refine ⟨web, fun y free m mem => ?_⟩
  have was : (s.stations.get y).state = .free := by
    by_cases busy : (s.stations.get y).state = .free
    · exact busy
    · rwa [loadAttempt_busy y x busy] at free
  rw [web] at mem
  have position : stationPosition (loadAttempt x s) y = stationPosition s y := by
    cases y <;> simp [stationPosition]
  rw [position]
  exact ahead y was m mem

theorem loadAttempts_ahead {s : State} (ahead : Ahead s) (x : Station) : (loadAttempts x s).web = s.web := by
  obtain ⟨web, ahead'⟩ := loadAttempt_ahead ahead x
  obtain ⟨web', ahead''⟩ := loadAttempt_ahead ahead' x.other
  exact (loadAttempt_ahead ahead'' x).1.trans (web'.trans web)

end Sys2Proof.Machine
end

