-- ==== Sys2Proof/Proofs/Starts.lean ====
section
/-! PROOFS. What a start does (R26, R37, R158): the CURRENT setup, the orders, the mark map, the overrun and the notice. -/

namespace Sys2Proof.Machine
open Sys2Proof

section
variable (n : Nat) (head : Setup) (rest : List Setup) (s : State)

/-- The start ends a deferral: the planned length had come before the advance (R38). -/
def endsDeferral : Bool := s.sched.current.any fun c => decide (c.planned ≤ c.produced - n)

/-- The length that the former setup has run too far (R37). -/
def startOvershoot : Nat := if endsDeferral n s then 0 else (s.sched.current.map fun c => c.produced - c.planned).getD 0

/-- The schedule of a start, before its orders change (R37). -/
def startedSched : Schedule := { s.sched with
  queued := rest
  current := some { head with markState := some .onBoard, produced := startOvershoot n s }
  online := s.sched.online ++ s.sched.current.toList
  episode := none
  openExtension := none }

/-- A start up to its notice. -/
def started : State :=
  startedNotice head (s.sched.current.map Setup.id) (startOvershoot n s) (activate .queued head.orderIds
    ((enterRunChange (startOvershoot n s) head.waste head.id s).setSched (startedSched n head rest s)))

/-- A start whose overrun and event are counted. -/
def countedStart : State :=
  countEvent .setupStarts (if endsDeferral n s then countOverrun n (started n head rest s) else started n head rest s)

/-- The orders of the former setup. -/
def formerOrders : List Nat := (s.sched.current.map Setup.orderIds).getD []

theorem startSetup_eq : startSetup n head rest s =
    stationsTakeQueue (replanAll (feedOrders (formerOrders s) (countedStart n head rest s))) := by
  have sched : ∀ k, (enterRunChange k head.waste head.id s).sched = s.sched := fun k => by simp
  unfold startSetup
  extract_lets former late overshoot s1 d s2 s3 s4 s5 s6
  have ends : late = endsDeferral n s := by
    simp only [late, former, endsDeferral]
    cases s.sched.current <;> rfl
  have long : overshoot = startOvershoot n s := by
    simp only [overshoot, former, startOvershoot, ends]
    cases s.sched.current <;> simp
  simp only [s6, s5, s4, s3, s2, s1, d, former, ends, long, sched, countedStart, started, startedSched, formerOrders]

theorem countedStart_sched : (countedStart n head rest s).sched = { startedSched n head rest s with
    orders := s.sched.orders.map fun r =>
      if head.orderIds.contains r.id && r.state == .queued then { r with state := .active } else r } := by
  have overrun : (if endsDeferral n s then countOverrun n (started n head rest s) else started n head rest s).sched =
      (started n head rest s).sched := by
    split <;> rfl
  simp only [countedStart, countEvent_frame, overrun]
  rfl

theorem countedStart_fields : (countedStart n head rest s).web = mapWithRunChange head.id (startOvershoot n s) head.waste s ∧
    (countedStart n head rest s).line = { s.line with rethread := false } ∧
    (countedStart n head rest s).stations = s.stations ∧ (countedStart n head rest s).cfg = s.cfg ∧
    (countedStart n head rest s).accounts.overrun =
      if endsDeferral n s then min (2 ^ 48 - 1) (s.accounts.overrun + n) else s.accounts.overrun := by
  have shown : (started n head rest s).web = mapWithRunChange head.id (startOvershoot n s) head.waste s ∧
      (started n head rest s).line = { s.line with rethread := false } ∧ (started n head rest s).stations = s.stations ∧
      (started n head rest s).cfg = s.cfg ∧ (started n head rest s).accounts = s.accounts := ⟨rfl, rfl, rfl, rfl, rfl⟩
  obtain ⟨web, line, stations, cfg, accounts⟩ := shown
  simp only [countedStart, countEvent_frame]
  split
  · refine ⟨web, line, stations, cfg, ?_⟩
    rw [← raised_eq, ← accounts]
    rfl
  · exact ⟨web, line, stations, cfg, by rw [accounts]⟩

/-- A setup names its orders. -/
theorem names_of_mem {t : Setup} {o : Nat} (mem : o ∈ t.orderIds) : t.names o = true := by
  simp only [Setup.orderIds, List.mem_eraseDups, List.mem_map] at mem
  obtain ⟨r, run, rfl⟩ := mem
  exact List.any_eq_true.mpr ⟨r, run, by simp⟩

/-- The former setup is ON_LINE, and names its orders. -/
theorem formerOrders_named (o : Nat) (mem : o ∈ formerOrders s) :
    (countedStart n head rest s).sched.online.any (fun t => t.names o) = true := by
  rw [countedStart_sched]
  cases current : s.sched.current with
  | none => simp [formerOrders, current] at mem
  | some c =>
    have own : c.names o = true := names_of_mem (by simpa [formerOrders, current] using mem)
    simp [startedSched, current, own]

/-- The state of a start before the stands and the stations take it up. -/
theorem fedStart_left : Left (formerOrders s) (countedStart n head rest s) (feedOrders (formerOrders s) (countedStart n head rest s)) :=
  feedOrders_left _ (formerOrders_named n head rest s)

theorem startSetup_sched : ∃ orders, (startSetup n head rest s).sched = { startedSched n head rest s with orders := orders } := by
  obtain ⟨⟨orders, sched⟩, _⟩ := fedStart_left n head rest s
  refine ⟨orders, ?_⟩
  rw [startSetup_eq]
  simp only [stationsTakeQueue, loadAttempts_frame, replanAll_frame]
  rw [sched, countedStart_sched]

theorem startSetup_orders (o : Nat) : findOrder (startSetup n head rest s) o = (findOrder s o).map fun r => { r with
    state := if o ∈ head.orderIds ∧ r.state = .queued then .active
      else if o ∈ formerOrders s ∧ r.state = .active ∧ (head :: rest).all (fun q => !q.names o) = true then .fed
      else r.state } := by
  obtain ⟨_, found⟩ := fedStart_left n head rest s
  have same : findOrder (startSetup n head rest s) o = findOrder (feedOrders (formerOrders s) (countedStart n head rest s)) o := by
    refine findOrder_congr ?_ o
    rw [startSetup_eq]
    simp [stationsTakeQueue]
  have activated : findOrder (countedStart n head rest s) o = (findOrder s o).map fun r =>
      if head.orderIds.contains r.id && r.state == .queued then { r with state := .active } else r := by
    rw [findOrder, countedStart_sched]
    exact find_map_orders (fun q => by split <;> rfl) _ _
  have ahead : namedAhead (countedStart n head rest s) o = !(head :: rest).all fun q => !q.names o := by
    have own : ∀ m k, ({ head with markState := m, produced := k } : Setup).names o = head.names o := fun m k => rfl
    rw [namedAhead, countedStart_sched]
    simp only [startedSched, Option.toList_some, List.cons_append, List.nil_append, List.any_cons, List.all_cons, own, Bool.not_and,
      Bool.not_not, List.not_all_eq_any_not]
  rw [same, found, activated, ahead, Option.map_map]
  cases present : findOrder s o with
  | none => rfl
  | some r =>
    obtain rfl := findOrder_id present
    simp only [Option.map_some, Function.comp_apply, OrderRec.leave, Bool.and_eq_true, List.contains_iff_mem,
      beq_iff_eq]
    by_cases activates : r.id ∈ head.orderIds ∧ r.state = .queued
    · have named : head.names r.id = true := names_of_mem activates.1
      simp [activates, named]
    · by_cases former : r.id ∈ formerOrders s
      · simp only [activates, former, if_true, if_false, true_and, Bool.not_eq_eq_eq_not, Bool.not_false]
        split <;> rfl
      · simp [activates, former]

theorem startSetup_line : (startSetup n head rest s).line = { s.line with rethread := false } := by
  rw [startSetup_eq]
  simp only [stationsTakeQueue, loadAttempts_frame, replanAll_frame, feedOrders_frame]
  exact (countedStart_fields n head rest s).2.1

theorem startSetup_overrun : (startSetup n head rest s).accounts.overrun =
    if endsDeferral n s then min (2 ^ 48 - 1) (s.accounts.overrun + n) else s.accounts.overrun := by
  rw [startSetup_eq]
  simp only [stationsTakeQueue, loadAttempts_frame, replanAll_frame, feedOrders_frame]
  exact (countedStart_fields n head rest s).2.2.2.2

/-- The state of a start when the stations take up the queue. -/
def plannedStart : State := replanAll (feedOrders (formerOrders s) (countedStart n head rest s))

theorem plannedStart_fields : (plannedStart n head rest s).web = mapWithRunChange head.id (startOvershoot n s) head.waste s ∧
    (plannedStart n head rest s).stations = s.stations ∧ (plannedStart n head rest s).cfg = s.cfg := by
  obtain ⟨web, _, stations, cfg, _⟩ := countedStart_fields n head rest s
  simp only [plannedStart, replanAll_frame, feedOrders_frame]
  exact ⟨web, stations, cfg⟩

/-- A start enters its mark; the stations that load a setup too late lengthen marks, and nothing else of the map changes (R75, R79). -/
theorem startSetup_bare :
    (startSetup n head rest s).web.bare = (mapWithRunChange head.id (startOvershoot n s) head.waste s).bare := by
  obtain ⟨web, _, _⟩ := plannedStart_fields n head rest s
  rw [startSetup_eq, ← web]
  exact loadAttempts_bare .a _

theorem startSetup_web (ahead : ∀ x, (s.stations.get x).state = .free →
    ∀ m ∈ (mapWithRunChange head.id (startOvershoot n s) head.waste s).marks, m.isReject = true ∨ m.pos < stationPosition s x) :
    (startSetup n head rest s).web = mapWithRunChange head.id (startOvershoot n s) head.waste s := by
  obtain ⟨web, stations, cfg⟩ := plannedStart_fields n head rest s
  have position : ∀ x, stationPosition (plannedStart n head rest s) x = stationPosition s x := fun x => by
    cases x <;> simp only [stationPosition, cfg]
  have clear : Ahead (plannedStart n head rest s) := fun x => by
    rw [web, stations, position]
    exact ahead x
  rw [startSetup_eq]
  exact (loadAttempts_ahead clear .a).trans web

/-- What a start does (R26, R37, R38, R158). -/
theorem startSetup_starts : StartsFrom n head rest s (startSetup n head rest s) := by
  obtain ⟨orders, sched⟩ := startSetup_sched n head rest s
  unfold StartsFrom
  intro deferred overshoot former
  refine ⟨?_, ?_, ?_, ?_, ?_, startSetup_orders n head rest s, ⟨startSetup_bare n head rest s, startSetup_web n head rest s⟩,
    startSetup_line n head rest s, startSetup_overrun n head rest s⟩ <;> rw [sched] <;> rfl

/-- The start is told in its notice (R37). -/
theorem startSetup_notice : (startedNotice head (s.sched.current.map Setup.id) (startOvershoot n s) s).notices.queue <+:
    (startSetup n head rest s).notices.queue := by
  have told : (started n head rest s).notices =
      (startedNotice head (s.sched.current.map Setup.id) (startOvershoot n s) s).notices := by
    simp [started, startedNotice, notice]
  have counted : (if endsDeferral n s then countOverrun n (started n head rest s) else started n head rest s).notices =
      (started n head rest s).notices := by
    split
    · simp only [countOverrun_frame]
    · rfl
  have event : (started n head rest s).notices.queue <+: (countedStart n head rest s).notices.queue := by
    rw [← counted]
    exact handOff_keepsNotices _ _
  rw [← told, startSetup_eq]
  simp only [stationsTakeQueue, loadAttempts_frame]
  exact (event.trans (feedOrders_keepsNotices (formerOrders s) (countedStart n head rest s))).trans
    (replanAll_keepsNotices (feedOrders (formerOrders s) (countedStart n head rest s)))

end

end Sys2Proof.Machine
end

