-- ==== Sys2Proof/Proofs/QuietTravel.lean ====
section
/-! PROOFS. A report of travel that meets nothing but the schedule: an empty map, no setup ON_LINE, quiet stands, and lanes that count or
cut for no order. -/

namespace Sys2Proof.Machine
open Sys2Proof

/-- The schedule, the map, the line, the configuration, the stations and the overrun are as they were. -/
def Spares (s t : State) : Prop :=
  t.sched = s.sched ∧ t.web = s.web ∧ t.line = s.line ∧ t.cfg = s.cfg ∧ t.stations = s.stations ∧
    t.accounts.overrun = s.accounts.overrun

theorem Spares.refl (s : State) : Spares s s := ⟨rfl, rfl, rfl, rfl, rfl, rfl⟩

theorem Spares.trans {s t u : State} (h : Spares s t) (h' : Spares t u) : Spares s u := by
  obtain ⟨sched, web, line, cfg, stations, overrun⟩ := h
  obtain ⟨sched', web', line', cfg', stations', overrun'⟩ := h'
  exact ⟨sched'.trans sched, web'.trans web, line'.trans line, cfg'.trans cfg, stations'.trans stations, overrun'.trans overrun⟩

/-- No cut of an order is under way to a stacker. -/
def NoOrders (s : State) : Prop := ∀ lane, ∀ b ∈ (s.delivery.get lane).queue, b.order = none

/-! ## The lanes -/

/-- The lane stands still or counts on, or it cuts for no order. -/
def LaneRec.Quiet (n : Nat) (r : LaneRec) : Prop := Counts n r ∨ r.active = none

theorem joinQueue_orders {c : CutRec} {q : List Batch} (own : c.order = none) (all : ∀ b ∈ q, b.order = none) :
    ∀ b ∈ joinQueue c q, b.order = none := by
  induction q with
  | nil =>
    intro b mem
    rw [List.mem_singleton.mp mem]
    exact own
  | cons b q ih =>
    have first : b.order = none := all b List.mem_cons_self
    cases q with
    | nil =>
      simp only [joinQueue]
      split
      · simpa using first
      · simpa [own] using first
    | cons b' q =>
      intro x mem
      rcases List.mem_cons.mp mem with rfl | later
      · exact first
      · exact ih (fun y mem => all y (List.mem_cons_of_mem _ mem)) x later

section
variable {s : State} {lane : Lane}

/-- A cut for no order changes the class accounts of its lane and its queue alone (R97). -/
theorem handCut_spares (cls : SheetClass) (length axis : Nat) (uncovered : Bool) :
    Spares s (handCut lane cls none length uncovered axis s) := by
  have order : cutOrder s cls none = none := by simp [cutOrder]
  refine ⟨?_, by simp, by simp, by simp, by simp, ?_⟩
  · rw [handCut_eq]
    simp [order, tallyCut, carryCut]
  · rw [handCut_accounts]

theorem handCut_noOrders (h : NoOrders s) (cls : SheetClass) (length axis : Nat) (uncovered : Bool) :
    NoOrders (handCut lane cls none length uncovered axis s) := by
  have order : (cutRecord cls none length axis s).order = none := by simp [cutRecord, cutOrder]
  intro x
  rw [handCut_delivery]
  by_cases same : x = lane
  · subst same
    rw [PerLane.get_set_self]
    exact joinQueue_orders order (h x)
  · rw [PerLane.get_set_ne _ _ _ _ same]
    exact h x

theorem stretch_spares {report : List Crossing} {axis n : Nat} (pos : 0 < n) (h : NoOrders s)
    (quiet : (s.lanes.get lane).Quiet n) :
    Spares s (stretch lane report axis 1 n s) ∧ NoOrders (stretch lane report axis 1 n s) := by
  have frame : (stretch lane report axis 1 n s).web = s.web ∧ (stretch lane report axis 1 n s).line = s.line ∧
      (stretch lane report axis 1 n s).stations = s.stations := by simp
  obtain ⟨web, line, stations⟩ := frame
  have taken : ∀ r u, Spares s u → NoOrders u →
      Spares s (takeShadow lane (setLane lane r u)) ∧ NoOrders (takeShadow lane (setLane lane r u)) := fun r u spares h' =>
    ⟨spares.trans ⟨by simp, by simp, by simp, by simp, by simp, by simp⟩, fun x => by simpa using h' x⟩
  rcases quiet with counts | idle
  · obtain ⟨sched, accounts, delivery, cfg⟩ := stretch_counts (report := report) (axis := axis) pos counts
    refine ⟨⟨sched, web, line, cfg, stations, by rw [accounts]⟩, fun x => ?_⟩
    rw [delivery]
    exact h x
  · simp only [stretch, idle, Option.map_none]
    split
    · exact ⟨.refl s, h⟩
    · split
      · exact ⟨⟨by simp, by simp, by simp, by simp, by simp, by simp⟩, fun x => by simpa using h x⟩
      · exact taken _ _ (handCut_spares _ _ _ _) (handCut_noOrders h _ _ _ _)

end

/-! ## The stackers -/

section
variable {s : State} {lane : Lane}

theorem setDelivery_noOrders {d : DeliveryRec} (h : NoOrders s) (own : ∀ b ∈ d.queue, b.order = none) :
    NoOrders (setDelivery lane d s) := by
  intro x
  by_cases same : x = lane
  · subst same
    simpa using own
  · simpa [PerLane.get_set_ne _ _ _ _ same] using h x

theorem setGate_noOrders (g : Disposition) (h : NoOrders s) : NoOrders (setGate lane g s) := by
  simp only [setGate]
  split
  · exact h
  · have set := setDelivery_noOrders (lane := lane) (d := { s.delivery.get lane with divert := g }) h (h lane)
    exact fun x => by simpa using set x

/-- A delivered cut of no order moves the gate and the queue alone (R111). -/
theorem deliverFront_spares {b : Batch} {rest : List Batch} (h : NoOrders s) (front : (s.delivery.get lane).queue = b :: rest) :
    Spares s (deliverFront lane b rest s) ∧ NoOrders (deliverFront lane b rest s) := by
  have none : b.order = .none := h lane b (front ▸ List.mem_cons_self)
  have cut : deliverCut lane b s = setGate lane .divert s := deliverCut_of_reject (.inr none)
  have gate : Spares s (setGate lane .divert s) := ⟨by simp, by simp, by simp, by simp, by simp, by simp⟩
  have gated := setGate_noOrders (lane := lane) .divert h
  have queue : ((setGate lane .divert s).delivery.get lane).queue = b :: rest := by
    rw [← cut, deliverCut_queue, front]
  have later : ∀ b ∈ rest, b.order = .none := fun x mem => h lane x (front ▸ List.mem_cons_of_mem _ mem)
  have settled : ∀ d, Spares s (setDelivery lane d (setGate lane .divert s)) := fun d =>
    gate.trans ⟨by simp, by simp, by simp, by simp, by simp, by simp⟩
  rcases Nat.lt_or_ge (b.delivered + 1) b.cuts with more | last
  · rw [deliverFront_of_more more, cut]
    refine ⟨settled _, setDelivery_noOrders gated fun x mem => ?_⟩
    rcases List.mem_cons.mp mem with rfl | mem
    · exact none
    · exact later x mem
  · have closes : ∀ u, closureTests (Option.toList (.none : Option Nat)) u = u := fun u => rfl
    rw [deliverFront_of_last last, cut, none, closes]
    exact ⟨settled _, setDelivery_noOrders gated later⟩

theorem deliverLane_spares (h : NoOrders s) : Spares s (deliverLane lane s) ∧ NoOrders (deliverLane lane s) := by
  suffices held : ∀ k (s : State), NoOrders s → Spares s (deliverReached lane k s) ∧ NoOrders (deliverReached lane k s) from
    held _ s h
  intro k
  induction k with
  | zero => exact fun s h => ⟨.refl s, h⟩
  | succ k ih =>
    intro s h
    simp only [deliverReached]
    split
    · rename_i b rest front
      split
      · obtain ⟨spares, h'⟩ := deliverFront_spares h front
        obtain ⟨spares', h''⟩ := ih _ h'
        exact ⟨spares.trans spares', h''⟩
      · exact ⟨.refl s, h⟩
    · exact ⟨.refl s, h⟩

end

/-! ## The advance -/

/-- An advance of `n` that meets nothing but the schedule. -/
structure QuietFor (n : Nat) (s : State) : Prop where
  marks : s.web.marks = []
  defect : s.web.sensorDefect = none
  online : s.sched.online = []
  late : ∀ x, (s.stations.get x).late = none
  stands : ∀ i, ((s.stands.get i).advance n).Quiet
  lanes : ∀ lane, (s.lanes.get lane).Quiet n
  orders : NoOrders s

section
variable {n : Nat} {s : State}

theorem travelled_web_of_quiet (quiet : QuietFor n s) : (travelled n s).web = s.web := by
  have marks : s.web.marks.map (Mark.advance n (defectGrowth s.web.sensorDefect n)) = s.web.marks := by
    rw [quiet.marks]
    rfl
  have defect : (s.web.sensorDefect.map fun len => len + defectGrowth s.web.sensorDefect n) = s.web.sensorDefect := by
    rw [quiet.defect]
    rfl
  rw [travelled_web, marks, defect]

theorem removeMarks_of_none {u : State} (none : u.web.marks = []) : removeMarks u = u := by
  have gone : u.web.marks.filter (leaves u.cfg.pk) = [] := by
    rw [none]
    rfl
  have left : (u.web.marks.filter fun m => !leaves u.cfg.pk m) = u.web.marks := by
    rw [none]
    rfl
  rw [removeMarks, gone, left]
  rfl

/-- Nothing on the board and no station late: the advance reaches the knives as it travelled. -/
theorem atKnives_of_quiet (quiet : QuietFor n s) : atKnives n s = travelled n s := by
  have web := travelled_web_of_quiet quiet
  have marks : (travelled n s).web.marks = [] := by rw [web, quiet.marks]
  have defect : (travelled n s).web.sensorDefect = none := by rw [web, quiet.defect]
  have late : ∀ x, ((travelled n s).stations.get x).late = none := fun x => by simpa [travelled] using quiet.late x
  have none : ∀ x, arrivals (travelled n s) x n = [] := fun x => by simp [arrivals, marks]
  simp only [atKnives, none, List.map_nil, removeMarks_of_none marks, defectLimitTest_of_none defect, lateAdvance_of_none (late _)]
  rfl

theorem afterKnives_of_quiet (pos : 0 < n) (quiet : QuietFor n s) :
    Spares (travelled n s) (afterKnives n s) ∧ NoOrders (afterKnives n s) := by
  have marks : (travelled n s).web.marks = [] := by rw [travelled_web_of_quiet quiet, quiet.marks]
  have none : arrivals (travelled n s) (travelled n s).cfg.pk n = [] := by simp [arrivals, marks]
  have lanes : (travelled n s).lanes = s.lanes := by simp [travelled]
  have orders : NoOrders (travelled n s) := fun x => by simpa [travelled] using quiet.orders x
  have after : afterKnives n s = stretch .l (crossingReport (travelled n s) n) s.enc.axis 1 n
      (stretch .u (crossingReport (travelled n s) n) s.enc.axis 1 n (travelled n s)) := by
    simp only [afterKnives, none, atKnives_of_quiet quiet]
    rfl
  obtain ⟨upper, orders'⟩ := stretch_spares (lane := .u) (report := crossingReport (travelled n s) n) (axis := s.enc.axis) pos orders
    (by rw [lanes]; exact quiet.lanes .u)
  have other := (stretch_other (lane := .u) (other := .l) (axis := s.enc.axis) (report := crossingReport (travelled n s) n) (a := 1)
    (b := n) (s := travelled n s) (by decide)).1
  obtain ⟨lower, orders''⟩ := stretch_spares (lane := .l) (report := crossingReport (travelled n s) n) (axis := s.enc.axis) pos orders'
    (by rw [other, lanes]; exact quiet.lanes .l)
  rw [after]
  exact ⟨upper.trans lower, orders''⟩

theorem beforeStart_of_quiet (pos : 0 < n) (quiet : QuietFor n s) : Spares (travelled n s) (beforeStart n s) := by
  obtain ⟨knives, orders⟩ := afterKnives_of_quiet pos quiet
  have online : (afterKnives n s).sched.online.length = 0 := by
    obtain ⟨sched, _⟩ := knives
    rw [sched]
    simp [travelled, advanceProduced, quiet.online]
  obtain ⟨upper, orders'⟩ := deliverLane_spares (lane := .u) orders
  rw [beforeStart, retireAll_of_none online]
  exact (knives.trans upper).trans (deliverLane_spares orders').1

theorem beforeStandTests_eq (n : Nat) (s : State) : beforeStandTests n s = restartMark (startAttempt n (beforeStart n s)) := rfl

/-- After the start attempt such an advance, and the close of its event, leave the schedule, the map, the line and the accounts alone. -/
theorem settle_boardAdvance_of_quiet (quiet : QuietFor n s) :
    (settle (boardAdvance n s)).sched = (beforeStandTests n s).sched ∧ (settle (boardAdvance n s)).web = (beforeStandTests n s).web ∧
      (settle (boardAdvance n s)).line = (beforeStandTests n s).line ∧
      (settle (boardAdvance n s)).accounts = (beforeStandTests n s).accounts := by
  obtain ⟨web, sched, line, accounts⟩ :=
    allStandTests_of_quiet (s := beforeStandTests n s) fun i => (beforeStandTests_steady n s i).quiet (quiet.stands i)
  simp only [settle_frame, boardAdvance_tests, evaluate_frame]
  exact ⟨sched, web, line, accounts⟩

end

end Sys2Proof.Machine
end

