-- ==== Sys2Proof/Proofs/QuietStarts.lean ====
section
/-! PROOFS. Starts and deferrals in a quiet report of travel (R36, R37, R38, R40, R158). -/

namespace Sys2Proof.Machine
open Sys2Proof

/-! ## The restart mark (R158) -/

theorem restartMark_places {s : State} {c : Setup} (current : s.sched.current = some c) (run : s.line.condition = .run)
    (pending : c.markState = some .pending) (room : s.web.marks.length < 120) :
    restartMark s = { s with
      sched := { s.sched with current := some { c with markState := some .onBoard, produced := 0 } }
      web := mapWithRunChange c.id 0 c.waste s, line := { s.line with rethread := false }, evalDue := true } := by
  have free : Config.poolReserve < freeRecords s := by
    rw [← Nat.not_le, freeRecords_le_iff]
    omega
  simp only [restartMark, current]
  exact if_pos ⟨run, pending, free⟩

theorem restartMark_waits {s : State} (h : (∀ c, s.sched.current = some c → c.markState ≠ some .pending) ∨
    s.line.condition ≠ .run ∨ 120 ≤ s.web.marks.length) : restartMark s = s := by
  rcases h with other | blocked
  · exact restartMark_of_not_pending other
  · simp only [restartMark]
    split
    · refine if_neg fun ⟨run, _, free⟩ => ?_
      rw [← Nat.not_le, freeRecords_le_iff] at free
      exact blocked.elim (fun stopped => stopped run) free
    · rfl

/-! ## What a start reads and leaves -/

/-- A start reads the schedule, the map, the line, the configuration, the stations and the overrun alone. -/
theorem StartsFrom.congr {n : Nat} {head : Setup} {rest : List Setup} {s u t v : State} (h : StartsFrom n head rest s t)
    (from' : Spares u s) (same : v.sched = t.sched ∧ v.web = t.web ∧ v.line = t.line ∧ v.accounts = t.accounts) :
    StartsFrom n head rest u v := by
  obtain ⟨sched, web, line, cfg, stations, overrun⟩ := from'
  obtain ⟨sched', web', line', accounts'⟩ := same
  have find : ∀ o, findOrder v o = findOrder t o := findOrder_congr (by rw [sched'])
  have find' : ∀ o, findOrder s o = findOrder u o := findOrder_congr (by rw [sched])
  have position : ∀ x, stationPosition s x = stationPosition u x := fun x => by cases x <;> simp only [stationPosition, cfg]
  unfold StartsFrom mapWithRunChange at h ⊢
  simp only [sched, web, line, cfg, stations, overrun, find', position] at h
  simpa only [sched', web', line', accounts', find] using h

/-- The same schedule, map, line and accounts. -/
def SameStart (u t : State) : Prop := t.sched = u.sched ∧ t.web = u.web ∧ t.line = u.line ∧ t.accounts = u.accounts

/-- A quiet report of travel is its start attempt and its restart mark, from the schedule that has travelled. -/
theorem exec_of_quiet {k : Nat} {s : State} (pos : 0 < k) (le : k ≤ 1000) (quiet : QuietFor k (reported s)) :
    ∃ b t, exec (.encoderReport s.enc.selected k) s = .next t ∧ Spares { s with sched := (travelled k (reported s)).sched } b ∧
      SameStart (restartMark (startAttempt k b)) t := by
  refine ⟨beforeStart k (reported s), _, exec_selected pos le s, ?_, ?_⟩
  · have line : (reported s).line = s.line := by
      simp only [reported]
      split <;> rfl
    have stations : (reported s).stations = s.stations := by
      simp only [reported]
      split <;> rfl
    obtain ⟨cfg, web, _, _, _, accounts, _⟩ := reported_frame s
    have moved : Spares { s with sched := (travelled k (reported s)).sched } (travelled k (reported s)) := by
      refine ⟨rfl, ?_, ?_, ?_, ?_, ?_⟩
      · exact (travelled_web_of_quiet quiet).trans web
      · simpa [travelled] using line
      · simpa [travelled] using cfg
      · simpa [travelled] using stations
      · simp [travelled, advanceStands, accounts]
    exact moved.trans (beforeStart_of_quiet pos quiet)
  · rw [SameStart, ← beforeStandTests_eq]
    exact settle_boardAdvance_of_quiet quiet

/-- A deferral changes the episode and the overrun alone of what a start reads (R38). -/
theorem deferStart_leaves (n : Nat) (d : Deferral) (s : State) :
    (deferStart n d s).sched = { s.sched with episode := some d } ∧ (deferStart n d s).web = s.web ∧
      (deferStart n d s).accounts.overrun = (deferred n d s).accounts.overrun := by
  by_cases old : s.sched.episode = some d
  · rw [deferStart_of_old old]
    exact ⟨rfl, rfl, rfl⟩
  · rw [deferStart_of_fresh old]
    have counted : ∀ u : State, (countEvent .deferrals (deferralNotice d u)).sched = u.sched ∧
        (countEvent .deferrals (deferralNotice d u)).web = u.web ∧
        (countEvent .deferrals (deferralNotice d u)).accounts = u.accounts := fun u => by simp
    obtain ⟨sched, web, accounts⟩ := counted (deferred n d s)
    exact ⟨sched, web, by rw [accounts]⟩

/-- With no former setup the orders of a start become ACTIVE, and no order is FED (R26). -/
theorem startSetup_orders_of_none {n : Nat} {head : Setup} {rest : List Setup} {s : State} (none : s.sched.current = .none) :
    (startSetup n head rest s).sched.orders = s.sched.orders.map fun r =>
      if r.id ∈ head.orderIds ∧ r.state = .queued then { r with state := .active } else r := by
  have former : formerOrders s = [] := by simp [formerOrders, none]
  have fed : feedOrders [] (countedStart n head rest s) = countedStart n head rest s := rfl
  rw [startSetup_eq, former, fed]
  simp only [stationsTakeQueue, loadAttempts_frame, replanAll_frame, countedStart_sched, Bool.and_eq_true, List.contains_iff_mem,
    beq_iff_eq]

section
variable {k : Nat} {s b : State} {c : Setup}

/-- A setup that waits for its restart mark does not grow (R158). -/
theorem travelled_sched_of_still (still : ∀ c, s.sched.current = some c → ¬c.InRun) : (travelled k s).sched = s.sched := by
  have grown : (travelled k s).sched = { s.sched with current := s.sched.current.map fun t =>
      if t.InRun then { t with produced := fit48 (t.produced + k) } else t } := rfl
  have same : (s.sched.current.map fun t => if t.InRun then { t with produced := fit48 (t.produced + k) } else t) =
      s.sched.current := by
    cases current : s.sched.current with
    | none => rfl
    | some c => simp only [Option.map_some, if_neg (still c current)]
  rw [grown, same]

theorem not_startDue_of_pending (current : b.sched.current = some c) (pending : c.markState = some .pending) : ¬StartDue b := by
  rintro (⟨c', current', runs, _⟩ | ⟨none, _⟩)
  · cases current.symm.trans current'
    rcases runs with on | past
    · cases pending.symm.trans on
    · cases pending.symm.trans past
  · cases none.symm.trans current

theorem not_startDue_of_short (current : b.sched.current = some c) (short : c.produced < c.planned) : ¬StartDue b := by
  rintro (⟨c', current', _, reached⟩ | ⟨none, _⟩)
  · cases current.symm.trans current'
    omega
  · cases none.symm.trans current

/-- A setup that runs takes no restart mark. -/
theorem restartMark_of_run {u : State} (current : u.sched.current = some c) (runs : c.InRun) : restartMark u = u := by
  refine restartMark_of_not_pending fun c' current' pending => ?_
  cases current.symm.trans current'
  rcases runs with on | past
  · cases pending.symm.trans on
  · cases pending.symm.trans past

theorem startSetup_restarted (n : Nat) (head : Setup) (rest : List Setup) (u : State) :
    restartMark (startSetup n head rest u) = startSetup n head rest u := by
  obtain ⟨orders, sched⟩ := startSetup_sched n head rest u
  exact restartMark_of_run (c := { head with markState := some .onBoard, produced := startOvershoot n u }) (by rw [sched]; rfl)
    (.inl rfl)

theorem deferStart_restarted (n : Nat) (d : Deferral) {u : State} (current : u.sched.current = some c) (runs : c.InRun) :
    restartMark (deferStart n d u) = deferStart n d u := by
  obtain ⟨sched, _, _⟩ := deferStart_leaves n d u
  exact restartMark_of_run (c := c) (by rw [sched]; exact current) runs

end

end Sys2Proof.Machine
end

