-- ==== Sys2Proof/Proofs/StartsOrDeferrals.lean ====
section
/-! PROOFS. What SETUPS_START_OR_ARE_DEFERRED asks: the attempt case by case, and the quiet report of travel (R36 to R38, R40, R158). -/

namespace Sys2Proof.Machine
open Sys2Proof

section
variable {k : Nat} {s : State}

/-- What is quiet stays so when the silence watch restarts. -/
theorem quietFor_reported (quiet : QuietFor k s) : QuietFor k (reported s) := by
  obtain ⟨_, web, sched, lanes, delivery, _⟩ := reported_frame s
  have kept : (reported s).stands = s.stands ∧ (reported s).stations = s.stations := by
    simp only [reported]
    split <;> exact ⟨rfl, rfl⟩
  obtain ⟨stands, stations⟩ := kept
  exact {
    marks := by rw [web]; exact quiet.marks
    defect := by rw [web]; exact quiet.defect
    online := by rw [sched]; exact quiet.online
    late := by rw [stations]; exact quiet.late
    stands := by rw [stands]; exact quiet.stands
    lanes := by rw [lanes]; exact quiet.lanes
    orders := by rw [NoOrders, delivery]; exact quiet.orders }

theorem quietFor_of_report (quiet : QuietReport k s) : QuietFor k (reported s) := by
  obtain ⟨marks, defect, online, late, still, lane, orders⟩ := quiet
  exact quietFor_reported ⟨marks, defect, online, late, fun i => Stand.quiet_advance (still i).1 (still i).2,
    fun x => .inl (lane x), orders⟩

/-- The CURRENT setup waits for its restart mark: it takes it in RUN, and else nothing changes (R158). -/
theorem quietReport_pending {c : Setup} (pos : 0 < k) (le : k ≤ 1000) (quiet : QuietReport k s) (current : s.sched.current = some c)
    (pending : c.markState = some .pending) : ∃ t, exec (.encoderReport s.enc.selected k) s = .next t ∧
      (s.line.condition = .run → t.sched = { s.sched with current := some { c with markState := some .onBoard, produced := 0 } } ∧
        t.web = mapWithRunChange c.id 0 c.waste s ∧ t.line = { s.line with rethread := false }) ∧
      (s.line.condition ≠ .run → t.sched = s.sched ∧ t.web = s.web ∧ t.line = s.line) := by
  have marks : s.web.marks = [] := quiet.1
  obtain ⟨b, t, executes, from', same⟩ := exec_of_quiet pos le (quietFor_of_report quiet)
  obtain ⟨_, _, sched, _⟩ := reported_frame s
  have still : (travelled k (reported s)).sched = s.sched := by
    refine (travelled_sched_of_still fun c' current' runs => ?_).trans sched
    rw [sched] at current'
    cases current.symm.trans current'
    rcases runs with on | past
    · cases pending.symm.trans on
    · cases pending.symm.trans past
  obtain ⟨sched, web, line, cfg, _⟩ := from'
  simp only [still] at sched
  simp only at web line cfg
  have waits : startAttempt k b = b := startAttempt_of_not_due (not_startDue_of_pending (by rw [sched]; exact current) pending)
  rw [SameStart, waits] at same
  obtain ⟨sched', web', line', _⟩ := same
  refine ⟨t, executes, fun run => ?_, fun stopped => ?_⟩
  · have placed := restartMark_places (s := b) (by rw [sched]; exact current) (by rw [line]; exact run) pending
      (by rw [web, marks]; decide)
    rw [placed] at sched' web' line'
    refine ⟨sched'.trans (by rw [sched]), web'.trans ?_, line'.trans (by rw [line])⟩
    simp only [mapWithRunChange, web, line, cfg]
  · rw [restartMark_waits (.inr (.inl (by rw [line]; exact stopped)))] at sched' web' line'
    exact ⟨sched'.trans sched, web'.trans web, line'.trans line⟩

/-- A CURRENT setup that runs: the advance reaches its start attempt with the grown setup. -/
theorem quietReport_runs {c : Setup} (pos : 0 < k) (le : k ≤ 1000) (quiet : QuietReport k s) (current : s.sched.current = some c)
    (runs : c.InRun) : ∃ b t, exec (.encoderReport s.enc.selected k) s = .next t ∧
      Spares { s with sched := { s.sched with current := some { c with produced := fit48 (c.produced + k) } } } b ∧
      SameStart (restartMark (startAttempt k b)) t := by
  obtain ⟨b, t, executes, from', same⟩ := exec_of_quiet pos le (quietFor_of_report quiet)
  obtain ⟨_, _, sched, _⟩ := reported_frame s
  rw [travelled_current (n := k) (s := reported s) (by rw [sched]; exact current) runs, sched] at from'
  exact ⟨b, t, executes, from', same⟩

/-- A deferral of a quiet report: the setup runs on, with its episode and its overrun (R38). -/
theorem quiet_defers {b t : State} {d : Deferral} {g : Setup}
    (from' : Spares { s with sched := { s.sched with current := some g } } b) (runs : g.InRun)
    (attempt : startAttempt k b = deferStart k d b) (same : SameStart (restartMark (startAttempt k b)) t) :
    (t.sched = { s.sched with current := some g, episode := some d } ∧ t.web = s.web) ∧
      t.accounts.overrun = min (2 ^ 48 - 1) (s.accounts.overrun + if g.produced - k < g.planned then g.produced - g.planned else k) := by
  obtain ⟨sched, web, _, _, _, overrun⟩ := from'
  simp only at sched web overrun
  have current : b.sched.current = some g := by rw [sched]
  rw [attempt, deferStart_restarted k d current runs] at same
  obtain ⟨sched', web', _, accounts'⟩ := same
  obtain ⟨episode, map, run⟩ := deferStart_leaves k d b
  refine ⟨⟨?_, web'.trans (map.trans web)⟩, ?_⟩
  · rw [sched', episode, sched]
  · rw [accounts', run]
    simp only [deferred, current, overrun, Option.map_some, Option.getD_some]

/-- Without an attempt the setup runs on (R36). -/
theorem quiet_runsOn {b t : State} {g : Setup} (from' : Spares { s with sched := { s.sched with current := some g } } b)
    (runs : g.InRun) (short : g.produced < g.planned) (same : SameStart (restartMark (startAttempt k b)) t) :
    (t.sched = { s.sched with current := some g } ∧ t.web = s.web) ∧ t.accounts.overrun = s.accounts.overrun := by
  obtain ⟨sched, web, _, _, _, overrun⟩ := from'
  have current : b.sched.current = some g := by rw [sched]
  rw [startAttempt_of_not_due (not_startDue_of_short current short), restartMark_of_run current runs] at same
  obtain ⟨sched', web', _, accounts'⟩ := same
  exact ⟨⟨sched'.trans sched, web'.trans web⟩, by rw [accounts', overrun]⟩

/-- The head of the FIFO starts from the state of the attempt (R37). -/
theorem quiet_starts {b t u : State} {head : Setup} {rest : List Setup} (from' : Spares u b) (due : StartDue b)
    (queued : b.sched.queued = head :: rest) (released : head.held = false) (marks : b.web.marks = [])
    (same : SameStart (restartMark (startAttempt k b)) t) : StartsFrom k head rest u t := by
  rw [startAttempt_of_head due queued released (by rw [marks]; decide), startSetup_restarted] at same
  exact (startSetup_starts k head rest b).congr from' same

end

/-- The deferral as R38 tells it: its notice and event when the episode is new. -/
theorem deferStart_eq (n : Nat) (d : Deferral) (s : State) : deferStart n d s =
    if s.sched.episode ≠ some d then countEvent .deferrals (deferralNotice d (deferred n d s)) else deferred n d s := by
  by_cases old : s.sched.episode = some d
  · rw [deferStart_of_old old, if_neg (not_not_intro old)]
  · rw [deferStart_of_fresh old, if_pos old]

theorem startOvershoot_eq (n : Nat) (s : State) : startOvershoot n s =
    (s.sched.current.map fun c => if c.planned ≤ c.produced - n then 0 else c.produced - c.planned).getD 0 := by
  cases former : s.sched.current <;> simp [startOvershoot, endsDeferral, former]

/-- The attempt case by case (R36, R37, R38). -/
theorem startAttempt_told (n : Nat) {s : State} {d : Deferral} {kind : Byte} {data : List Byte}
    (attempt : startAttempt n s = deferStart n d s) (noticed : deferralNotice d (deferred n d s) = notice kind data (deferred n d s)) :
    startAttempt n s = if s.sched.episode ≠ some d then countEvent .deferrals (notice kind data (deferred n d s)) else deferred n d s := by
  rw [attempt, deferStart_eq, noticed]

/-- Settles O23: the attempt case by case, the restart mark, and a quiet report of travel, which is its start attempt. -/
theorem setupsStartOrAreDeferred : Obligations.SetupsStartOrAreDeferred := by
  refine ⟨fun n s => ?_, fun s => ⟨fun c current run pending room => restartMark_places current run pending room, restartMark_waits⟩,
    ?_, ?_⟩
  · intro due id deferred'
    have told : ∀ d kind data, startAttempt n s = deferStart n d s →
        deferralNotice d (deferred n d s) = notice kind data (deferred n d s) → deferred' d kind data := by
      intro d kind data attempt noticed
      refine (startAttempt_told n attempt noticed).trans ?_
      simp only [deferred]
      cases s.sched.current <;> rfl
    refine ⟨fun none => startAttempt_of_not_due none, fun now empty => told _ _ _ (startAttempt_of_empty now empty) rfl,
      fun head rest now queued => ⟨fun held => told _ _ _ (startAttempt_of_held now queued held) ?_,
        fun released full => told _ _ _ (startAttempt_of_starved now queued released full) rfl, fun released room => ?_⟩⟩
    · simp only [deferralNotice, deferred, queued]
      rfl
    · rw [startAttempt_of_head now queued released room]
      refine ⟨startSetup_starts n head rest s, ?_⟩
      have told := startSetup_notice n head rest s
      rw [startOvershoot_eq] at told
      exact told
  · rintro e k c s rfl pos le quiet current
    by_cases pending : c.markState = some .pending
    · obtain ⟨t, executes, placed, waits⟩ := quietReport_pending pos le quiet current pending
      refine ⟨t, executes, fun _ => placed, fun _ => waits, fun runs => ?_⟩
      rcases runs with on | past
      · cases pending.symm.trans on
      · cases pending.symm.trans past
    · by_cases runs : c.InRun
      · obtain ⟨b, t, executes, from', same⟩ := quietReport_runs pos le quiet current runs
        refine ⟨t, executes, fun is => absurd is pending, fun is => absurd is pending, fun _ => ?_⟩
        have runs' : Setup.InRun { c with produced := fit48 (c.produced + k) } := runs
        obtain ⟨sched, web, _⟩ := id from'
        have queued : b.sched.queued = s.sched.queued := by rw [sched]
        have marks : b.web.marks = [] := by rw [web]; exact quiet.1
        have due : c.planned ≤ fit48 (c.produced + k) → StartDue b := fun reached => .inl ⟨_, by rw [sched], runs', reached⟩
        refine ⟨fun short => quiet_runsOn from' runs' short same, fun reached empty => quiet_defers from' runs'
          (startAttempt_of_empty (due reached) (queued.trans empty)) same, fun head rest reached waiting => ⟨fun held =>
          quiet_defers from' runs' (startAttempt_of_held (due reached) (queued.trans waiting) held) same, fun released =>
          quiet_starts from' (due reached) (queued.trans waiting) released marks same⟩⟩
      · exact ⟨_, exec_selected pos le s, fun is => absurd is pending, fun is => absurd is pending, fun is => absurd is runs⟩
  · rintro e k head rest s rfl pos le run none online queued released marks defect stands late upper lower orders
    have quiet : QuietFor k s := by
      refine ⟨marks, defect, online, late, fun i => ?_, fun x => .inr ?_, fun x => ?_⟩
      · exact Stand.quiet_advance (stands i).2 fun r fed => absurd ((stands i).1.symm.trans fed) (by simp)
      · cases x
        · exact upper
        · exact lower
      · rcases orders x with empty | each
        · simp [empty]
        · exact each
    obtain ⟨_, _, sched, _⟩ := reported_frame s
    obtain ⟨b, t, executes, from', same⟩ := exec_of_quiet pos le (quietFor_reported quiet)
    have still : (travelled k (reported s)).sched = s.sched := by
      refine (travelled_sched_of_still fun c current => ?_).trans sched
      rw [sched, none] at current
      cases current
    rw [still] at from'
    obtain ⟨sched', web', line', _⟩ := id from'
    have queued' : b.sched.queued = head :: rest := by rw [sched', queued]
    have marks' : b.web.marks = [] := by rw [web', marks]
    have none' : b.sched.current = .none := by rw [sched', none]
    have due : StartDue b := .inr ⟨none', by rw [line', run]⟩
    refine ⟨t, executes, quiet_starts from' due queued' released marks' same, ?_⟩
    rw [startAttempt_of_head due queued' released (by rw [marks']; decide), startSetup_restarted] at same
    rw [same.1, startSetup_orders_of_none none', sched']

end Sys2Proof.Machine
end
